-- ==== Sys2Proof/Word.lean ====
section
/-!
DEFINITION. The word types of the HRE (00_scope.md R11): unsigned integers of fixed width, with `BitVec`'s
wrapping arithmetic.
-/

namespace Sys2Proof

/-- `u8`. -/
abbrev Byte := BitVec 8
/-- `u16`. -/
abbrev Half := BitVec 16
/-- `u32`: every register and every command of the register window. -/
abbrev Word := BitVec 32
/-- `u64`: physical addresses and host command words. -/
abbrev DWord := BitVec 64
/-- A buffer's identifier (R45): a key, never added or masked by the HRE. -/
abbrev BufId := Nat

end Sys2Proof
end

