-- ==== Sys2Proof/Syntax.lean ====
section
/-!
DEFINITION. The operations of the HRE: one constructor of `Instr` per row of spec/opcode_table.json
(00_scope.md R2: host commands, register transactions, descriptor formats, interrupt causes).
-/

namespace Sys2Proof

/-- A register of the register window, by the name R110 gives it. -/
inductive Reg where
  | ctrl | status | eerd | ctrlExt | mdic | fcal | fcah | fct | icr | ims | imc | rctl | fcttv
  | tctl | tipg | pba | fcrtl | fcrth | rdbal | rdbah | rdlen | rdh | rdt | rdtr | radv
  | tdbal | tdbah | tdlen | tdh | tdt | tidv | rxcsum
  | stat (k : Fin 73)
  | mta (k : Fin 128)
  | ral (n : Fin 16)
  | rah (n : Fin 16)
  deriving DecidableEq, Repr, Inhabited

/-- The two register transactions (R13): `MmioRead(R)` and `MmioWrite(R, v)`. -/
inductive Access where
  | read
  | write (v : Word)
  deriving DecidableEq, Repr, Inhabited

/-- The 16-byte receive descriptor, fields in the order of R140. -/
structure RxDesc where
  addrLo   : Word
  addrHi   : Word
  length   : Half
  checksum : Half
  status   : Byte
  errors   : Byte
  special  : Half
  deriving DecidableEq, Repr, Inhabited

/-- The five formats of the opcode table: which interface of the HRE a word belongs to. -/
inductive Format where
  | hostCmd   -- HOSTCMD64, the host command port (R160)
  | mmio      -- MMIO32, a transaction on the register window (R110)
  | rxDesc    -- RXDESC128, a receive descriptor (R140)
  | txCtrl    -- TXCTRL32, a transmit descriptor's control word (R146)
  | icr       -- ICR32, an interrupt cause word (R130)
  deriving DecidableEq, Repr, Inhabited

/-- The transmit descriptor kinds of R150. -/
inductive TxKind where
  | legacy | context | extData | reserved
  deriving DecidableEq, Repr, Inhabited

/-- One constructor per row of the opcode table. -/
inductive Instr where
  -- host commands (R161)
  | attach
  | txRequest
  | shutdown
  | setPromisc (on : Bool)
  | setMcast (member : Bool) (addr : BitVec 48)
  | setRdtr (val : BitVec 48)
  | setRadv (val : BitVec 48)
  | dump
  | bufFree (id : BitVec 32)
  /-- A reserved op code or a malformed command word, kept whole (R162, R160). -/
  | reservedOp (w : BitVec 64)
  -- register transactions (R110)
  | mmioCtrl (a : Access)
  | mmioStatus (a : Access)
  | mmioEerd (a : Access)
  | mmioCtrlExt (a : Access)
  | mmioMdic (a : Access)
  | mmioFcal (a : Access)
  | mmioFcah (a : Access)
  | mmioFct (a : Access)
  | mmioIcr (a : Access)
  | mmioIms (a : Access)
  | mmioImc (a : Access)
  | mmioRctl (a : Access)
  | mmioFcttv (a : Access)
  | mmioTctl (a : Access)
  | mmioTipg (a : Access)
  | mmioPba (a : Access)
  | mmioFcrtl (a : Access)
  | mmioFcrth (a : Access)
  | mmioRdbal (a : Access)
  | mmioRdbah (a : Access)
  | mmioRdlen (a : Access)
  | mmioRdh (a : Access)
  | mmioRdt (a : Access)
  | mmioRdtr (a : Access)
  | mmioRadv (a : Access)
  | mmioTdbal (a : Access)
  | mmioTdbah (a : Access)
  | mmioTdlen (a : Access)
  | mmioTdh (a : Access)
  | mmioTdt (a : Access)
  | mmioTidv (a : Access)
  | mmioRxcsum (a : Access)
  | mmioStat (k : Fin 73) (a : Access)
  | mmioMta (k : Fin 128) (a : Access)
  | mmioRal (n : Fin 16) (a : Access)
  | mmioRah (n : Fin 16) (a : Access)
  -- descriptors (R140, R148, R150)
  | rxdesc (d : RxDesc)
  | txdescLegacy (len : Half)
  | txdescContext (w : Word)
  | txdescExtdata (w : Word)
  | txdescReserved (w : Word)
  -- interrupt causes (R130); `w` is the whole cause word, the row's own bit among its bits
  | causeTxdw (w : Word)
  | causeTxqe (w : Word)
  | causeLsc (w : Word)
  | causeRxseq (w : Word)
  | causeRxdmt0 (w : Word)
  | causeRxo (w : Word)
  | causeRxt0 (w : Word)
  | causeAck (w : Word)
  deriving DecidableEq, Repr, Inhabited

/-- The register transaction as an operation: which row of the table a register belongs to (R110). -/
def mmioInstr : Reg → Access → Instr
  | .ctrl, a => .mmioCtrl a
  | .status, a => .mmioStatus a
  | .eerd, a => .mmioEerd a
  | .ctrlExt, a => .mmioCtrlExt a
  | .mdic, a => .mmioMdic a
  | .fcal, a => .mmioFcal a
  | .fcah, a => .mmioFcah a
  | .fct, a => .mmioFct a
  | .icr, a => .mmioIcr a
  | .ims, a => .mmioIms a
  | .imc, a => .mmioImc a
  | .rctl, a => .mmioRctl a
  | .fcttv, a => .mmioFcttv a
  | .tctl, a => .mmioTctl a
  | .tipg, a => .mmioTipg a
  | .pba, a => .mmioPba a
  | .fcrtl, a => .mmioFcrtl a
  | .fcrth, a => .mmioFcrth a
  | .rdbal, a => .mmioRdbal a
  | .rdbah, a => .mmioRdbah a
  | .rdlen, a => .mmioRdlen a
  | .rdh, a => .mmioRdh a
  | .rdt, a => .mmioRdt a
  | .rdtr, a => .mmioRdtr a
  | .radv, a => .mmioRadv a
  | .tdbal, a => .mmioTdbal a
  | .tdbah, a => .mmioTdbah a
  | .tdlen, a => .mmioTdlen a
  | .tdh, a => .mmioTdh a
  | .tdt, a => .mmioTdt a
  | .tidv, a => .mmioTidv a
  | .rxcsum, a => .mmioRxcsum a
  | .stat k, a => .mmioStat k a
  | .mta k, a => .mmioMta k a
  | .ral n, a => .mmioRal n a
  | .rah n, a => .mmioRah n a

/-- A named cause of R130. -/
inductive Cause where
  | txdw | txqe | lsc | rxseq | rxdmt0 | rxo | rxt0 | ack
  deriving DecidableEq, Repr, Inhabited

/-- The cause row of the table for a named cause and the whole cause word. -/
def causeInstr : Cause → Word → Instr
  | .txdw, w => .causeTxdw w
  | .txqe, w => .causeTxqe w
  | .lsc, w => .causeLsc w
  | .rxseq, w => .causeRxseq w
  | .rxdmt0, w => .causeRxdmt0 w
  | .rxo, w => .causeRxo w
  | .rxt0, w => .causeRxt0 w
  | .ack, w => .causeAck w

end Sys2Proof
end

