-- ==== Sys2Proof/Config.lean ====
section
/-!
DEFINITION. What the spec leaves to the implementation and to the environment: the parameters of R8 and R9 (plain
data, held in the state and never changed by a step), the environment's actions, and the free values.
-/

namespace Sys2Proof

/-! ## Parameters (00_scope.md R8, R9) -/

/-- EEPROM read register layout (R123). -/
inductive EerdLayout where
  | doneBit1Addr2 | doneBit4Addr8
  deriving DecidableEq, Repr, Inhabited

/-- `VARIANT.phy_decode` (R402, D50): the default decode with a variant's index adjustment `k`, or any other
table, named by a number and left uninterpreted (`Config.phyDecode`). -/
inductive PhyDecode where
  | standard (k : Nat)
  | table (id : Nat)
  deriving DecidableEq, Repr, Inhabited

/-- The RX minimum-threshold fraction (R127, D57). -/
inductive Rdmts where
  | half | quarter | eighth
  deriving DecidableEq, Repr, Inhabited

/-- What a word of the hardware's interfaces is, as far as its bit positions go: a register's value, a cause word (one
layout for ICR, IMS and IMC, R130), a transmit control or status word (R146, R147), or the status, errors or special field
of a receive descriptor (R141-R143). -/
inductive WordKind where
  | reg (r : Reg) | cause | txControl | txStatus | rxStatus | rxErrors | rxSpecial
  deriving DecidableEq, Repr, Inhabited

/-- Field widths are the source's and no part of the map (R140). -/
def WordKind.width : WordKind → Nat
  | .reg _ | .cause | .txControl | .txStatus => 32
  | .rxSpecial => 16
  | .rxStatus | .rxErrors => 8

/-- `RegMap`, the register offsets and bit positions of a chip (R8, R110, D3): what differs from the defaults of
30_encoding.md. `offsets` lists the registers that stand at another offset; `bits` lists the words whose bits stand
elsewhere, entry `j` being the position, in the chip's word, of the bit that the default layout has at `j`. Inside the
state every word is held by field, each field at its default position ("every rule names a field, never a number"); the
map is applied where a word crosses an interface (Decode.lean) and where an agent reads or writes a descriptor, whose bytes
in DMA memory are the chip's (Machine/Ops.lean; log 12). -/
structure RegMap where
  offsets : List (Reg × Nat)
  bits    : List (WordKind × Vector (Fin 32) 32)
  deriving DecidableEq, Repr, Inhabited

/-- The defaults of 30_encoding.md, those of the PRO/1000 family (R3). -/
def RegMap.pro1000 : RegMap := { offsets := [], bits := [] }

/-- The variant record of R9. `pbaRebalance` is `PBA_REBALANCE(VARIANT, RBSIZE)` (D41). -/
structure Variant where
  lanidAdjust  : Bool
  eerdLayout   : EerdLayout
  phyDecode    : PhyDecode
  rbsizeMax    : Nat
  pbaThreshold : Nat
  pbaRebalance : Option Word
  deriving DecidableEq, Repr, Inhabited

/-- The per-controller parameters of R8 that have no single value. -/
structure Params where
  nrd        : Nat
  ntd        : Nat
  eerstCeil  : Nat
  drainCeil  : Nat
  txMaxLen   : Nat
  rdtrInit   : Half
  radvInit   : Half
  rdmts      : Rdmts
  tctlInit   : Word
  tipgInit   : Word
  tidvInit   : Half
  fcrtlInit  : Word
  fcrthInit  : Word
  /-- The board's port number, STATUS.LAN_ID (R421, U22). -/
  lanId      : BitVec 2
  phyAddr    : BitVec 5
  phyStatusReg : BitVec 5
  variant    : Variant
  regMap     : RegMap
  deriving DecidableEq, Repr, Inhabited

/-- The parameters of the shared pool (R8: `NPOOL`, `RBSIZE`). -/
structure PoolParams where
  npool  : Nat
  rbsize : Nat
  deriving DecidableEq, Repr, Inhabited

/-! ## The NIC's register file (10_state.md R44, 30_encoding.md R110) -/

/-- Every register of the window; `hwIms` is what IMS and IMC set and clear (R436), `hwRdh`/`hwTdh` are RDH and
TDH (R433). -/
structure NicRegs where
  ctrl    : Word
  status  : Word
  eerd    : Word
  ctrlExt : Word
  mdic    : Word
  fcal    : Word
  fcah    : Word
  fct     : Word
  icr     : Word
  hwIms   : Word
  rctl    : Word
  fcttv   : Word
  tctl    : Word
  tipg    : Word
  pba     : Word
  fcrtl   : Word
  fcrth   : Word
  rdbal   : Word
  rdbah   : Word
  rdlen   : Word
  hwRdh   : Half
  rdt     : Half
  rdtr    : Word
  radv    : Word
  tdbal   : Word
  tdbah   : Word
  tdlen   : Word
  hwTdh   : Half
  tdt     : Half
  tidv    : Word
  rxcsum  : Word
  stat    : Vector Word 73
  mta     : Vector Word 128
  ral     : Vector Word 16
  rah     : Vector Word 16
  deriving DecidableEq, Repr

/-- All registers zero: the value the model gives the register file before the first device reset (log 2). -/
def NicRegs.zero : NicRegs where
  ctrl := 0
  status := 0
  eerd := 0
  ctrlExt := 0
  mdic := 0
  fcal := 0
  fcah := 0
  fct := 0
  icr := 0
  hwIms := 0
  rctl := 0
  fcttv := 0
  tctl := 0
  tipg := 0
  pba := 0
  fcrtl := 0
  fcrth := 0
  rdbal := 0
  rdbah := 0
  rdlen := 0
  hwRdh := 0
  rdt := 0
  rdtr := 0
  radv := 0
  tdbal := 0
  tdbah := 0
  tdlen := 0
  hwTdh := 0
  tdt := 0
  tidv := 0
  rxcsum := 0
  stat := Vector.replicate 73 0
  mta := Vector.replicate 128 0
  ral := Vector.replicate 16 0
  rah := Vector.replicate 16 0

/-! ## Agents, and the choices of the environment -/

/-- The agents of R4 that run lines of the HRE. -/
inductive AgentId where
  | disp | rxw | txw | lnk | lc
  | txc (k : Nat)
  deriving DecidableEq, Repr, Inhabited

/-- The self-clearing bits a script may hold at 1 (`dev stuck`, R168, R420). -/
inductive StuckBit where
  | ctrlRst | ctrlExtEeRst
  deriving DecidableEq, Repr, Inhabited

/-- An action of the `NIC` (47_device_agent.md R420). Values the spec leaves open are its arguments. -/
inductive NicAct where
  /-- A received frame with its write-back values and bytes (R424). -/
  | rx (d : RxDesc) (data : List Byte)
  /-- A transmit completion with the status bits EC, LC, TU (R428) and the reserved bits 7:4 (V5: any value). -/
  | tx (ec lc tu : Bool) (rsv : BitVec 4)
  /-- Latching cause bits (R425-R431). -/
  | latch (bits : Word)
  /-- Completion of a device reset; `img` gives every register R421 calls any value (R422). -/
  | resetDone (img : NicRegs)
  /-- Completion of an EEPROM reset (R423). -/
  | eeRstDone
  /-- Completion of an EERD request; `other` is the word read at an address past the 64 words (R434). -/
  | eerdDone (other : Half)
  /-- Completion of an MDIC request, with or without the error bit (R434). -/
  | mdicDone (err : Bool)
  /-- A statistics counter takes another value (R438, U10). -/
  | statSet (k : Fin 73) (v : Word)
  /-- A PHY register changes (R430, U11). -/
  | phySet (r : Fin 32) (v : Half)
  /-- The STATUS bits other than LAN_ID change (U12). -/
  | statusSet (v : Word)
  /-- `dev stuck` (R168). -/
  | stuck (b : StuckBit)
  deriving DecidableEq, Repr

/-- An action of the `HOST` other than reading (45_host_interface.md R383). -/
inductive HostAct where
  /-- Issue a command word at the port (R370). -/
  | issue (w : DWord)
  /-- Append a buffer to the outbound queue (R375). -/
  | enqueue (b : BufId)
  /-- Supply a transmit buffer of its own (R300). -/
  | supply (b : BufId) (base : DWord) (cap : Word)
  /-- Set the cursors of a buffer it owns (R383). -/
  | cursors (b : BufId) (rp wp lim : Word)
  /-- Write one data byte of a buffer it owns (R383). -/
  | data (b : BufId) (off : Word) (v : Byte)
  deriving DecidableEq, Repr

/-- One choice: which agent steps next (with the draw a pool pop makes, R301), or what the environment does. -/
inductive Event where
  | agent (a : AgentId) (draw : Nat)
  | nic (a : NicAct)
  | host (a : HostAct)
  /-- The next choices and operations concern the controller with this identifier (R473). -/
  | select (id : Nat)
  /-- Device discovery: a controller record is created (R500, R510). -/
  | discover (p : Params) (rdba tdba : DWord)
  deriving DecidableEq, Repr, Inhabited

/-! ## Free values (constants without a body: no proof can see what they are) -/

namespace Config

/-- FREE VALUE (U2, U3, U17, U24): the choice made where the state lists none, applied to the state's counter. -/
opaque freeEvent : Nat → Event

/-- FREE VALUE (R424, U8): byte `k` of a received frame whose bytes the environment does not list, applied to the
state's counter and `k`. -/
opaque freeByte : Nat → Nat → Byte

/-- FREE VALUE (R402, D50): the PHY decode of a variant whose table is not the default one. -/
opaque phyDecode : Nat → Half → Bool × Fin 4

end Config
end Sys2Proof
end

