-- ==== Sys2Proof/Machine/Operands.lean ====
section
/-!
DEFINITION. Operand forms: every field the HRE extracts from or assembles into a register, a descriptor or a command
(30_encoding.md R120-R165), ring arithmetic (R12), byte order (R84), and the fixed constants of R8. The bit positions
are the defaults of `RegMap` (D3), which the spec takes from the PRO/1000 family.
-/

namespace Sys2Proof.Machine

/-! ## Constants of R8 whose value the spec fixes -/

def replenishDeficit : Nat := 32
def resetCeil : Nat := 1000
def hsCeil : Nat := 64
def eeWords : Nat := 64
def eeMagic : Half := 0xBABA#16
def nra : Nat := 16
def nmta : Nat := 128
def nstats : Nat := 73

/-! ## Byte order (R84: little-endian) -/

/-- The `n` low bytes of a number, the least significant first. -/
def leBytes : Nat → Nat → List Byte
  | 0, _ => []
  | n + 1, v => BitVec.ofNat 8 v :: leBytes n (v / 256)

/-- The number a list of bytes spells, its first byte the least significant. -/
def leNat : List Byte → Nat
  | [] => 0
  | b :: bs => b.toNat + 256 * leNat bs

/-! ## Ring arithmetic (R12) -/

/-- `NEXT(i, N) = (i + 1) and (N - 1)`. -/
def ringNext (i : Half) (n : Nat) : Half := (i + 1#16) &&& BitVec.ofNat 16 (n - 1)

/-- `DIST(a, b, N) = (b - a) and (N - 1)`. -/
def ringDist (a b : Half) (n : Nat) : Half := (b - a) &&& BitVec.ofNat 16 (n - 1)

/-- The address of byte `off` of descriptor `i` of the array at `base` (R13); sums wrap (R11). -/
def descAddr (base : DWord) (i : Half) (off : Nat) : DWord :=
  base + (16#64 * i.setWidth 64) + BitVec.ofNat 64 off

/-! Byte offsets of the descriptor fields (R140, R145). -/

def offAddrLo : Nat := 0
def offAddrHi : Nat := 4
def offLength : Nat := 8
def offChecksum : Nat := 10
def offStatus : Nat := 12
def offErrors : Nat := 13
def offSpecial : Nat := 14
def offControl : Nat := 8
def offTxStatus : Nat := 12

/-- `addr_hi ++ addr_lo` (R140, R165). -/
def descBufAddr (lo hi : Word) : DWord := hi ++ lo

/-- Low and high words of a physical address (R201, R222). -/
def addrLoWord (a : DWord) : Word := a.setWidth 32
def addrHiWord (a : DWord) : Word := (a >>> 32).setWidth 32

/-! ## CTRL, STATUS, CTRL_EXT (R120, R121, R124) -/

def ctrlSlu : Word := 0x00000040#32
def ctrlRst : Word := 0x04000000#32
def ctrlExtEeRst : Word := 0x00002000#32

/-- STATUS.LAN_ID, bits 3:2. -/
def statusLanId (v : Word) : BitVec 2 := v.extractLsb' 2 2

/-- The mask of STATUS.LAN_ID. -/
def statusLanMask : Word := 0x0000000C#32

/-- LAN_ID placed at bits 3:2. -/
def lanIdBits (l : BitVec 2) : Word := l.setWidth 32 <<< 2

/-! ## EERD (R123, R325) -/

def eerdStart : Word := 1#32

def eerdDoneBit : EerdLayout → Word
  | .doneBit1Addr2 => 0x00000002#32
  | .doneBit4Addr8 => 0x00000010#32

def eerdAddrLo : EerdLayout → Nat
  | .doneBit1Addr2 => 2
  | .doneBit4Addr8 => 8

/-- `START or (w << ADDR_lo)`. -/
def eerdRequest (l : EerdLayout) (w : Nat) : Word :=
  eerdStart ||| (BitVec.ofNat 32 w <<< eerdAddrLo l)

/-- DATA, bits 31:16. -/
def eerdData (v : Word) : Half := v.extractLsb' 16 16

/-- ADDR: bits 15:2 or 15:8. -/
def eerdAddr (l : EerdLayout) (v : Word) : Nat :=
  (v.extractLsb' 0 16 >>> eerdAddrLo l).toNat

/-- The register after a completed read: DATA and DONE set, the low half of the request kept (R434). -/
def eerdCompleted (l : EerdLayout) (v : Word) (d : Half) : Word :=
  (d ++ v.extractLsb' 0 16) ||| eerdDoneBit l

/-! ## MDIC (R125, R326, R327) -/

def mdicR : Word := 0x10000000#32
def mdicE : Word := 0x40000000#32
def mdicOpRead : Word := 0x08000000#32
def mdicOpWrite : Word := 0x04000000#32
def mdicOp (v : Word) : BitVec 2 := v.extractLsb' 26 2
def mdicReg (v : Word) : BitVec 5 := v.extractLsb' 16 5
def mdicPhy (v : Word) : BitVec 5 := v.extractLsb' 21 5
def mdicData (v : Word) : Half := v.extractLsb' 0 16

/-- The MDIC operation of a request: 01 write, 10 read. -/
def mdicIsRead (v : Word) : Bool := mdicOp v == 2#2
def mdicIsWrite (v : Word) : Bool := mdicOp v == 1#2

/-- `(PHY_ADDR << 21) or (reg << 16) or (0b10 << 26)`. -/
def mdicReadReq (phy reg : BitVec 5) : Word :=
  (phy.setWidth 32 <<< 21) ||| (reg.setWidth 32 <<< 16) ||| mdicOpRead

/-- `(PHY_ADDR << 21) or (reg << 16) or (0b01 << 26) or data`. -/
def mdicWriteReq (phy reg : BitVec 5) (d : Half) : Word :=
  (phy.setWidth 32 <<< 21) ||| (reg.setWidth 32 <<< 16) ||| mdicOpWrite ||| d.setWidth 32

/-! ## RCTL, TCTL, RXCSUM (R127, R128, R132) -/

def rctlEn : Word := 0x00000002#32
def rctlUpe : Word := 0x00000008#32
def rctlMpe : Word := 0x00000010#32
def rctlBam : Word := 0x00008000#32
/-- UPE and MPE, the promiscuous bits (R379). -/
def rctlPromisc : Word := rctlUpe ||| rctlMpe
def tctlEn : Word := 0x00000002#32
/-- The word TX_INIT writes into TCTL: the parameter `TCTL_INIT` with the enable bit (92 D27, R502; DEDUCED, log 58). -/
def tctlStart (p : Params) : Word := p.tctlInit ||| tctlEn

/-- RDMTS, bits 9:8. -/
def rdmtsBits : Rdmts → Word
  | .half => 0x00000000#32
  | .quarter => 0x00000100#32
  | .eighth => 0x00000200#32

/-- The divisor of the minimum-threshold fraction (R426). -/
def rdmtsDiv : Rdmts → Nat
  | .half => 2
  | .quarter => 4
  | .eighth => 8

/-- BSIZE (bits 17:16) and BSEX (bit 25) for the seven buffer sizes of R127. -/
def bsizeBits : Nat → Option Word
  | 2048 => some 0x00000000#32
  | 1024 => some 0x00010000#32
  | 512 => some 0x00020000#32
  | 256 => some 0x00030000#32
  | 16384 => some 0x02010000#32
  | 8192 => some 0x02020000#32
  | 4096 => some 0x02030000#32
  | _ => none

/-- `RCTL_INIT = EN or BAM or RDMTS or BSIZE/BSEX`. A launch with another buffer size is refused (R512 (c)), so the
zero taken there is never written. -/
def rctlInit (m : Rdmts) (rbsize : Nat) : Word :=
  rctlEn ||| rctlBam ||| rdmtsBits m ||| (bsizeBits rbsize).getD 0

/-- `IPOFL or TUOFL or 14`. -/
def rxcsumInit : Word := 0x0000030E#32

/-! ## Ring registers (R129) -/

/-- The ring's length in bytes, `N * 16`, as R200 line I3 and R240 line T3 write it. DESIGN CHOICE (log 47): for the size
65536, which D6 admits, it is 0x00100000, one bit above the field R129 gives it. -/
def ringLen (n : Nat) : Word := BitVec.ofNat 32 (n * 16)

/-- A head or tail register's index, bits 15:0 (R165). -/
def ringIndex (v : Word) : Half := v.setWidth 16

/-! ## Station address and filters (R133, R134, R345, R380) -/

/-- `ea[3] ++ ea[2] ++ ea[1] ++ ea[0]`. -/
def ralOf (ea : Vector Byte 6) : Word := ea[3] ++ ea[2] ++ ea[1] ++ ea[0]

/-- `AV or zext_32(ea[5] ++ ea[4])`. -/
def rahOf (ea : Vector Byte 6) : Word :=
  0x80000000#32 ||| (ea[5] ++ ea[4] : Half).setWidth 32

/-- Line E1 of R345: the low byte of word i is address byte 2i, the high byte 2i + 1. -/
def eaOf (ee : Vector Half 64) : Vector Byte 6 :=
  #v[ee[0].setWidth 8, (ee[0] >>> 8).setWidth 8, ee[1].setWidth 8, (ee[1] >>> 8).setWidth 8,
     ee[2].setWidth 8, (ee[2] >>> 8).setWidth 8]

/-- Line E2 of R345: LAN_ID added to the last byte, modulo 256. -/
def eaAdjust (ea : Vector Byte 6) (status : Word) : Vector Byte 6 :=
  ea.set 5 (ea[5] + (statusLanId status).setWidth 8)

/-- The sum of the EEPROM words modulo 2^16 (R341, D37). -/
def eeSum (ee : Vector Half 64) : Half := ee.toList.foldl (· + ·) 0#16

/-- Address byte k of a SET_MCAST operand, `w[16+8k+7 : 16+8k]` (R380). -/
def mcastByte (addr : BitVec 48) (k : Nat) : Byte := addr.extractLsb' (8 * k) 8

/-- Line M1 of R380: the hash, address bits [47:36]. -/
def mcastHash (addr : BitVec 48) : BitVec 12 :=
  ((((mcastByte addr 4).setWidth 16 >>> 4) ||| ((mcastByte addr 5).setWidth 16 <<< 4)) &&& 0xFFF#16).setWidth 12

/-- The MTA entry `h >> 5`. -/
def mcastEntry (h : BitVec 12) : Fin 128 :=
  ⟨(h >>> 5).toNat % 128, Nat.mod_lt _ (by decide)⟩

/-- The bit `1 << (h and 31)` of that entry. -/
def mcastBit (h : BitVec 12) : Word := 1#32 <<< (h &&& 31#12).toNat

/-! ## Flow control (R135, R348) -/

def fcalInit : Word := 0x00C28001#32
def fcahInit : Word := 0x00000100#32
def fctInit : Word := 0x00008808#32
def fcttvInit : Word := 0x00000100#32

/-! ## Interrupt causes (R130) -/

/-- The bit of a named cause. -/
def causeBit : Cause → Word
  | .txdw => 0x00000001#32
  | .txqe => 0x00000002#32
  | .lsc => 0x00000004#32
  | .rxseq => 0x00000008#32
  | .rxdmt0 => 0x00000010#32
  | .rxo => 0x00000040#32
  | .rxt0 => 0x00000080#32
  | .ack => 0x00020000#32

/-- The named causes in the order of their bits. -/
def causes : List Cause := [.txdw, .txqe, .lsc, .rxseq, .rxdmt0, .rxo, .rxt0, .ack]

def linkClass : Word := 0x00000004#32
def rxClass : Word := 0x000200D8#32
def txClass : Word := 0x00000001#32
def allClass : Word := 0x000200DD#32

/-- The named cause a cause word is read as: its lowest one. -/
def firstCause (w : Word) : Option Cause := causes.find? fun c => w &&& causeBit c != 0#32

/-! ## Transmit descriptor (R146-R150) -/

/-- `TXCMD = IDE or RS or IFCS or EOP`. -/
def txCmd : Word := 0x8B000000#32

/-- `TXCMD or zext_32(len)`. -/
def txControl (len : Half) : Word := txCmd ||| len.setWidth 32

/-- LENGTH, bits 15:0. -/
def txCtlLength (w : Word) : Half := w.setWidth 16

/-- RS, bit 27. -/
def txCtlRs (w : Word) : Bool := w &&& 0x08000000#32 != 0#32

/-- `kind(control)` of R150. -/
def txKind (w : Word) : TxKind :=
  if w.extractLsb' 29 1 = 0#1 then .legacy
  else if w.extractLsb' 20 4 = 0#4 then .context
  else if w.extractLsb' 20 4 = 1#4 then .extData
  else .reserved

/-! ## Link monitor (R402) -/

/-- `PHY_DECODE(VARIANT, v)`: the default decode with index adjustment k, or the variant's own table. -/
def phyDecode : PhyDecode → Half → Bool × Fin 4
  | .standard k, v =>
    (v &&& 0x0400#16 != 0#16,
      ⟨min ((v >>> 14).toNat + k) 3, Nat.lt_of_le_of_lt (Nat.min_le_right _ _) (by decide)⟩)
  | .table id, v => Config.phyDecode id v

/-! ## Launch premises on the parameters (R512 (b), (c); R85) -/

/-- A ring size: a power of two in 8..65536 (D6). -/
def ringSizeOk (n : Nat) : Bool :=
  [8, 16, 32, 64, 128, 256, 512, 1024, 2048, 4096, 8192, 16384, 32768, 65536].contains n

/-- `RingShape` and `BufShape` of R512 for one controller. -/
def launchShapeOk (p : Params) (q : PoolParams) (rdba tdba : DWord) : Bool :=
  ringSizeOk p.nrd && ringSizeOk p.ntd && (rdba &&& 127#64 == 0#64) && (tdba &&& 127#64 == 0#64)
    && (bsizeBits q.rbsize).isSome && decide (q.rbsize ≤ p.variant.rbsizeMax)
    && decide (1 ≤ p.txMaxLen) && decide (p.txMaxLen ≤ 0xFFFF)

end Sys2Proof.Machine
end

