-- ==== Sys2Proof/WellFormed.lean ====
section
/-!
DEFINITION. Well-formed operations: the operands an encoding of the opcode table admits. Register numbers and array
indexes are bounded by their types; what remains are the words a row keeps whole.
-/

namespace Sys2Proof

open Machine

/-- OP, bits 7:0 of a command word (R160). -/
def cmdOp (w : DWord) : Byte := w.setWidth 8
/-- FLAG, bit 8. -/
def cmdFlag (w : DWord) : BitVec 1 := w.extractLsb' 8 1
/-- The reserved bits 15:9. -/
def cmdReserved (w : DWord) : BitVec 7 := w.extractLsb' 9 7
/-- OPERAND, bits 63:16. -/
def cmdOperand (w : DWord) : BitVec 48 := w.extractLsb' 16 48

/-- Does the word spell one of the nine commands of R161 (whatever the value of a tunable or buffer id)? -/
def spellsCommand (w : DWord) : Bool :=
  cmdReserved w == 0#7 &&
  ((cmdOp w == 1#8 && cmdFlag w == 0#1 && cmdOperand w == 0#48)
  || (cmdOp w == 2#8 && cmdFlag w == 0#1 && cmdOperand w == 0#48)
  || (cmdOp w == 3#8 && cmdFlag w == 0#1 && cmdOperand w == 0#48)
  || (cmdOp w == 4#8 && cmdOperand w == 0#48)
  || cmdOp w == 5#8
  || (cmdOp w == 6#8 && cmdFlag w == 0#1)
  || (cmdOp w == 7#8 && cmdFlag w == 0#1)
  || (cmdOp w == 8#8 && cmdFlag w == 0#1 && cmdOperand w == 0#48)
  || (cmdOp w == 9#8 && cmdFlag w == 0#1 && (cmdOperand w).extractLsb' 32 16 == 0#16))

/-- The checks a term must pass to stand for words of its row. -/
def Instr.wellFormed : Instr → Bool
  | .reservedOp w => !spellsCommand w
  | .txdescContext w => txKind w == .context
  | .txdescExtdata w => txKind w == .extData
  | .txdescReserved w => txKind w == .reserved
  | .causeTxdw w => firstCause w == some .txdw
  | .causeTxqe w => firstCause w == some .txqe
  | .causeLsc w => firstCause w == some .lsc
  | .causeRxseq w => firstCause w == some .rxseq
  | .causeRxdmt0 w => firstCause w == some .rxdmt0
  | .causeRxo w => firstCause w == some .rxo
  | .causeRxt0 w => firstCause w == some .rxt0
  | .causeAck w => firstCause w == some .ack
  | .attach | .txRequest | .shutdown | .setPromisc _ | .setMcast _ _ | .setRdtr _ | .setRadv _ | .dump
  | .bufFree _ => true
  | .mmioCtrl _ | .mmioStatus _ | .mmioEerd _ | .mmioCtrlExt _ | .mmioMdic _ | .mmioFcal _ | .mmioFcah _
  | .mmioFct _ | .mmioIcr _ | .mmioIms _ | .mmioImc _ | .mmioRctl _ | .mmioFcttv _ | .mmioTctl _ | .mmioTipg _
  | .mmioPba _ | .mmioFcrtl _ | .mmioFcrth _ | .mmioRdbal _ | .mmioRdbah _ | .mmioRdlen _ | .mmioRdh _
  | .mmioRdt _ | .mmioRdtr _ | .mmioRadv _ | .mmioTdbal _ | .mmioTdbah _ | .mmioTdlen _ | .mmioTdh _
  | .mmioTdt _ | .mmioTidv _ | .mmioRxcsum _ | .mmioStat _ _ | .mmioMta _ _ | .mmioRal _ _ | .mmioRah _ _ => true
  | .rxdesc _ | .txdescLegacy _ => true

end Sys2Proof
end

