-- ==== Sys2Proof/Decode.lean ====
section
/-!
DEFINITION. Decoding and encoding. The opcode table's five formats are five interfaces of the HRE, so a word is
decoded under its format; decoding is total on any bytes and rejects by name. The offsets are those of R110, the
command word is R160-R162, the descriptors are R140 and R146-R150, the cause word is R130. They are the defaults of
`RegMap`: a machine decodes under the register map of its controller (`decodeWith`), and `decode` is the decoder under
the defaults, which are the numbers of the opcode table.

The table gives a register row its 17-bit offset only. The whole transaction word of this model is 64 bits:
offset in bits 16:0, bits 30:17 zero, WRITE in bit 31, the 32-bit data in bits 63:32 (zero for a read). DESIGN CHOICE
(log 10).
-/

namespace Sys2Proof

open Machine

/-- Why a word spells no operation. -/
inductive Reject where
  /-- The byte string has not the length of its format. -/
  | length
  /-- A register offset that is not a multiple of 4 (R85, V4). -/
  | misalignedOffset
  /-- A register offset R110 does not list (R112, V4). -/
  | reservedOffset
  /-- A transaction word with nonzero bits 30:17, or a read that carries data. -/
  | reservedBits
  /-- A legacy control word other than `TXCMD or len` (R151, V7). -/
  | legacyForm
  /-- A cause word with none of the causes R130 names. -/
  | noNamedCause
  deriving DecidableEq, Repr, Inhabited

/-- The bytes of a word of each format. -/
def Format.size : Format → Nat
  | .hostCmd => 8
  | .mmio => 8
  | .rxDesc => 16
  | .txCtrl => 4
  | .icr => 4

/-! ## Register offsets (R110) -/

/-- The offset column of R110. -/
def regOffset : Reg → Nat
  | .ctrl => 0x00000
  | .status => 0x00008
  | .eerd => 0x00014
  | .ctrlExt => 0x00018
  | .mdic => 0x00020
  | .fcal => 0x00028
  | .fcah => 0x0002C
  | .fct => 0x00030
  | .icr => 0x000C0
  | .ims => 0x000D0
  | .imc => 0x000D8
  | .rctl => 0x00100
  | .fcttv => 0x00170
  | .tctl => 0x00400
  | .tipg => 0x00410
  | .pba => 0x01000
  | .fcrtl => 0x02160
  | .fcrth => 0x02168
  | .rdbal => 0x02800
  | .rdbah => 0x02804
  | .rdlen => 0x02808
  | .rdh => 0x02810
  | .rdt => 0x02818
  | .rdtr => 0x02820
  | .radv => 0x0282C
  | .tdbal => 0x03800
  | .tdbah => 0x03804
  | .tdlen => 0x03808
  | .tdh => 0x03810
  | .tdt => 0x03818
  | .tidv => 0x03820
  | .rxcsum => 0x05000
  | .stat k => 0x04000 + 4 * k.val
  | .mta k => 0x05200 + 4 * k.val
  | .ral n => 0x05400 + 8 * n.val
  | .rah n => 0x05404 + 8 * n.val

/-- The registers that are no array element. -/
def plainRegs : List Reg :=
  [.ctrl, .status, .eerd, .ctrlExt, .mdic, .fcal, .fcah, .fct, .icr, .ims, .imc, .rctl, .fcttv, .tctl, .tipg, .pba]
  ++ [.fcrtl, .fcrth, .rdbal, .rdbah, .rdlen, .rdh, .rdt, .rdtr, .radv, .tdbal, .tdbah, .tdlen, .tdh, .tdt, .tidv,
      .rxcsum]

/-- The register at an offset that is a multiple of 4. -/
def offsetReg (o : Nat) : Option Reg :=
  if h : 0x4000 ≤ o ∧ o < 0x4124 then some (.stat ⟨(o - 0x4000) / 4, by omega⟩)
  else if h : 0x5200 ≤ o ∧ o < 0x5400 then some (.mta ⟨(o - 0x5200) / 4, by omega⟩)
  else if h : 0x5400 ≤ o ∧ o < 0x5480 then
    if o % 8 = 0 then some (.ral ⟨(o - 0x5400) / 8, by omega⟩) else some (.rah ⟨(o - 0x5400) / 8, by omega⟩)
  else plainRegs.find? fun r => regOffset r == o

/-! ## The register map (R8, R110, D3): offsets and bit positions of a chip -/

/-- The offset of a register. -/
def RegMap.offset (m : RegMap) (r : Reg) : Nat :=
  match m.offsets.find? fun e => e.1 == r with
  | some e => e.2
  | none => regOffset r

/-- The register at an offset that is a multiple of 4. -/
def RegMap.regAt (m : RegMap) (o : Nat) : Option Reg :=
  match m.offsets.find? fun e => e.2 == o with
  | some e => some e.1
  | none =>
    match offsetReg o with
    | some r => if m.offsets.any fun e => e.1 == r then none else some r
    | none => none

/-- Which words share a register's bit layout (R130: one for ICR, IMS and IMC). -/
def Reg.wordKind : Reg → WordKind
  | .icr | .ims | .imc => .cause
  | r => .reg r

/-- A word of the chip, read into the default layout: bit `j` is the chip's bit `p[j]`. -/
def gatherBits (p : Vector (Fin 32) 32) (w : Word) : Word :=
  BitVec.ofFnLE fun j : Fin 32 => w.getLsbD p[j]

/-- A word of the default layout, placed in the chip's: the chip's bit `b` is the bit `j` with `p[j] = b`. -/
def scatterBits (p : Vector (Fin 32) 32) (w : Word) : Word :=
  BitVec.ofFnLE fun b : Fin 32 => (List.finRange 32).any fun j => p[j] == b && w.getLsbD j

/-- A word that enters the machine. -/
def RegMap.fromChip (m : RegMap) (k : WordKind) (w : Word) : Word :=
  match m.bits.find? fun e => e.1 == k with
  | some e => gatherBits e.2 w
  | none => w

/-- A word that leaves it. -/
def RegMap.toChip (m : RegMap) (k : WordKind) (w : Word) : Word :=
  match m.bits.find? fun e => e.1 == k with
  | some e => scatterBits e.2 w
  | none => w

/-- The byte and half-word fields of a receive descriptor. -/
def RegMap.fromChip8 (m : RegMap) (k : WordKind) (v : Byte) : Byte := (m.fromChip k (v.setWidth 32)).setWidth 8
def RegMap.toChip8 (m : RegMap) (k : WordKind) (v : Byte) : Byte := (m.toChip k (v.setWidth 32)).setWidth 8
def RegMap.fromChip16 (m : RegMap) (k : WordKind) (v : Half) : Half := (m.fromChip k (v.setWidth 32)).setWidth 16
def RegMap.toChip16 (m : RegMap) (k : WordKind) (v : Half) : Half := (m.toChip k (v.setWidth 32)).setWidth 16

/-- Every bit of a word stands at a position of its own, and those of a field stay in the field. -/
def bitsOk (e : WordKind × Vector (Fin 32) 32) : Prop :=
  (∀ i j : Fin 32, e.2[i] = e.2[j] → i = j) ∧ ∀ i : Fin 32, i.val < e.1.width → e.2[i].val < e.1.width

/-- A register map a chip can have: every register at an offset of its own, a multiple of 4 in the window (R81, R85), and
every bit of a word at a position of its own. -/
def RegMap.wf (m : RegMap) : Prop :=
  (∀ r q : Reg, m.offset r = m.offset q → r = q)
    ∧ (∀ r : Reg, m.offset r % 4 = 0 ∧ m.offset r < 2 ^ 17)
    ∧ (m.offsets.map Prod.fst).Nodup
    ∧ ∀ e ∈ m.bits, bitsOk e

/-- The same as a test (`RegMap.ok_iff_wf`): it looks at the registers listed alone. One may stand where R110 has another
only if that other is listed too. -/
def RegMap.ok (m : RegMap) : Bool :=
  decide (m.offsets.map Prod.fst).Nodup && decide (m.offsets.map Prod.snd).Nodup
    && (m.offsets.all fun e =>
      e.2 % 4 == 0 && decide (e.2 < 2 ^ 17)
        && match offsetReg e.2 with
          | some r => (m.offsets.map Prod.fst).contains r
          | none => true)
    && m.bits.all fun e =>
      decide (∀ i j : Fin 32, e.2[i] = e.2[j] → i = j) && decide (∀ i : Fin 32, i.val < e.1.width → e.2[i].val < e.1.width)

/-! ## Decoding -/

/-- Decode order step (1) of R371 as far as the word alone decides it: the nine commands, or the rejected word. -/
def decodeCmd (w : DWord) : Instr :=
  if spellsCommand w then
    match (cmdOp w).toNat with
    | 1 => .attach
    | 2 => .txRequest
    | 3 => .shutdown
    | 4 => .setPromisc (cmdFlag w == 1#1)
    | 5 => .setMcast (cmdFlag w == 1#1) (cmdOperand w)
    | 6 => .setRdtr (cmdOperand w)
    | 7 => .setRadv (cmdOperand w)
    | 8 => .dump
    | _ => .bufFree ((cmdOperand w).setWidth 32)
  else .reservedOp w

/-- A transaction word on the register window. -/
def decodeMmio (m : RegMap) (w : DWord) : Except Reject Instr :=
  let o := (w.extractLsb' 0 17).toNat
  let data := w.extractLsb' 32 32
  if w.extractLsb' 17 14 ≠ 0#14 then .error .reservedBits
  else if o % 4 ≠ 0 then .error .misalignedOffset
  else
    match m.regAt o with
    | none => .error .reservedOffset
    | some r =>
      if w.extractLsb' 31 1 = 1#1 then .ok (mmioInstr r (.write (m.fromChip r.wordKind data)))
      else if data = 0#32 then .ok (mmioInstr r .read)
      else .error .reservedBits

/-- The fields of a receive descriptor (R140). -/
def rxDescOf (m : RegMap) (w : BitVec 128) : RxDesc :=
  { addrLo := w.extractLsb' 0 32
    addrHi := w.extractLsb' 32 32
    length := w.extractLsb' 64 16
    checksum := w.extractLsb' 80 16
    status := m.fromChip8 .rxStatus (w.extractLsb' 96 8)
    errors := m.fromChip8 .rxErrors (w.extractLsb' 104 8)
    special := m.fromChip16 .rxSpecial (w.extractLsb' 112 16) }

/-- A transmit control word (R150, R148), its bits at their default positions. -/
def decodeTx (w : Word) : Except Reject Instr :=
  match txKind w with
  | .context => .ok (.txdescContext w)
  | .extData => .ok (.txdescExtdata w)
  | .reserved => .ok (.txdescReserved w)
  | .legacy => if w.extractLsb' 16 16 = 0x8B00#16 then .ok (.txdescLegacy (txCtlLength w)) else .error .legacyForm

/-- A cause word (R130), its bits at their default positions, read as the row of its lowest named cause (log 15). -/
def decodeCause (w : Word) : Except Reject Instr :=
  match firstCause w with
  | some c => .ok (causeInstr c w)
  | none => .error .noNamedCause

/-- The decoder: the operation a byte string spells at an interface of a chip. -/
def decodeWith (m : RegMap) (f : Format) (bytes : List Byte) : Except Reject Instr :=
  if bytes.length ≠ f.size then .error .length
  else
    match f with
    | .hostCmd => .ok (decodeCmd (BitVec.ofNat 64 (leNat bytes)))
    | .mmio => decodeMmio m (BitVec.ofNat 64 (leNat bytes))
    | .rxDesc => .ok (.rxdesc (rxDescOf m (BitVec.ofNat 128 (leNat bytes))))
    | .txCtrl => decodeTx (m.fromChip .txControl (BitVec.ofNat 32 (leNat bytes)))
    | .icr => decodeCause (m.fromChip .cause (BitVec.ofNat 32 (leNat bytes)))

/-- The decoder under the defaults of 30_encoding.md. -/
def decode (f : Format) (bytes : List Byte) : Except Reject Instr := decodeWith RegMap.pro1000 f bytes

/-! ## Encoding -/

/-- The interface an operation belongs to. -/
def Instr.format : Instr → Format
  | .attach | .txRequest | .shutdown | .setPromisc _ | .setMcast _ _ | .setRdtr _ | .setRadv _ | .dump
  | .bufFree _ | .reservedOp _ => .hostCmd
  | .mmioCtrl _ | .mmioStatus _ | .mmioEerd _ | .mmioCtrlExt _ | .mmioMdic _ | .mmioFcal _ | .mmioFcah _
  | .mmioFct _ | .mmioIcr _ | .mmioIms _ | .mmioImc _ | .mmioRctl _ | .mmioFcttv _ | .mmioTctl _ | .mmioTipg _
  | .mmioPba _ | .mmioFcrtl _ | .mmioFcrth _ | .mmioRdbal _ | .mmioRdbah _ | .mmioRdlen _ | .mmioRdh _
  | .mmioRdt _ | .mmioRdtr _ | .mmioRadv _ | .mmioTdbal _ | .mmioTdbah _ | .mmioTdlen _ | .mmioTdh _
  | .mmioTdt _ | .mmioTidv _ | .mmioRxcsum _ | .mmioStat _ _ | .mmioMta _ _ | .mmioRal _ _ | .mmioRah _ _ => .mmio
  | .rxdesc _ => .rxDesc
  | .txdescLegacy _ | .txdescContext _ | .txdescExtdata _ | .txdescReserved _ => .txCtrl
  | .causeTxdw _ | .causeTxqe _ | .causeLsc _ | .causeRxseq _ | .causeRxdmt0 _ | .causeRxo _ | .causeRxt0 _
  | .causeAck _ => .icr

/-- OPERAND, reserved zeros, FLAG, OP (R160, R161). -/
def cmdWord (op : Byte) (flag : Bool) (operand : BitVec 48) : DWord :=
  (operand ++ 0#7 ++ BitVec.ofBool flag ++ op : BitVec (48 + 7 + 1 + 8))

/-- The transaction word of a register access. -/
def mmioWord (m : RegMap) (r : Reg) : Access → DWord
  | .read => BitVec.ofNat 64 (m.offset r)
  | .write v => (m.toChip r.wordKind v ++ 1#1 ++ BitVec.ofNat 31 (m.offset r) : BitVec (32 + 1 + 31))

/-- The 128 bits of a receive descriptor. -/
def rxDescWord (m : RegMap) (d : RxDesc) : BitVec 128 :=
  (m.toChip16 .rxSpecial d.special ++ m.toChip8 .rxErrors d.errors ++ m.toChip8 .rxStatus d.status ++ d.checksum
    ++ d.length ++ d.addrHi ++ d.addrLo : BitVec (16 + 8 + 8 + 16 + 16 + 32 + 32))

/-- The word of an operation at an interface of a chip, as a number. -/
def Instr.wordWith (m : RegMap) : Instr → Nat
  | .attach => (cmdWord 1#8 false 0#48).toNat
  | .txRequest => (cmdWord 2#8 false 0#48).toNat
  | .shutdown => (cmdWord 3#8 false 0#48).toNat
  | .setPromisc on => (cmdWord 4#8 on 0#48).toNat
  | .setMcast b a => (cmdWord 5#8 b a).toNat
  | .setRdtr v => (cmdWord 6#8 false v).toNat
  | .setRadv v => (cmdWord 7#8 false v).toNat
  | .dump => (cmdWord 8#8 false 0#48).toNat
  | .bufFree id => (cmdWord 9#8 false (id.setWidth 48)).toNat
  | .reservedOp w => w.toNat
  | .mmioCtrl a => (mmioWord m .ctrl a).toNat
  | .mmioStatus a => (mmioWord m .status a).toNat
  | .mmioEerd a => (mmioWord m .eerd a).toNat
  | .mmioCtrlExt a => (mmioWord m .ctrlExt a).toNat
  | .mmioMdic a => (mmioWord m .mdic a).toNat
  | .mmioFcal a => (mmioWord m .fcal a).toNat
  | .mmioFcah a => (mmioWord m .fcah a).toNat
  | .mmioFct a => (mmioWord m .fct a).toNat
  | .mmioIcr a => (mmioWord m .icr a).toNat
  | .mmioIms a => (mmioWord m .ims a).toNat
  | .mmioImc a => (mmioWord m .imc a).toNat
  | .mmioRctl a => (mmioWord m .rctl a).toNat
  | .mmioFcttv a => (mmioWord m .fcttv a).toNat
  | .mmioTctl a => (mmioWord m .tctl a).toNat
  | .mmioTipg a => (mmioWord m .tipg a).toNat
  | .mmioPba a => (mmioWord m .pba a).toNat
  | .mmioFcrtl a => (mmioWord m .fcrtl a).toNat
  | .mmioFcrth a => (mmioWord m .fcrth a).toNat
  | .mmioRdbal a => (mmioWord m .rdbal a).toNat
  | .mmioRdbah a => (mmioWord m .rdbah a).toNat
  | .mmioRdlen a => (mmioWord m .rdlen a).toNat
  | .mmioRdh a => (mmioWord m .rdh a).toNat
  | .mmioRdt a => (mmioWord m .rdt a).toNat
  | .mmioRdtr a => (mmioWord m .rdtr a).toNat
  | .mmioRadv a => (mmioWord m .radv a).toNat
  | .mmioTdbal a => (mmioWord m .tdbal a).toNat
  | .mmioTdbah a => (mmioWord m .tdbah a).toNat
  | .mmioTdlen a => (mmioWord m .tdlen a).toNat
  | .mmioTdh a => (mmioWord m .tdh a).toNat
  | .mmioTdt a => (mmioWord m .tdt a).toNat
  | .mmioTidv a => (mmioWord m .tidv a).toNat
  | .mmioRxcsum a => (mmioWord m .rxcsum a).toNat
  | .mmioStat k a => (mmioWord m (.stat k) a).toNat
  | .mmioMta k a => (mmioWord m (.mta k) a).toNat
  | .mmioRal n a => (mmioWord m (.ral n) a).toNat
  | .mmioRah n a => (mmioWord m (.rah n) a).toNat
  | .rxdesc d => (rxDescWord m d).toNat
  | .txdescLegacy len => (m.toChip .txControl (txControl len)).toNat
  | .txdescContext w | .txdescExtdata w | .txdescReserved w => (m.toChip .txControl w).toNat
  | .causeTxdw w | .causeTxqe w | .causeLsc w | .causeRxseq w | .causeRxdmt0 w | .causeRxo w | .causeRxt0 w
  | .causeAck w => (m.toChip .cause w).toNat

/-- The encoder: the bytes of an operation's word, the first at the lowest address (R84). -/
def encodeWith (m : RegMap) (i : Instr) : List Byte := leBytes i.format.size (i.wordWith m)

/-- The encoder under the defaults of 30_encoding.md. -/
def encode (i : Instr) : List Byte := encodeWith RegMap.pro1000 i

/-! ## The host's view of the opcode table -/

/-- Is the number exactly one named cause bit? -/
def isCauseBit (w : Nat) : Bool := causes.any fun c => (causeBit c).toNat == w

/-- Which format a word of the table is of, from the number of bits the table gives its row: 128 a receive
descriptor; 33 to 64, and 9 to 16 (the tunables and SET_MCAST, whose operand has no bits there), a host command; 17
to 24 a register offset below 2^17, else a cause; up to 8 a single cause bit, else a reserved op code; 25 to 32 a
transmit control word (bit 29, or `TXCMD`), a single cause bit, or a register offset. DESIGN CHOICE (log 11). -/
def tableFormat (nbits w : Nat) : Format :=
  if nbits > 64 then .rxDesc
  else if nbits > 32 then .hostCmd
  else if nbits > 24 then
    if w / 2 ^ 29 % 2 = 1 ∨ w / 2 ^ 16 = 0x8B00 then .txCtrl
    else if isCauseBit w then .icr
    else if w < 2 ^ 17 then .mmio
    else .icr
  else if nbits > 16 then if w < 2 ^ 17 then .mmio else .icr
  else if nbits > 8 then .hostCmd
  else if isCauseBit w then .icr
  else if w = 0 ∨ 0x0A ≤ w then .hostCmd
  else .icr

/-- The operation the decoder reads from an instruction whose bits are `w`, numbered as the opcode table numbers
them. -/
def decodeTableWord (nbits w : Nat) : Option Instr :=
  match decode (tableFormat nbits w) (leBytes (tableFormat nbits w).size w) with
  | .ok i => some i
  | .error _ => none

end Sys2Proof
end

