-- ==== Sys2Proof/Machine/State.lean ====
section
/-!
DEFINITION. The state of the HRE as plain data: the controller record, the pool, DMA memory, each agent's control
state (R38, the replacement for a program counter), the NIC's registers (R44), and the reset state (R500).
-/

namespace Sys2Proof.Machine

/-! ## Status codes, error records, events -/

/-- The error kinds of R450. -/
inductive Status where
  | ok | hardwareTimeout | descriptorError | resourceExhausted | badArgument | eepromChecksumError | notReady
  | deviceContract | upstreamContract
  deriving DecidableEq, Repr, Inhabited

/-- The `info` of an error record (R451, R456, R457). -/
inductive ErrInfo where
  | resetTimeout
  | eepromResetTimeout
  | drainTimeout
  | eepromReadTimeout (w : Nat)
  | checksum (sum : Half)
  | rxNoBuffer (i : Half)
  | rxLength (i : Half) (len : Word)
  | txLength (i : Half) (len : Word)
  deriving DecidableEq, Repr, Inhabited

/-- A fault record `(kind, info)` (R60). -/
structure FaultRec where
  kind : Status
  info : ErrInfo
  deriving DecidableEq, Repr, Inhabited

/-- The lifecycle states (R30). -/
inductive Lifecycle where
  | poweredUnknown | resetting | eepromLoading | configured | running | faulted | halted
  deriving DecidableEq, Repr, Inhabited

/-- The events of the trace (R62, R381). -/
inductive TraceEv where
  | mmioR (r : Reg) (v : Word)
  | mmioW (r : Reg) (v : Word)
  | cmd (i : Instr) (st : Status)
  | deliver (b : BufId)
  | rxDiscard (b : BufId) (errors : Byte)
  | rxPoolEmpty
  | rxSlotBusy (i : Half)
  | txRelease (b : BufId)
  | txUnderrun (i : Half)
  | txRingFull
  | linkUpdate (up : Bool) (idx : Fin 4)
  | linkSkip
  | snapshot (r : Reg) (v : Word)
  | counters (sw : Vector DWord 73) (hist : Vector Word 4) (up : Bool) (idx : Fin 4)
  deriving DecidableEq, Repr

/-! ## Control states of the agents (R38): the labels of the routine listings -/

/-- ARM, lines M1-M4 (R280). -/
inductive ArmPc where
  | m1 | m2 | m3 | m4
  deriving DecidableEq, Repr, Inhabited

/-- WAKE, lines K1-K3 (R281). -/
inductive WakePc where
  | k1 | k2 | k3
  deriving DecidableEq, Repr, Inhabited

/-- HANDSHAKE, lines H1, H3, H7, with the read count `i` (R324). -/
inductive HsPc where
  | h1
  | h3 (i : Nat)
  | h7 (i : Nat)
  deriving DecidableEq, Repr, Inhabited

/-- REPLENISH (R220), with its local buffer. -/
inductive RepPc where
  | r2 | r3 | r4
  | r5 (b : BufId)
  | r6 (b : BufId)
  | r7 (b : BufId)
  | r8 (b : BufId)
  | r9
  deriving DecidableEq, Repr, Inhabited

/-- RX_WORKER (R206) with DELIVER (R211), DISCARD (R214) and REPLENISH. `halt` is an agent stopped at a faulting
line (R456). -/
inductive RxCtl where
  | notStarted
  | w1 (p : ArmPc)
  | w2
  | w3 (p : WakePc)
  | s1 | s3
  | d1 | d2 | d4 | d5
  | discard
  | s6 | s7
  | s8 (p : RepPc)
  | p1 (p : RepPc)
  | haltS3 | haltD2
  deriving DecidableEq, Repr, Inhabited

/-- The RX worker's control state and locals. -/
structure RxWorker where
  ctl   : RxCtl
  cause : Word
  nrep  : Nat
  st    : Byte
  er    : Byte
  b     : BufId
  len   : Word
  deriving DecidableEq, Repr, Inhabited

/-- TX_ROUTINE (R241). -/
inductive TxPc where
  | x0 | a1 | a3 | a4 | b2 | b4 | b5 | b6 | b7 | c1
  | c1Arm (p : ArmPc)
  | c1Emit | e1 | e2
  | haltB3
  deriving DecidableEq, Repr, Inhabited

/-- One run of TX_ROUTINE: its line, the tail at the start of refill, the packet in hand. -/
structure TxRun where
  pc : TxPc
  t0 : Half
  p  : BufId
  deriving DecidableEq, Repr, Inhabited

/-- TX_WORKER (R242). -/
inductive TxwCtl where
  | notStarted
  | t1 (p : ArmPc)
  | t2
  | t3 (p : WakePc)
  | t4 (r : TxRun)
  deriving DecidableEq, Repr, Inhabited

/-- A direct-send caller `TXC[k]` (R243). -/
structure Txc where
  k   : Nat
  run : TxRun
  deriving DecidableEq, Repr, Inhabited

/-- LINK_MONITOR (R400). -/
inductive LnkCtl where
  | notStarted
  | l1 (h : HsPc)
  | l2
  | l3 (v : Half)
  | l4 (up : Bool) (idx : Fin 4)
  | l5a | l5b | l5c
  | l6 (p : ArmPc)
  | l7
  | l8 (p : WakePc)
  deriving DecidableEq, Repr, Inhabited

/-- DISPATCH (R271). -/
inductive DispCtl where
  | idle
  | q1 | q2 | q3 | l1 | l3 | l4 | l5 | x1 | x2 | x3
  deriving DecidableEq, Repr, Inhabited

/-- The dispatcher's run state (R39). -/
structure Disp where
  ctl     : DispCtl
  imEntry : Word
  work    : Word
  icr     : Word
  deriving DecidableEq, Repr, Inhabited

/-- The read-modify-writes of the lifecycle: line A5, line A7, line A8, line Z5. -/
inductive Rmw where
  | a5 | a7 | a8 | z5
  deriving DecidableEq, Repr, Inhabited

/-- The bounded polls: lines A6, A9, A10, Z6. -/
inductive PollId where
  | a6 | a9 | a10 | z6
  deriving DecidableEq, Repr, Inhabited

/-- LC: the ATTACH sequence (R321) with RX_INIT (R200) and TX_INIT (R240), SHUTDOWN (R377) and the control
commands (R378-R381). -/
inductive LcCtl where
  | idle
  | a1 | a2 | a3 | a4
  | rmwR (w : Rmw)
  | rmwW (w : Rmw) (v : Word)
  | pollR (p : PollId) (i : Nat)
  | pollD (p : PollId) (i : Nat)
  | fatal (r : FaultRec)
  | b0
  | b1 (w : Nat) (h : HsPc)
  | b2 | b3
  | c1 (n : Nat) (hi : Bool)
  | c2 (hi : Bool)
  | c3 (k : Nat)
  | c4 (j : Nat)
  | c5
  | i1 | i2 | i3 | i4 | i5
  | i6 (i : Nat)
  | i7 (i : Nat) (f : Nat)
  | i8 (second : Bool)
  | i9
  | i10 (p : RepPc)
  | i11
  | t1 | t2 | t3 | t4 | t5
  | t6 (i : Nat)
  | t7 (i : Nat) (f : Nat)
  | t8 (second : Bool)
  | t9
  | d3 | d4
  | z1 | z2 | z3 | z4
  | z7 (done : Bool)
  | z8 (done : Bool)
  | promiscR
  | promiscW (v : Word)
  | mcastW (v : Word)
  | tunableW
  | u1
  | u2 (k : Nat)
  | u3 (j : Nat)
  | u3e (j : Nat) (v : Word)
  | u4 | u5
  deriving DecidableEq, Repr, Inhabited

/-! ## Buffers (R45) -/

inductive Origin where
  | pool | host
  deriving DecidableEq, Repr, Inhabited

/-- The owner of a buffer (R47): exactly one of the pool, a slot, the upstream stack. -/
inductive Owner where
  | pool
  | rxSlot (ctlr : Nat) (i : Half)
  | txSlot (ctlr : Nat) (i : Half)
  | host
  deriving DecidableEq, Repr, Inhabited

/-- A packet buffer (R45); its data are the `cap` bytes of DMA memory at `base` (R82), so `PA(b, o) = base + o`. -/
structure Buf where
  base        : DWord
  cap         : Word
  rp          : Word
  wp          : Word
  lim         : Word
  ipOk        : Bool
  tcpOk       : Bool
  udpOk       : Bool
  csumPresent : Bool
  csum        : Half
  origin      : Origin
  owner       : Owner
  deriving DecidableEq, Repr, Inhabited

/-! ## The NIC beside its registers (R44, R420, R434) -/

structure Device where
  eeprom      : Vector Half 64
  phy         : Vector Half 32
  eerdPending : Bool
  mdicPending : Bool
  stuckRst    : Bool
  stuckEeRst  : Bool
  /-- The frames transmitted: address and length (R428). -/
  sent        : List (DWord × Nat)
  deriving DecidableEq, Repr

/-! ## The controller record -/

structure Ctlr where
  id        : Nat
  cfg       : Params
  lc        : Lifecycle
  im        : Word
  rim       : Word
  lim       : Word
  tsig      : Bool
  mlock     : Option AgentId
  -- receive ring (R34)
  rdba      : DWord
  rdh       : Half
  rdt       : Half
  rdfree    : Half
  rb        : List (Option BufId)
  -- transmit ring (R36)
  tdba      : DWord
  tdh       : Half
  tdt       : Half
  tb        : List (Option BufId)
  tlock     : Option AgentId
  -- agents (R38, R39)
  disp      : Disp
  rxw       : RxWorker
  txw       : TxwCtl
  lnk       : LnkCtl
  lcCtl     : LcCtl
  lcCmd     : Instr
  txcs      : List Txc
  txcNext   : Nat
  -- R40-R43
  ee        : Vector Half 64
  ea        : Vector Byte 6
  rdtr      : Half
  radv      : Half
  promisc   : Bool
  swStats   : Vector DWord 73
  slock     : Option AgentId
  speedHist : Vector Word 4
  linkUp    : Bool
  speedIdx  : Fin 4
  -- R60-R62, R375
  fault     : List FaultRec
  lastError : Option FaultRec
  trace     : List TraceEv
  oq        : List BufId
  -- the NIC behind the window
  regs      : NicRegs
  dev       : Device
  deriving DecidableEq, Repr

/-! ## The whole state -/

/-- An operation word presented at an interface of the HRE. -/
structure PortWord where
  fmt   : Format
  bytes : List Byte
  deriving DecidableEq, Repr, Inhabited

structure State where
  /-- The selected controller: the one the next operation and the next agent step concern (R473, log 19). -/
  c      : Ctlr
  /-- The other controllers. -/
  others : List Ctlr
  -- shared by all controllers (R45, R46, R82)
  pool   : PoolParams
  bufs   : List (BufId × Buf)
  free   : List BufId
  plock  : Option AgentId
  mem    : List Host.Cell
  -- the model's own (log 7)
  port   : List PortWord
  sched  : List Event
  tick   : Nat
  deriving DecidableEq, Repr

/-! ## Reset (70_reset_and_hazards.md R500, column discovery) -/

/-- The default parameters of R8; where R8 gives none, those of the reference configuration of 95 (log 1). -/
def Params.reference : Params where
  nrd := 256
  ntd := 256
  eerstCeil := 1000
  drainCeil := 1000
  txMaxLen := 1514
  rdtrInit := 0
  radvInit := 0
  rdmts := .half
  tctlInit := 0x0003F0FA#32
  tipgInit := 0
  tidvInit := 0
  fcrtlInit := 0
  fcrthInit := 0
  lanId := 0
  phyAddr := 1
  phyStatusReg := 0x11
  variant :=
    { lanidAdjust := false, eerdLayout := .doneBit4Addr8, phyDecode := .standard 0, rbsizeMax := 16384,
      pbaThreshold := 16384, pbaRebalance := none }
  regMap := RegMap.pro1000

def PoolParams.reference : PoolParams := { npool := 512, rbsize := 2048 }

def Disp.reset : Disp := { ctl := .idle, imEntry := 0, work := 0, icr := 0 }

def RxWorker.reset : RxWorker :=
  { ctl := .notStarted, cause := 0, nrep := 0, st := 0, er := 0, b := 0, len := 0 }

/-- The NIC beside its registers at discovery, which the spec leaves open (R44, U6): DESIGN CHOICE zeros (log 3), and no
request pending, no bit stuck, nothing sent (log 50). -/
def Device.reset : Device where
  eeprom := Vector.replicate 64 0
  phy := Vector.replicate 32 0
  eerdPending := false
  mdicPending := false
  stuckRst := false
  stuckEeRst := false
  sent := []

/-- A controller record at device discovery (R500). -/
def Ctlr.discovery (id : Nat) (p : Params) (rdba tdba : DWord) : Ctlr where
  id := id
  cfg := p
  lc := .poweredUnknown
  im := 0
  rim := 0
  lim := 0
  tsig := false
  mlock := none
  rdba := rdba
  rdh := 0
  rdt := 0
  rdfree := 0
  rb := List.replicate p.nrd none
  tdba := tdba
  tdh := 0
  tdt := 0
  tb := List.replicate p.ntd none
  tlock := none
  disp := Disp.reset
  rxw := RxWorker.reset
  txw := .notStarted
  lnk := .notStarted
  lcCtl := .idle
  lcCmd := .attach
  txcs := []
  txcNext := 0
  ee := Vector.replicate 64 0
  ea := Vector.replicate 6 0
  rdtr := p.rdtrInit
  radv := p.radvInit
  promisc := false
  swStats := Vector.replicate 73 0
  slock := none
  speedHist := Vector.replicate 4 0
  linkUp := false
  speedIdx := 3
  fault := []
  lastError := none
  trace := []
  oq := []
  regs := { NicRegs.zero with status := lanIdBits p.lanId }
  dev := Device.reset

/-- A pool buffer before its first pop; base addresses as in the reference configuration (log 5). -/
def Buf.pool (rbsize b : Nat) : Buf where
  base := 0x10000000#64 + (BitVec.ofNat 64 b <<< 12)
  cap := BitVec.ofNat 32 rbsize
  rp := 0
  wp := 0
  lim := 0
  ipOk := false
  tcpOk := false
  udpOk := false
  csumPresent := false
  csum := 0
  origin := .pool
  owner := .pool

/-- The machine right after reset: one controller at discovery, the pool full, nothing pending. -/
def State.reset : State where
  c := Ctlr.discovery 0 Params.reference 0x100000#64 0x200000#64
  others := []
  pool := PoolParams.reference
  bufs := (List.range PoolParams.reference.npool).map fun b => (b, Buf.pool PoolParams.reference.rbsize b)
  free := List.range PoolParams.reference.npool
  plock := none
  mem := []
  port := []
  sched := []
  tick := 0

/-! ## Why a step stops -/

/-- Faults: a step that cannot be taken because the state names something that does not exist. -/
inductive Fault where
  /-- An agent's line reads a buffer id that no buffer record has. Raised by REPLENISH (lines R6, R7), the RX worker
  (line D2) and TX_ROUTINE (lines B3-B6). Safe: R47 lets a slot and a queue hold existing buffers only (log 36). -/
  | noSuchBuffer (b : BufId)
  deriving DecidableEq, Repr

/-- Refusals: the spec has no such step ("a model refuses"). All are safe: the machine stops where the spec allows
nothing. -/
inductive Refusal where
  /-- Raised by an arm of `exec` whose operation has no meaning yet; none is left. -/
  | notModelled (mnemonic : String)
  /-- Raised by the fetch: the word at the port spells no operation (R112, R151, V4, V7). -/
  | undecodable (r : Reject)
  /-- Raised by a register row: a transaction the HRE has no step for (U13, V6): a write of a read-only or
  read-to-clear register, a read of the write-only IMC, an MDIC request with OP 00 or 11. -/
  | deviceInterface (r : Reg)
  /-- Raised by the rows TXDESC_CONTEXT, TXDESC_EXTDATA, TXDESC_RESERVED: "a model of the HRE refuses any attempt to
  write one" (R151, V7). -/
  | descriptorKind (k : TxKind)
  /-- Raised by ATTACH where R512 (a), (b) or (c) fails or the register map breaks R85, and by a launch (discovery
  included) where any of R512 (a)-(e) or R85 fails ("a model refuses a launch"). -/
  | badLaunch
  /-- Raised by a host action outside R375 or R383 ("a model refuses any other host append", U16). -/
  | hostDuty
  deriving DecidableEq, Repr

end Sys2Proof.Machine
end

