-- ==== Sys2Proof/Machine/Flags.lean ====
section
/-!
DEFINITION. The HRE has no condition codes (R48). Its flags are the status bits of descriptors and registers, the
cause classes, the replenish trigger and the status codes; every one is computed here.
-/

namespace Sys2Proof.Machine

/-- Is a bit of a mask set in a 32-bit value? -/
def hasBits (v m : Word) : Bool := v &&& m != 0#32

/-! ## RX descriptor status and errors (R141, R142) -/

def rxDD (st : Byte) : Bool := st &&& 0x01#8 != 0#8
def rxEOP (st : Byte) : Bool := st &&& 0x02#8 != 0#8
def rxIXSM (st : Byte) : Bool := st &&& 0x04#8 != 0#8
def rxTCPCS (st : Byte) : Bool := st &&& 0x20#8 != 0#8
def rxIPCS (st : Byte) : Bool := st &&& 0x40#8 != 0#8

/-- The errors byte as it is read: its reserved bit 3 is ignored (R142, R152, V5; log 48). -/
def rxErrorsField (er : Byte) : Byte := er &&& 0xF7#8

/-- "if end-of-packet is set and the error byte is zero" (R211, line S5), of the byte as read. -/
def rxGood (st er : Byte) : Bool := rxEOP st && er == 0#8

/-- The status byte of a write-back: DD set, the reserved bit 4 zero (R424). -/
def rxWriteBackStatus (st : Byte) : Byte := (st ||| 0x01#8) &&& 0xEF#8

/-! ## TX descriptor status (R147, R428) -/

def txDD (st : Word) : Bool := hasBits st 1#32

/-- The status word of a write-back (R428): DD set, EC, LC, TU and the reserved bits 7:4 (V5) as the NIC reports them,
CSS and bits 31:16 unchanged. -/
def txWriteBackStatus (old : Word) (ec lc tu : Bool) (rsv : BitVec 4) : Word :=
  (old.extractLsb' 8 24 ++ rsv ++ BitVec.ofBool tu ++ BitVec.ofBool lc ++ BitVec.ofBool ec ++ 1#1 :
    BitVec (24 + 4 + 1 + 1 + 1 + 1))

/-! ## Replenish trigger (R213) -/

/-- `TRIGGER(cause)`: a deficit of at least 32, or the minimum-threshold cause. -/
def rxTrigger (nrd : Nat) (rdfree : Half) (cause : Word) : Bool :=
  decide (replenishDeficit ≤ nrd - rdfree.toNat) || hasBits cause (causeBit .rxdmt0)

/-! ## Interrupt line and classes (R437, R274, R278) -/

/-- The line is asserted exactly when `(ICR and HwIMS) != 0`. -/
def lineAsserted (r : NicRegs) : Bool := hasBits r.icr r.hwIms

/-- A union of whole classes among LINK, RX and TX (R278). -/
def wholeClasses (m : Word) : Bool :=
  (m &&& ~~~allClass == 0#32) && (m &&& rxClass == 0#32 || m &&& rxClass == rxClass)

/-- The classes a masked cause word signals (R274). -/
def signalled (icr : Word) : Word :=
  (if hasBits icr linkClass then linkClass else 0#32) ||| (if hasBits icr rxClass then rxClass else 0#32)
    ||| (if hasBits icr txClass then txClass else 0#32)

/-! ## Status codes (R450) -/

def Status.code : Status → Byte
  | .ok => 0x00
  | .hardwareTimeout => 0x01
  | .descriptorError => 0x02
  | .resourceExhausted => 0x03
  | .badArgument => 0x04
  | .eepromChecksumError => 0x05
  | .notReady => 0x06
  | .deviceContract => 0x80
  | .upstreamContract => 0x81

/-- Model faults (R456), as against the fatal errors of R322. -/
def Status.isModelFault : Status → Bool
  | .deviceContract | .upstreamContract => true
  | _ => false

end Sys2Proof.Machine
end

