-- ==== Sys2Proof/Machine/Ops.lean ====
section
/-!
DEFINITION. The named operations of the HRE: DMA memory, register transactions with their side effects, locks, the
pool, buffers, the trace, error records, and the interrupt's entry and return.
-/

namespace Sys2Proof.Machine

/-! ## DMA memory (R80, R84): a sorted list of the bytes that differ from what an unlisted address reads as -/

/-- What an unlisted address reads as (log 6). -/
def Mem.blank : Byte := 0#8

/-- Read one byte. -/
def Mem.get : List Host.Cell → Nat → Byte
  | [], _ => Mem.blank
  | (x, b) :: m, a => if x = a then b else Mem.get m a

/-- Write one byte, keeping the canonical form. -/
def Mem.put : List Host.Cell → Nat → Byte → List Host.Cell
  | [], a, v => if v = Mem.blank then [] else [(a, v)]
  | (x, b) :: m, a, v =>
    if a < x then (if v = Mem.blank then (x, b) :: m else (a, v) :: (x, b) :: m)
    else if a = x then (if v = Mem.blank then m else (x, v) :: m)
    else (x, b) :: Mem.put m a v

/-- The canonical form: addresses strictly rising, no byte equal to an unlisted one. -/
def Mem.wf : List Host.Cell → Bool
  | [] => true
  | [(_, b)] => b != Mem.blank
  | (x, b) :: (y, c) :: m => decide (x < y) && b != Mem.blank && Mem.wf ((y, c) :: m)

/-- Bytes at a physical address; the sum of address and offset wraps (R11). -/
def Mem.read8 (m : List Host.Cell) (a : DWord) : Byte := Mem.get m a.toNat
def Mem.write8 (m : List Host.Cell) (a : DWord) (v : Byte) : List Host.Cell := Mem.put m a.toNat v

/-- Little-endian accesses at field width (R84, R86). -/
def Mem.read16 (m : List Host.Cell) (a : DWord) : Half := Mem.read8 m (a + 1#64) ++ Mem.read8 m a

def Mem.write16 (m : List Host.Cell) (a : DWord) (v : Half) : List Host.Cell :=
  Mem.write8 (Mem.write8 m a (v.setWidth 8)) (a + 1#64) ((v >>> 8).setWidth 8)

def Mem.read32 (m : List Host.Cell) (a : DWord) : Word := Mem.read16 m (a + 2#64) ++ Mem.read16 m a

def Mem.write32 (m : List Host.Cell) (a : DWord) (v : Word) : List Host.Cell :=
  Mem.write16 (Mem.write16 m a (v.setWidth 16)) (a + 2#64) ((v >>> 16).setWidth 16)

/-- A run of bytes from an address on (the NIC's write of a frame, R424). -/
def Mem.writeBytes (m : List Host.Cell) (a : DWord) : List Byte → List Host.Cell
  | [] => m
  | b :: bs => Mem.writeBytes (Mem.write8 m a b) (a + 1#64) bs

/-! ## Updates of the selected controller -/

def State.modC (s : State) (f : Ctlr → Ctlr) : State := { s with c := f s.c }

def State.modRegs (s : State) (f : NicRegs → NicRegs) : State :=
  { s with c := { s.c with regs := f s.c.regs } }

def State.setMem (s : State) (m : List Host.Cell) : State := { s with mem := m }

/-- Append an event to the trace (R62). -/
def State.emit (s : State) (e : TraceEv) : State := { s with c := { s.c with trace := s.c.trace ++ [e] } }

/-! ## Register transactions (R13, R88, R432-R439) -/

/-- The value a read returns. RST and EE_RST read 1 while their reset is pending (R422, R423: the bit is the pending
mark); RDH and TDH return the NIC's heads (R433); IMS returns HwIMS (R436). IMC is write-only: no caller reads it. -/
def regRead (g : NicRegs) : Reg → Word
  | .ctrl => g.ctrl
  | .status => g.status
  | .eerd => g.eerd
  | .ctrlExt => g.ctrlExt
  | .mdic => g.mdic
  | .fcal => g.fcal
  | .fcah => g.fcah
  | .fct => g.fct
  | .icr => g.icr
  | .ims => g.hwIms
  | .imc => g.hwIms
  | .rctl => g.rctl
  | .fcttv => g.fcttv
  | .tctl => g.tctl
  | .tipg => g.tipg
  | .pba => g.pba
  | .fcrtl => g.fcrtl
  | .fcrth => g.fcrth
  | .rdbal => g.rdbal
  | .rdbah => g.rdbah
  | .rdlen => g.rdlen
  | .rdh => g.hwRdh.setWidth 32
  | .rdt => g.rdt.setWidth 32
  | .rdtr => g.rdtr
  | .radv => g.radv
  | .tdbal => g.tdbal
  | .tdbah => g.tdbah
  | .tdlen => g.tdlen
  | .tdh => g.hwTdh.setWidth 32
  | .tdt => g.tdt.setWidth 32
  | .tidv => g.tidv
  | .rxcsum => g.rxcsum
  | .stat k => g.stat[k]
  | .mta k => g.mta[k]
  | .ral n => g.ral[n]
  | .rah n => g.rah[n]

/-- The side effect of a read: ICR and the statistics counters are cleared (R88, R435, R438). -/
def regAfterRead (g : NicRegs) : Reg → NicRegs
  | .icr => { g with icr := 0#32 }
  | .stat k => { g with stat := g.stat.set k 0#32 }
  | _ => g

/-- The effect of a write. CTRL and CTRL_EXT keep a pending reset bit (R422, R423); IMS sets and IMC clears bits of
HwIMS (R436); a request to EERD clears DONE, one to MDIC clears R and E (R434); head and tail registers hold 16 bits
(R129, R432, R433; log 42). DESIGN CHOICE (log 54): the other bits of EERD and MDIC read back as written until the request
is completed. DESIGN CHOICE (log 46): an index outside the ring, a tail moved back and a head written while its ring is
enabled, which the HRE never writes, are stored like any other. STATUS, ICR and STAT have no write (R110): no caller writes
them. -/
def regWrite (l : EerdLayout) (g : NicRegs) (r : Reg) (v : Word) : NicRegs :=
  match r with
  | .ctrl => { g with ctrl := v ||| (g.ctrl &&& ctrlRst) }
  | .status => g
  | .eerd => { g with eerd := v &&& ~~~eerdDoneBit l }
  | .ctrlExt => { g with ctrlExt := v ||| (g.ctrlExt &&& ctrlExtEeRst) }
  | .mdic => { g with mdic := v &&& ~~~(mdicR ||| mdicE) }
  | .fcal => { g with fcal := v }
  | .fcah => { g with fcah := v }
  | .fct => { g with fct := v }
  | .icr => g
  | .ims => { g with hwIms := g.hwIms ||| v }
  | .imc => { g with hwIms := g.hwIms &&& ~~~v }
  | .rctl => { g with rctl := v }
  | .fcttv => { g with fcttv := v }
  | .tctl => { g with tctl := v }
  | .tipg => { g with tipg := v }
  | .pba => { g with pba := v }
  | .fcrtl => { g with fcrtl := v }
  | .fcrth => { g with fcrth := v }
  | .rdbal => { g with rdbal := v }
  | .rdbah => { g with rdbah := v }
  | .rdlen => { g with rdlen := v }
  | .rdh => { g with hwRdh := ringIndex v }
  | .rdt => { g with rdt := ringIndex v }
  | .rdtr => { g with rdtr := v }
  | .radv => { g with radv := v }
  | .tdbal => { g with tdbal := v }
  | .tdbah => { g with tdbah := v }
  | .tdlen => { g with tdlen := v }
  | .tdh => { g with hwTdh := ringIndex v }
  | .tdt => { g with tdt := ringIndex v }
  | .tidv => { g with tidv := v }
  | .rxcsum => { g with rxcsum := v }
  | .stat _ => g
  | .mta k => { g with mta := g.mta.set k v }
  | .ral n => { g with ral := g.ral.set n v }
  | .rah n => { g with rah := g.rah.set n v }

/-- The handshake requests a write starts (R434): EERD with START, MDIC with OP read or write. DESIGN CHOICE (log 53): a
request that is still pending is superseded, and only the newest is answered. -/
def devAfterWrite (d : Device) (r : Reg) (v : Word) : Device :=
  match r with
  | .eerd => { d with eerdPending := hasBits v eerdStart }
  | .mdic => { d with mdicPending := mdicIsRead v || mdicIsWrite v }
  | _ => d

/-- `MmioRead(R)` (R13): the value, and the state with the read's side effect and its trace entry (R62). -/
def mmioRead (s : State) (r : Reg) : Word × State :=
  (regRead s.c.regs r,
    (s.modRegs fun g => regAfterRead g r).emit (.mmioR r (regRead s.c.regs r)))

/-- `MmioWrite(R, v)` (R13). -/
def mmioWrite (s : State) (r : Reg) (v : Word) : State :=
  (s.modC fun c =>
    { c with regs := regWrite c.cfg.variant.eerdLayout c.regs r v, dev := devAfterWrite c.dev r v }).emit
      (.mmioW r v)

/-- The transactions R110's access column and R125 give the HRE a step for (U13, V6). -/
def regReadable : Reg → Bool
  | .imc => false
  | _ => true

def regWritable (r : Reg) (v : Word) : Bool :=
  match r with
  | .status | .icr | .stat _ => false
  | .mdic => mdicIsRead v || mdicIsWrite v
  | _ => true

/-! ## Descriptor fields (R13: `RD(i).f`, `TD(i).f`) -/

def rdAddr (c : Ctlr) (i : Half) (off : Nat) : DWord := descAddr c.rdba i off
def tdAddr (c : Ctlr) (i : Half) (off : Nat) : DWord := descAddr c.tdba i off

def State.rd8 (s : State) (i : Half) (off : Nat) : Byte := Mem.read8 s.mem (rdAddr s.c i off)
def State.rd16 (s : State) (i : Half) (off : Nat) : Half := Mem.read16 s.mem (rdAddr s.c i off)
def State.rd32 (s : State) (i : Half) (off : Nat) : Word := Mem.read32 s.mem (rdAddr s.c i off)
def State.td32 (s : State) (i : Half) (off : Nat) : Word := Mem.read32 s.mem (tdAddr s.c i off)

def State.setRd8 (s : State) (i : Half) (off : Nat) (v : Byte) : State :=
  s.setMem (Mem.write8 s.mem (rdAddr s.c i off) v)
def State.setRd16 (s : State) (i : Half) (off : Nat) (v : Half) : State :=
  s.setMem (Mem.write16 s.mem (rdAddr s.c i off) v)
def State.setRd32 (s : State) (i : Half) (off : Nat) (v : Word) : State :=
  s.setMem (Mem.write32 s.mem (rdAddr s.c i off) v)
def State.setTd32 (s : State) (i : Half) (off : Nat) (v : Word) : State :=
  s.setMem (Mem.write32 s.mem (tdAddr s.c i off) v)

/-! The fields whose bit positions are the register map's (R8, R141-R143, R146, R147): DMA memory holds the chip's bits, an
agent reads and writes fields. A field of zeros is the same in every layout; the lines that clear one write it plainly. -/

/-- `RD(i).status` and `RD(i).errors`, the latter with its reserved bit ignored (R152). -/
def State.rxStatus (s : State) (i : Half) : Byte := s.c.cfg.regMap.fromChip8 .rxStatus (s.rd8 i offStatus)
def State.rxErrors (s : State) (i : Half) : Byte := rxErrorsField (s.c.cfg.regMap.fromChip8 .rxErrors (s.rd8 i offErrors))

def State.setRxStatus (s : State) (i : Half) (v : Byte) : State :=
  s.setRd8 i offStatus (s.c.cfg.regMap.toChip8 .rxStatus v)
def State.setRxErrors (s : State) (i : Half) (v : Byte) : State :=
  s.setRd8 i offErrors (s.c.cfg.regMap.toChip8 .rxErrors v)
def State.setRxSpecial (s : State) (i : Half) (v : Half) : State :=
  s.setRd16 i offSpecial (s.c.cfg.regMap.toChip16 .rxSpecial v)

/-- `TD(i).control` and `TD(i).status`. -/
def State.txControl (s : State) (i : Half) : Word := s.c.cfg.regMap.fromChip .txControl (s.td32 i offControl)
def State.txStatus (s : State) (i : Half) : Word := s.c.cfg.regMap.fromChip .txStatus (s.td32 i offTxStatus)

def State.setTxControl (s : State) (i : Half) (v : Word) : State :=
  s.setTd32 i offControl (s.c.cfg.regMap.toChip .txControl v)
def State.setTxStatus (s : State) (i : Half) (v : Word) : State :=
  s.setTd32 i offTxStatus (s.c.cfg.regMap.toChip .txStatus v)

/-! ## Buffers (R45, R303) -/

/-- A buffer's record. -/
def bufGet : List (BufId × Buf) → BufId → Option Buf
  | [], _ => none
  | (x, r) :: bs, b => if x = b then some r else bufGet bs b

/-- Change a buffer's record. -/
def bufMod (bs : List (BufId × Buf)) (b : BufId) (f : Buf → Buf) : List (BufId × Buf) :=
  bs.map fun e => if e.1 = b then (e.1, f e.2) else e

/-- Add a buffer's record, the ids kept rising. -/
def bufInsert : List (BufId × Buf) → BufId → Buf → List (BufId × Buf)
  | [], b, r => [(b, r)]
  | (x, q) :: bs, b, r => if b < x then (b, r) :: (x, q) :: bs else (x, q) :: bufInsert bs b r

def State.buf? (s : State) (b : BufId) : Option Buf := bufGet s.bufs b

def State.modBuf (s : State) (b : BufId) (f : Buf → Buf) : State := { s with bufs := bufMod s.bufs b f }

/-- `len(p) = p.wp - p.rp` (41, header). -/
def Buf.len (r : Buf) : Word := r.wp - r.rp

/-- `PA(b, o)` (D7). -/
def Buf.pa (r : Buf) (o : Word) : DWord := r.base + o.setWidth 64

/-- RESET(b) (R303). -/
def Buf.resetCursors (r : Buf) : Buf :=
  { r with rp := 0, wp := 0, lim := r.cap, ipOk := false, tcpOk := false, udpOk := false, csumPresent := false,
           csum := 0 }

def Buf.setOwner (o : Owner) (r : Buf) : Buf := { r with owner := o }

/-! ## The pool (R15, R300-R302), each operation under `plock` within its step -/

/-- PoolPop: a free buffer chosen by the draw (R301), its removal, and its new owner in the same step. -/
def poolPop (s : State) (draw : Nat) (o : Owner) : Option (BufId × State) :=
  match s.free[draw % s.free.length]? with
  | none => none
  | some b =>
    some (b, ({ s with free := s.free.eraseIdx (draw % s.free.length), plock := none }).modBuf b (Buf.setOwner o))

/-- PoolPush(b) (R302): pushed on top of the reference order. -/
def poolPush (s : State) (b : BufId) : State :=
  ({ s with free := b :: s.free, plock := none }).modBuf b (Buf.setOwner .pool)

/-- RELEASE(b)'s one step (R305): to its origin. -/
def releaseBuf (s : State) (b : BufId) : State :=
  match s.buf? b with
  | some r =>
    match r.origin with
    | .pool => poolPush s b
    | .host => s.modBuf b (Buf.setOwner .host)
  | none => s

/-- RELEASE(b) (R305): the release, and then its event, one step (DESIGN CHOICE, log 56). The caller has cleared the slot in
the same step. -/
def releaseTx (s : State) (b : BufId) : State := (releaseBuf s b).emit (.txRelease b)

/-! ## Locks (R14, R96): one step each -/

/-- What an agent's step comes to: a next state, no step (a held lock, a park, an agent that has not started, has
ended or is stopped), or a fault. -/
inductive StepRes where
  | go (s : State)
  | blocked
  | fault (f : Fault)
  deriving Repr

/-- `Acquire(mlock)`, enabled only when it is free. -/
def acquireM (s : State) (a : AgentId) (k : State → State) : StepRes :=
  match s.c.mlock with
  | none => .go (k (s.modC fun c => { c with mlock := some a }))
  | some _ => .blocked

def releaseM (s : State) : State := s.modC fun c => { c with mlock := none }

/-- `Acquire(tlock)`. -/
def acquireT (s : State) (a : AgentId) (k : State → State) : StepRes :=
  match s.c.tlock with
  | none => .go (k (s.modC fun c => { c with tlock := some a }))
  | some _ => .blocked

def releaseT (s : State) : State := s.modC fun c => { c with tlock := none }

/-! ## Errors (R16, R322, R456) -/

/-- `raise Fault(kind, info)`: the record is appended; the caller stops its agent. -/
def raiseFault (s : State) (r : FaultRec) : State := s.modC fun c => { c with fault := c.fault ++ [r] }

/-- The end of a control command: its status in the trace, `LC` idle. -/
def finishLc (s : State) (st : Status) : State :=
  (s.emit (.cmd s.c.lcCmd st)).modC fun c => { c with lcCtl := .idle }

/-- `fatal(kind, info)` (R322). -/
def fatal (s : State) (r : FaultRec) : State :=
  finishLc ((raiseFault s r).modC fun c => { c with lastError := some r, lc := .faulted }) r.kind

/-- The end of a host command in its first step: its status in the trace and nothing else (R454). -/
def replyCmd (s : State) (i : Instr) (st : Status) : State := s.emit (.cmd i st)

/-! ## Taking an interrupt and returning from it (R270, R463, R464) -/

/-- The interrupt's entry (R463): with the line asserted (R437) and `DISP` idle, a dispatcher run begins at line Q1.
Nothing is saved: `DISP` is an agent of its own; line Q2 clears HwIMS, line Q3 takes the snapshot `im_entry`.
Otherwise there is no entry (R465: no nesting). No lifecycle state is asked for (DESIGN CHOICE before the first command,
log 59). -/
def takeInterrupt (s : State) : State :=
  if lineAsserted s.c.regs && s.c.disp.ctl == .idle then
    s.modC fun c => { c with disp := { c.disp with ctl := .q1 } }
  else s

/-- The return (R464, line X3): `mlock` is released and `DISP` is idle. -/
def returnFromInterrupt (s : State) : State :=
  (releaseM s).modC fun c => { c with disp := { c.disp with ctl := .idle } }

end Sys2Proof.Machine
end

