-- ==== Sys2Proof/Machine/Handshake.lean ====
section
/-!
DEFINITION. The bounded hardware handshake (44_lifecycle.md R324) and its uses: EE_READ (R325), PHY_READ (R326) and
PHY_WRITE (R327). It counts reads exactly (R529): at most `HS_CEIL` of them follow the request's write.
-/

namespace Sys2Proof.Machine

/-- The sentinel (D36): the value beside a failure, never decoded (R528). -/
def sentinel : Word := 0xFFFFFFFF#32

/-- HANDSHAKE(R, req, DONE, ERR), lines H1, H3 with the free tests H4-H6, and H7; `done ok v` ends it. The error bit
is tested before the complete bit (D35). -/
def hsStep (s : State) (r : Reg) (req : Word) (err cpl : Word → Bool) (p : HsPc) (jump : HsPc → State → State)
    (done : Bool → Word → State → State) : StepRes :=
  match p with
  | .h1 => .go (jump (.h3 1) (mmioWrite s r req))
  | .h3 i =>
    let rs := mmioRead s r
    if err rs.1 then .go (done false sentinel rs.2)
    else if cpl rs.1 then .go (done true rs.1 rs.2)
    else if i = hsCeil then .go (done false sentinel rs.2)
    else .go (jump (.h7 i) rs.2)
  | .h7 i => .go (jump (.h3 (i + 1)) s)

/-- EE_READ(w) (R325): EERD has no error bit. -/
def eeReadStep (s : State) (w : Nat) (p : HsPc) (jump : HsPc → State → State)
    (done : Bool → Word → State → State) : StepRes :=
  let l := s.c.cfg.variant.eerdLayout
  hsStep s .eerd (eerdRequest l w) (fun _ => false) (fun v => hasBits v (eerdDoneBit l)) p jump done

/-- PHY_READ(reg) (R326). -/
def phyReadStep (s : State) (reg : BitVec 5) (p : HsPc) (jump : HsPc → State → State)
    (done : Bool → Word → State → State) : StepRes :=
  hsStep s .mdic (mdicReadReq s.c.cfg.phyAddr reg) (fun v => hasBits v mdicE) (fun v => hasBits v mdicR) p jump done

/-- PHY_WRITE(reg, d) (R327): part of the hardware, issued by no sequence of the spec. -/
def phyWriteStep (s : State) (reg : BitVec 5) (d : Half) (p : HsPc) (jump : HsPc → State → State)
    (done : Bool → Word → State → State) : StepRes :=
  hsStep s .mdic (mdicWriteReq s.c.cfg.phyAddr reg d) (fun v => hasBits v mdicE) (fun v => hasBits v mdicR) p jump
    done

end Sys2Proof.Machine
end

