-- ==== Sys2Proof/Machine/Demux.lean ====
section
/-!
DEFINITION. The interrupt demultiplexer (42_interrupt_demux.md): the worker-side operations ARM and WAKE and the
dispatcher run DISPATCH, one line a step. A routine that an agent calls takes `jump`, which records the agent's next
line inside the routine, and `done`, which ends it.
-/

namespace Sys2Proof.Machine

/-! ## ARM and WAKE (R280, R281) -/

/-- ARM(CLASS), lines M1-M4: `mlock`, the class added to `im`, IMS written with `im`, `mlock` freed. -/
def armStep (s : State) (a : AgentId) (cls : Word) (p : ArmPc) (jump : ArmPc → State → State)
    (done : State → State) : StepRes :=
  match p with
  | .m1 => acquireM s a (jump .m2)
  | .m2 => .go (jump .m3 (s.modC fun c => { c with im := c.im ||| cls }))
  | .m3 => .go (jump .m4 (mmioWrite s .ims s.c.im))
  | .m4 => .go (done (releaseM s))

/-- WAKE(F), lines K1-K3: under `mlock` the flag is snapshotted and cleared (`take`). -/
def wakeStep (s : State) (a : AgentId) (p : WakePc) (take : State → State) (jump : WakePc → State → State)
    (done : State → State) : StepRes :=
  match p with
  | .k1 => acquireM s a (jump .k2)
  | .k2 => .go (jump .k3 (take s))
  | .k3 => .go (done (releaseM s))

/-! ## DISPATCH (R271) -/

def setDisp (s : State) (f : Disp → Disp) : State := s.modC fun c => { c with disp := f c.disp }

/-- Line L2 and the tests of L3-L5 are free: the line after a read, and after each class handled. -/
def dispFromL5 (icr : Word) : DispCtl := if hasBits icr txClass then .l5 else .l1
def dispFromL4 (icr : Word) : DispCtl := if hasBits icr rxClass then .l4 else dispFromL5 icr
def dispFromL3 (icr : Word) : DispCtl := if hasBits icr linkClass then .l3 else dispFromL4 icr
def dispFromL2 (icr : Word) : DispCtl := if icr = 0#32 then .x1 else dispFromL3 icr

/-- Line L1 (R273): ICR is read, which clears every latched cause, and masked with `im_entry`. -/
def dispRead (s : State) : State :=
  let rs := mmioRead s .icr
  setDisp rs.2 fun d =>
    { d with icr := rs.1 &&& d.imEntry, ctl := dispFromL2 (rs.1 &&& d.imEntry) }

/-- Line L3, LINK (R274): LSC leaves the working mask, `lim` records it. -/
def handleLink (s : State) : State :=
  s.modC fun c =>
    { c with lim := c.lim ||| (c.disp.icr &&& linkClass),
             disp := { c.disp with work := c.disp.work &&& ~~~linkClass, ctl := dispFromL4 c.disp.icr } }

/-- Line L4, RX (R274): the whole RX class leaves the working mask, `rim` records the bits read. -/
def handleRx (s : State) : State :=
  s.modC fun c =>
    { c with rim := c.rim ||| (c.disp.icr &&& rxClass),
             disp := { c.disp with work := c.disp.work &&& ~~~rxClass, ctl := dispFromL5 c.disp.icr } }

/-- Line L5, TX (R274): TXDW leaves the working mask, `tsig` is set; no cause is recorded. -/
def handleTx (s : State) : State :=
  s.modC fun c =>
    { c with tsig := true, disp := { c.disp with work := c.disp.work &&& ~~~txClass, ctl := .l1 } }

/-- One step of `DISP` (R270-R276). Idle, it starts a run when the line is asserted, in every lifecycle state: before the
first command too, where the NIC's registers as given at the launch assert it (DESIGN CHOICE, log 59). -/
def dispStep (s : State) : StepRes :=
  match s.c.disp.ctl with
  | .idle => if lineAsserted s.c.regs then .go (takeInterrupt s) else .blocked
  | .q1 => acquireM s .disp fun t => setDisp t fun d => { d with ctl := .q2 }
  | .q2 => .go (setDisp (mmioWrite s .imc 0xFFFFFFFF#32) fun d => { d with ctl := .q3 })
  | .q3 => .go (dispRead (setDisp s fun d => { d with imEntry := s.c.im, work := s.c.im }))
  | .l1 => .go (dispRead s)
  | .l3 => .go (handleLink s)
  | .l4 => .go (handleRx s)
  | .l5 => .go (handleTx s)
  | .x1 => .go (s.modC fun c => { c with im := c.disp.work, disp := { c.disp with ctl := .x2 } })
  | .x2 => .go (setDisp (mmioWrite s .ims s.c.disp.work) fun d => { d with ctl := .x3 })
  | .x3 => .go (returnFromInterrupt s)

end Sys2Proof.Machine
end

