-- ==== Sys2Proof/Machine/RxRing.lean ====
section
/-!
DEFINITION. The receive ring engine (40_rx_ring.md): REPLENISH (R220), run by the RX worker and by RX_INIT, and the
RX worker's loop (R206) with DELIVER (R211) and DISCARD (R214).
-/

namespace Sys2Proof.Machine

/-! ## REPLENISH (R220-R225) -/

/-- Lines R1 and R2's test, free: full, busy, or a slot to fill. -/
def repNext (c : Ctlr) : RepPc :=
  if ringNext c.rdt c.cfg.nrd = c.rdh then .r9
  else if (c.rb.getD c.rdt.toNat none).isSome then .r2
  else .r3

/-- One step of REPLENISH; `draw` is the pool's draw at line R3 (R301). -/
def repStep (s : State) (p : RepPc) (draw : Nat) (jump : RepPc → State → State) (done : State → State) : StepRes :=
  match p with
  | .r2 => .go (jump .r9 (s.emit (.rxSlotBusy s.c.rdt)))
  | .r3 =>
    match poolPop s draw (.rxSlot s.c.id s.c.rdt) with
    | none => .go (jump .r4 { s with plock := none })
    | some (b, t) => .go (jump (.r5 b) (t.modC fun c => { c with rb := c.rb.set c.rdt.toNat (some b) }))
  | .r4 => .go (jump .r9 (s.emit .rxPoolEmpty))
  | .r5 b => .go (jump (.r6 b) (s.modBuf b Buf.resetCursors))
  | .r6 b =>
    match s.buf? b with
    | none => .fault (.noSuchBuffer b)
    | some r => .go (jump (.r7 b) (s.setRd32 s.c.rdt offAddrLo (addrLoWord (r.pa 0#32))))
  | .r7 b =>
    match s.buf? b with
    | none => .fault (.noSuchBuffer b)
    | some r => .go (jump (.r8 b) (s.setRd32 s.c.rdt offAddrHi (addrHiWord (r.pa 0#32))))
  | .r8 _ =>
    let t := (s.setRd8 s.c.rdt offStatus 0#8).modC fun c =>
      { c with rdfree := c.rdfree + 1#16, rdt := ringNext c.rdt c.cfg.nrd }
    .go (jump (repNext t.c) t)
  | .r9 => .go (done (mmioWrite s .rdt (s.c.rdt.setWidth 32)))

/-! ## The RX worker -/

def setRxw (s : State) (f : RxWorker → RxWorker) : State := s.modC fun c => { c with rxw := f c.rxw }

def rxwJump (x : RxCtl) (s : State) : State := setRxw s fun w => { w with ctl := x }

/-- The RX worker stops at a faulting line (R456). -/
def rxwRaise (s : State) (at_ : RxCtl) (i : ErrInfo) : State :=
  rxwJump at_ (raiseFault s { kind := .deviceContract, info := i })

/-- After line S2 finds no Done descriptor: line P1's free test (R215). -/
def rxwAfterScan (c : Ctlr) : RxCtl :=
  if c.rxw.nrep = 0 && rxTrigger c.cfg.nrd c.rdfree c.rxw.cause then .p1 (repNext c) else .w1 .m1

/-- After line S7: line S8's free test (R213). -/
def rxwAfterHarvest (c : Ctlr) : RxCtl :=
  if rxTrigger c.cfg.nrd c.rdfree c.rxw.cause then .s8 (repNext c) else .s1

/-- Lines D3 and D4's free test: the cursors are trimmed to the reported length. -/
def trimBuf (len : Word) (r : Buf) : Buf := { r with wp := r.wp + len, lim := r.wp + len }

/-- Line D4: the checksum annotations (R211, D26). -/
def annotate (st : Byte) (cs : Half) (r : Buf) : Buf :=
  { r with ipOk := rxIPCS st, tcpOk := rxTCPCS st, udpOk := rxTCPCS st, csum := cs, csumPresent := true }

/-- One step of `RXW` (R206). -/
def rxwStep (s : State) (draw : Nat) : StepRes :=
  let w := s.c.rxw
  match w.ctl with
  | .notStarted => .blocked
  | .w1 p => armStep s .rxw rxClass p (fun q t => rxwJump (.w1 q) t) (rxwJump .w2)
  | .w2 => if s.c.rim = 0#32 then .blocked else .go (rxwJump (.w3 .k1) s)
  | .w3 p =>
    wakeStep s .rxw p
      (fun t => t.modC fun c => { c with rxw := { c.rxw with cause := c.rim }, rim := 0#32 })
      (fun q t => rxwJump (.w3 q) t)
      (fun t => setRxw t fun x => { x with ctl := .s1, nrep := 0 })
  | .s1 =>
    let st := s.rxStatus s.c.rdh
    if rxDD st then .go (setRxw s fun x => { x with ctl := .s3, st := st })
    else .go (setRxw s fun x => { x with ctl := rxwAfterScan s.c, st := st })
  | .s3 =>
    match s.c.rb.getD s.c.rdh.toNat none with
    | none => .go (rxwRaise s .haltS3 (.rxNoBuffer s.c.rdh))
    | some b =>
      let er := s.rxErrors s.c.rdh
      .go (setRxw s fun x => { x with b := b, er := er, ctl := if rxGood x.st er then .d1 else .discard })
  | .d1 => .go (setRxw s fun x => { x with ctl := .d2, len := (s.rd16 s.c.rdh offLength).setWidth 32 })
  | .d2 =>
    match s.buf? w.b with
    | none => .fault (.noSuchBuffer w.b)
    | some r =>
      if r.wp + w.len > r.cap then .go (rxwRaise s .haltD2 (.rxLength s.c.rdh w.len))
      else .go (rxwJump (if rxIXSM w.st then .d5 else .d4) (s.modBuf w.b (trimBuf w.len)))
  | .d4 => .go (rxwJump .d5 (s.modBuf w.b (annotate w.st (s.rd16 s.c.rdh offChecksum))))
  | .d5 =>
    .go (rxwJump .s6
      (((s.modC fun c => { c with rb := c.rb.set c.rdh.toNat none }).modBuf w.b (Buf.setOwner .host)).emit
        (.deliver w.b)))
  | .discard =>
    .go (rxwJump .s6
      ((poolPush (s.modC fun c => { c with rb := c.rb.set c.rdh.toNat none }) w.b).emit (.rxDiscard w.b w.er)))
  | .s6 => .go (rxwJump .s7 (s.setRd8 s.c.rdh offStatus 0#8))
  | .s7 =>
    let t := (s.setRd8 s.c.rdh offErrors 0#8).modC fun c =>
      { c with rdfree := c.rdfree - 1#16, rdh := ringNext c.rdh c.cfg.nrd }
    .go (rxwJump (rxwAfterHarvest t.c) t)
  | .s8 p =>
    repStep s p draw (fun q t => rxwJump (.s8 q) t)
      (fun t => setRxw t fun x => { x with ctl := .s1, nrep := x.nrep + 1 })
  | .p1 p => repStep s p draw (fun q t => rxwJump (.p1 q) t) (rxwJump (.w1 .m1))
  | .haltS3 => .blocked
  | .haltD2 => .blocked

end Sys2Proof.Machine
end

