-- ==== Sys2Proof/Machine/TxRing.lean ====
section
/-!
DEFINITION. The transmit ring engine (41_tx_ring.md): TX_ROUTINE (R241), shared by the TX worker and the direct-send
callers, the TX worker's loop (R242), and the end of a direct send (R243).
-/

namespace Sys2Proof.Machine

/-- Line B1's free test (R250): full, or a slot to fill. -/
def txNext (c : Ctlr) : TxPc := if ringNext c.tdt c.cfg.ntd = c.tdh then .c1 else .b2

/-- Line E1's free test (R255): the tail is written only if it changed. -/
def txTail (c : Ctlr) (r : TxRun) : TxPc := if c.tdt = r.t0 then .e2 else .e1

/-- Line A3 (R246, R247): the slot's buffer is released to its origin, or the underrun is logged. -/
def txReclaim (s : State) : State :=
  match s.c.tb.getD s.c.tdh.toNat none with
  | some b =>
    releaseTx (s.modC fun c => { c with tb := c.tb.set c.tdh.toNat none }) b
  | none => s.emit (.txUnderrun s.c.tdh)

/-- The length contract of line B3 (R252). -/
def txLengthOk (p : Params) (len : Word) : Bool := len != 0#32 && decide (len.toNat ≤ p.txMaxLen)

/-- One step of TX_ROUTINE run by agent `a`. `jump` records the run, `done` ends it. -/
def txStep (s : State) (a : AgentId) (r : TxRun) (jump : TxRun → State → State) (done : State → State) : StepRes :=
  match r.pc with
  | .x0 => acquireT s a (jump { r with pc := .a1 })
  | .a1 =>
    if txDD (s.txStatus s.c.tdh) then .go (jump { r with pc := .a3 } s)
    else .go (jump { r with pc := txNext s.c, t0 := s.c.tdt } s)
  | .a3 => .go (jump { r with pc := .a4 } (txReclaim s))
  | .a4 =>
    .go (jump { r with pc := .a1 }
      ((s.setTd32 s.c.tdh offTxStatus 0#32).modC fun c => { c with tdh := ringNext c.tdh c.cfg.ntd }))
  | .b2 =>
    match s.c.oq with
    | [] => .go (jump { r with pc := txTail s.c r } s)
    | p :: q =>
      .go (jump { r with pc := .b4, p := p }
        ((s.modC fun c => { c with oq := q, tb := c.tb.set c.tdt.toNat (some p) }).modBuf p
          (Buf.setOwner (.txSlot s.c.id s.c.tdt))))
  | .b4 =>
    match s.buf? r.p with
    | none => .fault (.noSuchBuffer r.p)
    | some b =>
      if txLengthOk s.c.cfg b.len then
        .go (jump { r with pc := .b5 } (s.setTd32 s.c.tdt offAddrLo (addrLoWord (b.pa b.rp))))
      else
        .go (jump { r with pc := .haltB3 }
          (raiseFault s { kind := .upstreamContract, info := .txLength s.c.tdt b.len }))
  | .b5 =>
    match s.buf? r.p with
    | none => .fault (.noSuchBuffer r.p)
    | some b => .go (jump { r with pc := .b6 } (s.setTd32 s.c.tdt offAddrHi (addrHiWord (b.pa b.rp))))
  | .b6 =>
    match s.buf? r.p with
    | none => .fault (.noSuchBuffer r.p)
    | some b => .go (jump { r with pc := .b7 } (s.setTxControl s.c.tdt (txControl (b.len.setWidth 16))))
  | .b7 =>
    let t := s.modC fun c => { c with tdt := ringNext c.tdt c.cfg.ntd }
    .go (jump { r with pc := txNext t.c } t)
  | .c1 =>
    if s.c.oq.isEmpty then .go (jump { r with pc := txTail s.c r } s)
    else .go (jump { r with pc := .c1Arm .m1 } s)
  | .c1Arm p =>
    armStep s a txClass p (fun q t => jump { r with pc := .c1Arm q } t) (fun t => jump { r with pc := .c1Emit } t)
  | .c1Emit => .go (jump { r with pc := txTail s.c r } (s.emit .txRingFull))
  | .e1 => .go (jump { r with pc := .e2 } (mmioWrite s .tdt (s.c.tdt.setWidth 32)))
  | .e2 => .go (done (releaseT s))
  | .haltB3 => .blocked

/-- A routine at its first line. -/
def TxRun.start : TxRun := { pc := .x0, t0 := 0, p := 0 }

/-! ## The TX worker (R242) -/

def txwJump (x : TxwCtl) (s : State) : State := s.modC fun c => { c with txw := x }

def txwStep (s : State) : StepRes :=
  match s.c.txw with
  | .notStarted => .blocked
  | .t1 p => armStep s .txw txClass p (fun q t => txwJump (.t1 q) t) (txwJump .t2)
  | .t2 => if s.c.tsig then .go (txwJump (.t3 .k1) s) else .blocked
  | .t3 p =>
    wakeStep s .txw p (fun t => t.modC fun c => { c with tsig := false }) (fun q t => txwJump (.t3 q) t)
      (txwJump (.t4 TxRun.start))
  | .t4 r => txStep s .txw r (fun q t => txwJump (.t4 q) t) (txwJump (.t1 .m1))

/-! ## Direct-send callers (R243, R374) -/

/-- The caller `TXC[k]`'s run, if it is alive. -/
def txcFind : List Txc → Nat → Option TxRun
  | [], _ => none
  | x :: xs, k => if x.k = k then some x.run else txcFind xs k

def txcSet (xs : List Txc) (k : Nat) (r : TxRun) : List Txc :=
  xs.map fun x => if x.k = k then { x with run := r } else x

def txcJump (k : Nat) (r : TxRun) (s : State) : State := s.modC fun c => { c with txcs := txcSet c.txcs k r }

/-- The caller ends with status `OK`. -/
def txcEnd (k : Nat) (s : State) : State :=
  (s.modC fun c => { c with txcs := c.txcs.filter fun x => x.k != k }).emit (.cmd .txRequest .ok)

def txcStep (s : State) (k : Nat) : StepRes :=
  match txcFind s.c.txcs k with
  | none => .blocked
  | some r => txStep s (.txc k) r (txcJump k) (txcEnd k)

end Sys2Proof.Machine
end

