-- ==== Sys2Proof/Machine/Lifecycle.lean ====
section
/-!
DEFINITION. Agent `LC`: the ATTACH sequence (44_lifecycle.md R321), RX_INIT (40_rx_ring.md R200), TX_INIT
(41_tx_ring.md R240), SHUTDOWN (45_host_interface.md R377) and the control commands (R378-R381), one line a step.
-/

namespace Sys2Proof.Machine

def lcJump (x : LcCtl) (s : State) : State := s.modC fun c => { c with lcCtl := x }

/-! ## ATTACH: the reset phase (R330-R336) -/

/-- Line A1's free test (R330): the value PBA is written with, if any. -/
def pbaValue (p : Params) (q : PoolParams) : Option Word :=
  if p.variant.pbaThreshold < q.rbsize then p.variant.pbaRebalance else none

/-- The line after A0. -/
def lcAfterA0 (p : Params) (q : PoolParams) : LcCtl := if (pbaValue p q).isSome then .a1 else .a2

/-- The register of a read-modify-write, the bit it sets, and the line after it. -/
def Rmw.reg : Rmw → Reg
  | .a5 | .a7 | .z5 => .ctrl
  | .a8 => .ctrlExt

def Rmw.bit : Rmw → Word
  | .a5 | .z5 => ctrlRst
  | .a7 => ctrlSlu
  | .a8 => ctrlExtEeRst

def Rmw.next : Rmw → LcCtl
  | .a5 => .pollR .a6 1
  | .a7 => .rmwR .a8
  | .a8 => .pollR .a9 1
  | .z5 => .pollR .z6 1

/-- POLL (R323): the register, the condition, the ceiling, and the line after success and after failure. -/
def PollId.reg : PollId → Reg
  | .a6 | .z6 => .ctrl
  | .a9 => .ctrlExt
  | .a10 => .icr

def PollId.cond : PollId → Word → Bool
  | .a6, v | .z6, v => !hasBits v ctrlRst
  | .a9, v => !hasBits v ctrlExtEeRst
  | .a10, v => v == 0#32

def PollId.ceil (p : Params) : PollId → Nat
  | .a6 | .z6 => resetCeil
  | .a9 => p.eerstCeil
  | .a10 => p.drainCeil

def hwTimeout (i : ErrInfo) : FaultRec := { kind := .hardwareTimeout, info := i }

def PollId.ok : PollId → LcCtl
  | .a6 => .rmwR .a7
  | .a9 => .pollR .a10 1
  | .a10 => .b0
  | .z6 => .z7 true

def PollId.fail : PollId → LcCtl
  | .a6 => .fatal (hwTimeout .resetTimeout)
  | .a9 => .fatal (hwTimeout .eepromResetTimeout)
  | .a10 => .fatal (hwTimeout .drainTimeout)
  | .z6 => .z7 false

/-- Lines P2-P4: one counted read, with the free tests on its value. -/
def pollStep (s : State) (p : PollId) (i : Nat) : State :=
  let rs := mmioRead s p.reg
  lcJump (if p.cond rs.1 then p.ok else if p.ceil s.c.cfg ≤ i then p.fail else .pollD p i) rs.2

/-! ## ATTACH: the EEPROM phase (R340-R349) -/

/-- The line after word `w` is stored (R340). -/
def lcAfterWord (w : Nat) : LcCtl := if w + 1 < eeWords then .b1 (w + 1) .h1 else .b2

/-- Line B1's end: the word is stored, or the read failed and ATTACH with it. -/
def lcEeDone (w : Nat) (ok : Bool) (v : Word) (s : State) : State :=
  if ok then
    s.modC fun c => { c with ee := c.ee.set! w (eerdData v), lcCtl := lcAfterWord w }
  else lcJump (.fatal (hwTimeout (.eepromReadTimeout w))) s

/-- Line B2 (R341): 0 and the magic value are accepted. -/
def eeSumOk (v : Half) : Bool := v == 0#16 || v == eeMagic

/-- Lines B2 and E1 (R341, R345). -/
def lcChecksum (s : State) : State :=
  let v := eeSum s.c.ee
  if eeSumOk v then
    s.modC fun c => { c with ea := eaOf c.ee, lcCtl := if c.cfg.variant.lanidAdjust then .b3 else .c1 0 false }
  else fatal s { kind := .eepromChecksumError, info := .checksum v }

/-- Line C4 (R348): the six flow-control writes in order. -/
def fcWrite (p : Params) : Nat → Reg × Word
  | 0 => (.fcal, fcalInit)
  | 1 => (.fcah, fcahInit)
  | 2 => (.fct, fctInit)
  | 3 => (.fcttv, fcttvInit)
  | 4 => (.fcrtl, p.fcrtlInit)
  | _ => (.fcrth, p.fcrthInit)

/-! ## RX_INIT and TX_INIT (R200, R240) -/

/-- The first slot from `i` on that holds a buffer. -/
def nextHeld (xs : List (Option BufId)) (i : Nat) : Option Nat :=
  (List.range xs.length).find? fun j => decide (i ≤ j) && (xs.getD j none).isSome

/-- Line I6's free tests: the next leftover of the receive ring, or line I7. -/
def i6From (c : Ctlr) (i : Nat) : LcCtl :=
  match nextHeld c.rb i with
  | some j => .i6 j
  | none => .i7 0 0

/-- Line T6's free tests. -/
def t6From (c : Ctlr) (i : Nat) : LcCtl :=
  match nextHeld c.tb i with
  | some j => .t6 j
  | none => .t7 0 0

/-- Line I6: the leftover goes back to the pool. -/
def lcFreeRx (s : State) (i : Nat) : State :=
  match s.c.rb.getD i none with
  | some b => poolPush (s.modC fun c => { c with rb := c.rb.set i none }) b
  | none => s

/-- Line T6: the leftover is released to its origin (R305). -/
def lcFreeTx (s : State) (i : Nat) : State :=
  match s.c.tb.getD i none with
  | some b => releaseTx (s.modC fun c => { c with tb := c.tb.set i none }) b
  | none => s

/-- Line I7: field `f` of descriptor `i` is written 0. -/
def zeroRd (s : State) (i : Half) (f : Nat) : State :=
  match f with
  | 0 => s.setRd32 i offAddrLo 0#32
  | 1 => s.setRd32 i offAddrHi 0#32
  | 2 => s.setRd16 i offLength 0#16
  | 3 => s.setRd16 i offChecksum 0#16
  | 4 => s.setRd8 i offStatus 0#8
  | 5 => s.setRd8 i offErrors 0#8
  | _ => s.setRd16 i offSpecial 0#16

/-- Line T7. -/
def zeroTd (s : State) (i : Half) (f : Nat) : State :=
  match f with
  | 0 => s.setTd32 i offAddrLo 0#32
  | 1 => s.setTd32 i offAddrHi 0#32
  | 2 => s.setTd32 i offControl 0#32
  | _ => s.setTd32 i offTxStatus 0#32

def i7Next (n i f : Nat) : LcCtl :=
  if f < 6 then .i7 i (f + 1) else if i + 1 < n then .i7 (i + 1) 0 else .i8 false

def t7Next (n i f : Nat) : LcCtl :=
  if f < 3 then .t7 i (f + 1) else if i + 1 < n then .t7 (i + 1) 0 else .t8 false

/-- Line I11 (R200): RCTL_INIT with the promiscuous bits when `promisc` is set. -/
def rctlStart (c : Ctlr) (q : PoolParams) : Word :=
  rctlInit c.cfg.rdmts q.rbsize ||| (if c.promisc then rctlPromisc else 0#32)

/-- Line D3 (R511): the three workers start in one step. -/
def startWorkers (s : State) : State :=
  s.modC fun c => { c with rxw := { c.rxw with ctl := .w1 .m1 }, txw := .t1 .m1, lnk := .l1 .h1, lcCtl := .d4 }

/-! ## Control commands (R378-R381) -/

/-- Line S2 (R379): RCTL with the promiscuous bits set or cleared. -/
def promiscValue (on : Bool) (r : Word) : Word := if on then r ||| rctlPromisc else r &&& ~~~rctlPromisc

/-- Line M3 (R380): the entry with the hash bit set or cleared. -/
def mcastValue (member : Bool) (h : BitVec 12) (r : Word) : Word :=
  if member then r ||| mcastBit h else r &&& ~~~mcastBit h

/-- The MTA entry of the SET_MCAST command `LC` executes. -/
def lcMcastEntry : Instr → Fin 128
  | .setMcast _ a => mcastEntry (mcastHash a)
  | _ => 0

/-- Line T3 of R378: the register and the value of the tunable command `LC` executes. -/
def lcTunable (c : Ctlr) : Reg × Word :=
  match c.lcCmd with
  | .setRadv _ => (.radv, c.radv.setWidth 32)
  | _ => (.rdtr, c.rdtr.setWidth 32)

/-- The registers of line U3 (R381), in order. -/
def snapReg : Nat → Reg
  | 0 => .ctrl
  | 1 => .status
  | 2 => .rctl
  | 3 => .tctl
  | 4 => .rdh
  | 5 => .rdt
  | 6 => .tdh
  | _ => .tdt

/-- Line U2: one counter is read (and so cleared) and added. -/
def lcCounter (s : State) (k : Nat) : State :=
  let rs := mmioRead s (.stat (Fin.ofNat 73 k))
  rs.2.modC fun c =>
    { c with swStats := c.swStats.set! k (c.swStats.getD k 0#64 + rs.1.setWidth 64),
             lcCtl := if k + 1 < nstats then .u2 (k + 1) else .u3 0 }

/-- Line U1: `Acquire(slock)`. -/
def acquireS (s : State) : StepRes :=
  match s.c.slock with
  | none => .go (s.modC fun c => { c with slock := some .lc, lcCtl := .u2 0 })
  | some _ => .blocked

/-! ## One step of `LC` -/

/-- One step of `LC`; `draw` is the draw of a pool pop inside RX_INIT's REPLENISH. Line U3 is two steps, the read and its
event (DESIGN CHOICE, log 56). Line T9 writes `TCTL_INIT` with the enable bit, as D27 and R502 have it (DEDUCED, log 58). -/
def lcStep (s : State) (draw : Nat) : StepRes :=
  match s.c.lcCtl with
  | .idle => .blocked
  | .a1 =>
    match pbaValue s.c.cfg s.pool with
    | some v => .go (lcJump .a2 (mmioWrite s .pba v))
    | none => .go (lcJump .a2 s)
  | .a2 => .go (lcJump .a3 (mmioWrite s .imc 0xFFFFFFFF#32))
  | .a3 => .go (lcJump .a4 (mmioWrite s .rctl 0#32))
  | .a4 => .go (lcJump (.rmwR .a5) (mmioWrite s .tctl 0#32))
  | .rmwR w =>
    let rs := mmioRead s w.reg
    .go (lcJump (.rmwW w (rs.1 ||| w.bit)) rs.2)
  | .rmwW w v => .go (lcJump w.next (mmioWrite s w.reg v))
  | .pollR p i => .go (pollStep s p i)
  | .pollD p i => .go (lcJump (.pollR p (i + 1)) s)
  | .fatal r => .go (fatal s r)
  | .b0 => .go (s.modC fun c => { c with lc := .eepromLoading, lcCtl := .b1 0 .h1 })
  | .b1 w h => eeReadStep s w h (fun q t => lcJump (.b1 w q) t) (lcEeDone w)
  | .b2 => .go (lcChecksum s)
  | .b3 =>
    let rs := mmioRead s .status
    .go (rs.2.modC fun c => { c with ea := eaAdjust c.ea rs.1, lcCtl := .c1 0 false })
  | .c1 n hi =>
    if hi then .go (lcJump (if n + 1 < nra then .c1 (n + 1) false else .c2 false) (mmioWrite s (.rah (Fin.ofNat 16 n)) 0#32))
    else .go (lcJump (.c1 n true) (mmioWrite s (.ral (Fin.ofNat 16 n)) 0#32))
  | .c2 hi =>
    if hi then .go (lcJump (.c3 0) (mmioWrite s (.rah 0) (rahOf s.c.ea)))
    else .go (lcJump (.c2 true) (mmioWrite s (.ral 0) (ralOf s.c.ea)))
  | .c3 k =>
    .go (lcJump (if k + 1 < nmta then .c3 (k + 1) else .c4 0) (mmioWrite s (.mta (Fin.ofNat 128 k)) 0#32))
  | .c4 j =>
    .go (lcJump (if j < 5 then .c4 (j + 1) else .c5) (mmioWrite s (fcWrite s.c.cfg j).1 (fcWrite s.c.cfg j).2))
  | .c5 => .go (s.modC fun c => { c with lc := .configured, lcCtl := .i1 })
  | .i1 => .go (lcJump .i2 (mmioWrite s .rdbal (addrLoWord s.c.rdba)))
  | .i2 => .go (lcJump .i3 (mmioWrite s .rdbah (addrHiWord s.c.rdba)))
  | .i3 => .go (lcJump .i4 (mmioWrite s .rdlen (ringLen s.c.cfg.nrd)))
  | .i4 => .go (lcJump .i5 (mmioWrite (s.modC fun c => { c with rdh := 0, rdt := 0, rdfree := 0 }) .rdh 0#32))
  | .i5 =>
    let t := mmioWrite s .rdt 0#32
    .go (lcJump (i6From t.c 0) t)
  | .i6 i =>
    let t := lcFreeRx s i
    .go (lcJump (i6From t.c (i + 1)) t)
  | .i7 i f => .go (lcJump (i7Next s.c.cfg.nrd i f) (zeroRd s (BitVec.ofNat 16 i) f))
  | .i8 second =>
    if second then .go (lcJump .i9 (mmioWrite s .radv (s.c.radv.setWidth 32)))
    else .go (lcJump (.i8 true) (mmioWrite s .rdtr (s.c.rdtr.setWidth 32)))
  | .i9 => .go (lcJump (.i10 (repNext s.c)) (mmioWrite s .rxcsum rxcsumInit))
  | .i10 p => repStep s p draw (fun q t => lcJump (.i10 q) t) (lcJump .i11)
  | .i11 => .go (lcJump .t1 (mmioWrite s .rctl (rctlStart s.c s.pool)))
  | .t1 => .go (lcJump .t2 (mmioWrite s .tdbal (addrLoWord s.c.tdba)))
  | .t2 => .go (lcJump .t3 (mmioWrite s .tdbah (addrHiWord s.c.tdba)))
  | .t3 => .go (lcJump .t4 (mmioWrite s .tdlen (ringLen s.c.cfg.ntd)))
  | .t4 => .go (lcJump .t5 (mmioWrite (s.modC fun c => { c with tdh := 0, tdt := 0 }) .tdh 0#32))
  | .t5 =>
    let t := mmioWrite s .tdt 0#32
    .go (lcJump (t6From t.c 0) t)
  | .t6 i =>
    let t := lcFreeTx s i
    .go (lcJump (t6From t.c (i + 1)) t)
  | .t7 i f => .go (lcJump (t7Next s.c.cfg.ntd i f) (zeroTd s (BitVec.ofNat 16 i) f))
  | .t8 second =>
    if second then .go (lcJump .t9 (mmioWrite s .tidv (s.c.cfg.tidvInit.setWidth 32)))
    else .go (lcJump (.t8 true) (mmioWrite s .tipg s.c.cfg.tipgInit))
  | .t9 => .go (lcJump .d3 (mmioWrite s .tctl (tctlStart s.c.cfg)))
  | .d3 => .go (startWorkers s)
  | .d4 => .go (finishLc (s.modC fun c => { c with lc := .running }) .ok)
  | .z1 => acquireM s .lc (lcJump .z2)
  | .z2 => .go (lcJump .z3 (mmioWrite (s.modC fun c => { c with im := 0#32 }) .imc 0xFFFFFFFF#32))
  | .z3 => .go (lcJump .z4 (mmioWrite s .rctl 0#32))
  | .z4 => .go (lcJump (.rmwR .z5) (mmioWrite s .tctl 0#32))
  | .z7 done => .go (lcJump (.z8 done) (releaseM s))
  | .z8 done =>
    if done then .go (finishLc (s.modC fun c => { c with lc := .halted }) .ok)
    else .go (fatal s (hwTimeout .resetTimeout))
  | .promiscR =>
    let rs := mmioRead s .rctl
    .go (lcJump (.promiscW (promiscValue s.c.promisc rs.1)) rs.2)
  | .promiscW v => .go (finishLc (mmioWrite s .rctl v) .ok)
  | .mcastW v => .go (finishLc (mmioWrite s (.mta (lcMcastEntry s.c.lcCmd)) v) .ok)
  | .tunableW => .go (finishLc (mmioWrite s (lcTunable s.c).1 (lcTunable s.c).2) .ok)
  | .u1 => acquireS s
  | .u2 k => .go (lcCounter s k)
  | .u3 j =>
    let rs := mmioRead s (snapReg j)
    .go (lcJump (.u3e j rs.1) rs.2)
  | .u3e j v => .go (lcJump (if j < 7 then .u3 (j + 1) else .u4) (s.emit (.snapshot (snapReg j) v)))
  | .u4 => .go (lcJump .u5 (s.emit (.counters s.c.swStats s.c.speedHist s.c.linkUp s.c.speedIdx)))
  | .u5 => .go (finishLc (s.modC fun c => { c with slock := none }) .ok)

end Sys2Proof.Machine
end

