-- ==== Sys2Proof/Machine/LinkMon.lean ====
section
/-!
DEFINITION. The link monitor (46_link_monitor.md): the loop of agent `LNK`, one line a step.
-/

namespace Sys2Proof.Machine

def lnkJump (x : LnkCtl) (s : State) : State := s.modC fun c => { c with lnk := x }

/-- Lines L2 and L3's free test: the sentinel of a failed read is never decoded (R401, R528). -/
def lnkAfterRead (ok : Bool) (v : Word) : LnkCtl := if ok then .l3 (mdicData v) else .l2

/-- Line L3 (R402): the link state takes the decoded values. -/
def lnkDecode (s : State) (v : Half) : State :=
  let d := phyDecode s.c.cfg.variant.phyDecode v
  s.modC fun c => { c with linkUp := d.1, speedIdx := d.2, lnk := .l4 d.1 d.2 }

/-- Line L4 (R403): the histogram counts, whether the link is up or not. -/
def lnkCount (s : State) (up : Bool) (idx : Fin 4) : State :=
  (s.modC fun c => { c with speedHist := c.speedHist.set idx (c.speedHist[idx] + 1#32) }).emit
    (.linkUpdate up idx)

/-- One step of `LNK` (R400). -/
def lnkStep (s : State) : StepRes :=
  match s.c.lnk with
  | .notStarted => .blocked
  | .l1 h =>
    phyReadStep s s.c.cfg.phyStatusReg h (fun q t => lnkJump (.l1 q) t)
      (fun ok v t => lnkJump (lnkAfterRead ok v) t)
  | .l2 => .go (lnkJump .l5a (s.emit .linkSkip))
  | .l3 v => .go (lnkDecode s v)
  | .l4 up idx => .go (lnkJump .l5a (lnkCount s up idx))
  | .l5a => acquireM s .lnk (lnkJump .l5b)
  | .l5b => .go (lnkJump .l5c (s.modC fun c => { c with lim := 0#32 }))
  | .l5c => .go (lnkJump (.l6 .m1) (releaseM s))
  | .l6 p => armStep s .lnk linkClass p (fun q t => lnkJump (.l6 q) t) (lnkJump .l7)
  | .l7 => if s.c.lim = 0#32 then .blocked else .go (lnkJump (.l8 .k1) s)
  | .l8 p =>
    wakeStep s .lnk p (fun t => t.modC fun c => { c with lim := 0#32 }) (fun q t => lnkJump (.l8 q) t)
      (lnkJump (.l1 .h1))

end Sys2Proof.Machine
end

