-- ==== Sys2Proof/Machine/Device.lean ====
section
/-!
DEFINITION. The NIC's own actions (47_device_agent.md R420-R439). Each is one step; an action whose condition does not
hold is no step of the NIC and changes nothing (log 32).
-/

namespace Sys2Proof.Machine

def State.modDev (s : State) (f : Device → Device) : State := s.modC fun c => { c with dev := f c.dev }

/-- A device reset is pending exactly while CTRL.RST is 1 (R422). -/
def resetPending (g : NicRegs) : Bool := hasBits g.ctrl ctrlRst

/-! ## RX completion (R424, R439) -/

/-- When the NIC may complete a receive descriptor. -/
def rxAllowed (g : NicRegs) : Bool := hasBits g.rctl rctlEn && !resetPending g && g.hwRdh != g.rdt

/-- The frame's bytes from `k` on: listed, or a free value where the environment lists none (log 9). -/
def frameBytes (tick : Nat) (data : List Byte) (n : Nat) : List Byte :=
  (List.range n).map fun k => data.getD k (Config.freeByte tick k)

/-- The NIC's write-back of the descriptor at `i`: length, checksum, special, errors, and status with DD = 1 last. The
address words are not written (R424). -/
def rxWriteBack (s : State) (i : Half) (d : RxDesc) : State :=
  ((((s.setRd16 i offLength d.length).setRd16 i offChecksum d.checksum).setRxSpecial i d.special).setRxErrors i
    d.errors).setRxStatus i (rxWriteBackStatus d.status)

/-- The buffer address the descriptor at `i` holds. -/
def rxBufAddr (s : State) (i : Half) : DWord := descBufAddr (s.rd32 i offAddrLo) (s.rd32 i offAddrHi)

/-- How many bytes the NIC writes: the reported length, at most `RBSIZE` (log 18). -/
def rxByteCount (q : PoolParams) (d : RxDesc) : Nat := min d.length.toNat q.rbsize

/-- RX completion (R424): the frame's bytes, the write-back, and the head's advance, in one step. -/
def nicRx (s : State) (d : RxDesc) (data : List Byte) : State :=
  if rxAllowed s.c.regs then
    let i := s.c.regs.hwRdh
    let t := s.setMem (Mem.writeBytes s.mem (rxBufAddr s i) (frameBytes s.tick data (rxByteCount s.pool d)))
    { (rxWriteBack t i d).modRegs (fun g => { g with hwRdh := ringNext i s.c.cfg.nrd }) with tick := s.tick + 1 }
  else s

/-! ## TX completion (R428, R439) -/

def txAllowed (g : NicRegs) : Bool := hasBits g.tctl tctlEn && !resetPending g && g.hwTdh != g.tdt

/-- TX completion (R428): the frame is sent, the status word is written back when RS is set, the head advances. DESIGN
CHOICE (log 25), V7 leaving it open: a descriptor of another kind than legacy is not completed, and a legacy one with IC,
VLE, RPS or a nonzero CSO, which the HRE never writes, is completed like any other. -/
def nicTx (s : State) (ec lc tu : Bool) (rsv : BitVec 4) : State :=
  let i := s.c.regs.hwTdh
  let ctl := s.txControl i
  if txAllowed s.c.regs && txKind ctl == .legacy then
    let a := descBufAddr (s.td32 i offAddrLo) (s.td32 i offAddrHi)
    let t := if txCtlRs ctl then s.setTxStatus i (txWriteBackStatus (s.txStatus i) ec lc tu rsv) else s
    (t.modDev fun d => { d with sent := d.sent ++ [(a, (txCtlLength ctl).toNat)] }).modRegs fun g =>
      { g with hwTdh := ringNext i s.c.cfg.ntd }
  else s

/-! ## Cause latching (R425-R431) -/

/-- Causes are latched by OR-ing bits into ICR (R431). -/
def latch (s : State) (bits : Word) : State := s.modRegs fun g => { g with icr := g.icr ||| bits }

/-! ## Resets (R421-R423) -/

/-- The registers after a device reset: those R421 gives a value, the others as the environment chooses (`img`);
STATUS keeps the board's LAN_ID, and `ee` is what EE_RST reads (0 unless `dev stuck` holds it, log 28). -/
def resetRegs (p : Params) (ee : Word) (img : NicRegs) : NicRegs :=
  { img with
    ctrl := img.ctrl &&& ~~~(ctrlRst ||| ctrlSlu)
    ctrlExt := (img.ctrlExt &&& ~~~ctrlExtEeRst) ||| ee
    status := (img.status &&& ~~~statusLanMask) ||| lanIdBits p.lanId
    icr := 0
    hwIms := 0
    rctl := 0
    tctl := 0
    hwRdh := 0
    rdt := 0
    hwTdh := 0
    tdt := 0
    stat := Vector.replicate 73 0
    eerd := img.eerd &&& ~~~eerdDoneBit p.variant.eerdLayout
    mdic := img.mdic &&& ~~~(mdicR ||| mdicE) }

/-- EE_RST as `dev stuck` holds it across a device reset. -/
def heldEeRst (c : Ctlr) : Word := if c.dev.stuckEeRst then c.regs.ctrlExt &&& ctrlExtEeRst else 0#32

/-- Completion of a device reset (R422): registers per R421, every descriptor forgotten (the heads and tails are 0).
DESIGN CHOICE (log 49): a pending EERD or MDIC request is dropped too, of which R422 says nothing. -/
def nicResetDone (s : State) (img : NicRegs) : State :=
  if resetPending s.c.regs && !s.c.dev.stuckRst then
    s.modC fun c =>
      { c with regs := resetRegs c.cfg (heldEeRst c) img, dev := { c.dev with eerdPending := false, mdicPending := false } }
  else s

/-- Completion of an EEPROM reset (R423). -/
def nicEeRstDone (s : State) : State :=
  if hasBits s.c.regs.ctrlExt ctrlExtEeRst && !s.c.dev.stuckEeRst then
    s.modRegs fun g => { g with ctrlExt := g.ctrlExt &&& ~~~ctrlExtEeRst }
  else s

/-! ## Handshake completion (R434) -/

/-- EERD: DATA and DONE in one step; past the 64 words the environment's `other` (log 27). -/
def nicEerdDone (s : State) (other : Half) : State :=
  if s.c.dev.eerdPending then
    let l := s.c.cfg.variant.eerdLayout
    let d := s.c.dev.eeprom.getD (eerdAddr l s.c.regs.eerd) other
    (s.modRegs fun g => { g with eerd := eerdCompleted l g.eerd d }).modDev fun x => { x with eerdPending := false }
  else s

/-- MDIC's register after a completion: an error (of an absent PHY, or as the environment says), or R with a read's
data. DESIGN CHOICE (log 55): an error sets E and leaves R 0. -/
def mdicAnswer (p : Params) (d : Device) (v : Word) (err : Bool) : Word :=
  if err || mdicPhy v != p.phyAddr then v ||| mdicE
  else if mdicIsRead v then ((v &&& 0xFFFF0000#32) ||| (d.phy[(mdicReg v).toFin]).setWidth 32) ||| mdicR
  else v ||| mdicR

/-- The PHY's registers after a completion: a write stores its data (log 26). -/
def mdicStore (p : Params) (d : Device) (v : Word) (err : Bool) : Vector Half 32 :=
  if err || mdicPhy v != p.phyAddr || mdicIsRead v then d.phy else d.phy.set (mdicReg v).toFin (mdicData v)

/-- Completion of an MDIC request (R434). DESIGN CHOICE (log 57): a request with I = 1 latches no cause of its own. -/
def nicMdicDone (s : State) (err : Bool) : State :=
  if s.c.dev.mdicPending then
    s.modC fun c =>
      { c with regs := { c.regs with mdic := mdicAnswer c.cfg c.dev c.regs.mdic err },
               dev := { c.dev with phy := mdicStore c.cfg c.dev c.regs.mdic err, mdicPending := false } }
  else s

/-! ## The actions -/

/-- One action of the `NIC`. -/
def nicAct (s : State) : NicAct → State
  | .rx d data => nicRx s d data
  | .tx ec lc tu rsv => nicTx s ec lc tu rsv
  | .latch bits => latch s bits
  | .resetDone img => nicResetDone s img
  | .eeRstDone => nicEeRstDone s
  | .eerdDone other => nicEerdDone s other
  | .mdicDone err => nicMdicDone s err
  | .statSet k v => s.modRegs fun g => { g with stat := g.stat.set k v }
  | .phySet r v => s.modDev fun d => { d with phy := d.phy.set r v }
  | .statusSet v => s.modRegs fun g =>
      { g with status := (v &&& ~~~statusLanMask) ||| (g.status &&& statusLanMask) }
  | .stuck .ctrlRst => s.modDev fun d => { d with stuckRst := true }
  | .stuck .ctrlExtEeRst => s.modDev fun d => { d with stuckEeRst := true }

end Sys2Proof.Machine
end

