-- ==== Sys2Proof/Machine/Upstream.lean ====
section
/-!
DEFINITION. The environment beside the NIC: the actions of the `HOST` (45_host_interface.md R370, R375, R383), device
discovery and the choice of the controller (60_exceptions.md R473), and the launch premises (70 R512).
-/

namespace Sys2Proof.Machine

/-! ## Launch premises (R512 (a)-(c)) -/

/-- A range of DMA memory: first address and size in bytes. -/
def insertRange (r : Nat × Nat) : List (Nat × Nat) → List (Nat × Nat)
  | [] => [r]
  | x :: xs => if r.1 ≤ x.1 then r :: x :: xs else x :: insertRange r xs

/-- Ranges sorted by address do not overlap and lie inside the 64-bit address space. -/
def rangesApart : List (Nat × Nat) → Bool
  | [] => true
  | [x] => decide (x.1 + x.2 ≤ 2 ^ 64)
  | x :: y :: xs => decide (x.1 + x.2 ≤ y.1) && rangesApart (y :: xs)

/-- The two descriptor arrays of a controller. -/
def ctlrRanges (c : Ctlr) : List (Nat × Nat) :=
  [(c.rdba.toNat, 16 * c.cfg.nrd), (c.tdba.toNat, 16 * c.cfg.ntd)]

/-- Every descriptor array and every buffer. -/
def dmaRanges (s : State) : List (Nat × Nat) :=
  ctlrRanges s.c ++ s.others.flatMap ctlrRanges ++ s.bufs.map fun e => (e.2.base.toNat, e.2.cap.toNat)

/-- `Disjoint` (R512 (a)). -/
def disjointOk (s : State) : Bool := rangesApart ((dmaRanges s).foldr insertRange [])

/-- `RingShape` and `BufShape` of a controller (R512 (b), (c)), and a register map whose registers stand at multiples of 4
("a configuration violating these is refused at configuration", R85, D5). -/
def ctlrShapeOk (q : PoolParams) (c : Ctlr) : Bool := launchShapeOk c.cfg q c.rdba c.tdba && c.cfg.regMap.ok

/-- `Disjoint`, `RingShape` and `BufShape`, the premises on the configuration, for the selected controller: (a), (b) and
(c) of R512, and R85. ATTACH tests them (log 39). -/
def launchOk (s : State) : Bool := ctlrShapeOk s.pool s.c && disjointOk s

/-! ## The launch (R510 (1), (2); R512 (a)-(e)) -/

/-- A controller record in the discovery column of R500; what that column calls unspecified (`ee`, `ea`, the NIC) and the
locals it does not list may have any value. -/
def ctlrClean (c : Ctlr) : Bool :=
  decide (c = { Ctlr.discovery c.id c.cfg c.rdba c.tdba with
    ee := c.ee, ea := c.ea, regs := c.regs, dev := c.dev, lcCmd := c.lcCmd, txcNext := c.txcNext,
    rxw := { c.rxw with ctl := .notStarted }, disp := { c.disp with ctl := .idle } })

/-- Every pool buffer is free and in the pool's hands, `plock` too (R500, row pool; R46, R300). -/
def poolClean (s : State) : Bool :=
  s.plock == none && decide s.free.Nodup && s.free.length == s.pool.npool
    && s.free.all fun b =>
      decide (b < s.pool.npool) &&
        match s.buf? b with
        | some r => r.owner == .pool && r.origin == .pool && r.cap == BitVec.ofNat 32 s.pool.rbsize
        | none => false

/-- `CleanEntry` (R512 (d)). -/
def cleanEntry (s : State) : Bool := ctlrClean s.c && s.others.all ctlrClean && poolClean s

/-- `RingShape` and `BufShape` of every controller (R512 (b), (c)). -/
def shapesOk (s : State) : Bool := (s.c :: s.others).all (ctlrShapeOk s.pool)

/-- `OwnWindow` (R512 (e)): each window is that of one NIC, the controllers' identifiers being distinct (a controller's
registers stand in its own record), and nothing but the HRE's agents accesses it: no register transaction at the port. -/
def ownWindow (s : State) : Bool :=
  decide ((s.c :: s.others).map Ctlr.id).Nodup && s.port.all fun w => w.fmt != .mmio

/-- What a machine must be for its launch not to be refused: (a)-(e) of R512. -/
def launchable (s : State) : Bool := disjointOk s && shapesOk s && cleanEntry s && ownWindow s

/-- The launch of a machine the platform has set up (R510, R512): refused where a premise fails. -/
def launch (s : State) : Host.Outcome State Fault Refusal :=
  if launchable s then .next s else .refused .badLaunch

/-! ## Controllers (R473) -/

/-- The controller with an identifier, if it is not the selected one. -/
def ctlrFind : List Ctlr → Nat → Option Ctlr
  | [], _ => none
  | x :: xs, k => if x.id = k then some x else ctlrFind xs k

/-- Put a controller where the one with identifier `k` stands. -/
def ctlrSwap (xs : List Ctlr) (k : Nat) (c : Ctlr) : List Ctlr := xs.map fun x => if x.id = k then c else x

/-- Select the controller that the next steps concern. -/
def selectCtlr (s : State) (k : Nat) : State :=
  match ctlrFind s.others k with
  | some x => { s with c := x, others := ctlrSwap s.others k s.c }
  | none => s

/-- Discovery (R500, R510 (2)): a record in the discovery column joins the others. It is a part of the launch, so the
machine it gives is launched (`launch`): every controller still at its discovery, the pool full (log 39). -/
def discoverCtlr (s : State) (p : Params) (rdba tdba : DWord) : State :=
  { s with others := s.others ++ [Ctlr.discovery (s.others.length + 1) p rdba tdba] }

/-! ## The HOST (R375, R383) -/

/-- Is a buffer in the outbound queue of some controller? -/
def queued (s : State) (b : BufId) : Bool := s.c.oq.contains b || s.others.any fun c => c.oq.contains b

/-- The host owns the buffer and has not queued it. -/
def hostOwns (s : State) (b : BufId) : Bool :=
  match s.buf? b with
  | some r => r.owner == .host && !queued s b
  | none => false

/-- R375: the host may append the buffer. -/
def enqueueOk (s : State) (b : BufId) : Bool :=
  hostOwns s b &&
    match s.buf? b with
    | some r => r.len != 0#32
    | none => false

/-- A buffer the host supplies, its own (R300). DESIGN CHOICE (log 45): it is empty, `rp = wp = 0`, with `lim = cap` and no
annotation, where R45 and R300 give no cursors and 95 gives `rp = 0` alone. -/
def Buf.supplied (base : DWord) (cap : Word) : Buf where
  base := base
  cap := cap
  rp := 0
  wp := 0
  lim := cap
  ipOk := false
  tcpOk := false
  udpOk := false
  csumPresent := false
  csum := 0
  origin := .host
  owner := .host

def supplyBuf (s : State) (b : BufId) (base : DWord) (cap : Word) : State :=
  { s with bufs := bufInsert s.bufs b (Buf.supplied base cap) }

def supplyOk (s : State) (b : BufId) (base : DWord) (cap : Word) : Bool :=
  decide (s.pool.npool ≤ b) && (s.buf? b).isNone && disjointOk (supplyBuf s b base cap)

/-- The host owns the buffer, and the cursors keep R45's order `rp <= wp <= lim <= cap`. -/
def cursorsOk (s : State) (b : BufId) (rp wp lim : Word) : Bool :=
  hostOwns s b &&
    match s.buf? b with
    | some r => decide (rp ≤ wp) && decide (wp ≤ lim) && decide (lim ≤ r.cap)
    | none => false

def dataOk (s : State) (b : BufId) (off : Word) : Bool :=
  hostOwns s b &&
    match s.buf? b with
    | some r => decide (off < r.cap)
    | none => false

/-- The write of one data byte at `PA(b, off)`. -/
def writeData (s : State) (b : BufId) (off : Word) (v : Byte) : State :=
  match s.buf? b with
  | some r => s.setMem (Mem.write8 s.mem (r.pa off) v)
  | none => s

/-- One action of the `HOST`; one outside its duties is refused (R375, R383, U16). -/
def hostAct (s : State) : HostAct → Host.Outcome State Fault Refusal
  | .issue w => .next { s with port := s.port ++ [{ fmt := .hostCmd, bytes := leBytes 8 w.toNat }] }
  | .enqueue b => if enqueueOk s b then .next (s.modC fun c => { c with oq := c.oq ++ [b] }) else .refused .hostDuty
  | .supply b base cap => if supplyOk s b base cap then .next (supplyBuf s b base cap) else .refused .hostDuty
  | .cursors b rp wp lim =>
    if cursorsOk s b rp wp lim then .next (s.modBuf b fun r => { r with rp := rp, wp := wp, lim := lim })
    else .refused .hostDuty
  | .data b off v => if dataOk s b off then .next (writeData s b off v) else .refused .hostDuty

end Sys2Proof.Machine
end

