-- ==== Sys2Proof/Machine/Agents.lean ====
section
/-!
DEFINITION. One step of any agent of the HRE (00_scope.md R4, R10), and a turn: an agent stepped until it has no step.
-/

namespace Sys2Proof.Machine

/-- One step of agent `a` of the selected controller. -/
def agentStep (a : AgentId) (draw : Nat) (s : State) : StepRes :=
  match a with
  | .disp => dispStep s
  | .rxw => rxwStep s draw
  | .txw => txwStep s
  | .lnk => lnkStep s
  | .lc => lcStep s draw
  | .txc k => txcStep s k

/-- Agent `a` steps, at most `n` times and always with the same draw, until it is blocked (parked, waiting for a lock,
idle, stopped). A schedule of the HRE (U17) in which only `a` steps. -/
def turn (a : AgentId) (draw : Nat) : Nat → State → State
  | 0, s => s
  | n + 1, s =>
    match agentStep a draw s with
    | .go t => turn a draw n t
    | .blocked => s
    | .fault _ => s

/-- What an agent's choice does to the machine: a step, nothing where the agent has none, or the model's fault. -/
def agentAct (a : AgentId) (draw : Nat) (s : State) : Host.Outcome State Fault Refusal :=
  match agentStep a draw s with
  | .go t => .next t
  | .blocked => .next s
  | .fault f => .fault f

/-- One choice of the schedule and the environment. -/
def eventAct (e : Event) (s : State) : Host.Outcome State Fault Refusal :=
  match e with
  | .agent a draw => agentAct a draw s
  | .nic x => .next (nicAct s x)
  | .host x => hostAct s x
  | .select k => .next (selectCtlr s k)
  | .discover p rdba tdba => launch (discoverCtlr s p rdba tdba)

end Sys2Proof.Machine
end

