-- ==== Sys2Proof/Machine/Cause.lean ====
section
/-!
DEFINITION. The interrupt cause rows of the table (30_encoding.md R130). An operation latches the whole cause word
(47_device_agent.md R431) and the interrupt is taken where that asserts the line and `DISP` is idle
(42_interrupt_demux.md R270). What the dispatcher does with the classes (R274) are its own steps.
-/

namespace Sys2Proof.Machine

/-- The arrival of causes: latched, and the interrupt taken if the line is asserted. -/
def causeOp (w : Word) (s : State) : Host.Outcome State Fault Refusal := .next (takeInterrupt (latch s w))

/-- TXDW, class TX (R429). -/
def execCauseTxdw (w : Word) (s : State) : Host.Outcome State Fault Refusal := causeOp w s

/-- TXQE, in no class: the HRE never enables it (R427). -/
def execCauseTxqe (w : Word) (s : State) : Host.Outcome State Fault Refusal := causeOp w s

/-- LSC, class LINK (R430). -/
def execCauseLsc (w : Word) (s : State) : Host.Outcome State Fault Refusal := causeOp w s

/-- RXSEQ, class RX (R427). -/
def execCauseRxseq (w : Word) (s : State) : Host.Outcome State Fault Refusal := causeOp w s

/-- RXDMT0, class RX (R426). -/
def execCauseRxdmt0 (w : Word) (s : State) : Host.Outcome State Fault Refusal := causeOp w s

/-- RXO, class RX (R426). -/
def execCauseRxo (w : Word) (s : State) : Host.Outcome State Fault Refusal := causeOp w s

/-- RXT0, class RX (R425). -/
def execCauseRxt0 (w : Word) (s : State) : Host.Outcome State Fault Refusal := causeOp w s

/-- ACK, class RX (R427). -/
def execCauseAck (w : Word) (s : State) : Host.Outcome State Fault Refusal := causeOp w s

end Sys2Proof.Machine
end

