-- ==== Sys2Proof/Machine/Descriptor.lean ====
section
/-!
DEFINITION. The descriptor rows of the table (30_encoding.md R140, R148, R150, R151).
-/

namespace Sys2Proof.Machine

/-- RXDESC (R140): a receive descriptor as the NIC writes it back (R424). With DD = 0 nothing is completed. The address
words are the HRE's and are not written; the frame's bytes are free values (log 9, log 14). -/
def execRxdesc (d : RxDesc) (s : State) : Host.Outcome State Fault Refusal :=
  .next (if rxDD d.status then nicRx s d [] else s)

/-- TXDESC_LEGACY (R148): the control word of line B6 is written into the descriptor at `tdt`, under the length contract
of R252 (log 16), whoever holds `tlock`, which R96 has protect that array (DESIGN CHOICE, log 16). -/
def execTxdescLegacy (len : Half) (s : State) : Host.Outcome State Fault Refusal :=
  if txLengthOk s.c.cfg (len.setWidth 32) then .next (s.setTxControl s.c.tdt (txControl len))
  else .next (raiseFault s { kind := .upstreamContract, info := .txLength s.c.tdt (len.setWidth 32) })

/-- TXDESC_CONTEXT: never written; a model refuses it (R151). -/
def execTxdescContext (_w : Word) (_s : State) : Host.Outcome State Fault Refusal :=
  .refused (.descriptorKind .context)

/-- TXDESC_EXTDATA: never written; a model refuses it (R151). -/
def execTxdescExtdata (_w : Word) (_s : State) : Host.Outcome State Fault Refusal :=
  .refused (.descriptorKind .extData)

/-- TXDESC_RESERVED: never written; a model refuses it (R151). -/
def execTxdescReserved (_w : Word) (_s : State) : Host.Outcome State Fault Refusal :=
  .refused (.descriptorKind .reserved)

end Sys2Proof.Machine
end

