-- ==== Sys2Proof/Machine/HostCmd.lean ====
section
/-!
DEFINITION. The host command port (45_host_interface.md): the decode order of R371, the acceptance table of R372, and
for each command its first step, which R372 makes one step with the acceptance. `LC`'s further lines are in
Lifecycle.lean, a direct-send caller's in TxRing.lean.
-/

namespace Sys2Proof.Machine

/-! ## Acceptance (R372) -/

/-- An entry of the table of R372. -/
inductive Accept where
  | run | store | notReady
  deriving DecidableEq, Repr

/-- `LC` is idle. -/
def lcIdle (c : Ctlr) : Bool := c.lcCtl == .idle

/-- Row ATTACH. -/
def acceptAttach (c : Ctlr) : Accept := if c.lc = .poweredUnknown ∧ c.lcCtl = .idle then .run else .notReady

/-- Row TX_REQUEST. -/
def acceptTx (c : Ctlr) : Accept := if c.lc = .running then .run else .notReady

/-- Rows SHUTDOWN and SET_MCAST. -/
def acceptIdle (c : Ctlr) : Accept := if c.lc = .running ∧ c.lcCtl = .idle then .run else .notReady

/-- Rows SET_PROMISC, SET_RDTR, SET_RADV: NotReady in Configured too, by the table of R372, where D46 has a tunable
written at once (DEDUCED, log 52). -/
def acceptSet (c : Ctlr) : Accept :=
  if c.lcCtl = .idle then
    match c.lc with
    | .poweredUnknown => .store
    | .running => .run
    | _ => .notReady
  else .notReady

/-- Row DUMP. -/
def acceptDump (c : Ctlr) : Accept :=
  if (c.lc = .running ∨ c.lc = .halted) ∧ c.lcCtl = .idle then .run else .notReady

/-- `LC` takes a command and stands at a line. -/
def startLc (s : State) (i : Instr) (x : LcCtl) : State := s.modC fun c => { c with lcCmd := i, lcCtl := x }

/-! ## The commands -/

/-- ATTACH (R373, R321): accepted, line A0. A launch that violates R512 (a)-(c) or R85 is refused. -/
def execAttach (s : State) : Host.Outcome State Fault Refusal :=
  match acceptAttach s.c with
  | .run =>
    if launchOk s then
      .next (startLc (s.modC fun c => { c with lc := .resetting }) .attach (lcAfterA0 s.c.cfg s.pool))
    else .refused .badLaunch
  | _ => .next (replyCmd s .attach .notReady)

/-- TX_REQUEST (R374, R243): a new caller stands at line X0. -/
def execTxRequest (s : State) : Host.Outcome State Fault Refusal :=
  match acceptTx s.c with
  | .run =>
    .next (s.modC fun c =>
      { c with txcs := c.txcs ++ [{ k := c.txcNext, run := TxRun.start }], txcNext := c.txcNext + 1 })
  | _ => .next (replyCmd s .txRequest .notReady)

/-- SHUTDOWN (R377): accepted; line Z1 is its first step, taken at once when `mlock` is free (log 22). -/
def execShutdown (s : State) : Host.Outcome State Fault Refusal :=
  match acceptIdle s.c with
  | .run =>
    match s.c.mlock with
    | none => .next (startLc (s.modC fun c => { c with mlock := some .lc }) .shutdown .z2)
    | some _ => .next (startLc s .shutdown .z1)
  | _ => .next (replyCmd s .shutdown .notReady)

/-- SET_PROMISC (R379): line S1; in Running line S2 follows. -/
def execSetPromisc (on : Bool) (s : State) : Host.Outcome State Fault Refusal :=
  match acceptSet s.c with
  | .run => .next (startLc (s.modC fun c => { c with promisc := on }) (.setPromisc on) .promiscR)
  | .store => .next (replyCmd (s.modC fun c => { c with promisc := on }) (.setPromisc on) .ok)
  | .notReady => .next (replyCmd s (.setPromisc on) .notReady)

/-- SET_MCAST (R380): lines M1 and M2. -/
def execSetMcast (member : Bool) (addr : BitVec 48) (s : State) : Host.Outcome State Fault Refusal :=
  match acceptIdle s.c with
  | .run =>
    let h := mcastHash addr
    let rs := mmioRead s (.mta (mcastEntry h))
    .next (startLc rs.2 (.setMcast member addr) (.mcastW (mcastValue member h rs.1)))
  | _ => .next (replyCmd s (.setMcast member addr) .notReady)

/-- The value check of line T1 (R378): the whole 48-bit operand against 0xFFFF (R165). -/
def tunableOk (val : BitVec 48) : Bool := decide (val.toNat ≤ 0xFFFF)

/-- SET_RDTR (R378): lines T1 and T2; in Running line T3 follows. -/
def execSetRdtr (val : BitVec 48) (s : State) : Host.Outcome State Fault Refusal :=
  if tunableOk val then
    match acceptSet s.c with
    | .run => .next (startLc (s.modC fun c => { c with rdtr := val.setWidth 16 }) (.setRdtr val) .tunableW)
    | .store => .next (replyCmd (s.modC fun c => { c with rdtr := val.setWidth 16 }) (.setRdtr val) .ok)
    | .notReady => .next (replyCmd s (.setRdtr val) .notReady)
  else .next (replyCmd s (.setRdtr val) .badArgument)

/-- SET_RADV (R378). -/
def execSetRadv (val : BitVec 48) (s : State) : Host.Outcome State Fault Refusal :=
  if tunableOk val then
    match acceptSet s.c with
    | .run => .next (startLc (s.modC fun c => { c with radv := val.setWidth 16 }) (.setRadv val) .tunableW)
    | .store => .next (replyCmd (s.modC fun c => { c with radv := val.setWidth 16 }) (.setRadv val) .ok)
    | .notReady => .next (replyCmd s (.setRadv val) .notReady)
  else .next (replyCmd s (.setRadv val) .badArgument)

/-- DUMP (R381): accepted; line U1 is its first step, taken at once when `slock` is free (log 22). -/
def execDump (s : State) : Host.Outcome State Fault Refusal :=
  match acceptDump s.c with
  | .run =>
    match s.c.slock with
    | none => .next (startLc (s.modC fun c => { c with slock := some .lc }) .dump (.u2 0))
    | some _ => .next (startLc s .dump .u1)
  | _ => .next (replyCmd s .dump .notReady)

/-- The test of R382: a pool buffer the host owns that is in no outbound queue (log 37). -/
def bufFreeOk (s : State) (id : BitVec 32) : Bool := decide (id.toNat < s.pool.npool) && hostOwns s id.toNat

/-- BUF_FREE (R382, R306): the port's one pool step, in every lifecycle state, Halted included, by R372 and R382, where D42
has no command but DUMP accepted (DEDUCED, log 51). -/
def execBufFree (id : BitVec 32) (s : State) : Host.Outcome State Fault Refusal :=
  if bufFreeOk s id then .next (replyCmd (poolPush s id.toNat) (.bufFree id) .ok)
  else .next (replyCmd s (.bufFree id) .badArgument)

/-- A reserved op code or a malformed word (R162, R384, R371 (1)): `BadArgument`, nothing else. -/
def execReservedOp (w : DWord) (s : State) : Host.Outcome State Fault Refusal :=
  .next (replyCmd s (.reservedOp w) .badArgument)

end Sys2Proof.Machine
end

