-- ==== Sys2Proof/Machine/Mmio.lean ====
section
/-!
DEFINITION. The register rows of the table (30_encoding.md R110): each is one transaction on the register window, with
the side effects of R88 and R432-R439.
-/

namespace Sys2Proof.Machine

/-- A transaction on register `r`. One that R110's access column or R125 gives no step is refused (U13, V6). No lock
is asked for, at IMS and IMC neither (DESIGN CHOICE, log 60). -/
def mmioOp (r : Reg) (a : Access) (s : State) : Host.Outcome State Fault Refusal :=
  match a with
  | .read => if regReadable r then .next (mmioRead s r).2 else .refused (.deviceInterface r)
  | .write v => if regWritable r v then .next (mmioWrite s r v) else .refused (.deviceInterface r)

/-- CTRL (R120): RST written 1 starts a device reset (R422). -/
def execMmioCtrl (a : Access) (s : State) : Host.Outcome State Fault Refusal := mmioOp .ctrl a s

/-- STATUS (R121), read-only. -/
def execMmioStatus (a : Access) (s : State) : Host.Outcome State Fault Refusal := mmioOp .status a s

/-- EERD (R123): START written 1 starts a read (R434). -/
def execMmioEerd (a : Access) (s : State) : Host.Outcome State Fault Refusal := mmioOp .eerd a s

/-- CTRL_EXT (R124): EE_RST written 1 starts an EEPROM reset (R423). -/
def execMmioCtrlExt (a : Access) (s : State) : Host.Outcome State Fault Refusal := mmioOp .ctrlExt a s

/-- MDIC (R125): a request with OP read or write (R434). -/
def execMmioMdic (a : Access) (s : State) : Host.Outcome State Fault Refusal := mmioOp .mdic a s

/-- FCAL (R135). -/
def execMmioFcal (a : Access) (s : State) : Host.Outcome State Fault Refusal := mmioOp .fcal a s

/-- FCAH (R135). -/
def execMmioFcah (a : Access) (s : State) : Host.Outcome State Fault Refusal := mmioOp .fcah a s

/-- FCT (R135). -/
def execMmioFct (a : Access) (s : State) : Host.Outcome State Fault Refusal := mmioOp .fct a s

/-- ICR (R130): a read returns and clears every latched cause (R435). -/
def execMmioIcr (a : Access) (s : State) : Host.Outcome State Fault Refusal := mmioOp .icr a s

/-- IMS (R130): a write sets bits of HwIMS (R436). -/
def execMmioIms (a : Access) (s : State) : Host.Outcome State Fault Refusal := mmioOp .ims a s

/-- IMC (R130): a write clears bits of HwIMS (R436). -/
def execMmioImc (a : Access) (s : State) : Host.Outcome State Fault Refusal := mmioOp .imc a s

/-- RCTL (R127). -/
def execMmioRctl (a : Access) (s : State) : Host.Outcome State Fault Refusal := mmioOp .rctl a s

/-- FCTTV (R135). -/
def execMmioFcttv (a : Access) (s : State) : Host.Outcome State Fault Refusal := mmioOp .fcttv a s

/-- TCTL (R128). -/
def execMmioTctl (a : Access) (s : State) : Host.Outcome State Fault Refusal := mmioOp .tctl a s

/-- TIPG (R128). -/
def execMmioTipg (a : Access) (s : State) : Host.Outcome State Fault Refusal := mmioOp .tipg a s

/-- PBA (R136). -/
def execMmioPba (a : Access) (s : State) : Host.Outcome State Fault Refusal := mmioOp .pba a s

/-- FCRTL (R135). -/
def execMmioFcrtl (a : Access) (s : State) : Host.Outcome State Fault Refusal := mmioOp .fcrtl a s

/-- FCRTH (R135). -/
def execMmioFcrth (a : Access) (s : State) : Host.Outcome State Fault Refusal := mmioOp .fcrth a s

/-- RDBAL (R129). -/
def execMmioRdbal (a : Access) (s : State) : Host.Outcome State Fault Refusal := mmioOp .rdbal a s

/-- RDBAH (R129). -/
def execMmioRdbah (a : Access) (s : State) : Host.Outcome State Fault Refusal := mmioOp .rdbah a s

/-- RDLEN (R129). -/
def execMmioRdlen (a : Access) (s : State) : Host.Outcome State Fault Refusal := mmioOp .rdlen a s

/-- RDH (R129): the NIC's receive head (R433). -/
def execMmioRdh (a : Access) (s : State) : Host.Outcome State Fault Refusal := mmioOp .rdh a s

/-- RDT (R129): the receive tail (R432). -/
def execMmioRdt (a : Access) (s : State) : Host.Outcome State Fault Refusal := mmioOp .rdt a s

/-- RDTR (R131). -/
def execMmioRdtr (a : Access) (s : State) : Host.Outcome State Fault Refusal := mmioOp .rdtr a s

/-- RADV (R131). -/
def execMmioRadv (a : Access) (s : State) : Host.Outcome State Fault Refusal := mmioOp .radv a s

/-- TDBAL (R129). -/
def execMmioTdbal (a : Access) (s : State) : Host.Outcome State Fault Refusal := mmioOp .tdbal a s

/-- TDBAH (R129). -/
def execMmioTdbah (a : Access) (s : State) : Host.Outcome State Fault Refusal := mmioOp .tdbah a s

/-- TDLEN (R129). -/
def execMmioTdlen (a : Access) (s : State) : Host.Outcome State Fault Refusal := mmioOp .tdlen a s

/-- TDH (R129): the NIC's transmit head (R433). -/
def execMmioTdh (a : Access) (s : State) : Host.Outcome State Fault Refusal := mmioOp .tdh a s

/-- TDT (R129): the transmit tail (R432). -/
def execMmioTdt (a : Access) (s : State) : Host.Outcome State Fault Refusal := mmioOp .tdt a s

/-- TIDV (R128). -/
def execMmioTidv (a : Access) (s : State) : Host.Outcome State Fault Refusal := mmioOp .tidv a s

/-- RXCSUM (R132). -/
def execMmioRxcsum (a : Access) (s : State) : Host.Outcome State Fault Refusal := mmioOp .rxcsum a s

/-- STAT[k] (R137): a read returns and clears the counter (R438). -/
def execMmioStat (k : Fin 73) (a : Access) (s : State) : Host.Outcome State Fault Refusal := mmioOp (.stat k) a s

/-- MTA[k] (R134). -/
def execMmioMta (k : Fin 128) (a : Access) (s : State) : Host.Outcome State Fault Refusal := mmioOp (.mta k) a s

/-- RAL[n] (R133). -/
def execMmioRal (n : Fin 16) (a : Access) (s : State) : Host.Outcome State Fault Refusal := mmioOp (.ral n) a s

/-- RAH[n] (R133). -/
def execMmioRah (n : Fin 16) (a : Access) (s : State) : Host.Outcome State Fault Refusal := mmioOp (.rah n) a s

end Sys2Proof.Machine
end

