-- ==== Sys2Proof/Machine/Dispatch.lean ====
section
/-! DEFINITION. The dispatch of operations to their meanings: one arm per row of the opcode table. -/

namespace Sys2Proof.Machine

def exec (i : Instr) (s : State) : Host.Outcome State Fault Refusal :=
  match i with
  -- host commands
  | .attach => Sys2Proof.Machine.execAttach s
  | .txRequest => Sys2Proof.Machine.execTxRequest s
  | .shutdown => Sys2Proof.Machine.execShutdown s
  | .setPromisc on => Sys2Proof.Machine.execSetPromisc on s
  | .setMcast member addr => Sys2Proof.Machine.execSetMcast member addr s
  | .setRdtr val => Sys2Proof.Machine.execSetRdtr val s
  | .setRadv val => Sys2Proof.Machine.execSetRadv val s
  | .dump => Sys2Proof.Machine.execDump s
  | .bufFree id => Sys2Proof.Machine.execBufFree id s
  | .reservedOp w => Sys2Proof.Machine.execReservedOp w s
  -- register transactions
  | .mmioCtrl a => Sys2Proof.Machine.execMmioCtrl a s
  | .mmioStatus a => Sys2Proof.Machine.execMmioStatus a s
  | .mmioEerd a => Sys2Proof.Machine.execMmioEerd a s
  | .mmioCtrlExt a => Sys2Proof.Machine.execMmioCtrlExt a s
  | .mmioMdic a => Sys2Proof.Machine.execMmioMdic a s
  | .mmioFcal a => Sys2Proof.Machine.execMmioFcal a s
  | .mmioFcah a => Sys2Proof.Machine.execMmioFcah a s
  | .mmioFct a => Sys2Proof.Machine.execMmioFct a s
  | .mmioIcr a => Sys2Proof.Machine.execMmioIcr a s
  | .mmioIms a => Sys2Proof.Machine.execMmioIms a s
  | .mmioImc a => Sys2Proof.Machine.execMmioImc a s
  | .mmioRctl a => Sys2Proof.Machine.execMmioRctl a s
  | .mmioFcttv a => Sys2Proof.Machine.execMmioFcttv a s
  | .mmioTctl a => Sys2Proof.Machine.execMmioTctl a s
  | .mmioTipg a => Sys2Proof.Machine.execMmioTipg a s
  | .mmioPba a => Sys2Proof.Machine.execMmioPba a s
  | .mmioFcrtl a => Sys2Proof.Machine.execMmioFcrtl a s
  | .mmioFcrth a => Sys2Proof.Machine.execMmioFcrth a s
  | .mmioRdbal a => Sys2Proof.Machine.execMmioRdbal a s
  | .mmioRdbah a => Sys2Proof.Machine.execMmioRdbah a s
  | .mmioRdlen a => Sys2Proof.Machine.execMmioRdlen a s
  | .mmioRdh a => Sys2Proof.Machine.execMmioRdh a s
  | .mmioRdt a => Sys2Proof.Machine.execMmioRdt a s
  | .mmioRdtr a => Sys2Proof.Machine.execMmioRdtr a s
  | .mmioRadv a => Sys2Proof.Machine.execMmioRadv a s
  | .mmioTdbal a => Sys2Proof.Machine.execMmioTdbal a s
  | .mmioTdbah a => Sys2Proof.Machine.execMmioTdbah a s
  | .mmioTdlen a => Sys2Proof.Machine.execMmioTdlen a s
  | .mmioTdh a => Sys2Proof.Machine.execMmioTdh a s
  | .mmioTdt a => Sys2Proof.Machine.execMmioTdt a s
  | .mmioTidv a => Sys2Proof.Machine.execMmioTidv a s
  | .mmioRxcsum a => Sys2Proof.Machine.execMmioRxcsum a s
  | .mmioStat k a => Sys2Proof.Machine.execMmioStat k a s
  | .mmioMta k a => Sys2Proof.Machine.execMmioMta k a s
  | .mmioRal n a => Sys2Proof.Machine.execMmioRal n a s
  | .mmioRah n a => Sys2Proof.Machine.execMmioRah n a s
  -- descriptors
  | .rxdesc d => Sys2Proof.Machine.execRxdesc d s
  | .txdescLegacy len => Sys2Proof.Machine.execTxdescLegacy len s
  | .txdescContext w => Sys2Proof.Machine.execTxdescContext w s
  | .txdescExtdata w => Sys2Proof.Machine.execTxdescExtdata w s
  | .txdescReserved w => Sys2Proof.Machine.execTxdescReserved w s
  -- interrupt causes
  | .causeTxdw w => Sys2Proof.Machine.execCauseTxdw w s
  | .causeTxqe w => Sys2Proof.Machine.execCauseTxqe w s
  | .causeLsc w => Sys2Proof.Machine.execCauseLsc w s
  | .causeRxseq w => Sys2Proof.Machine.execCauseRxseq w s
  | .causeRxdmt0 w => Sys2Proof.Machine.execCauseRxdmt0 w s
  | .causeRxo w => Sys2Proof.Machine.execCauseRxo w s
  | .causeRxt0 w => Sys2Proof.Machine.execCauseRxt0 w s
  | .causeAck w => Sys2Proof.Machine.execCauseAck w s

end Sys2Proof.Machine
end

