-- ==== Sys2Proof/Machine/Fetch.lean ====
section
/-!
DEFINITION. How the machine picks its next step. The HRE has no fetched program (00_scope.md R2): operations arrive at
its interfaces, agents step on their own, and which comes next is free (93 U17). The oldest operation at the port runs
first, then the listed choices, then a choice nothing is known of (log 7).
-/

namespace Sys2Proof.Machine

/-- An operation's word at the port: decoded under the selected controller's register map and run, or refused by
name. -/
def runWord (w : PortWord) (s : State) : Host.Outcome State Fault Refusal :=
  match decodeWith s.c.cfg.regMap w.fmt w.bytes with
  | .ok i => exec i s
  | .error r => .refused (.undecodable r)

/-- The next step's choice where no operation waits. -/
def runEvent (s : State) : Host.Outcome State Fault Refusal :=
  match s.sched with
  | e :: es => eventAct e { s with sched := es }
  | [] => eventAct (Config.freeEvent s.tick) { s with tick := s.tick + 1 }

/-- One step of the machine. -/
def runStep (s : State) : Host.Outcome State Fault Refusal :=
  match s.port with
  | w :: ws => runWord w { s with port := ws }
  | [] => runEvent s

/-- What stands at the port for a word numbered as the opcode table numbers it: the operation it spells, in the words of
the chip; a word that spells none stands there as it is. -/
def portWord (m : RegMap) (nbits w : Nat) : PortWord :=
  match decodeTableWord nbits w with
  | some i => { fmt := i.format, bytes := encodeWith m i }
  | none => { fmt := tableFormat nbits w, bytes := leBytes (tableFormat nbits w).size w }

/-- An operation's word, numbered as the opcode table numbers it, presented as the next at the port. -/
def presentWord (s : State) (nbits w : Nat) : State := { s with port := portWord s.c.cfg.regMap nbits w :: s.port }

end Sys2Proof.Machine
end

