-- ==== Sys2Proof/Safety.lean ====
section
/-!
DEFINITION. What claims are stated in: the quiescent point, the end of a run and its observation (92 D58, 70 R531), the
premises of claims (70 R512), slot ownership (10 R49, R50), the invariants of 10_state.md R47, R65-R69,
42_interrupt_demux.md R278, R286 and 43_buffer_pool.md R308, and which parts of a state stay as they were.
-/

namespace Sys2Proof.Machine

/-- Every controller of the machine. -/
def State.ctlrs (s : State) : List Ctlr := s.c :: s.others

/-! ## Quiescent points and ends of runs -/

/-- Every started worker parked on a zero flag, `DISP` idle, no caller alive, `LC` idle, `lc` at rest (D58, R531). -/
def quiescent (c : Ctlr) : Bool :=
  ((c.rxw.ctl == .w2 && c.rim == 0#32) || c.rxw.ctl == .notStarted)
    && ((c.txw == .t2 && !c.tsig) || c.txw == .notStarted)
    && ((c.lnk == .l7 && c.lim == 0#32) || c.lnk == .notStarted)
    && c.disp.ctl == .idle && c.txcs.isEmpty && c.lcCtl == .idle
    && (c.lc == .running || c.lc == .halted || c.lc == .faulted || c.lc == .poweredUnknown)

/-- No model fault is recorded (R456). -/
def noModelFault (c : Ctlr) : Bool := c.fault.all fun r => !r.kind.isModelFault

/-- The end of a run (R531): the last host and NIC action is behind (no operation waits at the port and no choice is
listed), every controller quiescent, its line not asserted, no model fault recorded. -/
def runEnds (s : State) : Bool :=
  s.port.isEmpty && s.sched.isEmpty
    && s.ctlrs.all fun c => quiescent c && !lineAsserted c.regs && noModelFault c

/-- A ring's descriptors: the bytes of its array in DMA memory. -/
def descArray (s : State) (base : DWord) (n : Nat) : List Byte :=
  (List.range (16 * n)).map fun k => Mem.read8 s.mem (base + BitVec.ofNat 64 k)

/-- What R531 observes of a controller at the end of a run. The ring state is all of R34 and R36, bases and `tlock`
included; the registers of the NIC include those of its PHY (R44). -/
structure CtlrObs where
  id        : Nat
  lc        : Lifecycle
  fault     : List FaultRec
  lastError : Option FaultRec
  trace     : List TraceEv
  rdba      : DWord
  rxIndices : Half × Half × Half
  rb        : List (Option BufId)
  rxArray   : List Byte
  tdba      : DWord
  txIndices : Half × Half
  tb        : List (Option BufId)
  tlock     : Option AgentId
  txArray   : List Byte
  im        : Word
  rim       : Word
  lim       : Word
  tsig      : Bool
  regs      : NicRegs
  phy       : Vector Half 32
  deriving DecidableEq, Repr

/-- The observation at the end of a run (R531): every controller's, in the order of their identifiers whichever is selected,
the pool with its lock (R46), and every buffer's owner and cursors. -/
structure Observation where
  ctlrs : List CtlrObs
  free  : List BufId
  plock : Option AgentId
  bufs  : List (BufId × Owner × Word × Word × Word)
  deriving DecidableEq, Repr

def ctlrObs (s : State) (c : Ctlr) : CtlrObs where
  id := c.id
  lc := c.lc
  fault := c.fault
  lastError := c.lastError
  trace := c.trace
  rdba := c.rdba
  rxIndices := (c.rdh, c.rdt, c.rdfree)
  rb := c.rb
  rxArray := descArray s c.rdba c.cfg.nrd
  tdba := c.tdba
  txIndices := (c.tdh, c.tdt)
  tb := c.tb
  tlock := c.tlock
  txArray := descArray s c.tdba c.cfg.ntd
  im := c.im
  rim := c.rim
  lim := c.lim
  tsig := c.tsig
  regs := c.regs
  phy := c.dev.phy

/-- The controllers in the order of their identifiers. -/
def State.ctlrsById (s : State) : List Ctlr := s.ctlrs.insertionSort fun a b => a.id ≤ b.id

def observe (s : State) : Observation where
  ctlrs := s.ctlrsById.map (ctlrObs s)
  free := s.free
  plock := s.plock
  bufs := s.bufs.map fun e => (e.1, e.2.owner, e.2.rp, e.2.wp, e.2.lim)

/-! ## Premises of claims (R512 (f)-(h), R431); (a)-(e) are `disjointOk`, `shapesOk`, `cleanEntry` and `ownWindow` -/

/-- `DeviceContract` (f): no breach of the NIC's contract is recorded. -/
def deviceContract (s : State) : Prop := ∀ c ∈ s.ctlrs, ∀ r ∈ c.fault, r.kind ≠ .deviceContract

/-- `UpstreamContract` (g): no breach of the host's contract is recorded. -/
def upstreamContract (s : State) : Prop := ∀ c ∈ s.ctlrs, ∀ r ∈ c.fault, r.kind ≠ .upstreamContract

/-- An endless sequence of states, each the next of the one before. -/
def isRun (σ : Nat → State) : Prop := ∀ n, step (σ n) = .next (σ (n + 1))

/-- The operation the next step runs: the one the oldest word at the port spells. -/
def opOf (s : State) : Option Instr :=
  match s.port with
  | w :: _ => (decodeWith s.c.cfg.regMap w.fmt w.bytes).toOption
  | [] => none

/-- The choice the next step makes, where no operation waits. -/
def choiceOf (s : State) : Option Event :=
  if s.port.isEmpty then some (s.sched.headD (Config.freeEvent s.tick)) else none

/-- Controller `k` exists, and its agent `a` has a step. -/
def hasStep (k : Nat) (a : AgentId) (s : State) : Prop :=
  (∃ c ∈ s.ctlrs, c.id = k) ∧ ∃ d t, agentStep a d (if s.c.id = k then s else selectCtlr s k) = .go t

/-- Weak fairness of the schedule (h): an agent that has a step from some point on is chosen again and again. -/
def weaklyFair (σ : Nat → State) : Prop :=
  ∀ k a, (∃ n, ∀ m, n ≤ m → hasStep k a (σ m)) →
    ∀ n, ∃ m d, n ≤ m ∧ (σ m).c.id = k ∧ choiceOf (σ m) = some (.agent a d)

/-- The next step latches `w` into the selected controller's ICR: a choice of the NIC or a cause row at the port. -/
def latches (s : State) (w : Word) : Prop :=
  choiceOf s = some (.nic (.latch w)) ∨ ∃ q, opOf s = some (causeInstr q w)

/-- The next step completes a receive descriptor (R424): a choice of the NIC or an RXDESC row at the port. -/
def rxCompletes (s : State) : Prop :=
  rxAllowed s.c.regs = true
    ∧ ((∃ d data, choiceOf s = some (.nic (.rx d data))) ∨ ∃ d, opOf s = some (.rxdesc d) ∧ rxDD d.status = true)

/-- The next step writes a transmit descriptor back (R428): it completes a legacy one that has RS set. -/
def txWritesBack (s : State) : Prop :=
  txAllowed s.c.regs = true ∧ txKind (s.txControl s.c.regs.hwTdh) = .legacy
    ∧ txCtlRs (s.txControl s.c.regs.hwTdh) = true ∧ ∃ ec lc tu rsv, choiceOf s = some (.nic (.tx ec lc tu rsv))

/-- The cause `q` of controller `k` is latched by some step after step `n`. -/
def latchedAfter (σ : Nat → State) (n k : Nat) (q : Cause) : Prop :=
  ∃ m w, n < m ∧ (σ m).c.id = k ∧ latches (σ m) w ∧ hasBits w (causeBit q) = true

/-- The device's fairness (R431): every receive completion is followed by an RXT0 and every transmit write-back by a TXDW
(so each is latched after the last ICR read that precedes the completion), and from some point on no cause is latched. -/
def deviceFair (σ : Nat → State) : Prop :=
  (∀ n, rxCompletes (σ n) → latchedAfter σ n (σ n).c.id .rxt0)
    ∧ (∀ n, txWritesBack (σ n) → latchedAfter σ n (σ n).c.id .txdw)
    ∧ ∃ n, ∀ m w, n ≤ m → latches (σ m) w → w = 0#32

/-- `Fair` (R512 (h)), for liveness claims only. -/
def fair (σ : Nat → State) : Prop := isRun σ ∧ weaklyFair σ ∧ deviceFair σ

/-! ## Slot ownership (R49, R50)

DESIGN CHOICE (log 44): the four ranges of R49 and R50 do not cover every slot at every step. A slot in none of them is
`unexpected`: the slot at `rdt` (`tdt`) that holds a buffer while a fill is under way (lines R3-R8, B2-B7), slots that
hold a buffer after a device reset set the NIC's heads and tails to 0, and a slot the NIC owns (a receive slot in the range
of R432, a transmit slot that was handed) that holds none: after a SHUTDOWN's reset a worker's tail write can hand over such
a receive slot (R527). After such a reset the ranges may also overlap, where the rules say "exactly one": a slot the NIC owns
with DD = 0 is then Hardware, one with DD = 1 in Done's range Done. -/

inductive SlotState where
  | empty | armed | hardware | done | unexpected
  deriving DecidableEq, Repr

/-- Is `i` in the range from `a` up to but excluding `b` of a ring of `n`? -/
def inRange (a b i : Half) (n : Nat) : Bool := decide (ringDist a i n < ringDist a b n)

/-- The state of receive slot `i` of the selected controller (R49). Empty and Armed are software's, so in no range the NIC
owns (R432): a slot with DD = 0 there is Hardware, though a tail past it may put it in Armed's range too. One with DD = 1 in
Done's range is Done: "software then owns". `unexpected` where it is in none of the rule's four (log 44). -/
def rxSlotState (s : State) (i : Half) : SlotState :=
  let nic := inRange s.c.regs.hwRdh s.c.regs.rdt i s.c.cfg.nrd
  let dd := rxDD (s.rxStatus i)
  match s.c.rb.getD i.toNat none with
  | none => if nic then .unexpected else .empty
  | some _ =>
    if nic && !dd then .hardware
    else if inRange s.c.rdh s.c.regs.hwRdh i s.c.cfg.nrd && dd then .done
    else if inRange s.c.regs.rdt s.c.rdt i s.c.cfg.nrd && !nic then .armed
    else .unexpected

/-- The state of transmit slot `i` of the selected controller (R50): Empty asks that it hold no buffer and is not handed
to the NIC; `unexpected` where it is in none of the rule's four. DESIGN CHOICE (log 44): of two states whose ranges both hold
the slot, Hardware is taken before Armed and Done before either. -/
def txSlotState (s : State) (i : Half) : SlotState :=
  let nic := inRange s.c.regs.hwTdh s.c.regs.tdt i s.c.cfg.ntd
  let dd := txDD (s.txStatus i)
  if inRange s.c.tdh s.c.regs.hwTdh i s.c.cfg.ntd && dd then .done
  else
    match s.c.tb.getD i.toNat none with
    | none => if nic then .unexpected else .empty
    | some _ =>
      if nic && !dd then .hardware
      else if inRange s.c.regs.tdt s.c.tdt i s.c.cfg.ntd then .armed
      else .unexpected

/-! ## Invariants -/

/-- Ring shape (R512 (b)) and the index invariant (R65); the slot arrays have the rings' sizes (R34, R36). -/
def indexOk (c : Ctlr) : Prop :=
  ringSizeOk c.cfg.nrd = true ∧ ringSizeOk c.cfg.ntd = true
    ∧ c.rdh.toNat < c.cfg.nrd ∧ c.rdt.toNat < c.cfg.nrd ∧ c.tdh.toNat < c.cfg.ntd ∧ c.tdt.toNat < c.cfg.ntd
    ∧ c.rb.length = c.cfg.nrd ∧ c.tb.length = c.cfg.ntd

/-- Whole classes in the mask and in the dispatcher's locals, and only their bits in `icr` (R278). -/
def maskOk (c : Ctlr) : Prop :=
  wholeClasses c.im = true ∧ wholeClasses c.disp.imEntry = true ∧ wholeClasses c.disp.work = true
    ∧ c.disp.icr &&& ~~~allClass = 0#32

/-- Distinct identifiers of the controllers, each below their number. -/
def idsOk (s : State) : Prop := (s.ctlrs.map Ctlr.id).Nodup ∧ ∀ c ∈ s.ctlrs, c.id ≤ s.others.length

/-- A line of the ATTACH sequence before line D4. -/
def LcCtl.attachLine : LcCtl → Bool
  | .a1 | .a2 | .a3 | .a4 | .b0 | .b1 _ _ | .b2 | .b3 | .c1 _ _ | .c2 _ | .c3 _ | .c4 _ | .c5 | .i1 | .i2 | .i3
  | .i4 | .i5 | .i6 _ | .i7 _ _ | .i8 _ | .i9 | .i10 _ | .i11 | .t1 | .t2 | .t3 | .t4 | .t5 | .t6 _ | .t7 _ _
  | .t8 _ | .t9 | .d3 | .fatal _ => true
  | .rmwR w | .rmwW w _ => w != .z5
  | .pollR p _ | .pollD p _ => p != .z6
  | .idle | .d4 | .z1 | .z2 | .z3 | .z4 | .z7 _ | .z8 _ | .promiscR | .promiscW _ | .mcastW _ | .tunableW | .u1
  | .u2 _ | .u3 _ | .u3e _ _ | .u4 | .u5 => false

/-- A line of SHUTDOWN. -/
def LcCtl.shutdownLine : LcCtl → Bool
  | .z1 | .z2 | .z3 | .z4 | .z7 _ | .z8 _ => true
  | .rmwR w | .rmwW w _ => w == .z5
  | .pollR p _ | .pollD p _ => p == .z6
  | .idle | .a1 | .a2 | .a3 | .a4 | .fatal _ | .b0 | .b1 _ _ | .b2 | .b3 | .c1 _ _ | .c2 _ | .c3 _ | .c4 _ | .c5
  | .i1 | .i2 | .i3 | .i4 | .i5 | .i6 _ | .i7 _ _ | .i8 _ | .i9 | .i10 _ | .i11 | .t1 | .t2 | .t3 | .t4 | .t5
  | .t6 _ | .t7 _ _ | .t8 _ | .t9 | .d3 | .d4 | .promiscR | .promiscW _ | .mcastW _ | .tunableW | .u1 | .u2 _
  | .u3 _ | .u3e _ _ | .u4 | .u5 => false

/-- The lifecycle states of an ATTACH under way (R320). -/
def Lifecycle.attaching : Lifecycle → Bool
  | .resetting | .eepromLoading | .configured => true
  | .poweredUnknown | .running | .faulted | .halted => false

/-- No worker and no direct-send caller has started. -/
def notStarted (c : Ctlr) : Prop := c.rxw.ctl = .notStarted ∧ c.txw = .notStarted ∧ c.lnk = .notStarted ∧ c.txcs = []

/-- `LC`'s line fits the lifecycle state (R320), and workers start only after ring init (R5, R511): before it no agent
but `LC` and `DISP` runs, and from it on, while the controller is Running, all three have started. -/
def startOk (c : Ctlr) : Prop :=
  (c.lc = .poweredUnknown → c.lcCtl = .idle ∧ notStarted c)
    ∧ (c.lcCtl.attachLine = true → c.lc.attaching = true ∧ notStarted c)
    ∧ (c.lcCtl = .d4 → c.lc.attaching = true ∧ c.txcs = [])
    ∧ (c.lc.attaching = true → c.lcCtl.attachLine = true ∨ c.lcCtl = .d4)
    ∧ (c.lcCtl.shutdownLine = true → c.lc = .running)
    ∧ (c.lcCtl = .d4 ∨ c.lc = .running → c.rxw.ctl ≠ .notStarted ∧ c.txw ≠ .notStarted ∧ c.lnk ≠ .notStarted)

/-! ## Critical sections (20_memory.md R96, R97) -/

/-- Inside ARM, between its acquire and its release. -/
def ArmPc.holds : ArmPc → Bool
  | .m1 => false
  | .m2 | .m3 | .m4 => true

/-- Inside WAKE. -/
def WakePc.holds : WakePc → Bool
  | .k1 => false
  | .k2 | .k3 => true

/-- A run of TX_ROUTINE inside the ARM of line C1. -/
def TxPc.holdsM : TxPc → Bool
  | .c1Arm p => p.holds
  | .x0 | .a1 | .a3 | .a4 | .b2 | .b4 | .b5 | .b6 | .b7 | .c1 | .c1Emit | .e1 | .e2 | .haltB3 => false

/-- A run of TX_ROUTINE past line X0. -/
def TxPc.holdsT : TxPc → Bool
  | .x0 => false
  | .a1 | .a3 | .a4 | .b2 | .b4 | .b5 | .b6 | .b7 | .c1 | .c1Arm _ | .c1Emit | .e1 | .e2 | .haltB3 => true

/-- The agent stands at a line between an acquire of `mlock` and its release. -/
def inMlock (c : Ctlr) : AgentId → Bool
  | .disp => c.disp.ctl != .idle && c.disp.ctl != .q1
  | .rxw =>
    match c.rxw.ctl with
    | .w1 p => p.holds
    | .w3 p => p.holds
    | _ => false
  | .txw =>
    match c.txw with
    | .t1 p => p.holds
    | .t3 p => p.holds
    | .t4 r => r.pc.holdsM
    | _ => false
  | .lnk =>
    match c.lnk with
    | .l5b | .l5c => true
    | .l6 p => p.holds
    | .l8 p => p.holds
    | _ => false
  | .lc => c.lcCtl.shutdownLine && c.lcCtl != .z1 && c.lcCtl != .z8 true && c.lcCtl != .z8 false
  | .txc k =>
    match txcFind c.txcs k with
    | some r => r.pc.holdsM
    | none => false

/-- The agent stands at a line between an acquire of `tlock` and its release. -/
def inTlock (c : Ctlr) : AgentId → Bool
  | .txw =>
    match c.txw with
    | .t4 r => r.pc.holdsT
    | _ => false
  | .txc k =>
    match txcFind c.txcs k with
    | some r => r.pc.holdsT
    | none => false
  | .disp | .rxw | .lnk | .lc => false

/-- Whoever is inside a critical section holds its lock, so at most one agent is inside each (R14, R96, R256). -/
def locksOk (c : Ctlr) : Prop :=
  (∀ a, inMlock c a = true → c.mlock = some a) ∧ ∀ a, inTlock c a = true → c.tlock = some a

/-! ## Who runs REPLENISH and TX_ROUTINE -/

/-- The three callers of REPLENISH (R220): lines S8 and P1 of the worker, line I10 of RX_INIT. -/
inductive RepCaller where
  | harvest | retry | init
  deriving DecidableEq, Repr

def RepCaller.agent : RepCaller → AgentId
  | .harvest | .retry => .rxw
  | .init => .lc

/-- The line of REPLENISH the caller stands at. -/
def RepCaller.line (c : Ctlr) : RepCaller → Option RepPc
  | .harvest =>
    match c.rxw.ctl with
    | .s8 p => some p
    | _ => none
  | .retry =>
    match c.rxw.ctl with
    | .p1 p => some p
    | _ => none
  | .init =>
    match c.lcCtl with
    | .i10 p => some p
    | _ => none

/-- The caller moved to another line of REPLENISH; nothing else changes. -/
def RepCaller.goto (p : RepPc) (s : State) : RepCaller → State
  | .harvest => rxwJump (.s8 p) s
  | .retry => rxwJump (.p1 p) s
  | .init => lcJump (.i10 p) s

/-- The caller behind REPLENISH: the scan goes on and counts it (line S8), the worker re-arms (line P1), the receiver is
enabled next (line I11). -/
def RepCaller.leave (s : State) : RepCaller → State
  | .harvest => setRxw s fun w => { w with ctl := .s1, nrep := w.nrep + 1 }
  | .retry => rxwJump (.w1 .m1) s
  | .init => lcJump .i11 s

/-- The run of TX_ROUTINE an agent is in: the worker's (R242) or a direct-send caller's (R243). -/
def txRunOf (c : Ctlr) : AgentId → Option TxRun
  | .txw =>
    match c.txw with
    | .t4 r => some r
    | _ => none
  | .txc k => txcFind c.txcs k
  | .disp | .rxw | .lnk | .lc => none

/-- The agent moved to another point of TX_ROUTINE; nothing else changes. -/
def atTx (a : AgentId) (q : TxRun) (s : State) : State :=
  match a with
  | .txw => txwJump (.t4 q) s
  | .txc k => txcJump k q s
  | .disp | .rxw | .lnk | .lc => s

/-- The agent behind TX_ROUTINE: the worker re-arms, a caller ends with OK. -/
def endTx (a : AgentId) (s : State) : State :=
  match a with
  | .txw => txwJump (.t1 .m1) s
  | .txc k => txcEnd k s
  | .disp | .rxw | .lnk | .lc => s

/-- The lines of TX_ROUTINE between the refill test and the tail's advance (B2-B7). -/
def TxPc.fills : TxPc → Bool
  | .b2 | .b4 | .b5 | .b6 | .b7 | .haltB3 => true
  | .x0 | .a1 | .a3 | .a4 | .c1 | .c1Arm _ | .c1Emit | .e1 | .e2 => false

/-- Those of them after the packet is recorded in the slot. -/
def TxPc.filled : TxPc → Bool
  | .b4 | .b5 | .b6 | .b7 | .haltB3 => true
  | .x0 | .a1 | .a3 | .a4 | .b2 | .c1 | .c1Arm _ | .c1Emit | .e1 | .e2 => false

/-! ## Buffer ownership and conservation (R47, R66, R308) -/

/-- A line of the receive worker that holds the buffer of the slot at `rdh` (DELIVER, DISCARD). -/
def RxCtl.holdsHead : RxCtl → Bool
  | .d1 | .d2 | .d4 | .d5 | .discard | .haltD2 => true
  | .notStarted | .w1 _ | .w2 | .w3 _ | .s1 | .s3 | .s6 | .s7 | .s8 _ | .p1 _ | .haltS3 => false

/-- What the lines that move buffers rely on (R66, R67): the buffer in the worker's hand is the one at `rdh`; a slot is
filled only when it holds none; a transmit slot that holds a buffer lies from `tdh` up to `tdt`, or is the one at `tdt`
that is being filled; before the transmit ring is initialised none holds one. -/
def slotsOk (c : Ctlr) : Prop :=
  (c.rxw.ctl.holdsHead = true → c.rb.getD c.rdh.toNat none = some c.rxw.b)
    ∧ (∀ x : RepCaller, x.line c = some .r3 → c.rb.getD c.rdt.toNat none = none)
    ∧ (c.lc = .poweredUnknown ∨ c.lcCtl.attachLine = true → ∀ i : Half, c.tb.getD i.toNat none = none)
    ∧ (∀ a q, txRunOf c a = some q → q.pc = .a4 → c.tb.getD c.tdh.toNat none = none)
    ∧ (∀ a q, txRunOf c a = some q → q.pc.fills = true → ringNext c.tdt c.cfg.ntd ≠ c.tdh)
    ∧ ∀ (i : Half) (b : BufId), c.tb.getD i.toNat none = some b →
        ringDist c.tdh i c.cfg.ntd < ringDist c.tdh c.tdt c.cfg.ntd
          ∨ (i = c.tdt ∧ ∃ a q, txRunOf c a = some q ∧ q.pc.filled = true)

/-- Ownership (R47): every buffer is in exactly the place its owner names, the pool, one slot of one controller, or the
host's hands (where it may stand in one outbound queue, once), and only pool buffers are in the pool or in a receive
slot (R300, R304). -/
def placesOk (s : State) : Prop :=
  s.free.Nodup
    ∧ (∀ b, b ∈ s.free ↔ ∃ r, s.buf? b = some r ∧ r.owner = .pool)
    ∧ (∀ c ∈ s.ctlrs, ∀ (i : Half) (b : BufId),
        (c.rb.getD i.toNat none = some b ↔ ∃ r, s.buf? b = some r ∧ r.owner = .rxSlot c.id i)
        ∧ (c.tb.getD i.toNat none = some b ↔ ∃ r, s.buf? b = some r ∧ r.owner = .txSlot c.id i))
    ∧ (∀ b r k i, s.buf? b = some r → r.owner = .rxSlot k i ∨ r.owner = .txSlot k i → ∃ c ∈ s.ctlrs, c.id = k)
    ∧ (s.ctlrs.flatMap Ctlr.oq).Nodup
    ∧ (∀ c ∈ s.ctlrs, ∀ b ∈ c.oq, ∃ r, s.buf? b = some r ∧ r.owner = .host)
    ∧ (∀ b r, s.buf? b = some r → (r.origin = .pool ↔ b < s.pool.npool))
    ∧ (∀ b r, s.buf? b = some r → r.owner = .pool ∨ (∃ k i, r.owner = .rxSlot k i) → r.origin = .pool)
    ∧ ∀ b, b < s.pool.npool → ∃ r, s.buf? b = some r

/-- The slots of a controller that hold a pool buffer. -/
def poolSlots (s : State) (c : Ctlr) : Nat :=
  ((c.rb ++ c.tb).filter fun x => x.any fun b => decide (b < s.pool.npool)).length

/-- Conservation (R308): the free buffers, those in slots and those with the host are the pool's. -/
def conserved (s : State) : Prop :=
  s.free.length + (s.ctlrs.map (poolSlots s)).sum
    + ((List.range s.pool.npool).filter fun b => (s.buf? b).any fun r => r.owner == .host).length = s.pool.npool

/-! ## The soft mask and the hardware's (R286) -/

/-- Before line A2's write: HwIMS may have any value (R500). -/
def Ctlr.beforeMask (c : Ctlr) : Bool := c.lc == .poweredUnknown || c.lcCtl == .a1 || c.lcCtl == .a2

/-- A SHUTDOWN whose reset timed out, its lock freed: the reset may still complete later, whatever was armed meanwhile
(R527). Of the Faulted controllers these are the ones whose workers have started: a failed ATTACH leaves none. -/
def Ctlr.resetLate (c : Ctlr) : Bool := (c.lc == .faulted && c.rxw.ctl != .notStarted) || c.lcCtl == .z8 false

/-- The dispatcher between its IMC write and its IMS write (R272, R276). -/
def Disp.masked (d : Disp) : Bool :=
  match d.ctl with
  | .q3 | .l1 | .l3 | .l4 | .l5 | .x1 | .x2 => true
  | .idle | .q1 | .q2 | .x3 => false

/-- An agent inside ARM with its class added and IMS not yet written (line M3). -/
def arming (c : Ctlr) : AgentId → Bool
  | .rxw => c.rxw.ctl == .w1 .m3
  | .txw => c.txw == .t1 .m3 || (txRunOf c .txw).any fun q => q.pc == .c1Arm .m3
  | .lnk => c.lnk == .l6 .m3
  | .txc k => (txRunOf c (.txc k)).any fun q => q.pc == .c1Arm .m3
  | .disp | .lc => false

/-- The lines at which a device reset may be pending (R333, R377), beside a failed ATTACH's: `im` is 0 there. -/
def LcCtl.resetMayPend : LcCtl → Bool
  | .a1 | .a2 | .a3 | .a4 | .rmwR .a5 | .rmwW .a5 _ | .pollR .a6 _ | .pollD .a6 _ | .fatal _
  | .pollR .z6 _ | .pollD .z6 _ | .z7 false => true
  | _ => false

/-- The mask is 0 from line Z2 of SHUTDOWN to its release. -/
def LcCtl.maskZero : LcCtl → Bool
  | .z3 | .z4 | .z7 _ | .rmwR .z5 | .rmwW .z5 _ | .pollR .z6 _ | .pollD .z6 _ => true
  | _ => false

/-- The agreement of HwIMS with `im`, line by line (R286): equal except inside a dispatcher run, where HwIMS is 0, and at
line M3 of an ARM, where it may still lack the class. -/
def syncOk (c : Ctlr) : Prop :=
  c.resetLate = true ∨
    ((c.lc = .faulted → notStarted c)
      ∧ (c.lc = .poweredUnknown ∨ c.lc = .faulted ∨ c.lcCtl.attachLine = true ∨ c.lcCtl.maskZero = true → c.im = 0#32)
      ∧ (c.disp.masked = true → c.disp.ctl ≠ .q3 → c.disp.work &&& ~~~c.im = 0#32)
      ∧ (c.disp.ctl = .x2 → c.disp.work = c.im)
      ∧ (resetPending c.regs = true → c.lc = .poweredUnknown ∨ c.lc = .faulted ∨ c.lcCtl.resetMayPend = true)
      ∧ (∀ v, c.lcCtl = .rmwW .a7 v → v &&& 0x04000000#32 = 0#32)
      ∧ (c.beforeMask = false →
          c.regs.hwIms &&& ~~~c.im = 0#32
          ∧ (c.disp.masked = true → c.regs.hwIms = 0#32)
          ∧ (c.disp.masked = false → (∀ a, arming c a = false) → c.regs.hwIms = c.im)))

/-! ## What stays as it was -/

/-- Everything of `s` but the selected controller is `t`'s. -/
def sameBeside (s t : State) : Prop := t = { s with c := t.c }

/-- Two controllers agree but for the NIC's registers, the NIC's own state and the trace. -/
def sameBesideNic (c d : Ctlr) : Prop := d = { c with regs := d.regs, dev := d.dev, trace := d.trace }

/-- Every byte of DMA memory outside `n` bytes at `a` reads as before (address sums wrap, R11). -/
def sameMemOutside (s t : State) (a : DWord) (n : Nat) : Prop :=
  ∀ x : DWord, n ≤ (x - a).toNat → Mem.read8 t.mem x = Mem.read8 s.mem x

/-- A command's answer and nothing else (R454). -/
def replyOnly (s : State) (i : Instr) (st : Status) : State :=
  { s with c := { s.c with trace := s.c.trace ++ [.cmd i st] } }

/-- The trace grew by these events. -/
def traceGrew (s t : State) (es : List TraceEv) : Prop := t.c.trace = s.c.trace ++ es

end Sys2Proof.Machine
end

