-- ==== Sys2Proof/Certificates/Slice0/Obligations.lean ====
section
/-!
DEFINITION. The statements about the HRE that are to be proved. Each docstring names the rules of spec/ it formalises.
A conclusion of the form `exec i s = .next { s with ... }` says what the operation changes and, by the update, that it
changes nothing else.
-/

section

open Sys2Proof Sys2Proof.Machine

/-! ## The step, decoding and encoding -/

/-- The oldest operation at the port is decoded, under the selected controller's register map, and run; a word that spells
none is refused by name (R112); an operation placed by `withFetchWord` is the one the next step runs. The model's, not the
spec's: that words at the port run before listed choices (log 7), which interface a table word is presented at (log 11),
and that an operation is presented at the port at all (log 13). -/
def Obligations.StepRunsDecodedOperation : Prop :=
  ∀ s : State,
    (∀ (w : PortWord) (ws : List PortWord) (i : Instr), s.port = w :: ws →
      decodeWith s.c.cfg.regMap w.fmt w.bytes = .ok i → step s = exec i { s with port := ws })
    ∧ (∀ (w : PortWord) (ws : List PortWord) (r : Reject), s.port = w :: ws →
      decodeWith s.c.cfg.regMap w.fmt w.bytes = .error r → step s = .refused (.undecodable r))
    ∧ ∀ (nbits w : Nat) (i : Instr), s.c.cfg.regMap.wf → decodeTableWord nbits w = some i →
      step (s.withFetchWord nbits w) = exec i s

/-- With no operation at the port, the first listed choice is made: an agent's step, a NIC action, a host action, the
selection of a controller, or a discovery; where none is listed, some choice is (93 U17). The model's, not the spec's: that
choices stand in a list and are read in order (log 7); that a choice of an agent without a step is consumed and changes
nothing else (log 32); that one controller is the selected one and a choice selects another (log 19); that a step which
names a buffer without a record stops the machine, which is no model fault of R456 (log 36); that a discovery is the launch
of the machine with the new record, of which R510 gives the order alone (log 39). -/
def Obligations.StepMakesListedChoice : Prop :=
  ∀ s : State, s.port = [] →
    (∀ (a : AgentId) (d : Nat) (es : List Event) (t : State), s.sched = .agent a d :: es →
      agentStep a d { s with sched := es } = .go t → step s = .next t)
    ∧ (∀ (a : AgentId) (d : Nat) (es : List Event), s.sched = .agent a d :: es →
      agentStep a d { s with sched := es } = .blocked → step s = .next { s with sched := es })
    ∧ (∀ (a : AgentId) (d : Nat) (es : List Event) (f : Fault), s.sched = .agent a d :: es →
      agentStep a d { s with sched := es } = .fault f → step s = .fault f)
    ∧ (∀ (x : NicAct) (es : List Event), s.sched = .nic x :: es → step s = .next (nicAct { s with sched := es } x))
    ∧ (∀ (x : HostAct) (es : List Event), s.sched = .host x :: es → step s = hostAct { s with sched := es } x)
    ∧ (∀ (k : Nat) (es : List Event), s.sched = .select k :: es → step s = .next (selectCtlr { s with sched := es } k))
    ∧ (∀ (p : Params) (a b : DWord) (es : List Event), s.sched = .discover p a b :: es →
      step s = launch (discoverCtlr { s with sched := es } p a b))
    ∧ (s.sched = [] → ∃ e : Event, step s = eventAct e { s with tick := s.tick + 1 })

/-- Words written out from the spec's encodings decode to what they stand for (30_encoding.md R110, R140, R148, R161,
R130; 95 TV-H-21, TV-E-8, TV-E-12). Of a register transaction the spec gives the offset, bits 16:0, alone; the write mark
in bit 31 and the data in bits 63:32 are the model's (log 10). -/
def Obligations.SpecWordsDecode : Prop :=
  decode .hostCmd (leBytes 8 0x0000000000000104) = .ok (.setPromisc true)
    ∧ decode .hostCmd (leBytes 8 0x0100005E00010105) = .ok (.setMcast true 0x0100005E0001#48)
    ∧ decode .hostCmd (leBytes 8 0x0000000000200006) = .ok (.setRdtr 0x20#48)
    ∧ decode .mmio (leBytes 8 0x000053FC) = .ok (.mmioMta 127 .read)
    ∧ decode .mmio (leBytes 8 0x00008002_80000100) = .ok (.mmioRctl (.write 0x00008002#32))
    ∧ decode .rxDesc [0x00, 0x00, 0x00, 0x10, 0x00, 0x00, 0x00, 0x00, 0x3C, 0x00, 0xEF, 0xBE, 0x63, 0x00, 0x00, 0x00]
        = .ok (.rxdesc
            { addrLo := 0x10000000#32, addrHi := 0#32, length := 0x3C#16, checksum := 0xBEEF#16, status := 0x63#8,
              errors := 0#8, special := 0#16 })
    ∧ decode .txCtrl (leBytes 4 0x8B00003C) = .ok (.txdescLegacy 0x3C#16)
    ∧ decode .icr (leBytes 4 0x00020000) = .ok (.causeAck 0x00020000#32)

/-- Decoding the encoding of a well-formed operation gives it back, under the defaults of 30_encoding.md and under every
register map a chip can have (R8, D3). -/
def Obligations.DecodeOfEncodeIsIdentity : Prop :=
  (∀ i : Instr, i.wellFormed = true → decode i.format (encode i) = .ok i)
    ∧ ∀ (m : RegMap) (i : Instr), m.wf → i.wellFormed = true → decodeWith m i.format (encodeWith m i) = .ok i

/-- Each word has one meaning, under every register map a chip can have: what a byte string decodes to is well-formed, of
its format, and encodes to the same bytes. -/
def Obligations.EncodeOfDecodeIsIdentity : Prop :=
  (∀ (f : Format) (bs : List Byte) (i : Instr), decode f bs = .ok i →
      i.wellFormed = true ∧ i.format = f ∧ encode i = bs)
    ∧ ∀ (m : RegMap) (f : Format) (bs : List Byte) (i : Instr), m.wf → decodeWith m f bs = .ok i →
      i.wellFormed = true ∧ i.format = f ∧ encodeWith m i = bs

/-- Register offsets (R110): no two registers share one, each is a multiple of 4 below 2^17; a transaction word at an
offset the chip's register map gives to none is refused (R112), and so are the transactions at a listed offset that the HRE
has no step for (R110's access column, U13): writes of the read-only STATUS and of the read-to-clear ICR and STAT[k], the
read of the write-only IMC. -/
def Obligations.UnlistedTransactionsAreRefused : Prop :=
  (∀ r q : Reg, regOffset r = regOffset q → r = q)
    ∧ (∀ r : Reg, regOffset r % 4 = 0 ∧ regOffset r < 2 ^ 17)
    ∧ (∀ (s : State) (w : DWord) (ws : List PortWord), s.port = { fmt := .mmio, bytes := leBytes 8 w.toNat } :: ws →
      s.c.cfg.regMap.wf → (∀ r : Reg, s.c.cfg.regMap.offset r ≠ (w.extractLsb' 0 17).toNat) →
      ∃ x : Reject, step s = .refused (.undecodable x))
    ∧ ∀ (s : State) (v : Word) (k : Fin 73),
      exec (.mmioStatus (.write v)) s = .refused (.deviceInterface .status)
      ∧ exec (.mmioIcr (.write v)) s = .refused (.deviceInterface .icr)
      ∧ exec (.mmioStat k (.write v)) s = .refused (.deviceInterface (.stat k))
      ∧ exec (.mmioImc .read) s = .refused (.deviceInterface .imc)

/-! ## Reset and invariants -/

/-- The discovery column of R500, for every controller record at its discovery and for the machine right after reset, only
the values the spec gives; and the state after reset meets every invariant stated below and the launch premises of R512
(a)-(e). -/
def Obligations.ResetIsDiscoveryAndMeetsInvariants : Prop :=
  (∀ (k : Nat) (p : Params) (a b : DWord) (c : Ctlr), c = Ctlr.discovery k p a b →
    c.lc = .poweredUnknown ∧ c.im = 0#32 ∧ c.rim = 0#32 ∧ c.lim = 0#32 ∧ c.tsig = false
      ∧ c.mlock = none ∧ c.tlock = none ∧ c.slock = none ∧ c.rdba = a ∧ c.tdba = b
      ∧ c.rdh = 0#16 ∧ c.rdt = 0#16 ∧ c.rdfree = 0#16 ∧ c.tdh = 0#16 ∧ c.tdt = 0#16
      ∧ c.rb.length = p.nrd ∧ (∀ x ∈ c.rb, x = none) ∧ c.tb.length = p.ntd ∧ (∀ x ∈ c.tb, x = none)
      ∧ c.rxw.ctl = .notStarted ∧ c.txw = .notStarted ∧ c.lnk = .notStarted ∧ c.txcs = []
      ∧ c.lcCtl = .idle ∧ c.disp.ctl = .idle ∧ c.rdtr = p.rdtrInit ∧ c.radv = p.radvInit ∧ c.promisc = false
      ∧ (∀ j : Fin 73, c.swStats[j] = 0#64) ∧ (∀ j : Fin 4, c.speedHist[j] = 0#32)
      ∧ c.linkUp = false ∧ c.speedIdx = 3 ∧ c.fault = [] ∧ c.lastError = none ∧ c.trace = [] ∧ c.oq = [])
    ∧ (∃ (p : Params) (a b : DWord), State.reset.c = Ctlr.discovery 0 p a b)
    ∧ State.reset.plock = none ∧ State.reset.free.Nodup
    ∧ (∀ b : BufId, (b ∈ State.reset.free ↔ b < State.reset.pool.npool)
      ∧ (b < State.reset.pool.npool → ∃ r, State.reset.buf? b = some r ∧ r.owner = .pool ∧ r.origin = .pool
          ∧ r.cap.toNat = State.reset.pool.rbsize))
    ∧ Mem.wf State.reset.mem = true ∧ idsOk State.reset ∧ placesOk State.reset ∧ launchable State.reset = true
    ∧ ∀ c ∈ State.reset.ctlrs, indexOk c ∧ maskOk c ∧ startOk c ∧ locksOk c ∧ slotsOk c ∧ syncOk c

/-- Every step keeps DMA memory in its canonical form: the list of the bytes that are not 0, in rising order of address.
The form, and that an unlisted byte reads as 0, are the model's choice (log 6). -/
def Obligations.StepKeepsMemoryCanonical : Prop :=
  ∀ s t : State, step s = .next t → Mem.wf s.mem = true → Mem.wf t.mem = true

/-- Every step keeps every ring index below its ring's size (R65). -/
def Obligations.StepKeepsRingIndices : Prop :=
  ∀ s t : State, step s = .next t → (∀ c ∈ s.ctlrs, indexOk c) → ∀ c ∈ t.ctlrs, indexOk c

/-- Every step keeps the soft mask, `im_entry` and `work` unions of whole classes (R278). -/
def Obligations.StepKeepsWholeClassMask : Prop :=
  ∀ s t : State, step s = .next t → (∀ c ∈ s.ctlrs, maskOk c) → ∀ c ∈ t.ctlrs, maskOk c

/-- Every step keeps `LC`'s line in agreement with the lifecycle state, and no worker or direct-send caller runs before
the rings are initialised (R5, R320, R511). -/
def Obligations.StepKeepsStartOrder : Prop :=
  ∀ s t : State, step s = .next t → (∀ c ∈ s.ctlrs, startOk c) → ∀ c ∈ t.ctlrs, startOk c

/-- Every step keeps mutual exclusion: at most one agent of a controller is inside an `mlock` section and at most one
inside TX_ROUTINE (R14, R96, R256). -/
def Obligations.StepKeepsMutualExclusion : Prop :=
  ∀ s t : State, step s = .next t → (∀ c ∈ s.ctlrs, locksOk c) → ∀ c ∈ t.ctlrs, locksOk c

/-- Every step keeps the soft mask and the hardware's in agreement (R286, R272, R276, R280, R331, R377): HwIMS equals `im`
but inside a dispatcher run, where it is 0, and at line M3 of an ARM, where it may still lack the class; after a failed
ATTACH both are 0. Excepted are the times R286 does not speak of: before line A2's IMC write (R500: any value), and after a
SHUTDOWN whose reset timed out and may still complete (R527): from its line Z8, and on the Faulted controller with started
workers it leaves. The premise on the port is `OwnWindow` (R512 (e), R383): nothing but the HRE's own agents accesses the
registers. Hence, outside those times, HwIMS is `im` wherever `mlock` is free, and both are 0 on a controller whose ATTACH
failed. -/
def Obligations.StepKeepsMaskAgreement : Prop :=
  (∀ s t : State, step s = .next t → (∀ (w : PortWord) (ws : List PortWord), s.port = w :: ws → w.fmt ≠ .mmio) →
      (∀ c ∈ s.ctlrs, startOk c ∧ locksOk c ∧ syncOk c) → ∀ c ∈ t.ctlrs, syncOk c)
    ∧ (∀ c : Ctlr, locksOk c → syncOk c → c.mlock = none → c.beforeMask = false → c.resetLate = false →
      c.regs.hwIms = c.im)
    ∧ ∀ c : Ctlr, startOk c → syncOk c → c.lc = .faulted → c.rxw.ctl = .notStarted →
      c.im = 0#32 ∧ c.regs.hwIms = 0#32

/-- Every step keeps every buffer in exactly one place, slot and owner in agreement, and moves none into a slot that holds
one (R47, R66, R67, R304); hence the pool's buffers are conserved (R308). -/
def Obligations.StepKeepsBufferPlaces : Prop :=
  (∀ s t : State, step s = .next t → idsOk s → (∀ c ∈ s.ctlrs, indexOk c ∧ startOk c ∧ locksOk c ∧ slotsOk c) →
      placesOk s → placesOk t ∧ ∀ c ∈ t.ctlrs, slotsOk c)
    ∧ ∀ s : State, idsOk s → (∀ c ∈ s.ctlrs, indexOk c) → placesOk s → conserved s

/-- No step shortens a fault record or a trace or leaves Faulted or Halted (R60, R62, R320, R455), and controllers keep
their identifiers. -/
def Obligations.RecordsGrowAndEndStatesLast : Prop :=
  ∀ s t : State, step s = .next t → idsOk s → (∀ c ∈ s.ctlrs, startOk c) →
    idsOk t ∧ ∀ c ∈ s.ctlrs, ∃ d ∈ t.ctlrs, d.id = c.id ∧ c.fault <+: d.fault ∧ c.trace <+: d.trace
      ∧ (c.lc = .faulted → d.lc = .faulted) ∧ (c.lc = .halted → d.lc = .halted)

/-! ## Host commands -/

/-- A reserved op code or a word with nonzero reserved bits is answered `BadArgument` with no state change, in every
lifecycle state (R384); so is every other word that spells none of the nine commands (R160, R371 (1)), and nothing but such
words is RESERVED_OP, which is the model's reading of the row (log 35). -/
def Obligations.ReservedCommandsAreBadArgument : Prop :=
  (∀ (s : State) (w : DWord) (ws : List PortWord), s.port = { fmt := .hostCmd, bytes := leBytes 8 w.toNat } :: ws →
    (cmdOp w = 0#8 ∨ 10 ≤ (cmdOp w).toNat ∨ cmdReserved w ≠ 0#7) →
    step s = .next (replyOnly { s with port := ws } (.reservedOp w) .badArgument))
    ∧ (∀ w : DWord, decode .hostCmd (leBytes 8 w.toNat) = .ok (.reservedOp w) ↔ spellsCommand w = false)
    ∧ ∀ (s : State) (w : DWord), exec (.reservedOp w) s = .next (replyOnly s (.reservedOp w) .badArgument)

/-- ATTACH (R373, R372, R321 line A0): from PoweredUnknown with `LC` idle it is accepted; `lc` becomes Resetting and `LC`
stands at line A1 when the packet buffer is to be rebalanced (R330), else at A2. A launch is refused where a premise of
R512 (a)-(e) fails or a register stands at an offset R85 does not admit, so that a launched machine has: disjoint DMA ranges
(a); rings of a power of two in 8..65536 at multiples of 128 (b); buffers of a size RCTL has, and TX_MAX_LEN in 1..0xFFFF
(c); every controller at its discovery, its flags 0 and its locks free, and every pool buffer free (d); controllers of
distinct identifiers and no register transaction at the port (e). That ATTACH too is refused where (a)-(c) fail is the
model's (log 39). -/
def Obligations.AttachIsAccepted : Prop :=
  (∀ s : State, s.c.lc = .poweredUnknown → s.c.lcCtl = .idle →
    (launchOk s = true → exec .attach s = .next { s with c := { s.c with
        lc := .resetting
        lcCmd := .attach
        lcCtl := if s.c.cfg.variant.pbaThreshold < s.pool.rbsize ∧ s.c.cfg.variant.pbaRebalance.isSome then .a1
          else .a2 } })
      ∧ (launchOk s = false → exec .attach s = .refused .badLaunch))
    ∧ ∀ s : State,
      (launch s = .next s ∨ launch s = .refused .badLaunch)
      ∧ ∀ t : State, launch s = .next t → t = s ∧ disjointOk s = true ∧ s.plock = none
        ∧ (∀ b, b < s.pool.npool → b ∈ s.free ∧ ∃ r, s.buf? b = some r ∧ r.owner = .pool)
        ∧ (s.ctlrs.map Ctlr.id).Nodup ∧ (∀ w ∈ s.port, w.fmt ≠ .mmio)
        ∧ s.pool.rbsize ∈ [256, 512, 1024, 2048, 4096, 8192, 16384]
        ∧ ∀ c ∈ s.ctlrs, (∃ k, 3 ≤ k ∧ k ≤ 16 ∧ c.cfg.nrd = 2 ^ k) ∧ (∃ k, 3 ≤ k ∧ k ≤ 16 ∧ c.cfg.ntd = 2 ^ k)
          ∧ c.rdba.toNat % 128 = 0 ∧ c.tdba.toNat % 128 = 0 ∧ s.pool.rbsize ≤ c.cfg.variant.rbsizeMax
          ∧ 1 ≤ c.cfg.txMaxLen ∧ c.cfg.txMaxLen ≤ 0xFFFF ∧ c.cfg.regMap.wf
          ∧ c.lc = .poweredUnknown ∧ c.lcCtl = .idle ∧ c.im = 0#32 ∧ c.rim = 0#32 ∧ c.lim = 0#32 ∧ c.tsig = false
          ∧ c.mlock = none ∧ c.tlock = none ∧ c.slock = none ∧ c.fault = [] ∧ c.trace = [] ∧ c.oq = []

/-- R372: where the table has NotReady, the command is answered NotReady and nothing else changes. DUMP in Halted while
`LC` is busy has no column in the table; that it too is NotReady is the model's reading (log 23), and so is that a tunable
in Configured is (the table, where D46 has it written at once; log 52). -/
def Obligations.CommandsOutsideTheirStatesAreNotReady : Prop :=
  ∀ s : State,
    (¬ (s.c.lc = .poweredUnknown ∧ s.c.lcCtl = .idle) → exec .attach s = .next (replyOnly s .attach .notReady))
    ∧ (s.c.lc ≠ .running → exec .txRequest s = .next (replyOnly s .txRequest .notReady))
    ∧ (¬ (s.c.lc = .running ∧ s.c.lcCtl = .idle) →
        exec .shutdown s = .next (replyOnly s .shutdown .notReady)
        ∧ ∀ (m : Bool) (a : BitVec 48), exec (.setMcast m a) s = .next (replyOnly s (.setMcast m a) .notReady))
    ∧ (¬ ((s.c.lc = .poweredUnknown ∨ s.c.lc = .running) ∧ s.c.lcCtl = .idle) →
        (∀ on : Bool, exec (.setPromisc on) s = .next (replyOnly s (.setPromisc on) .notReady))
        ∧ ∀ v : BitVec 48, v.toNat ≤ 0xFFFF →
          exec (.setRdtr v) s = .next (replyOnly s (.setRdtr v) .notReady)
          ∧ exec (.setRadv v) s = .next (replyOnly s (.setRadv v) .notReady))
    ∧ (¬ ((s.c.lc = .running ∨ s.c.lc = .halted) ∧ s.c.lcCtl = .idle) →
        exec .dump s = .next (replyOnly s .dump .notReady))

/-- SET_RDTR and SET_RADV (R378): a value above 0xFFFF is rejected in every state with `BadArgument` and nothing else,
never truncated; in PoweredUnknown the value is stored; in Running it is stored, and `LC`'s next step writes the
register and answers OK. (In Configured it is NotReady, by R372's table against D46: log 52.) -/
def Obligations.TunablesAreValidatedAndStored : Prop :=
  ∀ (s : State) (v : BitVec 48),
    (0xFFFF < v.toNat →
      exec (.setRdtr v) s = .next (replyOnly s (.setRdtr v) .badArgument)
      ∧ exec (.setRadv v) s = .next (replyOnly s (.setRadv v) .badArgument))
    ∧ (v.toNat ≤ 0xFFFF → s.c.lcCtl = .idle → s.c.lc = .poweredUnknown →
      exec (.setRdtr v) s =
        .next { s with c := { s.c with rdtr := v.setWidth 16, trace := s.c.trace ++ [.cmd (.setRdtr v) .ok] } }
      ∧ exec (.setRadv v) s =
        .next { s with c := { s.c with radv := v.setWidth 16, trace := s.c.trace ++ [.cmd (.setRadv v) .ok] } })
    ∧ (v.toNat ≤ 0xFFFF → s.c.lcCtl = .idle → s.c.lc = .running → ∀ d : Nat,
      (∃ t, exec (.setRdtr v) s = .next t ∧ agentStep .lc d t = .go { s with c := { s.c with
          rdtr := v.setWidth 16
          lcCmd := .setRdtr v
          regs := { s.c.regs with rdtr := v.setWidth 32 }
          trace := s.c.trace ++ [.mmioW .rdtr (v.setWidth 32), .cmd (.setRdtr v) .ok] } })
      ∧ ∃ t, exec (.setRadv v) s = .next t ∧ agentStep .lc d t = .go { s with c := { s.c with
          radv := v.setWidth 16
          lcCmd := .setRadv v
          regs := { s.c.regs with radv := v.setWidth 32 }
          trace := s.c.trace ++ [.mmioW .radv (v.setWidth 32), .cmd (.setRadv v) .ok] } })

/-- SET_PROMISC (R379): in PoweredUnknown `promisc` is stored and nothing else changes; in Running it is stored and
`LC`'s next two steps read RCTL and write it back with UPE and MPE set, or cleared, the other bits preserved. -/
def Obligations.PromiscuousSetsOnlyItsBits : Prop :=
  ∀ (s : State) (on : Bool), s.c.lcCtl = .idle →
    (s.c.lc = .poweredUnknown → exec (.setPromisc on) s =
        .next { s with c := { s.c with promisc := on, trace := s.c.trace ++ [.cmd (.setPromisc on) .ok] } })
    ∧ (s.c.lc = .running → ∀ d : Nat, ∃ t, exec (.setPromisc on) s = .next t
      ∧ turn .lc d 2 t = { s with c := { s.c with
          promisc := on
          lcCmd := .setPromisc on
          regs := { s.c.regs with
            rctl := if on then s.c.regs.rctl ||| 0x00000018#32 else s.c.regs.rctl &&& 0xFFFFFFE7#32 }
          trace := s.c.trace ++
            [.mmioR .rctl s.c.regs.rctl,
             .mmioW .rctl (if on then s.c.regs.rctl ||| 0x00000018#32 else s.c.regs.rctl &&& 0xFFFFFFE7#32),
             .cmd (.setPromisc on) .ok] } })

/-- SET_MCAST (R380): the hash is bits 47:36 of the address operand; its bit 11:5 selects the MTA entry, its bits 4:0
the bit, which is set for a member and cleared otherwise; no other bit and no other entry changes. -/
def Obligations.MulticastChangesOneHashBit : Prop :=
  ∀ (s : State) (m : Bool) (a : BitVec 48) (d : Nat) (k : Fin 128), s.c.lcCtl = .idle → s.c.lc = .running →
    k.val = (a.extractLsb' 41 7).toNat →
    ∃ t, exec (.setMcast m a) s = .next t ∧ ∃ v : Word,
      agentStep .lc d t = .go { s with c := { s.c with
          lcCmd := .setMcast m a
          regs := { s.c.regs with mta := s.c.regs.mta.set k v }
          trace := s.c.trace ++ [.mmioR (.mta k) s.c.regs.mta[k], .mmioW (.mta k) v, .cmd (.setMcast m a) .ok] } }
      ∧ ∀ j : Nat, v.getLsbD j =
          if j = (a.extractLsb' 36 5).toNat then m else (s.c.regs.mta[k]).getLsbD j

/-- DUMP (R381), in Running or Halted with `slock` free: the 73 counters are read in ascending order, each added to its
software counter and so cleared; the eight registers are read and recorded; then the counters are recorded, `slock` is
free again and OK is answered. Nothing else changes. -/
def Obligations.DumpAddsAndClearsCounters : Prop :=
  ∀ (s : State) (d : Nat), s.c.lcCtl = .idle → (s.c.lc = .running ∨ s.c.lc = .halted) → s.c.slock = none →
    ∃ t, exec .dump s = .next t ∧ ∃ sw : Vector DWord 73,
      (∀ k : Fin 73, sw[k] = s.c.swStats[k] + (s.c.regs.stat[k]).setWidth 64)
      ∧ turn .lc d 91 t = { s with c := { s.c with
          lcCmd := .dump
          swStats := sw
          regs := { s.c.regs with stat := Vector.replicate 73 0#32 }
          trace := s.c.trace ++ (List.finRange 73).map (fun k => .mmioR (.stat k) s.c.regs.stat[k])
            ++ [Reg.ctrl, .status, .rctl, .tctl, .rdh, .rdt, .tdh, .tdt].flatMap (fun r =>
                [.mmioR r (regRead s.c.regs r), .snapshot r (regRead s.c.regs r)])
            ++ [.counters sw s.c.speedHist s.c.linkUp s.c.speedIdx, .cmd .dump .ok] } }

/-- SHUTDOWN (R377): accepted in Running with `LC` idle, it holds `mlock`, clears `im` and HwIMS, disables receiver and
transmitter and requests a device reset. If the reset never completes, `LC` reads CTRL exactly 1000 times after the
request, frees `mlock` and faults with ResetTimeout (R323, R451); where a read shows RST clear, it frees `mlock` and the
controller is Halted. -/
def Obligations.ShutdownHaltsOrTimesOut : Prop :=
  (∀ (s : State) (d : Nat) (v : Word), s.c.lcCtl = .idle → s.c.lc = .running → s.c.mlock = none →
    v = s.c.regs.ctrl ||| 0x04000000#32 →
    ∃ t, exec .shutdown s = .next t ∧ turn .lc d 2006 t = { s with c := { s.c with
        lc := .faulted
        lcCmd := .shutdown
        im := 0#32
        lastError := some { kind := .hardwareTimeout, info := .resetTimeout }
        fault := s.c.fault ++ [{ kind := .hardwareTimeout, info := .resetTimeout }]
        regs := { s.c.regs with hwIms := 0#32, rctl := 0#32, tctl := 0#32, ctrl := v }
        trace := s.c.trace ++ [.mmioW .imc 0xFFFFFFFF#32, .mmioW .rctl 0#32, .mmioW .tctl 0#32,
            .mmioR .ctrl s.c.regs.ctrl, .mmioW .ctrl v] ++ List.replicate 1000 (.mmioR .ctrl v)
          ++ [.cmd .shutdown .hardwareTimeout] } })
    ∧ ∀ (s : State) (d i : Nat), s.c.lcCtl = .pollR .z6 i → s.c.regs.ctrl &&& 0x04000000#32 = 0#32 →
      turn .lc d 3 s = { s with c := { s.c with
        lc := .halted
        lcCtl := .idle
        mlock := none
        trace := s.c.trace ++ [.mmioR .ctrl s.c.regs.ctrl, .cmd s.c.lcCmd .ok] } }

/-- TX_REQUEST (R374, R243): in Running it creates a caller at line X0 and nothing else. With an empty queue and nothing
Done (the status word read in the chip's layout, R8), the caller's turn ends it with OK and no register is accessed. -/
def Obligations.TxRequestCreatesCaller : Prop :=
  ∀ (s : State) (d : Nat), s.c.lc = .running →
    exec .txRequest s = .next { s with c := { s.c with
        txcs := s.c.txcs ++ [{ k := s.c.txcNext, run := { pc := .x0, t0 := 0, p := 0 } }]
        txcNext := s.c.txcNext + 1 } }
    ∧ ((∀ x ∈ s.c.txcs, x.k < s.c.txcNext) → s.c.tlock = none → s.c.oq = [] →
        s.c.cfg.regMap.fromChip .txStatus (Mem.read32 s.mem (tdAddr s.c s.c.tdh 12)) &&& 1#32 = 0#32 →
        ∃ t, exec .txRequest s = .next t ∧ turn (.txc s.c.txcNext) d 6 t = { s with c := { s.c with
          txcNext := s.c.txcNext + 1
          trace := s.c.trace ++ [.cmd .txRequest .ok] } })

/-- BUF_FREE (R382, R306): in every lifecycle state, a pool buffer the host owns that no outbound queue holds goes back
to the pool in one step, its cursors and annotations unchanged (R302); otherwise `BadArgument` and nothing else. That
Halted is no exception follows R372 and R382 against D42 (log 51); the queues of all controllers count (log 37). -/
def Obligations.BufFreeReturnsDeliveredBuffer : Prop :=
  ∀ (s : State) (n : BitVec 32),
    (∀ r : Buf, n.toNat < s.pool.npool → s.buf? n.toNat = some r → r.owner = .host →
        (∀ c ∈ s.ctlrs, n.toNat ∉ c.oq) →
        ∃ t, exec (.bufFree n) s = .next t ∧ t.free = n.toNat :: s.free
          ∧ t.buf? n.toNat = some { r with owner := .pool } ∧ (∀ b, b ≠ n.toNat → t.buf? b = s.buf? b)
          ∧ t = { s with c := { s.c with trace := s.c.trace ++ [.cmd (.bufFree n) .ok] }, free := t.free,
                         bufs := t.bufs, plock := none })
    ∧ ((s.pool.npool ≤ n.toNat ∨ (∀ r, s.buf? n.toNat = some r → r.owner ≠ .host) ∨ ∃ c ∈ s.ctlrs, n.toNat ∈ c.oq) →
        exec (.bufFree n) s = .next (replyOnly s (.bufFree n) .badArgument))

/-! ## Register transactions -/

/-- Register reads (R13, R88, R435, R438): of a register without a read side effect, the value stands in the trace and
nothing else changes; of ICR, the latched causes are returned and all cleared in one step; of STAT[k], that counter is
returned and cleared and no other; nothing else changes. -/
def Obligations.RegisterReadsReturnAndClear : Prop :=
  (∀ (s : State) (r : Reg), r ≠ .imc → r ≠ .icr → (∀ k, r ≠ .stat k) →
    exec (mmioInstr r .read) s =
      .next { s with c := { s.c with trace := s.c.trace ++ [.mmioR r (regRead s.c.regs r)] } })
    ∧ ∀ (s : State) (k : Fin 73),
      exec (.mmioIcr .read) s = .next { s with c := { s.c with
          regs := { s.c.regs with icr := 0#32 }
          trace := s.c.trace ++ [.mmioR .icr s.c.regs.icr] } }
      ∧ ∃ t, exec (.mmioStat k .read) s = .next t
        ∧ t = { s with c := { s.c with
            regs := { s.c.regs with stat := t.c.regs.stat }
            trace := s.c.trace ++ [.mmioR (.stat k) s.c.regs.stat[k]] } }
        ∧ ∀ j : Fin 73, t.c.regs.stat[j] = if j = k then 0#32 else s.c.regs.stat[j]

/-- IMS and IMC (R436): a write of v to IMS sets HwIMS or v, a write of v to IMC sets HwIMS and not v, a read of IMS
returns HwIMS; nothing else changes. That the rows run whoever holds `mlock`, which R96 has protect the writes of IMS and
IMC, and neither take it nor wait for it, is the model's choice (log 60). -/
def Obligations.MaskRegistersSetAndClearBits : Prop :=
  ∀ (s : State) (v : Word),
    exec (.mmioIms (.write v)) s = .next { s with c := { s.c with
        regs := { s.c.regs with hwIms := s.c.regs.hwIms ||| v }, trace := s.c.trace ++ [.mmioW .ims v] } }
    ∧ exec (.mmioImc (.write v)) s = .next { s with c := { s.c with
        regs := { s.c.regs with hwIms := s.c.regs.hwIms &&& ~~~v }, trace := s.c.trace ++ [.mmioW .imc v] } }
    ∧ exec (.mmioIms .read) s = .next { s with c := { s.c with
        trace := s.c.trace ++ [.mmioR .ims s.c.regs.hwIms] } }

/-- The registers a write simply stores (R439) and the heads and tails (R129, R432, R433): reads return the stored value,
every other register and everything else stays. Of a head or tail that value is bits 15:0 of what was written, and the
upper half reads 0: the model's choice (log 42); so is that any value is stored in any state, an index outside the ring, a
tail moved back or a head written while its ring is enabled, which the HRE never writes (log 46). -/
def Obligations.RegisterWriteStoresValue : Prop :=
  ∀ (s : State) (r : Reg) (v : Word),
    ((r ∈ [Reg.fcal, .fcah, .fct, .fcttv, .rctl, .tctl, .tipg, .pba, .fcrtl, .fcrth, .rdbal, .rdbah, .rdlen, .rdtr,
          .radv, .tdbal, .tdbah, .tdlen, .tidv, .rxcsum]
      ∨ (∃ k, r = .mta k) ∨ (∃ n, r = .ral n) ∨ ∃ n, r = .rah n) →
      ∃ t, exec (mmioInstr r (.write v)) s = .next t ∧ regRead t.c.regs r = v
        ∧ (∀ q : Reg, q ≠ r → regRead t.c.regs q = regRead s.c.regs q)
        ∧ t = { s with c := { s.c with regs := t.c.regs, trace := s.c.trace ++ [.mmioW r v] } })
    ∧ (r ∈ [Reg.rdh, .rdt, .tdh, .tdt] →
      ∃ t, exec (mmioInstr r (.write v)) s = .next t ∧ regRead t.c.regs r = v &&& 0x0000FFFF#32
        ∧ (∀ q : Reg, q ≠ r → regRead t.c.regs q = regRead s.c.regs q)
        ∧ t = { s with c := { s.c with regs := t.c.regs, trace := s.c.trace ++ [.mmioW r v] } })

/-- CTRL and the device reset (R422, R439), CTRL_EXT and the EEPROM reset (R423): a write stores its bits and, with the
reset bit, starts that reset; the bit reads 1 until the reset completes, and a write of 0 to it meanwhile does not cancel
it, which is the model's reading (log 34); while a device reset is pending no descriptor is completed; its completion sets
every value R421 fixes and forgets the descriptors, and never comes while RST is stuck; the completion of an EEPROM reset
clears its bit alone. A stuck EE_RST stays 1 over a device reset (log 28). -/
def Obligations.DeviceResetIsPendingUntilCompleted : Prop :=
  ∀ (s : State) (v : Word),
    exec (.mmioCtrl (.write v)) s = .next { s with c := { s.c with
        regs := { s.c.regs with ctrl := v ||| (s.c.regs.ctrl &&& 0x04000000#32) }
        trace := s.c.trace ++ [.mmioW .ctrl v] } }
    ∧ exec (.mmioCtrlExt (.write v)) s = .next { s with c := { s.c with
        regs := { s.c.regs with ctrlExt := v ||| (s.c.regs.ctrlExt &&& 0x00002000#32) }
        trace := s.c.trace ++ [.mmioW .ctrlExt v] } }
    ∧ (s.c.regs.ctrlExt &&& 0x00002000#32 ≠ 0#32 → s.c.dev.stuckEeRst = false →
        nicAct s .eeRstDone = { s with c := { s.c with
          regs := { s.c.regs with ctrlExt := s.c.regs.ctrlExt &&& 0xFFFFDFFF#32 } } })
    ∧ (s.c.regs.ctrl &&& 0x04000000#32 ≠ 0#32 →
        (∀ d data, nicAct s (.rx d data) = s) ∧ (∀ ec lc tu rsv, nicAct s (.tx ec lc tu rsv) = s)
        ∧ (s.c.dev.stuckRst = true → ∀ img, nicAct s (.resetDone img) = s)
        ∧ (s.c.dev.stuckRst = false → ∀ (img : NicRegs) (t : State), nicAct s (.resetDone img) = t →
            t.c.regs.ctrl &&& 0x04000040#32 = 0#32
            ∧ t.c.regs.status.extractLsb' 2 2 = s.c.cfg.lanId
            ∧ t.c.regs.icr = 0#32 ∧ t.c.regs.hwIms = 0#32 ∧ t.c.regs.rctl = 0#32 ∧ t.c.regs.tctl = 0#32
            ∧ t.c.regs.hwRdh = 0#16 ∧ t.c.regs.rdt = 0#16 ∧ t.c.regs.hwTdh = 0#16 ∧ t.c.regs.tdt = 0#16
            ∧ (∀ k : Fin 73, t.c.regs.stat[k] = 0#32) ∧ t.c.regs.mdic &&& 0x50000000#32 = 0#32
            ∧ (t.c.regs.eerd &&& match s.c.cfg.variant.eerdLayout with
                | .doneBit1Addr2 => 0x00000002#32 | .doneBit4Addr8 => 0x00000010#32) = 0#32
            ∧ t.c.regs.ctrlExt &&& 0x00002000#32
              = (if s.c.dev.stuckEeRst then s.c.regs.ctrlExt &&& 0x00002000#32 else 0#32)
            ∧ t = { s with c := { s.c with
                regs := t.c.regs
                dev := { s.c.dev with eerdPending := t.c.dev.eerdPending, mdicPending := t.c.dev.mdicPending } } }))

/-- The handshake registers (R123, R125, R434): a write of EERD clears DONE and, with START, a request is pending; its
completion sets the data and DONE in one step, in both register layouts. An MDIC request clears R and E and is pending;
its completion sets R, with a read's data, or E (an error, or another PHY than the adapter's). An MDIC request with OP 00
or 11 has no step (R125, V6). The model's: a START of 0 and a completion of a PHY write (log 26, log 27), that a new request
supersedes one still pending, so that only the newest is answered (log 53), that the bits no rule fixes read back as written
(log 54), that an error leaves R 0 (log 55), and that a request with I = 1 latches no cause (log 57). -/
def Obligations.HandshakeRegistersAnswerRequests : Prop :=
  (∀ (s : State) (v done : Word), done = (match s.c.cfg.variant.eerdLayout with
      | .doneBit1Addr2 => 0x00000002#32 | .doneBit4Addr8 => 0x00000010#32) →
    exec (.mmioEerd (.write v)) s = .next { s with c := { s.c with
      regs := { s.c.regs with eerd := v &&& ~~~done }
      dev := { s.c.dev with eerdPending := v.getLsbD 0 }
      trace := s.c.trace ++ [.mmioW .eerd v] } })
    ∧ (∀ (s : State) (w : Fin 64) (o : Half) (lo : Nat) (done : Word), s.c.dev.eerdPending = true →
      (s.c.cfg.variant.eerdLayout = .doneBit1Addr2 ∧ lo = 2 ∧ done = 0x00000002#32
        ∨ s.c.cfg.variant.eerdLayout = .doneBit4Addr8 ∧ lo = 8 ∧ done = 0x00000010#32) →
      s.c.regs.eerd = 1#32 ||| (BitVec.ofNat 32 w.val <<< lo) →
      nicAct s (.eerdDone o) = { s with c := { s.c with
        regs := { s.c.regs with eerd := (s.c.dev.eeprom[w] ++ s.c.regs.eerd.extractLsb' 0 16 : Word) ||| done }
        dev := { s.c.dev with eerdPending := false } } })
    ∧ (∀ (s : State) (v : Word),
      ((v.extractLsb' 26 2 = 1#2 ∨ v.extractLsb' 26 2 = 2#2) →
        exec (.mmioMdic (.write v)) s = .next { s with c := { s.c with
          regs := { s.c.regs with mdic := v &&& 0xAFFFFFFF#32 }
          dev := { s.c.dev with mdicPending := true }
          trace := s.c.trace ++ [.mmioW .mdic v] } })
      ∧ (v.extractLsb' 26 2 = 0#2 ∨ v.extractLsb' 26 2 = 3#2 →
        exec (.mmioMdic (.write v)) s = .refused (.deviceInterface .mdic)))
    ∧ ∀ (s : State) (err : Bool) (v : Word) (r : Fin 32), s.c.dev.mdicPending = true → v = s.c.regs.mdic →
      r.val = (v.extractLsb' 16 5).toNat → ∃ t, nicAct s (.mdicDone err) = t
        ∧ ((err = true ∨ v.extractLsb' 21 5 ≠ s.c.cfg.phyAddr) → t = { s with c := { s.c with
            regs := { s.c.regs with mdic := v ||| 0x40000000#32 }, dev := { s.c.dev with mdicPending := false } } })
        ∧ (err = false → v.extractLsb' 21 5 = s.c.cfg.phyAddr → v.extractLsb' 26 2 = 2#2 →
          t = { s with c := { s.c with
            regs := { s.c.regs with mdic := (v.extractLsb' 16 16 ++ s.c.dev.phy[r] : Word) ||| 0x10000000#32 }
            dev := { s.c.dev with mdicPending := false } } })
        ∧ (err = false → v.extractLsb' 21 5 = s.c.cfg.phyAddr → v.extractLsb' 26 2 = 1#2 →
          t = { s with c := { s.c with
            regs := { s.c.regs with mdic := v ||| 0x10000000#32 }
            dev := { s.c.dev with phy := s.c.dev.phy.set r (v.extractLsb' 0 16), mdicPending := false } } })

/-! ## DMA memory and descriptors -/

/-- Byte order (R84): byte k of a u32 at address a is bits 8k+7:8k, stored at a + k; a descriptor-field write of 4 bytes
changes only those. -/
def Obligations.WordsAreStoredLittleEndian : Prop :=
  ∀ (m : List Host.Cell) (a : DWord) (v : Word), Mem.wf m = true →
    (∀ k : Fin 4, Mem.read8 (Mem.write32 m a v) (a + BitVec.ofNat 64 k) = v.extractLsb' (8 * k) 8)
    ∧ (∀ x : DWord, 4 ≤ (x - a).toNat → Mem.read8 (Mem.write32 m a v) x = Mem.read8 m x)
    ∧ Mem.read32 (Mem.write32 m a v) a = v

/-- RXDESC (R424, R87): with the receiver enabled, no reset pending and a descriptor owned, the NIC writes back length,
checksum, special, errors and a status with DD = 1 and bit 4 = 0, and its head advances. Outside the descriptor's bytes
8..15 and the first min(length, RBSIZE) bytes of the buffer no byte changes. One the NIC may not complete (DD = 0,
receiver disabled, reset pending, no descriptor owned: R424, R439) changes nothing. Of the NIC's own completion the bytes of
the frame are given: each stands in the buffer at its place, unless the descriptor's bytes 8..15 lie there, which R512 (a)
rules out. Status, errors and special stand in
memory in the chip's layout (R8, log 12). The model's: the row as the NIC's write-back (log 14), RBSIZE bytes where the
length is above it, which R424 forbids (log 18), and the ring's address from the controller's record (log 24). -/
def Obligations.RxDescriptorIsWrittenBack : Prop :=
  (∀ (s : State) (d : RxDesc) (i : Half) (buf : DWord), Mem.wf s.mem = true →
    s.c.regs.rctl &&& 0x00000002#32 ≠ 0#32 → s.c.regs.ctrl &&& 0x04000000#32 = 0#32 → s.c.regs.hwRdh ≠ s.c.regs.rdt →
    d.status &&& 0x01#8 ≠ 0#8 → i = s.c.regs.hwRdh →
    buf = Mem.read32 s.mem (rdAddr s.c i 4) ++ Mem.read32 s.mem (rdAddr s.c i 0) →
    ∃ t, exec (.rxdesc d) s = .next t
      ∧ Mem.read16 t.mem (rdAddr s.c i 8) = d.length ∧ Mem.read16 t.mem (rdAddr s.c i 10) = d.checksum
      ∧ Mem.read8 t.mem (rdAddr s.c i 12) = s.c.cfg.regMap.toChip8 .rxStatus (d.status &&& 0xEF#8)
      ∧ Mem.read8 t.mem (rdAddr s.c i 13) = s.c.cfg.regMap.toChip8 .rxErrors d.errors
      ∧ Mem.read16 t.mem (rdAddr s.c i 14) = s.c.cfg.regMap.toChip16 .rxSpecial d.special
      ∧ (∀ x : DWord, 8 ≤ (x - rdAddr s.c i 8).toNat → min d.length.toNat s.pool.rbsize ≤ (x - buf).toNat →
          Mem.read8 t.mem x = Mem.read8 s.mem x)
      ∧ t = { s with c := { s.c with regs := { s.c.regs with hwRdh := ringNext i s.c.cfg.nrd } }, mem := t.mem,
                     tick := t.tick })
    ∧ (∀ (s : State) (d : RxDesc) (data : List Byte) (i : Half) (buf : DWord), Mem.wf s.mem = true →
      s.c.regs.rctl &&& 0x00000002#32 ≠ 0#32 → s.c.regs.ctrl &&& 0x04000000#32 = 0#32 → s.c.regs.hwRdh ≠ s.c.regs.rdt →
      i = s.c.regs.hwRdh → buf = Mem.read32 s.mem (rdAddr s.c i 4) ++ Mem.read32 s.mem (rdAddr s.c i 0) →
      ∃ t, nicAct s (.rx d data) = t
        ∧ (∀ (k : Nat) (h : k < data.length), k < min d.length.toNat s.pool.rbsize →
          8 ≤ (buf + BitVec.ofNat 64 k - rdAddr s.c i 8).toNat → Mem.read8 t.mem (buf + BitVec.ofNat 64 k) = data[k])
        ∧ Mem.read16 t.mem (rdAddr s.c i 8) = d.length ∧ Mem.read16 t.mem (rdAddr s.c i 10) = d.checksum
        ∧ Mem.read8 t.mem (rdAddr s.c i 12) = s.c.cfg.regMap.toChip8 .rxStatus ((d.status ||| 0x01#8) &&& 0xEF#8)
        ∧ Mem.read8 t.mem (rdAddr s.c i 13) = s.c.cfg.regMap.toChip8 .rxErrors d.errors
        ∧ Mem.read16 t.mem (rdAddr s.c i 14) = s.c.cfg.regMap.toChip16 .rxSpecial d.special
        ∧ (∀ x : DWord, 8 ≤ (x - rdAddr s.c i 8).toNat → min d.length.toNat s.pool.rbsize ≤ (x - buf).toNat →
            Mem.read8 t.mem x = Mem.read8 s.mem x)
        ∧ t = { s with c := { s.c with regs := { s.c.regs with hwRdh := ringNext i s.c.cfg.nrd } }, mem := t.mem,
                       tick := t.tick })
    ∧ ∀ (s : State) (d : RxDesc),
      (d.status &&& 0x01#8 = 0#8 ∨ s.c.regs.rctl &&& 0x00000002#32 = 0#32 ∨ s.c.regs.ctrl &&& 0x04000000#32 ≠ 0#32
        ∨ s.c.regs.hwRdh = s.c.regs.rdt) → exec (.rxdesc d) s = .next s

/-- The transmit descriptor rows. TXDESC_LEGACY (R148, R252): a length in 1..TX_MAX_LEN gives the control word
`0x8B000000 or len`, in the chip's layout (R8), in the descriptor at `tdt`, little-endian, and no other byte changes; another
length is the model fault UpstreamContract, and nothing is written; that the row is line B6 alone, and runs whoever holds
`tlock` (R96), is the model's reading (log 16). The other kinds are refused (R151); the kind of a word is that of R150. -/
def Obligations.TxDescriptorRowsWriteOrRefuse : Prop :=
  (∀ (s : State) (len : Half), Mem.wf s.mem = true →
    (1 ≤ len.toNat → len.toNat ≤ s.c.cfg.txMaxLen →
      ∃ t, exec (.txdescLegacy len) s = .next t
        ∧ Mem.read32 t.mem (tdAddr s.c s.c.tdt 8) = s.c.cfg.regMap.toChip .txControl (0x8B00#16 ++ len : Word)
        ∧ (∀ x : DWord, 4 ≤ (x - tdAddr s.c s.c.tdt 8).toNat → Mem.read8 t.mem x = Mem.read8 s.mem x)
        ∧ t = { s with mem := t.mem })
    ∧ ((len = 0#16 ∨ s.c.cfg.txMaxLen < len.toNat) →
      exec (.txdescLegacy len) s = .next { s with c := { s.c with
        fault := s.c.fault ++ [{ kind := .upstreamContract, info := .txLength s.c.tdt (len.setWidth 32) }] } }))
    ∧ ∀ (s : State) (w : Word),
      exec (.txdescContext w) s = .refused (.descriptorKind .context)
      ∧ exec (.txdescExtdata w) s = .refused (.descriptorKind .extData)
      ∧ exec (.txdescReserved w) s = .refused (.descriptorKind .reserved)
      ∧ txKind w = (if w.getLsbD 29 = false then .legacy
          else if w.extractLsb' 20 4 = 0#4 then .context
          else if w.extractLsb' 20 4 = 1#4 then .extData else .reserved)

/-- TX completion (R428): with the transmitter enabled, no reset pending and a legacy descriptor owned, the NIC sends
`control[15:0]` bytes from the descriptor's address, writes back DD with EC, LC, TU as it reports when RS is set, CSS and
bits 31:16 unchanged (of the reserved bits 7:4 nothing is said, V5), and its head advances; no other byte changes. Control
and status words stand in memory in the chip's layout (R8). The model's choices: that the ring stands where the controller's
record says (log 24), and that a legacy descriptor with IC, VLE, RPS or a nonzero CSO, which the HRE never writes, is
completed like any other (log 25). -/
def Obligations.TxDescriptorIsCompleted : Prop :=
  ∀ (s : State) (ec lc tu : Bool) (rsv : BitVec 4) (i : Half) (ctl : Word), Mem.wf s.mem = true →
    s.c.regs.tctl &&& 0x00000002#32 ≠ 0#32 → s.c.regs.ctrl &&& 0x04000000#32 = 0#32 → s.c.regs.hwTdh ≠ s.c.regs.tdt →
    i = s.c.regs.hwTdh → ctl = s.c.cfg.regMap.fromChip .txControl (Mem.read32 s.mem (tdAddr s.c i 8)) →
    ctl.getLsbD 29 = false →
    ∃ t, nicAct s (.tx ec lc tu rsv) = t
      ∧ (ctl.getLsbD 27 = true → ∃ w : Word,
          Mem.read32 t.mem (tdAddr s.c i 12) = s.c.cfg.regMap.toChip .txStatus w
          ∧ ∀ j : Nat, (j < 4 ∨ 8 ≤ j) → w.getLsbD j =
            if j = 0 then true else if j = 1 then ec else if j = 2 then lc else if j = 3 then tu
            else (s.c.cfg.regMap.fromChip .txStatus (Mem.read32 s.mem (tdAddr s.c i 12))).getLsbD j)
      ∧ (ctl.getLsbD 27 = false → t.mem = s.mem)
      ∧ (∀ x : DWord, 4 ≤ (x - tdAddr s.c i 12).toNat → Mem.read8 t.mem x = Mem.read8 s.mem x)
      ∧ t = { s with mem := t.mem, c := { s.c with
          regs := { s.c.regs with hwTdh := ringNext i s.c.cfg.ntd }
          dev := { s.c.dev with sent := s.c.dev.sent ++
            [(Mem.read32 s.mem (tdAddr s.c i 4) ++ Mem.read32 s.mem (tdAddr s.c i 0), (ctl.setWidth 16).toNat)] } } }

/-! ## Interrupts -/

/-- Causes (R431, R270, R437, R463): whatever the row, the whole word is latched into ICR; a dispatcher run begins at
line Q1 exactly when the line is then asserted and `DISP` is idle; nothing else changes. That the two happen in one step,
the row being the arrival of its causes, is the model's choice (log 15), and so is that a run begins in every lifecycle
state, before the first command too, by R270 against R500 (log 59). -/
def Obligations.CausesLatchAndStartDispatcher : Prop :=
  ∀ (s : State) (q : Cause) (w : Word),
    exec (causeInstr q w) s = .next { s with c := { s.c with
      regs := { s.c.regs with icr := s.c.regs.icr ||| w }
      disp := { s.c.disp with
        ctl := if (s.c.regs.icr ||| w) &&& s.c.regs.hwIms ≠ 0#32 ∧ s.c.disp.ctl = .idle then .q1
          else s.c.disp.ctl } } }

/-- The cause loop (R273, R274, R284). Line L1 reads ICR once, which clears every latched cause; the value is masked with
`im_entry`, and the loop ends exactly when the masked value is 0. From the line after a read that showed an enabled cause,
within three steps `DISP` is back at line L1; LINK loses LSC from `work` and accumulates it in `lim`, RX loses the whole
class and accumulates the bits read in `rim`, TX loses TXDW and sets `tsig`; a class not read is left alone, and nothing
else changes. -/
def Obligations.DispatcherReadsAndHandlesEachClass : Prop :=
  (∀ (s : State) (d : Nat), s.c.disp.ctl = .l1 →
    ∃ t, agentStep .disp d s = .go t
      ∧ t.c.disp.icr = s.c.regs.icr &&& s.c.disp.imEntry
      ∧ t.c.disp.ctl = dispFromL2 t.c.disp.icr
      ∧ (t.c.disp.ctl = .x1 ↔ s.c.regs.icr &&& s.c.disp.imEntry = 0#32)
      ∧ t = { s with c := { s.c with
          regs := { s.c.regs with icr := 0#32 }
          disp := { s.c.disp with icr := t.c.disp.icr, ctl := t.c.disp.ctl }
          trace := s.c.trace ++ [.mmioR .icr s.c.regs.icr] } })
    ∧ ∀ (s : State) (d : Nat) (icr : Word), icr = s.c.disp.icr → icr &&& ~~~0x000200DD#32 = 0#32 → icr ≠ 0#32 →
      s.c.disp.ctl = dispFromL2 icr →
      ∃ n, n ≤ 3 ∧ turn .disp d n s = { s with c := { s.c with
        lim := s.c.lim ||| (icr &&& 0x00000004#32)
        rim := s.c.rim ||| (icr &&& 0x000200D8#32)
        tsig := s.c.tsig || icr &&& 0x00000001#32 != 0#32
        disp := { s.c.disp with
          ctl := .l1
          work := s.c.disp.work
            &&& ~~~((if icr &&& 0x00000004#32 ≠ 0#32 then 0x00000004#32 else 0#32)
              ||| (if icr &&& 0x000200D8#32 ≠ 0#32 then 0x000200D8#32 else 0#32)
              ||| (if icr &&& 0x00000001#32 ≠ 0#32 then 0x00000001#32 else 0#32)) } } }

/-- A whole dispatcher run with no cause arriving meanwhile (R271, R276, R277): the mask loses exactly the classes that
were both enabled and latched, HwIMS equals it, every cause is cleared, the flags record what was read, and `mlock` is
free again. That a run begins in every lifecycle state, before the first command too, is the model's choice, by R270 against
R500 (log 59). -/
def Obligations.DispatcherRunMasksSignalledClasses : Prop :=
  ∀ (s : State) (d : Nat) (e : Word), maskOk s.c → s.c.disp.ctl = .idle → s.c.mlock = none →
    s.c.regs.icr &&& s.c.regs.hwIms ≠ 0#32 → e = s.c.regs.icr &&& s.c.im →
    ∃ t, turn .disp d 11 s = t
      ∧ t.c.im = s.c.im &&& ~~~((if e &&& 0x00000004#32 ≠ 0#32 then 0x00000004#32 else 0#32)
          ||| (if e &&& 0x000200D8#32 ≠ 0#32 then 0x000200D8#32 else 0#32)
          ||| (if e &&& 0x00000001#32 ≠ 0#32 then 0x00000001#32 else 0#32))
      ∧ t.c.regs = { s.c.regs with icr := 0#32, hwIms := t.c.im }
      ∧ t.c.lim = s.c.lim ||| (e &&& 0x00000004#32) ∧ t.c.rim = s.c.rim ||| (e &&& 0x000200D8#32)
      ∧ t.c.tsig = (s.c.tsig || e &&& 0x00000001#32 != 0#32)
      ∧ t.c.disp.ctl = .idle
      ∧ t = { s with c := { s.c with im := t.c.im, regs := t.c.regs, lim := t.c.lim, rim := t.c.rim,
                                     tsig := t.c.tsig, disp := t.c.disp, trace := t.c.trace } }

/-- ARM and WAKE. ARM (R280, R207, R242, R405), for each worker and its own class: with `mlock` free, four steps add the
class to `im`, write IMS with `im`, free `mlock` and bring the worker to its park; nothing else changes. Park and WAKE
(R208, R281, R283): a worker parked on a zero flag has no step; on a nonzero flag, with `mlock` free, four steps take the
snapshot, clear the flag and free `mlock`; nothing else changes. -/
def Obligations.ArmAddsOwnClassAndWakeTakesFlag : Prop :=
  (∀ (s : State) (d : Nat), s.c.mlock = none →
    (s.c.rxw.ctl = .w1 .m1 → turn .rxw d 4 s = { s with c := { s.c with
      im := s.c.im ||| 0x000200D8#32
      regs := { s.c.regs with hwIms := s.c.regs.hwIms ||| (s.c.im ||| 0x000200D8#32) }
      rxw := { s.c.rxw with ctl := .w2 }
      trace := s.c.trace ++ [.mmioW .ims (s.c.im ||| 0x000200D8#32)] } })
    ∧ (s.c.txw = .t1 .m1 → turn .txw d 4 s = { s with c := { s.c with
      im := s.c.im ||| 0x00000001#32
      regs := { s.c.regs with hwIms := s.c.regs.hwIms ||| (s.c.im ||| 0x00000001#32) }
      txw := .t2
      trace := s.c.trace ++ [.mmioW .ims (s.c.im ||| 0x00000001#32)] } })
    ∧ (s.c.lnk = .l6 .m1 → turn .lnk d 4 s = { s with c := { s.c with
      im := s.c.im ||| 0x00000004#32
      regs := { s.c.regs with hwIms := s.c.regs.hwIms ||| (s.c.im ||| 0x00000004#32) }
      lnk := .l7
      trace := s.c.trace ++ [.mmioW .ims (s.c.im ||| 0x00000004#32)] } }))
    ∧ ∀ (s : State) (d : Nat),
      (s.c.rxw.ctl = .w2 → s.c.rim = 0#32 → agentStep .rxw d s = .blocked)
      ∧ (s.c.txw = .t2 → s.c.tsig = false → agentStep .txw d s = .blocked)
      ∧ (s.c.lnk = .l7 → s.c.lim = 0#32 → agentStep .lnk d s = .blocked)
      ∧ (s.c.mlock = none → s.c.rxw.ctl = .w2 → s.c.rim ≠ 0#32 → turn .rxw d 4 s = { s with c := { s.c with
          rim := 0#32
          rxw := { s.c.rxw with ctl := .s1, cause := s.c.rim, nrep := 0 } } })
      ∧ (s.c.mlock = none → s.c.txw = .t2 → s.c.tsig = true → turn .txw d 4 s = { s with c := { s.c with
          tsig := false
          txw := .t4 { pc := .x0, t0 := 0, p := 0 } } })
      ∧ (s.c.mlock = none → s.c.lnk = .l7 → s.c.lim ≠ 0#32 → turn .lnk d 4 s = { s with c := { s.c with
          lim := 0#32
          lnk := .l1 .h1 } })

/-! ## The receive ring -/

/-- Per-slot fill (R222, R303), whichever of the three runs REPLENISH (lines S8, P1, I10): the popped buffer is recorded in
`rb[rdt]` and owned by the slot, its cursors and annotations are reset, both address words and a zero status are written,
`rdfree` counts it, `rdt` advances, and the loop test of the next slot follows; no other byte of memory and no other buffer
changes. The address is the buffer's base (log 31). -/
def Obligations.ReplenishFillsTheTailSlot : Prop :=
  ∀ (s : State) (d : Nat) (x : RepCaller) (b : BufId) (r : Buf) (i : Half), Mem.wf s.mem = true →
    x.line s.c = some .r3 → i = s.c.rdt → s.free[d % s.free.length]? = some b → s.buf? b = some r →
    ∃ t, turn x.agent d 5 s = t
      ∧ t.c.rb = s.c.rb.set i.toNat (some b) ∧ t.free = s.free.eraseIdx (d % s.free.length)
      ∧ t.buf? b = some { r with
          rp := 0, wp := 0, lim := r.cap, ipOk := false, tcpOk := false, udpOk := false, csumPresent := false,
          csum := 0, owner := .rxSlot s.c.id i }
      ∧ (∀ y, y ≠ b → t.buf? y = s.buf? y)
      ∧ Mem.read32 t.mem (rdAddr s.c i 0) = r.base.setWidth 32
      ∧ Mem.read32 t.mem (rdAddr s.c i 4) = (r.base >>> 32).setWidth 32
      ∧ Mem.read8 t.mem (rdAddr s.c i 12) = 0#8
      ∧ (∀ y : DWord, 8 ≤ (y - rdAddr s.c i 0).toNat → y ≠ rdAddr s.c i 12 → Mem.read8 t.mem y = Mem.read8 s.mem y)
      ∧ t.c.rdfree = s.c.rdfree + 1#16 ∧ t.c.rdt = ringNext i s.c.cfg.nrd
      ∧ t = x.goto (repNext t.c) { s with mem := t.mem, bufs := t.bufs, free := t.free, plock := none, c := { s.c with
          rb := t.c.rb, rdfree := t.c.rdfree, rdt := t.c.rdt } }

/-- The loop test and the ends of REPLENISH (R220, R221, R223, R224, R67), whichever of the three runs it: the loop ends
exactly when `NEXT(rdt)` is `rdh`; else a slot that holds a buffer is busy, and a slot is filled only when it holds none. A
busy slot and an empty pool are logged and stop the filling; whatever stopped it, RDT is written with `rdt` and the caller
goes on behind it. -/
def Obligations.ReplenishStopsAndWritesTail : Prop :=
  (∀ c : Ctlr,
    (repNext c = .r9 ↔ ringNext c.rdt c.cfg.nrd = c.rdh)
    ∧ (repNext c = .r2 ↔ ringNext c.rdt c.cfg.nrd ≠ c.rdh ∧ ∃ b, c.rb.getD c.rdt.toNat none = some b)
    ∧ (repNext c = .r3 ↔ ringNext c.rdt c.cfg.nrd ≠ c.rdh ∧ c.rb.getD c.rdt.toNat none = none))
    ∧ ∀ (s : State) (d : Nat) (x : RepCaller),
      (x.line s.c = some .r2 → turn x.agent d 2 s = x.leave { s with c := { s.c with
        regs := { s.c.regs with rdt := s.c.rdt }
        trace := s.c.trace ++ [.rxSlotBusy s.c.rdt, .mmioW .rdt (s.c.rdt.setWidth 32)] } })
      ∧ (x.line s.c = some .r3 → s.free = [] → turn x.agent d 3 s = x.leave { s with plock := none, c := { s.c with
        regs := { s.c.regs with rdt := s.c.rdt }
        trace := s.c.trace ++ [.rxPoolEmpty, .mmioW .rdt (s.c.rdt.setWidth 32)] } })
      ∧ (x.line s.c = some .r9 → turn x.agent d 1 s = x.leave { s with c := { s.c with
        regs := { s.c.regs with rdt := s.c.rdt }
        trace := s.c.trace ++ [.mmioW .rdt (s.c.rdt.setWidth 32)] } })

/-- DELIVER (R206 lines S3-S5, R211): a Done descriptor with EOP and no errors gives its buffer, trimmed to the reported
length, to the host; the checksum annotations are attached exactly when IXSM is clear; of the worker's locals the buffer, the
errors and the length are set; nothing else changes. The errors byte is read in the chip's layout (R8) and its reserved bit 3 ignored (R152; that this reaches the test "errors = 0" is the
model's reading, log 48). -/
def Obligations.GoodPacketIsDelivered : Prop :=
  ∀ (s : State) (d : Nat) (b : BufId) (r : Buf) (len : Word), s.c.rxw.ctl = .s3 →
    s.c.rb.getD s.c.rdh.toNat none = some b → s.buf? b = some r →
    s.c.rxw.st &&& 0x02#8 ≠ 0#8 →
    s.c.cfg.regMap.fromChip8 .rxErrors (Mem.read8 s.mem (rdAddr s.c s.c.rdh 13)) &&& 0xF7#8 = 0#8 →
    len = (Mem.read16 s.mem (rdAddr s.c s.c.rdh 8)).setWidth 32 → r.wp + len ≤ r.cap →
    ∃ t, turn .rxw d (if s.c.rxw.st &&& 0x04#8 = 0#8 then 5 else 4) s = t
      ∧ t.c.rxw.ctl = .s6 ∧ t.c.rb = s.c.rb.set s.c.rdh.toNat none
      ∧ t.buf? b = some (if s.c.rxw.st &&& 0x04#8 = 0#8 then
          { r with wp := r.wp + len, lim := r.wp + len, owner := .host, csumPresent := true
                   ipOk := s.c.rxw.st &&& 0x40#8 != 0#8, tcpOk := s.c.rxw.st &&& 0x20#8 != 0#8
                   udpOk := s.c.rxw.st &&& 0x20#8 != 0#8
                   csum := Mem.read16 s.mem (rdAddr s.c s.c.rdh 10) }
        else { r with wp := r.wp + len, lim := r.wp + len, owner := .host })
      ∧ (∀ x, x ≠ b → t.buf? x = s.buf? x)
      ∧ t = { s with bufs := t.bufs, c := { s.c with
          rb := t.c.rb, rxw := { s.c.rxw with ctl := .s6, b := b, er := 0#8, len := len }
          trace := s.c.trace ++ [.deliver b] } }

/-- DISCARD (R214, R452): a Done descriptor with errors, or without EOP, gives its buffer back to the pool, its cursors
and annotations unchanged, and nothing is delivered; of the worker's locals the buffer and the errors are set; nothing else
changes. The errors byte is read in the chip's layout (R8), and its reserved bit
3 counts for nothing and is not recorded (R152; the model's reading, log 48). -/
def Obligations.BadPacketIsDiscarded : Prop :=
  ∀ (s : State) (d : Nat) (b : BufId) (r : Buf) (er : Byte), s.c.rxw.ctl = .s3 →
    s.c.rb.getD s.c.rdh.toNat none = some b → s.buf? b = some r →
    er = s.c.cfg.regMap.fromChip8 .rxErrors (Mem.read8 s.mem (rdAddr s.c s.c.rdh 13)) &&& 0xF7#8 →
    (s.c.rxw.st &&& 0x02#8 = 0#8 ∨ er ≠ 0#8) →
    ∃ t, turn .rxw d 2 s = t ∧ t.c.rxw.ctl = .s6 ∧ t.c.rb = s.c.rb.set s.c.rdh.toNat none
      ∧ t.free = b :: s.free ∧ t.buf? b = some { r with owner := .pool } ∧ (∀ x, x ≠ b → t.buf? x = s.buf? x)
      ∧ t = { s with bufs := t.bufs, free := t.free, plock := none, c := { s.c with
          rb := t.c.rb, rxw := { s.c.rxw with ctl := .s6, b := b, er := er }
          trace := s.c.trace ++ [.rxDiscard b er] } }

/-- Harvest bookkeeping and the trigger (R212, R213): the status and errors bytes of the descriptor at `rdh` become 0 and
no other byte changes, `rdfree` decreases, `rdh` advances, and REPLENISH follows exactly when the deficit is at least 32
or the wake's cause has RXDMT0, at the line its loop test gives. -/
def Obligations.HarvestAdvancesHeadAndTriggersReplenish : Prop :=
  ∀ (s : State) (d : Nat) (i : Half), Mem.wf s.mem = true → s.c.rxw.ctl = .s6 → i = s.c.rdh →
    ∃ t, turn .rxw d 2 s = t
      ∧ Mem.read8 t.mem (rdAddr s.c i 12) = 0#8 ∧ Mem.read8 t.mem (rdAddr s.c i 13) = 0#8
      ∧ (∀ x : DWord, x ≠ rdAddr s.c i 12 → x ≠ rdAddr s.c i 13 → Mem.read8 t.mem x = Mem.read8 s.mem x)
      ∧ t.c.rdfree = s.c.rdfree - 1#16 ∧ t.c.rdh = ringNext i s.c.cfg.nrd
      ∧ t.c.rxw.ctl = (if 32 ≤ s.c.cfg.nrd - t.c.rdfree.toNat ∨ s.c.rxw.cause &&& 0x00000010#32 ≠ 0#32 then
          .s8 (repNext t.c) else .s1)
      ∧ t = { s with mem := t.mem, c := { s.c with
          rdfree := t.c.rdfree, rdh := t.c.rdh, rxw := { s.c.rxw with ctl := t.c.rxw.ctl } } }

/-- The scan (R210, R215): the status byte at `rdh` is read, in the chip's layout (R8); DD = 1 continues to line S3, and with DD = 0 the worker
runs REPLENISH once if this wake ran none and the trigger holds, else re-arms. Nothing but its locals changes. -/
def Obligations.ScanStopsAtFirstDescriptorNotDone : Prop :=
  ∀ (s : State) (d : Nat) (st : Byte), s.c.rxw.ctl = .s1 →
    st = s.c.cfg.regMap.fromChip8 .rxStatus (Mem.read8 s.mem (rdAddr s.c s.c.rdh 12)) →
    ∃ t, agentStep .rxw d s = .go t
      ∧ (st &&& 0x01#8 ≠ 0#8 → t.c.rxw.ctl = .s3)
      ∧ (st &&& 0x01#8 = 0#8 → t.c.rxw.ctl =
          (if s.c.rxw.nrep = 0 ∧ (32 ≤ s.c.cfg.nrd - s.c.rdfree.toNat ∨ s.c.rxw.cause &&& 0x00000010#32 ≠ 0#32) then
            .p1 (repNext s.c) else .w1 .m1))
      ∧ t = { s with c := { s.c with rxw := { s.c.rxw with ctl := t.c.rxw.ctl, st := st } } }

/-- Model faults (R456; R206 line S3, R211 line D2, R252), in the worker and in every run of TX_ROUTINE, a direct-send
caller's too: the pair is appended to the fault record, `lc` and the trace are unchanged, and the raising agent never steps
again. A state whose record holds a model fault, and so every later one (a record is never shortened), is no end of a run
(R531). -/
def Obligations.ContractBreachStopsTheAgent : Prop :=
  (∀ (s : State) (d : Nat), s.c.rxw.ctl = .s3 → s.c.rb.getD s.c.rdh.toNat none = none →
      agentStep .rxw d s = .go { s with c := { s.c with
        fault := s.c.fault ++ [{ kind := .deviceContract, info := .rxNoBuffer s.c.rdh }]
        rxw := { s.c.rxw with ctl := .haltS3 } } })
    ∧ (∀ (s : State) (d : Nat) (r : Buf), s.c.rxw.ctl = .d2 → s.buf? s.c.rxw.b = some r → r.cap < r.wp + s.c.rxw.len →
      agentStep .rxw d s = .go { s with c := { s.c with
        fault := s.c.fault ++ [{ kind := .deviceContract, info := .rxLength s.c.rdh s.c.rxw.len }]
        rxw := { s.c.rxw with ctl := .haltD2 } } })
    ∧ (∀ (s : State) (d : Nat) (a : AgentId) (q : TxRun) (r : Buf), txRunOf s.c a = some { q with pc := .b4 } →
      s.buf? q.p = some r → (r.wp - r.rp = 0#32 ∨ s.c.cfg.txMaxLen < (r.wp - r.rp).toNat) →
      agentStep a d s = .go (atTx a { q with pc := .haltB3 } { s with c := { s.c with
        fault := s.c.fault ++ [{ kind := .upstreamContract, info := .txLength s.c.tdt (r.wp - r.rp) }] } }))
    ∧ (∀ (s : State) (d : Nat) (a : AgentId) (q : TxRun),
      ((s.c.rxw.ctl = .haltS3 ∨ s.c.rxw.ctl = .haltD2) → agentStep .rxw d s = .blocked)
      ∧ (txRunOf s.c a = some { q with pc := .haltB3 } → agentStep a d s = .blocked))
    ∧ ∀ (u : State) (c : Ctlr) (e : FaultRec), c ∈ u.ctlrs → e ∈ c.fault →
      (e.kind = .deviceContract ∨ e.kind = .upstreamContract) → runEnds u = false

/-! ## The transmit ring -/

/-- Reclaim (R245, R246, R247, R305), in the worker's run and in a direct-send caller's: line A1 reads the status word at
`tdh` (in the chip's layout, R8), and DD = 1 goes on to the release, DD = 0 to the refill from the tail as it stands. Of one slot, the buffer at `tdh`
leaves it and goes to its origin (or the underrun is logged), the status word becomes 0 and `tdh` advances; no other byte of
memory changes. -/
def Obligations.ReclaimReleasesToOrigin : Prop :=
  (∀ (s : State) (d : Nat) (a : AgentId) (q : TxRun), txRunOf s.c a = some { q with pc := .a1 } →
    agentStep a d s = .go (atTx a
      (if s.c.cfg.regMap.fromChip .txStatus (Mem.read32 s.mem (tdAddr s.c s.c.tdh 12)) &&& 1#32 ≠ 0#32 then
        { q with pc := .a3 } else { q with pc := txNext s.c, t0 := s.c.tdt }) s))
    ∧ ∀ (s : State) (d : Nat) (a : AgentId) (q : TxRun) (i : Half), Mem.wf s.mem = true →
      txRunOf s.c a = some { q with pc := .a3 } → i = s.c.tdh →
      ∃ t, turn a d 2 s = t ∧ t.c.tdh = ringNext i s.c.cfg.ntd
        ∧ Mem.read32 t.mem (tdAddr s.c i 12) = 0#32
        ∧ (∀ x : DWord, 4 ≤ (x - tdAddr s.c i 12).toNat → Mem.read8 t.mem x = Mem.read8 s.mem x)
        ∧ (s.c.tb.getD i.toNat none = none → t.c.trace = s.c.trace ++ [.txUnderrun i] ∧ t.bufs = s.bufs
            ∧ t.free = s.free ∧ t.c.tb = s.c.tb)
        ∧ (∀ (b : BufId) (r : Buf), s.c.tb.getD i.toNat none = some b → s.buf? b = some r →
            t.c.trace = s.c.trace ++ [.txRelease b] ∧ t.c.tb = s.c.tb.set i.toNat none
            ∧ (∀ x, x ≠ b → t.buf? x = s.buf? x)
            ∧ (r.origin = .pool → t.free = b :: s.free ∧ t.buf? b = some { r with owner := .pool })
            ∧ (r.origin = .host → t.free = s.free ∧ t.buf? b = some { r with owner := .host }))
        ∧ t = atTx a { q with pc := .a1 } { s with
            mem := t.mem, bufs := t.bufs, free := t.free, plock := t.plock
            c := { s.c with tdh := t.c.tdh, tb := t.c.tb, trace := t.c.trace } }

/-- Descriptor install (R251, R253), in the worker's run and in a direct-send caller's: the front packet of the queue is
recorded in the slot at `tdt`, its address and `TXCMD or len` (in the chip's layout, R8) are written, the status word is not,
and `tdt` advances. The address PA(p, p.rp) is the buffer's base plus `rp`, which is the model's (log 31). -/
def Obligations.RefillInstallsTheFrontPacket : Prop :=
  ∀ (s : State) (d : Nat) (a : AgentId) (q : TxRun) (b : BufId) (bs : List BufId) (r : Buf) (i : Half),
    Mem.wf s.mem = true → txRunOf s.c a = some { q with pc := .b2 } → s.c.oq = b :: bs → s.buf? b = some r → i = s.c.tdt →
    r.wp - r.rp ≠ 0#32 → (r.wp - r.rp).toNat ≤ s.c.cfg.txMaxLen → s.c.cfg.txMaxLen ≤ 0xFFFF →
    ∃ t, turn a d 5 s = t ∧ t.c.oq = bs ∧ t.c.tb = s.c.tb.set i.toNat (some b)
      ∧ t.buf? b = some { r with owner := .txSlot s.c.id i } ∧ (∀ x, x ≠ b → t.buf? x = s.buf? x)
      ∧ Mem.read32 t.mem (tdAddr s.c i 4) ++ Mem.read32 t.mem (tdAddr s.c i 0) = r.base + r.rp.setWidth 64
      ∧ Mem.read32 t.mem (tdAddr s.c i 8) = s.c.cfg.regMap.toChip .txControl (0x8B000000#32 ||| (r.wp - r.rp))
      ∧ (∀ x : DWord, 12 ≤ (x - tdAddr s.c i 0).toNat → Mem.read8 t.mem x = Mem.read8 s.mem x)
      ∧ t.c.tdt = ringNext i s.c.cfg.ntd
      ∧ t = atTx a { q with pc := txNext t.c, p := b } { s with mem := t.mem, bufs := t.bufs, c := { s.c with
          oq := t.c.oq, tb := t.c.tb, tdt := t.c.tdt } }

/-- Tail write (R255, R256), in the worker's run and in a direct-send caller's: with the queue empty, TDT is written with
`tdt` exactly when it differs from its value at the start of refill, `tlock` is freed and the run ends; nothing else
changes. -/
def Obligations.TxTailIsWrittenOnlyIfChanged : Prop :=
  ∀ (s : State) (d : Nat) (a : AgentId) (q : TxRun), txRunOf s.c a = some { q with pc := .b2 } → s.c.oq = [] →
    (s.c.tdt = q.t0 → turn a d 2 s = endTx a { s with c := { s.c with tlock := none } })
    ∧ (s.c.tdt ≠ q.t0 → turn a d 3 s = endTx a { s with c := { s.c with
        tlock := none
        regs := { s.c.regs with tdt := s.c.tdt }
        trace := s.c.trace ++ [.mmioW .tdt (s.c.tdt.setWidth 32)] } })

/-- Full ring (R250, R254), in the worker's run and in a direct-send caller's: the ring is full when `NEXT(tdt) = tdh`; with
packets left, TXDW is requested (ARM of the TX class) and the condition logged; with none left nothing is requested. -/
def Obligations.FullTxRingRequestsTxdw : Prop :=
  (∀ c : Ctlr, (txNext c = .c1 ↔ ringNext c.tdt c.cfg.ntd = c.tdh) ∧ (txNext c ≠ .c1 → txNext c = .b2))
    ∧ ∀ (s : State) (d : Nat) (a : AgentId) (q : TxRun), txRunOf s.c a = some { q with pc := .c1 } →
      (s.c.oq ≠ [] → s.c.mlock = none →
        turn a d 6 s = atTx a { q with pc := if s.c.tdt = q.t0 then .e2 else .e1 } { s with c := { s.c with
          im := s.c.im ||| 0x00000001#32
          regs := { s.c.regs with hwIms := s.c.regs.hwIms ||| (s.c.im ||| 0x00000001#32) }
          trace := s.c.trace ++ [.mmioW .ims (s.c.im ||| 0x00000001#32), .txRingFull] } })
      ∧ (s.c.oq = [] →
        turn a d 1 s = atTx a { q with pc := if s.c.tdt = q.t0 then .e2 else .e1 } s)

/-! ## The lifecycle -/

/-- Scenario C (R351, R323): with RST never clearing, `LC` performs the read and write of line A5, exactly 1000 reads of
CTRL, and only then faults with ResetTimeout: before that `lc` and the fault record are unchanged, and no other register, no
buffer and no memory is touched. The EEPROM reset likewise (R335, R451): with EE_RST never clearing, exactly EERST_CEIL
reads of CTRL_EXT follow its request, then EepromResetTimeout. -/
def Obligations.ResetTimeoutComesAfterExactlyTheCeiling : Prop :=
  (∀ (s : State) (d : Nat) (v : Word), s.c.lcCtl = .rmwR .a5 → v = s.c.regs.ctrl ||| 0x04000000#32 →
    (∀ n, n ≤ 2001 → (turn .lc d n s).c.lc = s.c.lc ∧ (turn .lc d n s).c.fault = s.c.fault)
    ∧ turn .lc d 2002 s = { s with c := { s.c with
        lc := .faulted
        lcCtl := .idle
        lastError := some { kind := .hardwareTimeout, info := .resetTimeout }
        fault := s.c.fault ++ [{ kind := .hardwareTimeout, info := .resetTimeout }]
        regs := { s.c.regs with ctrl := v }
        trace := s.c.trace ++ [.mmioR .ctrl s.c.regs.ctrl, .mmioW .ctrl v] ++ List.replicate 1000 (.mmioR .ctrl v)
          ++ [.cmd s.c.lcCmd .hardwareTimeout] } })
    ∧ ∀ (s : State) (d n : Nat) (v : Word), s.c.lcCtl = .rmwR .a8 → v = s.c.regs.ctrlExt ||| 0x00002000#32 →
      n = s.c.cfg.eerstCeil → 1 ≤ n →
      (∀ k, k ≤ 2 * n + 1 → (turn .lc d k s).c.lc = s.c.lc ∧ (turn .lc d k s).c.fault = s.c.fault)
      ∧ turn .lc d (2 * n + 2) s = { s with c := { s.c with
          lc := .faulted
          lcCtl := .idle
          lastError := some { kind := .hardwareTimeout, info := .eepromResetTimeout }
          fault := s.c.fault ++ [{ kind := .hardwareTimeout, info := .eepromResetTimeout }]
          regs := { s.c.regs with ctrlExt := v }
          trace := s.c.trace ++ [.mmioR .ctrlExt s.c.regs.ctrlExt, .mmioW .ctrlExt v]
            ++ List.replicate n (.mmioR .ctrlExt v) ++ [.cmd s.c.lcCmd .hardwareTimeout] } }

/-- The bounded polls (R323, R333, R335, R336, R377), read by read: a read that shows the condition succeeds and `LC` goes on
(A6 to A7, A9 to A10, A10 to B0, Z6 to the release and Halted); a read without it is followed by the next one, and at the
ceiling fails: at A6, A9 and A10 the fatal outcome is raised with its own `info` (R322, R451), at Z6 SHUTDOWN's. The drain
reads ICR, which clears what it returns, and succeeds at the first read of 0. A ceiling of 0, which the spec does not admit,
ends as one of 1 does (log 41). -/
def Obligations.BoundedPollsSucceedOrTimeOut : Prop :=
  ∀ (s : State) (d i ceil : Nat) (p : PollId) (v : Word) (good : Bool) (next : LcCtl) (info : ErrInfo),
    s.c.lcCtl = .pollR p i → v = regRead s.c.regs p.reg →
    (p = .a6 ∧ good = !v.getLsbD 26 ∧ ceil = 1000 ∧ next = .rmwR .a7 ∧ info = .resetTimeout
      ∨ p = .a9 ∧ good = !v.getLsbD 13 ∧ ceil = s.c.cfg.eerstCeil ∧ next = .pollR .a10 1 ∧ info = .eepromResetTimeout
      ∨ p = .a10 ∧ good = (v == 0#32) ∧ ceil = s.c.cfg.drainCeil ∧ next = .b0 ∧ info = .drainTimeout
      ∨ p = .z6 ∧ good = !v.getLsbD 26 ∧ ceil = 1000 ∧ next = .z7 true ∧ info = .resetTimeout) →
    ∃ t, t = { s with c := { s.c with
          regs := if p = .a10 then { s.c.regs with icr := 0#32 } else s.c.regs
          trace := s.c.trace ++ [.mmioR p.reg v] } }
      ∧ p.reg = (match p with | .a6 => .ctrl | .a9 => .ctrlExt | .a10 => .icr | .z6 => .ctrl)
      ∧ (good = true → agentStep .lc d s = .go (lcJump next t))
      ∧ (good = false → i < ceil → turn .lc d 2 s = lcJump (.pollR p (i + 1)) t)
      ∧ (good = false → ceil ≤ i → p = .z6 → agentStep .lc d s = .go (lcJump (.z7 false) t))
      ∧ (good = false → ceil ≤ i → p ≠ .z6 → turn .lc d 2 s = { t with c := { t.c with
          lc := .faulted
          lcCtl := .idle
          lastError := some { kind := .hardwareTimeout, info := info }
          fault := s.c.fault ++ [{ kind := .hardwareTimeout, info := info }]
          trace := t.c.trace ++ [.cmd s.c.lcCmd .hardwareTimeout] } })

/-- The handshake (R324, R325, R340, R401), read by read: of MDIC, each read tests the error bit before the complete bit; a
completed EEPROM read stores DATA in `ee` at its word and goes on to the next word, after the last to the checksum; the
64th read with neither bit fails, its value never decoded (R528). If the NIC never answers, a request is followed by exactly
64 reads, the link monitor skips the cycle with its link state unchanged, and ATTACH fails with EepromReadTimeout of its
word; that those reads show the request word is the model's choice (log 54). -/
def Obligations.HandshakeEndsWithinSixtyFourReads : Prop :=
  (∀ (s : State) (d i : Nat) (v : Word), s.c.lnk = .l1 (.h3 i) → v = s.c.regs.mdic →
    agentStep .lnk d s = .go { s with c := { s.c with
      lnk := if v.getLsbD 30 then .l2
        else if v.getLsbD 28 then .l3 (v.setWidth 16)
        else if i = 64 then .l2 else .l1 (.h7 i)
      trace := s.c.trace ++ [.mmioR .mdic v] } })
    ∧ (∀ (s : State) (d i : Nat) (w : Fin 64) (v : Word) (done : Bool), s.c.lcCtl = .b1 w.val (.h3 i) → v = s.c.regs.eerd →
      done = v.getLsbD (if s.c.cfg.variant.eerdLayout = .doneBit1Addr2 then 1 else 4) →
      ∃ t, agentStep .lc d s = .go t
        ∧ (∀ j : Fin 64, t.c.ee[j] = if done = true ∧ j = w then v.extractLsb' 16 16 else s.c.ee[j])
        ∧ t = { s with c := { s.c with
            ee := t.c.ee
            lcCtl := if done then (if w.val = 63 then .b2 else .b1 (w.val + 1) .h1)
              else if i = 64 then .fatal { kind := .hardwareTimeout, info := .eepromReadTimeout w.val }
              else .b1 w.val (.h7 i)
            trace := s.c.trace ++ [.mmioR .eerd v] } })
    ∧ (∀ (s : State) (d : Nat) (req : Word), s.c.lnk = .l1 .h1 →
      req = (s.c.cfg.phyAddr.setWidth 32 <<< 21) ||| (s.c.cfg.phyStatusReg.setWidth 32 <<< 16) ||| 0x08000000#32 →
      turn .lnk d 129 s = { s with c := { s.c with
        lnk := .l5a
        regs := { s.c.regs with mdic := req }
        dev := { s.c.dev with mdicPending := true }
        trace := s.c.trace ++ [.mmioW .mdic req] ++ List.replicate 64 (.mmioR .mdic req) ++ [.linkSkip] } })
    ∧ ∀ (s : State) (d w : Nat) (req : Word), s.c.lcCtl = .b1 w .h1 → w < 64 →
      req = 1#32 ||| (BitVec.ofNat 32 w <<< if s.c.cfg.variant.eerdLayout = .doneBit1Addr2 then 2 else 8) →
      turn .lc d 129 s = { s with c := { s.c with
        lc := .faulted
        lcCtl := .idle
        lastError := some { kind := .hardwareTimeout, info := .eepromReadTimeout w }
        fault := s.c.fault ++ [{ kind := .hardwareTimeout, info := .eepromReadTimeout w }]
        regs := { s.c.regs with eerd := req }
        dev := { s.c.dev with eerdPending := true }
        trace := s.c.trace ++ [.mmioW .eerd req] ++ List.replicate 64 (.mmioR .eerd req)
          ++ [.cmd s.c.lcCmd .hardwareTimeout] } }

/-- Checksum and station address (R341, R345, R457): a 16-bit sum of the words of 0 or 0xBABA is accepted and the address
derived byte by byte; any other sum is EepromChecksumError with that sum, and no address is derived. The secondary-port
adjustment (line E2): STATUS is read and its bits 3:2 are added to the last address byte modulo 256, without a carry;
the other bytes stay. -/
def Obligations.EepromSumDecidesAttach : Prop :=
  (∀ (s : State) (d : Nat) (sum : Half), s.c.lcCtl = .b2 →
    sum = BitVec.ofNat 16 ((s.c.ee.toList.map BitVec.toNat).sum) →
    ((sum = 0#16 ∨ sum = 0xBABA#16) → ∃ t, agentStep .lc d s = .go t
      ∧ (∀ i : Fin 3, t.c.ea[2 * i.val] = (s.c.ee[i.val]).extractLsb' 0 8
          ∧ t.c.ea[2 * i.val + 1] = (s.c.ee[i.val]).extractLsb' 8 8)
      ∧ t = { s with c := { s.c with
          ea := t.c.ea, lcCtl := if s.c.cfg.variant.lanidAdjust then .b3 else .c1 0 false } })
    ∧ (sum ≠ 0#16 → sum ≠ 0xBABA#16 → agentStep .lc d s = .go { s with c := { s.c with
        lc := .faulted
        lcCtl := .idle
        lastError := some { kind := .eepromChecksumError, info := .checksum sum }
        fault := s.c.fault ++ [{ kind := .eepromChecksumError, info := .checksum sum }]
        trace := s.c.trace ++ [.cmd s.c.lcCmd .eepromChecksumError] } }))
    ∧ ∀ (s : State) (d : Nat), s.c.lcCtl = .b3 →
      ∃ t, agentStep .lc d s = .go t
        ∧ t.c.ea[5] = BitVec.ofNat 8 (s.c.ea[5].toNat + (s.c.regs.status.extractLsb' 2 2).toNat)
        ∧ (∀ k : Fin 5, t.c.ea[k.val] = s.c.ea[k.val])
        ∧ t = { s with c := { s.c with
            ea := t.c.ea, lcCtl := .c1 0 false, trace := s.c.trace ++ [.mmioR .status s.c.regs.status] } }

/-- Address, multicast and flow-control programming (R346, R347, R348): slot 0 holds the station address with AV, the
other slots and the multicast table are 0, the flow-control registers hold their constants, and no other register
changes. -/
def Obligations.FiltersAndFlowControlAreProgrammed : Prop :=
  ∀ (s : State) (d : Nat), s.c.lcCtl = .c1 0 false →
    ∃ t, turn .lc d 168 s = t ∧ t.c.lcCtl = .c5
      ∧ t.c.regs.ral[0] = s.c.ea[3] ++ s.c.ea[2] ++ s.c.ea[1] ++ s.c.ea[0]
      ∧ t.c.regs.rah[0] = (0x8000#16 ++ s.c.ea[5] ++ s.c.ea[4] : BitVec (16 + 8 + 8))
      ∧ (∀ n : Fin 16, n ≠ 0 → t.c.regs.ral[n] = 0#32 ∧ t.c.regs.rah[n] = 0#32)
      ∧ (∀ k : Fin 128, t.c.regs.mta[k] = 0#32)
      ∧ t.c.regs = { s.c.regs with
          ral := t.c.regs.ral, rah := t.c.regs.rah, mta := t.c.regs.mta
          fcal := 0x00C28001#32, fcah := 0x00000100#32, fct := 0x00008808#32, fcttv := 0x00000100#32
          fcrtl := s.c.cfg.fcrtlInit, fcrth := s.c.cfg.fcrthInit }
      ∧ t = { s with c := { s.c with lcCtl := t.c.lcCtl, regs := t.c.regs, trace := t.c.trace } }

/-- RX_INIT (R200-R205), line by line. I1-I5: base, length, and zero head and tail, in the HRE's record and in the NIC. I6:
each leftover, in slot order, goes back to the pool. I7: every byte of the descriptor array becomes 0 and no other byte
changes. I8, I9: the delay timers and the checksum offload; REPLENISH follows. I11: the receiver is enabled with RCTL_INIT
(R127) and, if `promisc`, the promiscuous bits. A length of 65536 descriptors is written as 0x00100000 (log 47). -/
def Obligations.RxInitPreparesTheRing : Prop :=
  ∀ (s : State) (d : Nat),
    (s.c.lcCtl = .i1 → ∃ t, turn .lc d 5 s = t
      ∧ (∀ j, t.c.lcCtl = .i6 j ↔ (s.c.rb.getD j none).isSome = true ∧ ∀ k, k < j → s.c.rb.getD k none = none)
      ∧ ((∀ k, s.c.rb.getD k none = none) → t.c.lcCtl = .i7 0 0)
      ∧ t = { s with c := { s.c with
          rdh := 0#16, rdt := 0#16, rdfree := 0#16
          lcCtl := t.c.lcCtl
          regs := { s.c.regs with
            rdbal := s.c.rdba.setWidth 32, rdbah := (s.c.rdba >>> 32).setWidth 32
            rdlen := BitVec.ofNat 32 (s.c.cfg.nrd * 16), hwRdh := 0#16, rdt := 0#16 }
          trace := s.c.trace ++ [.mmioW .rdbal (s.c.rdba.setWidth 32), .mmioW .rdbah ((s.c.rdba >>> 32).setWidth 32),
            .mmioW .rdlen (BitVec.ofNat 32 (s.c.cfg.nrd * 16)), .mmioW .rdh 0#32, .mmioW .rdt 0#32] } })
    ∧ (∀ (i : Nat) (b : BufId) (r : Buf), s.c.lcCtl = .i6 i → s.c.rb.getD i none = some b → s.buf? b = some r →
      ∃ t, agentStep .lc d s = .go t ∧ t.c.rb = s.c.rb.set i none ∧ t.free = b :: s.free
        ∧ t.buf? b = some { r with owner := .pool } ∧ (∀ x, x ≠ b → t.buf? x = s.buf? x)
        ∧ (∀ j, t.c.lcCtl = .i6 j ↔
            i < j ∧ (s.c.rb.getD j none).isSome = true ∧ ∀ k, i < k → k < j → s.c.rb.getD k none = none)
        ∧ ((∀ k, i < k → s.c.rb.getD k none = none) → t.c.lcCtl = .i7 0 0)
        ∧ t = { s with free := t.free, bufs := t.bufs, plock := none, c := { s.c with rb := t.c.rb, lcCtl := t.c.lcCtl } })
    ∧ (s.c.lcCtl = .i7 0 0 → ringSizeOk s.c.cfg.nrd = true → Mem.wf s.mem = true →
      ∃ t, turn .lc d (7 * s.c.cfg.nrd) s = t
        ∧ (∀ x : DWord, (x - s.c.rdba).toNat < 16 * s.c.cfg.nrd → Mem.read8 t.mem x = 0#8)
        ∧ (∀ x : DWord, 16 * s.c.cfg.nrd ≤ (x - s.c.rdba).toNat → Mem.read8 t.mem x = Mem.read8 s.mem x)
        ∧ t = { s with mem := t.mem, c := { s.c with lcCtl := .i8 false } })
    ∧ (s.c.lcCtl = .i8 false → turn .lc d 3 s = { s with c := { s.c with
        lcCtl := .i10 (repNext s.c)
        regs := { s.c.regs with
          rdtr := s.c.rdtr.setWidth 32, radv := s.c.radv.setWidth 32, rxcsum := 0x0000030E#32 }
        trace := s.c.trace ++ [.mmioW .rdtr (s.c.rdtr.setWidth 32), .mmioW .radv (s.c.radv.setWidth 32),
          .mmioW .rxcsum 0x0000030E#32] } })
    ∧ ∀ size v : Word, s.c.lcCtl = .i11 →
      (s.pool.rbsize, size) ∈ [(2048, 0x00000000#32), (1024, 0x00010000#32), (512, 0x00020000#32), (256, 0x00030000#32),
        (16384, 0x02010000#32), (8192, 0x02020000#32), (4096, 0x02030000#32)] →
      v = 0x00008002#32 ||| (match s.c.cfg.rdmts with
          | .half => 0x00000000#32 | .quarter => 0x00000100#32 | .eighth => 0x00000200#32)
        ||| size ||| (if s.c.promisc then 0x00000018#32 else 0#32) →
      agentStep .lc d s = .go { s with c := { s.c with
        lcCtl := .t1, regs := { s.c.regs with rctl := v }, trace := s.c.trace ++ [.mmioW .rctl v] } }

/-- TX_INIT (R240), line by line. T1-T5: base, length, and zero head and tail, in the HRE's record and in the NIC. T6: each
leftover, in slot order, is released to its origin with its event (R305). T7: every byte of the descriptor array becomes 0
and no other byte changes. T8, T9: TIPG and TIDV are written, and the transmitter is enabled: TCTL takes TCTL_INIT with
its bit 1, EN, set (D27, R502; read so by the model where the parameter lacks the bit, log 58); then the workers are
started. A length of 65536 descriptors is written as 0x00100000 (the model's choice, log 47). -/
def Obligations.TxInitPreparesTheRing : Prop :=
  ∀ (s : State) (d : Nat),
    (s.c.lcCtl = .t1 → ∃ t, turn .lc d 5 s = t
      ∧ (∀ j, t.c.lcCtl = .t6 j ↔ (s.c.tb.getD j none).isSome = true ∧ ∀ k, k < j → s.c.tb.getD k none = none)
      ∧ ((∀ k, s.c.tb.getD k none = none) → t.c.lcCtl = .t7 0 0)
      ∧ t = { s with c := { s.c with
          tdh := 0#16, tdt := 0#16
          lcCtl := t.c.lcCtl
          regs := { s.c.regs with
            tdbal := s.c.tdba.setWidth 32, tdbah := (s.c.tdba >>> 32).setWidth 32
            tdlen := BitVec.ofNat 32 (s.c.cfg.ntd * 16), hwTdh := 0#16, tdt := 0#16 }
          trace := s.c.trace ++ [.mmioW .tdbal (s.c.tdba.setWidth 32), .mmioW .tdbah ((s.c.tdba >>> 32).setWidth 32),
            .mmioW .tdlen (BitVec.ofNat 32 (s.c.cfg.ntd * 16)), .mmioW .tdh 0#32, .mmioW .tdt 0#32] } })
    ∧ (∀ (i : Nat) (b : BufId) (r : Buf), s.c.lcCtl = .t6 i → s.c.tb.getD i none = some b → s.buf? b = some r →
      ∃ t, agentStep .lc d s = .go t ∧ t.c.tb = s.c.tb.set i none
        ∧ (r.origin = .pool → t.free = b :: s.free ∧ t.buf? b = some { r with owner := .pool })
        ∧ (r.origin = .host → t.free = s.free ∧ t.buf? b = some { r with owner := .host })
        ∧ (∀ x, x ≠ b → t.buf? x = s.buf? x)
        ∧ (∀ j, t.c.lcCtl = .t6 j ↔
            i < j ∧ (s.c.tb.getD j none).isSome = true ∧ ∀ k, i < k → k < j → s.c.tb.getD k none = none)
        ∧ ((∀ k, i < k → s.c.tb.getD k none = none) → t.c.lcCtl = .t7 0 0)
        ∧ t = { s with free := t.free, bufs := t.bufs, plock := t.plock, c := { s.c with
            tb := t.c.tb, lcCtl := t.c.lcCtl, trace := s.c.trace ++ [.txRelease b] } })
    ∧ (s.c.lcCtl = .t7 0 0 → ringSizeOk s.c.cfg.ntd = true → Mem.wf s.mem = true →
      ∃ t, turn .lc d (4 * s.c.cfg.ntd) s = t
        ∧ (∀ x : DWord, (x - s.c.tdba).toNat < 16 * s.c.cfg.ntd → Mem.read8 t.mem x = 0#8)
        ∧ (∀ x : DWord, 16 * s.c.cfg.ntd ≤ (x - s.c.tdba).toNat → Mem.read8 t.mem x = Mem.read8 s.mem x)
        ∧ t = { s with mem := t.mem, c := { s.c with lcCtl := .t8 false } })
    ∧ (s.c.lcCtl = .t8 false → turn .lc d 3 s = { s with c := { s.c with
        lcCtl := .d3
        regs := { s.c.regs with
          tipg := s.c.cfg.tipgInit, tidv := s.c.cfg.tidvInit.setWidth 32, tctl := s.c.cfg.tctlInit ||| 0x00000002#32 }
        trace := s.c.trace ++ [.mmioW .tipg s.c.cfg.tipgInit, .mmioW .tidv (s.c.cfg.tidvInit.setWidth 32),
          .mmioW .tctl (s.c.cfg.tctlInit ||| 0x00000002#32)] } })

/-- The lines of ATTACH no other statement covers. A1 (R330): PBA is written with the rebalanced value. A2-A4 (R331, R332):
every interrupt is masked, the receiver and the transmitter disabled. A7 (R334): SLU is set in CTRL, its other bits kept. B0
and C5 (R349): `lc` becomes EepromLoading, then Configured. D3, D4 (R511, R350): in one step the three workers stand at their
first lines; in the next `lc` is Running and ATTACH is answered OK. Nothing else changes. -/
def Obligations.AttachLinesSetRegistersAndStartWorkers : Prop :=
  ∀ (s : State) (d : Nat),
    (∀ v : Word, s.c.lcCtl = .a1 → s.c.cfg.variant.pbaThreshold < s.pool.rbsize →
      s.c.cfg.variant.pbaRebalance = some v →
      agentStep .lc d s = .go { s with c := { s.c with
        lcCtl := .a2, regs := { s.c.regs with pba := v }, trace := s.c.trace ++ [.mmioW .pba v] } })
    ∧ (s.c.lcCtl = .a2 → turn .lc d 3 s = { s with c := { s.c with
        lcCtl := .rmwR .a5
        regs := { s.c.regs with hwIms := 0#32, rctl := 0#32, tctl := 0#32 }
        trace := s.c.trace ++ [.mmioW .imc 0xFFFFFFFF#32, .mmioW .rctl 0#32, .mmioW .tctl 0#32] } })
    ∧ (∀ v : Word, s.c.lcCtl = .rmwR .a7 → v = s.c.regs.ctrl ||| 0x00000040#32 →
      turn .lc d 2 s = { s with c := { s.c with
        lcCtl := .rmwR .a8
        regs := { s.c.regs with ctrl := v }
        trace := s.c.trace ++ [.mmioR .ctrl s.c.regs.ctrl, .mmioW .ctrl v] } })
    ∧ (s.c.lcCtl = .b0 → agentStep .lc d s = .go { s with c := { s.c with lc := .eepromLoading, lcCtl := .b1 0 .h1 } })
    ∧ (s.c.lcCtl = .c5 → agentStep .lc d s = .go { s with c := { s.c with lc := .configured, lcCtl := .i1 } })
    ∧ (s.c.lcCtl = .d3 →
      agentStep .lc d s = .go { s with c := { s.c with
        rxw := { s.c.rxw with ctl := .w1 .m1 }, txw := .t1 .m1, lnk := .l1 .h1, lcCtl := .d4 } }
      ∧ turn .lc d 2 s = { s with c := { s.c with
        rxw := { s.c.rxw with ctl := .w1 .m1 }, txw := .t1 .m1, lnk := .l1 .h1, lcCtl := .idle, lc := .running
        trace := s.c.trace ++ [.cmd s.c.lcCmd .ok] } })

/-- The link state (R402, R403, R404): with the default decode, link-up is bit 10 and the index bits 15:14 of the PHY status,
plus the variant's k, at most 3; the histogram counts at that index whether the link is up or not, and wraps. Line L5: with
`mlock` free, three steps clear `lim` under the lock and bring the monitor to its ARM; nothing else changes. -/
def Obligations.LinkStatusIsDecodedAndCounted : Prop :=
  (∀ (s : State) (d k : Nat) (v : Half), s.c.lnk = .l3 v → s.c.cfg.variant.phyDecode = .standard k →
    ∃ t, turn .lnk d 2 s = t ∧ t.c.linkUp = v.getLsbD 10
      ∧ t.c.speedIdx.val = min ((v.extractLsb' 14 2).toNat + k) 3
      ∧ (∀ j : Fin 4, t.c.speedHist[j] = if j = t.c.speedIdx then s.c.speedHist[j] + 1#32 else s.c.speedHist[j])
      ∧ t = { s with c := { s.c with
          lnk := .l5a, linkUp := t.c.linkUp, speedIdx := t.c.speedIdx, speedHist := t.c.speedHist
          trace := s.c.trace ++ [.linkUpdate t.c.linkUp t.c.speedIdx] } })
    ∧ ∀ (s : State) (d : Nat), s.c.lnk = .l5a → s.c.mlock = none →
      turn .lnk d 3 s = { s with c := { s.c with lim := 0#32, lnk := .l6 .m1 } }

/-! ## The pool -/

/-- The pool (R301, R302, R303): a pop fails exactly on an empty pool; otherwise it removes one free buffer and records
its new owner in the same step; a push on top is what the next pop of the top returns. A buffer reset clears cursors and
annotations alone, and a buffer pushed and popped again by a replenish has them cleared whatever it held (R307). Which free
buffer a pop takes is the step's draw, 0 being the top of the reference order (log 8). -/
def Obligations.PoolPopAndPushMoveOneBuffer : Prop :=
  (∀ (s : State) (d : Nat) (o : Owner) (b : BufId),
    (poolPop s d o = none ↔ s.free = [])
    ∧ (∀ (t : State) (r : Buf), poolPop s d o = some (b, t) → s.buf? b = some r →
        s.free.Perm (b :: t.free) ∧ t.buf? b = some { r with owner := o } ∧ (∀ x, x ≠ b → t.buf? x = s.buf? x)
        ∧ t = { s with free := t.free, bufs := t.bufs, plock := none })
    ∧ ∃ t, poolPop (poolPush s b) 0 o = some (b, t) ∧ t.free = s.free)
    ∧ (∀ r : Buf, r.resetCursors = { r with
        rp := 0#32, wp := 0#32, lim := r.cap, ipOk := false, tcpOk := false, udpOk := false, csumPresent := false,
        csum := 0#16 })
    ∧ ∀ (s : State) (b : BufId) (r : Buf) (i : Half), s.buf? b = some r → s.c.rxw.ctl = .s8 .r3 → i = s.c.rdt →
      ∃ t, turn .rxw 0 2 (poolPush s b) = t
        ∧ t.buf? b = some { r.resetCursors with owner := .rxSlot s.c.id i } ∧ t.free = s.free

/-! ## The host (R375, R383) -/

/-- What the `HOST` may do, and what is refused (R375, R383, R300). It may issue any command word. Of a buffer it owns that
no outbound queue holds, it may append a nonempty packet to the queue, set the cursors within R45's order and write a byte
of the data; of any other buffer, or outside those bounds, it may not. It may supply a buffer of its own under an unused
identifier from NPOOL on, overlapping nothing (R512 (a)). The model's: the refusals beyond R375's append and the test of
every controller's queue (log 33, log 37), the address of a data byte (log 31), the cursors of a supplied buffer (log 45). -/
def Obligations.HostActionsAreDuties : Prop :=
  ∀ (s : State) (b : BufId),
    (∀ w : DWord, hostAct s (.issue w) =
      .next { s with port := s.port ++ [{ fmt := .hostCmd, bytes := leBytes 8 w.toNat }] })
    ∧ (∀ r : Buf, s.buf? b = some r → r.owner = .host → (∀ c ∈ s.ctlrs, b ∉ c.oq) →
      (r.wp - r.rp ≠ 0#32 → hostAct s (.enqueue b) = .next { s with c := { s.c with oq := s.c.oq ++ [b] } })
      ∧ (r.wp - r.rp = 0#32 → hostAct s (.enqueue b) = .refused .hostDuty)
      ∧ (∀ rp wp lim : Word, rp ≤ wp → wp ≤ lim → lim ≤ r.cap → ∃ t, hostAct s (.cursors b rp wp lim) = .next t
          ∧ t.buf? b = some { r with rp := rp, wp := wp, lim := lim } ∧ (∀ x, x ≠ b → t.buf? x = s.buf? x)
          ∧ t = { s with bufs := t.bufs })
      ∧ (∀ rp wp lim : Word, (wp < rp ∨ lim < wp ∨ r.cap < lim) → hostAct s (.cursors b rp wp lim) = .refused .hostDuty)
      ∧ (∀ (off : Word) (v : Byte), off < r.cap → ∃ t, hostAct s (.data b off v) = .next t
          ∧ (Mem.wf s.mem = true → Mem.read8 t.mem (r.base + off.setWidth 64) = v)
          ∧ (∀ x : DWord, x ≠ r.base + off.setWidth 64 → Mem.read8 t.mem x = Mem.read8 s.mem x)
          ∧ t = { s with mem := t.mem })
      ∧ ∀ (off : Word) (v : Byte), r.cap ≤ off → hostAct s (.data b off v) = .refused .hostDuty)
    ∧ (((∀ r, s.buf? b = some r → r.owner ≠ .host) ∨ ∃ c ∈ s.ctlrs, b ∈ c.oq) →
      hostAct s (.enqueue b) = .refused .hostDuty
      ∧ (∀ rp wp lim : Word, hostAct s (.cursors b rp wp lim) = .refused .hostDuty)
      ∧ ∀ (off : Word) (v : Byte), hostAct s (.data b off v) = .refused .hostDuty)
    ∧ ∀ (base : DWord) (cap : Word),
      (s.pool.npool ≤ b → s.buf? b = none → disjointOk (supplyBuf s b base cap) = true →
        ∃ t, hostAct s (.supply b base cap) = .next t
          ∧ (∃ r, t.buf? b = some r ∧ r.base = base ∧ r.cap = cap ∧ r.origin = .host ∧ r.owner = .host ∧ r.rp = 0#32)
          ∧ (∀ x, x ≠ b → t.buf? x = s.buf? x) ∧ t = { s with bufs := t.bufs })
      ∧ ((b < s.pool.npool ∨ (∃ r, s.buf? b = some r) ∨ disjointOk (supplyBuf s b base cap) = false) →
        hostAct s (.supply b base cap) = .refused .hostDuty)

end
end

