-- ==== Sys2Proof/Laws/State.lean ====
section
/-! SUPPORT. One lemma per field and update: what each named update of the state does to each of its fields. -/

namespace Sys2Proof.Machine

variable (s : State)

/-! ## Updates -/

@[simp] theorem State.modC_c (f : Ctlr → Ctlr) : (s.modC f).c = f s.c := rfl
@[simp] theorem State.modC_others (f : Ctlr → Ctlr) : (s.modC f).others = s.others := rfl
@[simp] theorem State.modC_pool (f : Ctlr → Ctlr) : (s.modC f).pool = s.pool := rfl
@[simp] theorem State.modC_bufs (f : Ctlr → Ctlr) : (s.modC f).bufs = s.bufs := rfl
@[simp] theorem State.modC_free (f : Ctlr → Ctlr) : (s.modC f).free = s.free := rfl
@[simp] theorem State.modC_plock (f : Ctlr → Ctlr) : (s.modC f).plock = s.plock := rfl
@[simp] theorem State.modC_mem (f : Ctlr → Ctlr) : (s.modC f).mem = s.mem := rfl
@[simp] theorem State.modC_port (f : Ctlr → Ctlr) : (s.modC f).port = s.port := rfl
@[simp] theorem State.modC_sched (f : Ctlr → Ctlr) : (s.modC f).sched = s.sched := rfl
@[simp] theorem State.modC_tick (f : Ctlr → Ctlr) : (s.modC f).tick = s.tick := rfl

@[simp] theorem State.modRegs_c (f : NicRegs → NicRegs) : (s.modRegs f).c = { s.c with regs := f s.c.regs } := rfl
@[simp] theorem State.modRegs_others (f : NicRegs → NicRegs) : (s.modRegs f).others = s.others := rfl
@[simp] theorem State.modRegs_pool (f : NicRegs → NicRegs) : (s.modRegs f).pool = s.pool := rfl
@[simp] theorem State.modRegs_bufs (f : NicRegs → NicRegs) : (s.modRegs f).bufs = s.bufs := rfl
@[simp] theorem State.modRegs_free (f : NicRegs → NicRegs) : (s.modRegs f).free = s.free := rfl
@[simp] theorem State.modRegs_plock (f : NicRegs → NicRegs) : (s.modRegs f).plock = s.plock := rfl
@[simp] theorem State.modRegs_mem (f : NicRegs → NicRegs) : (s.modRegs f).mem = s.mem := rfl
@[simp] theorem State.modRegs_port (f : NicRegs → NicRegs) : (s.modRegs f).port = s.port := rfl
@[simp] theorem State.modRegs_sched (f : NicRegs → NicRegs) : (s.modRegs f).sched = s.sched := rfl
@[simp] theorem State.modRegs_tick (f : NicRegs → NicRegs) : (s.modRegs f).tick = s.tick := rfl

@[simp] theorem State.modDev_c (f : Device → Device) : (s.modDev f).c = { s.c with dev := f s.c.dev } := rfl
@[simp] theorem State.modDev_others (f : Device → Device) : (s.modDev f).others = s.others := rfl
@[simp] theorem State.modDev_pool (f : Device → Device) : (s.modDev f).pool = s.pool := rfl
@[simp] theorem State.modDev_bufs (f : Device → Device) : (s.modDev f).bufs = s.bufs := rfl
@[simp] theorem State.modDev_free (f : Device → Device) : (s.modDev f).free = s.free := rfl
@[simp] theorem State.modDev_plock (f : Device → Device) : (s.modDev f).plock = s.plock := rfl
@[simp] theorem State.modDev_mem (f : Device → Device) : (s.modDev f).mem = s.mem := rfl
@[simp] theorem State.modDev_port (f : Device → Device) : (s.modDev f).port = s.port := rfl
@[simp] theorem State.modDev_sched (f : Device → Device) : (s.modDev f).sched = s.sched := rfl
@[simp] theorem State.modDev_tick (f : Device → Device) : (s.modDev f).tick = s.tick := rfl

@[simp] theorem State.setMem_c (m : List Host.Cell) : (s.setMem m).c = s.c := rfl
@[simp] theorem State.setMem_others (m : List Host.Cell) : (s.setMem m).others = s.others := rfl
@[simp] theorem State.setMem_pool (m : List Host.Cell) : (s.setMem m).pool = s.pool := rfl
@[simp] theorem State.setMem_bufs (m : List Host.Cell) : (s.setMem m).bufs = s.bufs := rfl
@[simp] theorem State.setMem_free (m : List Host.Cell) : (s.setMem m).free = s.free := rfl
@[simp] theorem State.setMem_plock (m : List Host.Cell) : (s.setMem m).plock = s.plock := rfl
@[simp] theorem State.setMem_mem (m : List Host.Cell) : (s.setMem m).mem = m := rfl
@[simp] theorem State.setMem_port (m : List Host.Cell) : (s.setMem m).port = s.port := rfl
@[simp] theorem State.setMem_sched (m : List Host.Cell) : (s.setMem m).sched = s.sched := rfl
@[simp] theorem State.setMem_tick (m : List Host.Cell) : (s.setMem m).tick = s.tick := rfl

@[simp] theorem State.emit_c (e : TraceEv) : (s.emit e).c = { s.c with trace := s.c.trace ++ [e] } := rfl
@[simp] theorem State.emit_others (e : TraceEv) : (s.emit e).others = s.others := rfl
@[simp] theorem State.emit_pool (e : TraceEv) : (s.emit e).pool = s.pool := rfl
@[simp] theorem State.emit_bufs (e : TraceEv) : (s.emit e).bufs = s.bufs := rfl
@[simp] theorem State.emit_free (e : TraceEv) : (s.emit e).free = s.free := rfl
@[simp] theorem State.emit_plock (e : TraceEv) : (s.emit e).plock = s.plock := rfl
@[simp] theorem State.emit_mem (e : TraceEv) : (s.emit e).mem = s.mem := rfl
@[simp] theorem State.emit_port (e : TraceEv) : (s.emit e).port = s.port := rfl
@[simp] theorem State.emit_sched (e : TraceEv) : (s.emit e).sched = s.sched := rfl
@[simp] theorem State.emit_tick (e : TraceEv) : (s.emit e).tick = s.tick := rfl

@[simp] theorem State.modBuf_c (b : BufId) (f : Buf → Buf) : (s.modBuf b f).c = s.c := rfl
@[simp] theorem State.modBuf_others (b : BufId) (f : Buf → Buf) : (s.modBuf b f).others = s.others := rfl
@[simp] theorem State.modBuf_pool (b : BufId) (f : Buf → Buf) : (s.modBuf b f).pool = s.pool := rfl
@[simp] theorem State.modBuf_bufs (b : BufId) (f : Buf → Buf) : (s.modBuf b f).bufs = bufMod s.bufs b f := rfl
@[simp] theorem State.modBuf_free (b : BufId) (f : Buf → Buf) : (s.modBuf b f).free = s.free := rfl
@[simp] theorem State.modBuf_plock (b : BufId) (f : Buf → Buf) : (s.modBuf b f).plock = s.plock := rfl
@[simp] theorem State.modBuf_mem (b : BufId) (f : Buf → Buf) : (s.modBuf b f).mem = s.mem := rfl
@[simp] theorem State.modBuf_port (b : BufId) (f : Buf → Buf) : (s.modBuf b f).port = s.port := rfl
@[simp] theorem State.modBuf_sched (b : BufId) (f : Buf → Buf) : (s.modBuf b f).sched = s.sched := rfl
@[simp] theorem State.modBuf_tick (b : BufId) (f : Buf → Buf) : (s.modBuf b f).tick = s.tick := rfl

@[simp] theorem setDisp_c (f : Disp → Disp) : (setDisp s f).c = { s.c with disp := f s.c.disp } := rfl
@[simp] theorem setDisp_others (f : Disp → Disp) : (setDisp s f).others = s.others := rfl
@[simp] theorem setDisp_pool (f : Disp → Disp) : (setDisp s f).pool = s.pool := rfl
@[simp] theorem setDisp_bufs (f : Disp → Disp) : (setDisp s f).bufs = s.bufs := rfl
@[simp] theorem setDisp_free (f : Disp → Disp) : (setDisp s f).free = s.free := rfl
@[simp] theorem setDisp_plock (f : Disp → Disp) : (setDisp s f).plock = s.plock := rfl
@[simp] theorem setDisp_mem (f : Disp → Disp) : (setDisp s f).mem = s.mem := rfl
@[simp] theorem setDisp_port (f : Disp → Disp) : (setDisp s f).port = s.port := rfl
@[simp] theorem setDisp_sched (f : Disp → Disp) : (setDisp s f).sched = s.sched := rfl
@[simp] theorem setDisp_tick (f : Disp → Disp) : (setDisp s f).tick = s.tick := rfl

@[simp] theorem setRxw_c (f : RxWorker → RxWorker) : (setRxw s f).c = { s.c with rxw := f s.c.rxw } := rfl
@[simp] theorem setRxw_others (f : RxWorker → RxWorker) : (setRxw s f).others = s.others := rfl
@[simp] theorem setRxw_pool (f : RxWorker → RxWorker) : (setRxw s f).pool = s.pool := rfl
@[simp] theorem setRxw_bufs (f : RxWorker → RxWorker) : (setRxw s f).bufs = s.bufs := rfl
@[simp] theorem setRxw_free (f : RxWorker → RxWorker) : (setRxw s f).free = s.free := rfl
@[simp] theorem setRxw_plock (f : RxWorker → RxWorker) : (setRxw s f).plock = s.plock := rfl
@[simp] theorem setRxw_mem (f : RxWorker → RxWorker) : (setRxw s f).mem = s.mem := rfl
@[simp] theorem setRxw_port (f : RxWorker → RxWorker) : (setRxw s f).port = s.port := rfl
@[simp] theorem setRxw_sched (f : RxWorker → RxWorker) : (setRxw s f).sched = s.sched := rfl
@[simp] theorem setRxw_tick (f : RxWorker → RxWorker) : (setRxw s f).tick = s.tick := rfl

@[simp] theorem rxwJump_c (x : RxCtl) : (rxwJump x s).c = { s.c with rxw := { s.c.rxw with ctl := x } } := rfl
@[simp] theorem rxwJump_others (x : RxCtl) : (rxwJump x s).others = s.others := rfl
@[simp] theorem rxwJump_pool (x : RxCtl) : (rxwJump x s).pool = s.pool := rfl
@[simp] theorem rxwJump_bufs (x : RxCtl) : (rxwJump x s).bufs = s.bufs := rfl
@[simp] theorem rxwJump_free (x : RxCtl) : (rxwJump x s).free = s.free := rfl
@[simp] theorem rxwJump_plock (x : RxCtl) : (rxwJump x s).plock = s.plock := rfl
@[simp] theorem rxwJump_mem (x : RxCtl) : (rxwJump x s).mem = s.mem := rfl
@[simp] theorem rxwJump_port (x : RxCtl) : (rxwJump x s).port = s.port := rfl
@[simp] theorem rxwJump_sched (x : RxCtl) : (rxwJump x s).sched = s.sched := rfl
@[simp] theorem rxwJump_tick (x : RxCtl) : (rxwJump x s).tick = s.tick := rfl

@[simp] theorem txwJump_c (x : TxwCtl) : (txwJump x s).c = { s.c with txw := x } := rfl
@[simp] theorem txwJump_others (x : TxwCtl) : (txwJump x s).others = s.others := rfl
@[simp] theorem txwJump_pool (x : TxwCtl) : (txwJump x s).pool = s.pool := rfl
@[simp] theorem txwJump_bufs (x : TxwCtl) : (txwJump x s).bufs = s.bufs := rfl
@[simp] theorem txwJump_free (x : TxwCtl) : (txwJump x s).free = s.free := rfl
@[simp] theorem txwJump_plock (x : TxwCtl) : (txwJump x s).plock = s.plock := rfl
@[simp] theorem txwJump_mem (x : TxwCtl) : (txwJump x s).mem = s.mem := rfl
@[simp] theorem txwJump_port (x : TxwCtl) : (txwJump x s).port = s.port := rfl
@[simp] theorem txwJump_sched (x : TxwCtl) : (txwJump x s).sched = s.sched := rfl
@[simp] theorem txwJump_tick (x : TxwCtl) : (txwJump x s).tick = s.tick := rfl

@[simp] theorem lnkJump_c (x : LnkCtl) : (lnkJump x s).c = { s.c with lnk := x } := rfl
@[simp] theorem lnkJump_others (x : LnkCtl) : (lnkJump x s).others = s.others := rfl
@[simp] theorem lnkJump_pool (x : LnkCtl) : (lnkJump x s).pool = s.pool := rfl
@[simp] theorem lnkJump_bufs (x : LnkCtl) : (lnkJump x s).bufs = s.bufs := rfl
@[simp] theorem lnkJump_free (x : LnkCtl) : (lnkJump x s).free = s.free := rfl
@[simp] theorem lnkJump_plock (x : LnkCtl) : (lnkJump x s).plock = s.plock := rfl
@[simp] theorem lnkJump_mem (x : LnkCtl) : (lnkJump x s).mem = s.mem := rfl
@[simp] theorem lnkJump_port (x : LnkCtl) : (lnkJump x s).port = s.port := rfl
@[simp] theorem lnkJump_sched (x : LnkCtl) : (lnkJump x s).sched = s.sched := rfl
@[simp] theorem lnkJump_tick (x : LnkCtl) : (lnkJump x s).tick = s.tick := rfl

@[simp] theorem lcJump_c (x : LcCtl) : (lcJump x s).c = { s.c with lcCtl := x } := rfl
@[simp] theorem lcJump_others (x : LcCtl) : (lcJump x s).others = s.others := rfl
@[simp] theorem lcJump_pool (x : LcCtl) : (lcJump x s).pool = s.pool := rfl
@[simp] theorem lcJump_bufs (x : LcCtl) : (lcJump x s).bufs = s.bufs := rfl
@[simp] theorem lcJump_free (x : LcCtl) : (lcJump x s).free = s.free := rfl
@[simp] theorem lcJump_plock (x : LcCtl) : (lcJump x s).plock = s.plock := rfl
@[simp] theorem lcJump_mem (x : LcCtl) : (lcJump x s).mem = s.mem := rfl
@[simp] theorem lcJump_port (x : LcCtl) : (lcJump x s).port = s.port := rfl
@[simp] theorem lcJump_sched (x : LcCtl) : (lcJump x s).sched = s.sched := rfl
@[simp] theorem lcJump_tick (x : LcCtl) : (lcJump x s).tick = s.tick := rfl

@[simp] theorem txcJump_c (k : Nat) (r : TxRun) : (txcJump k r s).c = { s.c with txcs := txcSet s.c.txcs k r } := rfl
@[simp] theorem txcJump_others (k : Nat) (r : TxRun) : (txcJump k r s).others = s.others := rfl
@[simp] theorem txcJump_pool (k : Nat) (r : TxRun) : (txcJump k r s).pool = s.pool := rfl
@[simp] theorem txcJump_bufs (k : Nat) (r : TxRun) : (txcJump k r s).bufs = s.bufs := rfl
@[simp] theorem txcJump_free (k : Nat) (r : TxRun) : (txcJump k r s).free = s.free := rfl
@[simp] theorem txcJump_plock (k : Nat) (r : TxRun) : (txcJump k r s).plock = s.plock := rfl
@[simp] theorem txcJump_mem (k : Nat) (r : TxRun) : (txcJump k r s).mem = s.mem := rfl
@[simp] theorem txcJump_port (k : Nat) (r : TxRun) : (txcJump k r s).port = s.port := rfl
@[simp] theorem txcJump_sched (k : Nat) (r : TxRun) : (txcJump k r s).sched = s.sched := rfl
@[simp] theorem txcJump_tick (k : Nat) (r : TxRun) : (txcJump k r s).tick = s.tick := rfl

@[simp] theorem startLc_c (i : Instr) (x : LcCtl) : (startLc s i x).c = { s.c with lcCmd := i, lcCtl := x } := rfl
@[simp] theorem startLc_others (i : Instr) (x : LcCtl) : (startLc s i x).others = s.others := rfl
@[simp] theorem startLc_pool (i : Instr) (x : LcCtl) : (startLc s i x).pool = s.pool := rfl
@[simp] theorem startLc_bufs (i : Instr) (x : LcCtl) : (startLc s i x).bufs = s.bufs := rfl
@[simp] theorem startLc_free (i : Instr) (x : LcCtl) : (startLc s i x).free = s.free := rfl
@[simp] theorem startLc_plock (i : Instr) (x : LcCtl) : (startLc s i x).plock = s.plock := rfl
@[simp] theorem startLc_mem (i : Instr) (x : LcCtl) : (startLc s i x).mem = s.mem := rfl
@[simp] theorem startLc_port (i : Instr) (x : LcCtl) : (startLc s i x).port = s.port := rfl
@[simp] theorem startLc_sched (i : Instr) (x : LcCtl) : (startLc s i x).sched = s.sched := rfl
@[simp] theorem startLc_tick (i : Instr) (x : LcCtl) : (startLc s i x).tick = s.tick := rfl

/-! ## Operations -/

@[simp] theorem mmioWrite_c (r : Reg) (v : Word) : (mmioWrite s r v).c = { s.c with
      regs := regWrite s.c.cfg.variant.eerdLayout s.c.regs r v
      dev := devAfterWrite s.c.dev r v
      trace := s.c.trace ++ [.mmioW r v] } := rfl
@[simp] theorem mmioWrite_others (r : Reg) (v : Word) : (mmioWrite s r v).others = s.others := rfl
@[simp] theorem mmioWrite_pool (r : Reg) (v : Word) : (mmioWrite s r v).pool = s.pool := rfl
@[simp] theorem mmioWrite_bufs (r : Reg) (v : Word) : (mmioWrite s r v).bufs = s.bufs := rfl
@[simp] theorem mmioWrite_free (r : Reg) (v : Word) : (mmioWrite s r v).free = s.free := rfl
@[simp] theorem mmioWrite_plock (r : Reg) (v : Word) : (mmioWrite s r v).plock = s.plock := rfl
@[simp] theorem mmioWrite_mem (r : Reg) (v : Word) : (mmioWrite s r v).mem = s.mem := rfl
@[simp] theorem mmioWrite_port (r : Reg) (v : Word) : (mmioWrite s r v).port = s.port := rfl
@[simp] theorem mmioWrite_sched (r : Reg) (v : Word) : (mmioWrite s r v).sched = s.sched := rfl
@[simp] theorem mmioWrite_tick (r : Reg) (v : Word) : (mmioWrite s r v).tick = s.tick := rfl

@[simp] theorem mmioRead_value (r : Reg) : (mmioRead s r).1 = regRead s.c.regs r := rfl
@[simp] theorem mmioRead_c (r : Reg) : ((mmioRead s r).2).c = { s.c with
      regs := regAfterRead s.c.regs r
      trace := s.c.trace ++ [.mmioR r (regRead s.c.regs r)] } := rfl
@[simp] theorem mmioRead_others (r : Reg) : ((mmioRead s r).2).others = s.others := rfl
@[simp] theorem mmioRead_pool (r : Reg) : ((mmioRead s r).2).pool = s.pool := rfl
@[simp] theorem mmioRead_bufs (r : Reg) : ((mmioRead s r).2).bufs = s.bufs := rfl
@[simp] theorem mmioRead_free (r : Reg) : ((mmioRead s r).2).free = s.free := rfl
@[simp] theorem mmioRead_plock (r : Reg) : ((mmioRead s r).2).plock = s.plock := rfl
@[simp] theorem mmioRead_mem (r : Reg) : ((mmioRead s r).2).mem = s.mem := rfl
@[simp] theorem mmioRead_port (r : Reg) : ((mmioRead s r).2).port = s.port := rfl
@[simp] theorem mmioRead_sched (r : Reg) : ((mmioRead s r).2).sched = s.sched := rfl
@[simp] theorem mmioRead_tick (r : Reg) : ((mmioRead s r).2).tick = s.tick := rfl

@[simp] theorem releaseM_c  : (releaseM s).c = { s.c with mlock := none } := rfl
@[simp] theorem releaseM_others  : (releaseM s).others = s.others := rfl
@[simp] theorem releaseM_pool  : (releaseM s).pool = s.pool := rfl
@[simp] theorem releaseM_bufs  : (releaseM s).bufs = s.bufs := rfl
@[simp] theorem releaseM_free  : (releaseM s).free = s.free := rfl
@[simp] theorem releaseM_plock  : (releaseM s).plock = s.plock := rfl
@[simp] theorem releaseM_mem  : (releaseM s).mem = s.mem := rfl
@[simp] theorem releaseM_port  : (releaseM s).port = s.port := rfl
@[simp] theorem releaseM_sched  : (releaseM s).sched = s.sched := rfl
@[simp] theorem releaseM_tick  : (releaseM s).tick = s.tick := rfl

@[simp] theorem releaseT_c  : (releaseT s).c = { s.c with tlock := none } := rfl
@[simp] theorem releaseT_others  : (releaseT s).others = s.others := rfl
@[simp] theorem releaseT_pool  : (releaseT s).pool = s.pool := rfl
@[simp] theorem releaseT_bufs  : (releaseT s).bufs = s.bufs := rfl
@[simp] theorem releaseT_free  : (releaseT s).free = s.free := rfl
@[simp] theorem releaseT_plock  : (releaseT s).plock = s.plock := rfl
@[simp] theorem releaseT_mem  : (releaseT s).mem = s.mem := rfl
@[simp] theorem releaseT_port  : (releaseT s).port = s.port := rfl
@[simp] theorem releaseT_sched  : (releaseT s).sched = s.sched := rfl
@[simp] theorem releaseT_tick  : (releaseT s).tick = s.tick := rfl

@[simp] theorem raiseFault_c (r : FaultRec) : (raiseFault s r).c = { s.c with fault := s.c.fault ++ [r] } := rfl
@[simp] theorem raiseFault_others (r : FaultRec) : (raiseFault s r).others = s.others := rfl
@[simp] theorem raiseFault_pool (r : FaultRec) : (raiseFault s r).pool = s.pool := rfl
@[simp] theorem raiseFault_bufs (r : FaultRec) : (raiseFault s r).bufs = s.bufs := rfl
@[simp] theorem raiseFault_free (r : FaultRec) : (raiseFault s r).free = s.free := rfl
@[simp] theorem raiseFault_plock (r : FaultRec) : (raiseFault s r).plock = s.plock := rfl
@[simp] theorem raiseFault_mem (r : FaultRec) : (raiseFault s r).mem = s.mem := rfl
@[simp] theorem raiseFault_port (r : FaultRec) : (raiseFault s r).port = s.port := rfl
@[simp] theorem raiseFault_sched (r : FaultRec) : (raiseFault s r).sched = s.sched := rfl
@[simp] theorem raiseFault_tick (r : FaultRec) : (raiseFault s r).tick = s.tick := rfl

@[simp] theorem replyCmd_c (i : Instr) (st : Status) : (replyCmd s i st).c = { s.c with trace := s.c.trace ++ [.cmd i st] } := rfl
@[simp] theorem replyCmd_others (i : Instr) (st : Status) : (replyCmd s i st).others = s.others := rfl
@[simp] theorem replyCmd_pool (i : Instr) (st : Status) : (replyCmd s i st).pool = s.pool := rfl
@[simp] theorem replyCmd_bufs (i : Instr) (st : Status) : (replyCmd s i st).bufs = s.bufs := rfl
@[simp] theorem replyCmd_free (i : Instr) (st : Status) : (replyCmd s i st).free = s.free := rfl
@[simp] theorem replyCmd_plock (i : Instr) (st : Status) : (replyCmd s i st).plock = s.plock := rfl
@[simp] theorem replyCmd_mem (i : Instr) (st : Status) : (replyCmd s i st).mem = s.mem := rfl
@[simp] theorem replyCmd_port (i : Instr) (st : Status) : (replyCmd s i st).port = s.port := rfl
@[simp] theorem replyCmd_sched (i : Instr) (st : Status) : (replyCmd s i st).sched = s.sched := rfl
@[simp] theorem replyCmd_tick (i : Instr) (st : Status) : (replyCmd s i st).tick = s.tick := rfl

@[simp] theorem finishLc_c (st : Status) : (finishLc s st).c = { s.c with trace := s.c.trace ++ [.cmd s.c.lcCmd st], lcCtl := .idle } := rfl
@[simp] theorem finishLc_others (st : Status) : (finishLc s st).others = s.others := rfl
@[simp] theorem finishLc_pool (st : Status) : (finishLc s st).pool = s.pool := rfl
@[simp] theorem finishLc_bufs (st : Status) : (finishLc s st).bufs = s.bufs := rfl
@[simp] theorem finishLc_free (st : Status) : (finishLc s st).free = s.free := rfl
@[simp] theorem finishLc_plock (st : Status) : (finishLc s st).plock = s.plock := rfl
@[simp] theorem finishLc_mem (st : Status) : (finishLc s st).mem = s.mem := rfl
@[simp] theorem finishLc_port (st : Status) : (finishLc s st).port = s.port := rfl
@[simp] theorem finishLc_sched (st : Status) : (finishLc s st).sched = s.sched := rfl
@[simp] theorem finishLc_tick (st : Status) : (finishLc s st).tick = s.tick := rfl

@[simp] theorem poolPush_c (b : BufId) : (poolPush s b).c = s.c := rfl
@[simp] theorem poolPush_others (b : BufId) : (poolPush s b).others = s.others := rfl
@[simp] theorem poolPush_pool (b : BufId) : (poolPush s b).pool = s.pool := rfl
@[simp] theorem poolPush_bufs (b : BufId) : (poolPush s b).bufs = bufMod s.bufs b (Buf.setOwner .pool) := rfl
@[simp] theorem poolPush_free (b : BufId) : (poolPush s b).free = b :: s.free := rfl
@[simp] theorem poolPush_plock (b : BufId) : (poolPush s b).plock = none := rfl
@[simp] theorem poolPush_mem (b : BufId) : (poolPush s b).mem = s.mem := rfl
@[simp] theorem poolPush_port (b : BufId) : (poolPush s b).port = s.port := rfl
@[simp] theorem poolPush_sched (b : BufId) : (poolPush s b).sched = s.sched := rfl
@[simp] theorem poolPush_tick (b : BufId) : (poolPush s b).tick = s.tick := rfl

@[simp] theorem latch_c (w : Word) : (latch s w).c = { s.c with regs := { s.c.regs with icr := s.c.regs.icr ||| w } } := rfl
@[simp] theorem latch_others (w : Word) : (latch s w).others = s.others := rfl
@[simp] theorem latch_pool (w : Word) : (latch s w).pool = s.pool := rfl
@[simp] theorem latch_bufs (w : Word) : (latch s w).bufs = s.bufs := rfl
@[simp] theorem latch_free (w : Word) : (latch s w).free = s.free := rfl
@[simp] theorem latch_plock (w : Word) : (latch s w).plock = s.plock := rfl
@[simp] theorem latch_mem (w : Word) : (latch s w).mem = s.mem := rfl
@[simp] theorem latch_port (w : Word) : (latch s w).port = s.port := rfl
@[simp] theorem latch_sched (w : Word) : (latch s w).sched = s.sched := rfl
@[simp] theorem latch_tick (w : Word) : (latch s w).tick = s.tick := rfl

@[simp] theorem returnFromInterrupt_c  : (returnFromInterrupt s).c = { s.c with mlock := none, disp := { s.c.disp with ctl := .idle } } := rfl
@[simp] theorem returnFromInterrupt_others  : (returnFromInterrupt s).others = s.others := rfl
@[simp] theorem returnFromInterrupt_pool  : (returnFromInterrupt s).pool = s.pool := rfl
@[simp] theorem returnFromInterrupt_bufs  : (returnFromInterrupt s).bufs = s.bufs := rfl
@[simp] theorem returnFromInterrupt_free  : (returnFromInterrupt s).free = s.free := rfl
@[simp] theorem returnFromInterrupt_plock  : (returnFromInterrupt s).plock = s.plock := rfl
@[simp] theorem returnFromInterrupt_mem  : (returnFromInterrupt s).mem = s.mem := rfl
@[simp] theorem returnFromInterrupt_port  : (returnFromInterrupt s).port = s.port := rfl
@[simp] theorem returnFromInterrupt_sched  : (returnFromInterrupt s).sched = s.sched := rfl
@[simp] theorem returnFromInterrupt_tick  : (returnFromInterrupt s).tick = s.tick := rfl

@[simp] theorem State.setRd8_c (i : Half) (off : Nat) (v : Byte) : (s.setRd8 i off v).c = s.c := rfl
@[simp] theorem State.setRd8_others (i : Half) (off : Nat) (v : Byte) : (s.setRd8 i off v).others = s.others := rfl
@[simp] theorem State.setRd8_pool (i : Half) (off : Nat) (v : Byte) : (s.setRd8 i off v).pool = s.pool := rfl
@[simp] theorem State.setRd8_bufs (i : Half) (off : Nat) (v : Byte) : (s.setRd8 i off v).bufs = s.bufs := rfl
@[simp] theorem State.setRd8_free (i : Half) (off : Nat) (v : Byte) : (s.setRd8 i off v).free = s.free := rfl
@[simp] theorem State.setRd8_plock (i : Half) (off : Nat) (v : Byte) : (s.setRd8 i off v).plock = s.plock := rfl
@[simp] theorem State.setRd8_mem (i : Half) (off : Nat) (v : Byte) : (s.setRd8 i off v).mem = Mem.write8 s.mem (rdAddr s.c i off) v := rfl
@[simp] theorem State.setRd8_port (i : Half) (off : Nat) (v : Byte) : (s.setRd8 i off v).port = s.port := rfl
@[simp] theorem State.setRd8_sched (i : Half) (off : Nat) (v : Byte) : (s.setRd8 i off v).sched = s.sched := rfl
@[simp] theorem State.setRd8_tick (i : Half) (off : Nat) (v : Byte) : (s.setRd8 i off v).tick = s.tick := rfl

@[simp] theorem State.setRd16_c (i : Half) (off : Nat) (v : Half) : (s.setRd16 i off v).c = s.c := rfl
@[simp] theorem State.setRd16_others (i : Half) (off : Nat) (v : Half) : (s.setRd16 i off v).others = s.others := rfl
@[simp] theorem State.setRd16_pool (i : Half) (off : Nat) (v : Half) : (s.setRd16 i off v).pool = s.pool := rfl
@[simp] theorem State.setRd16_bufs (i : Half) (off : Nat) (v : Half) : (s.setRd16 i off v).bufs = s.bufs := rfl
@[simp] theorem State.setRd16_free (i : Half) (off : Nat) (v : Half) : (s.setRd16 i off v).free = s.free := rfl
@[simp] theorem State.setRd16_plock (i : Half) (off : Nat) (v : Half) : (s.setRd16 i off v).plock = s.plock := rfl
@[simp] theorem State.setRd16_mem (i : Half) (off : Nat) (v : Half) : (s.setRd16 i off v).mem = Mem.write16 s.mem (rdAddr s.c i off) v := rfl
@[simp] theorem State.setRd16_port (i : Half) (off : Nat) (v : Half) : (s.setRd16 i off v).port = s.port := rfl
@[simp] theorem State.setRd16_sched (i : Half) (off : Nat) (v : Half) : (s.setRd16 i off v).sched = s.sched := rfl
@[simp] theorem State.setRd16_tick (i : Half) (off : Nat) (v : Half) : (s.setRd16 i off v).tick = s.tick := rfl

@[simp] theorem State.setRd32_c (i : Half) (off : Nat) (v : Word) : (s.setRd32 i off v).c = s.c := rfl
@[simp] theorem State.setRd32_others (i : Half) (off : Nat) (v : Word) : (s.setRd32 i off v).others = s.others := rfl
@[simp] theorem State.setRd32_pool (i : Half) (off : Nat) (v : Word) : (s.setRd32 i off v).pool = s.pool := rfl
@[simp] theorem State.setRd32_bufs (i : Half) (off : Nat) (v : Word) : (s.setRd32 i off v).bufs = s.bufs := rfl
@[simp] theorem State.setRd32_free (i : Half) (off : Nat) (v : Word) : (s.setRd32 i off v).free = s.free := rfl
@[simp] theorem State.setRd32_plock (i : Half) (off : Nat) (v : Word) : (s.setRd32 i off v).plock = s.plock := rfl
@[simp] theorem State.setRd32_mem (i : Half) (off : Nat) (v : Word) : (s.setRd32 i off v).mem = Mem.write32 s.mem (rdAddr s.c i off) v := rfl
@[simp] theorem State.setRd32_port (i : Half) (off : Nat) (v : Word) : (s.setRd32 i off v).port = s.port := rfl
@[simp] theorem State.setRd32_sched (i : Half) (off : Nat) (v : Word) : (s.setRd32 i off v).sched = s.sched := rfl
@[simp] theorem State.setRd32_tick (i : Half) (off : Nat) (v : Word) : (s.setRd32 i off v).tick = s.tick := rfl

@[simp] theorem State.setTd32_c (i : Half) (off : Nat) (v : Word) : (s.setTd32 i off v).c = s.c := rfl
@[simp] theorem State.setTd32_others (i : Half) (off : Nat) (v : Word) : (s.setTd32 i off v).others = s.others := rfl
@[simp] theorem State.setTd32_pool (i : Half) (off : Nat) (v : Word) : (s.setTd32 i off v).pool = s.pool := rfl
@[simp] theorem State.setTd32_bufs (i : Half) (off : Nat) (v : Word) : (s.setTd32 i off v).bufs = s.bufs := rfl
@[simp] theorem State.setTd32_free (i : Half) (off : Nat) (v : Word) : (s.setTd32 i off v).free = s.free := rfl
@[simp] theorem State.setTd32_plock (i : Half) (off : Nat) (v : Word) : (s.setTd32 i off v).plock = s.plock := rfl
@[simp] theorem State.setTd32_mem (i : Half) (off : Nat) (v : Word) : (s.setTd32 i off v).mem = Mem.write32 s.mem (tdAddr s.c i off) v := rfl
@[simp] theorem State.setTd32_port (i : Half) (off : Nat) (v : Word) : (s.setTd32 i off v).port = s.port := rfl
@[simp] theorem State.setTd32_sched (i : Half) (off : Nat) (v : Word) : (s.setTd32 i off v).sched = s.sched := rfl
@[simp] theorem State.setTd32_tick (i : Half) (off : Nat) (v : Word) : (s.setTd32 i off v).tick = s.tick := rfl

/-! A mapped descriptor field (R8) is written as its chip's bits; the lemmas above say the rest. -/

@[simp] theorem State.setRxStatus_eq (i : Half) (v : Byte) :
    s.setRxStatus i v = s.setRd8 i offStatus (s.c.cfg.regMap.toChip8 .rxStatus v) := rfl
@[simp] theorem State.setRxErrors_eq (i : Half) (v : Byte) :
    s.setRxErrors i v = s.setRd8 i offErrors (s.c.cfg.regMap.toChip8 .rxErrors v) := rfl
@[simp] theorem State.setRxSpecial_eq (i : Half) (v : Half) :
    s.setRxSpecial i v = s.setRd16 i offSpecial (s.c.cfg.regMap.toChip16 .rxSpecial v) := rfl
@[simp] theorem State.setTxControl_eq (i : Half) (v : Word) :
    s.setTxControl i v = s.setTd32 i offControl (s.c.cfg.regMap.toChip .txControl v) := rfl
@[simp] theorem State.setTxStatus_eq (i : Half) (v : Word) :
    s.setTxStatus i v = s.setTd32 i offTxStatus (s.c.cfg.regMap.toChip .txStatus v) := rfl

end Sys2Proof.Machine
end

