-- ==== Sys2Proof/Laws/Memory.lean ====
section
/-! SUPPORT. DMA memory: read after write, and that every memory operation keeps the canonical form. -/

namespace Sys2Proof.Machine

/-! ## The canonical form -/

theorem Mem.wf_tail {p : Host.Cell} {m : List Host.Cell} (h : Mem.wf (p :: m) = true) : Mem.wf m = true := by
  obtain ⟨x, b⟩ := p
  cases m with
  | nil => rfl
  | cons q m => obtain ⟨y, c⟩ := q; simp only [Mem.wf, Bool.and_eq_true] at h; exact h.2

theorem Mem.wf_head {x : Nat} {b : Byte} {m : List Host.Cell} (h : Mem.wf ((x, b) :: m) = true) :
    b ≠ Mem.blank := by
  cases m with
  | nil => simpa [Mem.wf] using h
  | cons q m =>
    obtain ⟨y, c⟩ := q
    simp only [Mem.wf, Bool.and_eq_true, bne_iff_ne] at h
    exact h.1.2

/-- The first address of a memory, if it lists any, is above `x`. -/
def Mem.above (x : Nat) : List Host.Cell → Prop
  | [] => True
  | (y, _) :: _ => x < y

theorem Mem.wf_cons {x : Nat} {b : Byte} {m : List Host.Cell} :
    Mem.wf ((x, b) :: m) = true ↔ b ≠ Mem.blank ∧ Mem.above x m ∧ Mem.wf m = true := by
  cases m with
  | nil => simp [Mem.wf, Mem.above]
  | cons q m => obtain ⟨y, c⟩ := q; simp [Mem.wf, Mem.above]; tauto

/-- Below the first listed address everything reads as an unlisted address does. -/
theorem Mem.get_above {x : Nat} {m : List Host.Cell} (hw : Mem.wf m = true) (ha : Mem.above x m) :
    ∀ a ≤ x, Mem.get m a = Mem.blank := by
  induction m generalizing x with
  | nil => intro a _; rfl
  | cons p m ih =>
    obtain ⟨y, b⟩ := p
    intro a hax
    rw [Mem.wf_cons] at hw
    have hxy : x < y := ha
    simp only [Mem.get]
    rw [if_neg (by omega)]
    exact ih hw.2.2 hw.2.1 a (by omega)

theorem Mem.put_above {x a : Nat} {v : Byte} {m : List Host.Cell} (hm : Mem.above x m) (ha : x < a)
    (hw : Mem.wf m = true) : Mem.above x (Mem.put m a v) := by
  cases m with
  | nil => simp only [Mem.put]; split <;> simp [Mem.above, ha]
  | cons p m =>
    obtain ⟨y, b⟩ := p
    have hxy : x < y := hm
    have htail : Mem.above x m := by
      cases m with
      | nil => trivial
      | cons q m =>
        obtain ⟨z, c⟩ := q
        have := (Mem.wf_cons.mp hw).2.1
        simp only [Mem.above] at this ⊢
        omega
    simp only [Mem.put]
    split
    · split <;> simp [Mem.above, hxy, ha]
    · split
      · split
        · exact htail
        · simp [Mem.above, hxy]
      · simp [Mem.above, hxy]

/-- A write keeps the canonical form. -/
theorem Mem.put_wf {m : List Host.Cell} (a : Nat) (v : Byte) (h : Mem.wf m = true) :
    Mem.wf (Mem.put m a v) = true := by
  induction m with
  | nil => simp only [Mem.put]; split <;> simp_all [Mem.wf]
  | cons p m ih =>
    obtain ⟨y, b⟩ := p
    have hc := Mem.wf_cons.mp h
    simp only [Mem.put]
    split
    · split
      · exact h
      · exact Mem.wf_cons.mpr ⟨‹_›, ‹a < y›, h⟩
    · split
      · split
        · exact hc.2.2
        · exact Mem.wf_cons.mpr ⟨‹_›, hc.2.1, hc.2.2⟩
      · exact Mem.wf_cons.mpr ⟨hc.1, Mem.put_above hc.2.1 (by omega) hc.2.2, ih hc.2.2⟩

/-- Read after write. -/
theorem Mem.get_put {m : List Host.Cell} (h : Mem.wf m = true) (a x : Nat) (v : Byte) :
    Mem.get (Mem.put m a v) x = if x = a then v else Mem.get m x := by
  induction m with
  | nil =>
    simp only [Mem.put]
    split
    · simp_all [Mem.get]
    · simp only [Mem.get]
      by_cases hx : x = a
      · simp [hx]
      · rw [if_neg (Ne.symm hx), if_neg hx]
  | cons p m ih =>
    obtain ⟨y, b⟩ := p
    have hc := Mem.wf_cons.mp h
    simp only [Mem.put]
    split
    · rename_i hay
      split
      · rename_i hv
        by_cases hx : x = a
        · rw [if_pos hx, hv]; exact Mem.get_above (x := a) h hay x (by omega)
        · rw [if_neg hx]
      · simp only [Mem.get]
        by_cases hx : x = a
        · simp [hx]
        · rw [if_neg (Ne.symm hx), if_neg hx]
    · split
      · rename_i hay
        subst hay
        split
        · rename_i hv
          by_cases hx : x = a
          · rw [if_pos hx, hv]; exact Mem.get_above hc.2.2 hc.2.1 x (by omega)
          · rw [if_neg hx]; simp only [Mem.get]; rw [if_neg (Ne.symm hx)]
        · simp only [Mem.get]
          by_cases hx : x = a
          · simp [hx]
          · rw [if_neg (Ne.symm hx), if_neg (Ne.symm hx), if_neg hx]
      · simp only [Mem.get, ih hc.2.2]
        by_cases hx : x = a
        · subst hx; rw [if_pos rfl, if_neg (by omega), if_pos rfl]
        · rw [if_neg hx, if_neg hx]

/-! ## Accesses at physical addresses -/

@[simp] theorem Mem.write8_wf {m : List Host.Cell} (a : DWord) (v : Byte) (h : Mem.wf m = true) :
    Mem.wf (Mem.write8 m a v) = true := Mem.put_wf _ _ h

@[simp] theorem Mem.write16_wf {m : List Host.Cell} (a : DWord) (v : Half) (h : Mem.wf m = true) :
    Mem.wf (Mem.write16 m a v) = true := Mem.write8_wf _ _ (Mem.write8_wf _ _ h)

@[simp] theorem Mem.write32_wf {m : List Host.Cell} (a : DWord) (v : Word) (h : Mem.wf m = true) :
    Mem.wf (Mem.write32 m a v) = true := Mem.write16_wf _ _ (Mem.write16_wf _ _ h)

@[simp] theorem Mem.writeBytes_wf {m : List Host.Cell} (a : DWord) (bs : List Byte) (h : Mem.wf m = true) :
    Mem.wf (Mem.writeBytes m a bs) = true := by
  induction bs generalizing m a with
  | nil => exact h
  | cons b bs ih => exact ih _ (Mem.write8_wf _ _ h)

theorem Mem.read8_write8 {m : List Host.Cell} (h : Mem.wf m = true) (a x : DWord) (v : Byte) :
    Mem.read8 (Mem.write8 m a v) x = if x = a then v else Mem.read8 m x := by
  rw [Mem.read8, Mem.write8, Mem.get_put h]
  by_cases hx : x = a
  · simp [hx]
  · rw [if_neg (fun e => hx (BitVec.eq_of_toNat_eq e)), if_neg hx]; rfl

theorem Mem.read8_write16 {m : List Host.Cell} (h : Mem.wf m = true) (a x : DWord) (v : Half) :
    Mem.read8 (Mem.write16 m a v) x =
      if x = a + 1#64 then (v >>> 8).setWidth 8 else if x = a then v.setWidth 8 else Mem.read8 m x := by
  rw [Mem.write16, Mem.read8_write8 (Mem.write8_wf _ _ h), Mem.read8_write8 h]

theorem Mem.read8_write32 {m : List Host.Cell} (h : Mem.wf m = true) (a x : DWord) (v : Word) :
    Mem.read8 (Mem.write32 m a v) x =
      if x = a + 2#64 + 1#64 then (v >>> 16 >>> 8).setWidth 8
      else if x = a + 2#64 then (v >>> 16).setWidth 8
      else if x = a + 1#64 then (v >>> 8).setWidth 8
      else if x = a then v.setWidth 8 else Mem.read8 m x := by
  rw [Mem.write32, Mem.read8_write16 (Mem.write16_wf _ _ h), Mem.read8_write16 h]
  have e1 : (v.setWidth 16 >>> 8).setWidth 8 = (v >>> 8).setWidth 8 := by ext i hi; simp; intros; omega
  have e2 : (v.setWidth 16).setWidth 8 = v.setWidth 8 := by ext i hi; simp
  have e3 : ((v >>> 16).setWidth 16 >>> 8).setWidth 8 = (v >>> 16 >>> 8).setWidth 8 := by
    ext i hi
    have h16 : 8 + i < 16 := by omega
    simp [h16, show 16 + (8 + i) = 24 + i by omega]
  have e4 : ((v >>> 16).setWidth 16).setWidth 8 = (v >>> 16).setWidth 8 := by ext i hi; simp
  rw [e1, e2, e3, e4]

/-- A byte outside the four written reads as before. -/
theorem Mem.read8_write32_outside {m : List Host.Cell} (h : Mem.wf m = true) (a x : DWord) (v : Word)
    (hx : 4 ≤ (x - a).toNat) : Mem.read8 (Mem.write32 m a v) x = Mem.read8 m x := by
  rw [Mem.read8_write32 h, if_neg, if_neg, if_neg, if_neg] <;> (rintro rfl; revert hx; bv_omega)

theorem Mem.read8_write16_outside {m : List Host.Cell} (h : Mem.wf m = true) (a x : DWord) (v : Half)
    (hx : 2 ≤ (x - a).toNat) : Mem.read8 (Mem.write16 m a v) x = Mem.read8 m x := by
  rw [Mem.read8_write16 h, if_neg, if_neg] <;> (rintro rfl; revert hx; bv_omega)

/-- A half word and a word read back as written. -/
theorem Mem.read16_write16 {m : List Host.Cell} (h : Mem.wf m = true) (a : DWord) (v : Half) :
    Mem.read16 (Mem.write16 m a v) a = v := by
  have h1 : a ≠ a + 1#64 := by bv_omega
  simp only [Mem.read16, Mem.read8_write16 h, if_true, if_neg h1]
  ext i hi
  simp only [BitVec.getElem_append, BitVec.getElem_setWidth, BitVec.getLsbD_ushiftRight]
  split
  · exact BitVec.getLsbD_eq_getElem hi
  · rw [show 8 + (i - 8) = i by omega]; exact BitVec.getLsbD_eq_getElem hi

theorem Mem.read32_write32 {m : List Host.Cell} (h : Mem.wf m = true) (a : DWord) (v : Word) :
    Mem.read32 (Mem.write32 m a v) a = v := by
  have h1 : a ≠ a + 1#64 := by bv_omega
  have h2 : a ≠ a + 2#64 := by bv_omega
  have h3 : a ≠ a + 2#64 + 1#64 := by bv_omega
  have h4 : a + 1#64 ≠ a + 2#64 := by bv_omega
  have h5 : a + 1#64 ≠ a + 2#64 + 1#64 := by bv_omega
  have h6 : a + 2#64 ≠ a + 2#64 + 1#64 := by bv_omega
  simp only [Mem.read32, Mem.read16, Mem.read8_write32 h, if_true, if_neg h1, if_neg h2, if_neg h3, if_neg h4,
    if_neg h5, if_neg h6]
  ext i hi
  simp only [BitVec.getElem_append, BitVec.getElem_setWidth, BitVec.getLsbD_ushiftRight]
  split
  · split
    · exact BitVec.getLsbD_eq_getElem hi
    · rw [show 8 + (i - 8) = i by omega]; exact BitVec.getLsbD_eq_getElem hi
  · split
    · rw [show 16 + (i - 16) = i by omega]; exact BitVec.getLsbD_eq_getElem hi
    · rw [show 16 + (8 + (i - 16 - 8)) = i by omega]; exact BitVec.getLsbD_eq_getElem hi

end Sys2Proof.Machine
end

