-- ==== Sys2Proof/Laws/Ops.lean ====
section
/-! SUPPORT. What each shared operation can do, said once: if it gives a next state, which one. -/

namespace Sys2Proof.Machine

variable {s t : State}

theorem acquireM_go {a : AgentId} {k : State → State} (h : acquireM s a k = .go t) :
    s.c.mlock = none ∧ t = k (s.modC fun c => { c with mlock := some a }) := by
  unfold acquireM at h
  split at h
  · exact ⟨‹_›, (StepRes.go.inj h).symm⟩
  · cases h

theorem acquireT_go {a : AgentId} {k : State → State} (h : acquireT s a k = .go t) :
    s.c.tlock = none ∧ t = k (s.modC fun c => { c with tlock := some a }) := by
  unfold acquireT at h
  split at h
  · exact ⟨‹_›, (StepRes.go.inj h).symm⟩
  · cases h

theorem acquireS_go (h : acquireS s = .go t) :
    s.c.slock = none ∧ t = s.modC fun c => { c with slock := some .lc, lcCtl := .u2 0 } := by
  unfold acquireS at h
  split at h
  · exact ⟨‹_›, (StepRes.go.inj h).symm⟩
  · cases h

/-- ARM (R280). -/
theorem armStep_go {a : AgentId} {cls : Word} {p : ArmPc} {jump : ArmPc → State → State} {done : State → State}
    (h : armStep s a cls p jump done = .go t) :
    (p = .m1 ∧ s.c.mlock = none ∧ t = jump .m2 (s.modC fun c => { c with mlock := some a }))
      ∨ (p = .m2 ∧ t = jump .m3 (s.modC fun c => { c with im := c.im ||| cls }))
      ∨ (p = .m3 ∧ t = jump .m4 (mmioWrite s .ims s.c.im))
      ∨ (p = .m4 ∧ t = done (releaseM s)) := by
  cases p with
  | m1 => exact .inl ⟨rfl, acquireM_go h⟩
  | m2 => exact .inr (.inl ⟨rfl, (StepRes.go.inj h).symm⟩)
  | m3 => exact .inr (.inr (.inl ⟨rfl, (StepRes.go.inj h).symm⟩))
  | m4 => exact .inr (.inr (.inr ⟨rfl, (StepRes.go.inj h).symm⟩))

/-- WAKE (R281). -/
theorem wakeStep_go {a : AgentId} {p : WakePc} {take : State → State} {jump : WakePc → State → State}
    {done : State → State} (h : wakeStep s a p take jump done = .go t) :
    (p = .k1 ∧ s.c.mlock = none ∧ t = jump .k2 (s.modC fun c => { c with mlock := some a }))
      ∨ (p = .k2 ∧ t = jump .k3 (take s)) ∨ (p = .k3 ∧ t = done (releaseM s)) := by
  cases p with
  | k1 => exact .inl ⟨rfl, acquireM_go h⟩
  | k2 => exact .inr (.inl ⟨rfl, (StepRes.go.inj h).symm⟩)
  | k3 => exact .inr (.inr ⟨rfl, (StepRes.go.inj h).symm⟩)

/-- HANDSHAKE (R324). -/
theorem hsStep_go {r : Reg} {req : Word} {err cpl : Word → Bool} {p : HsPc} {jump : HsPc → State → State}
    {done : Bool → Word → State → State} (h : hsStep s r req err cpl p jump done = .go t) :
    (p = .h1 ∧ t = jump (.h3 1) (mmioWrite s r req))
      ∨ (∃ i, p = .h3 i ∧ (t = done false sentinel (mmioRead s r).2
          ∨ (err (regRead s.c.regs r) = false ∧ cpl (regRead s.c.regs r) = true
              ∧ t = done true (regRead s.c.regs r) (mmioRead s r).2)
          ∨ t = jump (.h7 i) (mmioRead s r).2))
      ∨ (∃ i, p = .h7 i ∧ t = jump (.h3 (i + 1)) s) := by
  cases p with
  | h1 => exact .inl ⟨rfl, (StepRes.go.inj h).symm⟩
  | h3 i =>
    refine .inr (.inl ⟨i, rfl, ?_⟩)
    simp only [hsStep, mmioRead_value] at h
    cases he : err (regRead s.c.regs r) with
    | true => exact .inl (StepRes.go.inj (by simpa [he] using h)).symm
    | false =>
      cases hc : cpl (regRead s.c.regs r) with
      | true => exact .inr (.inl ⟨rfl, rfl, (StepRes.go.inj (by simpa [he, hc] using h)).symm⟩)
      | false =>
        by_cases hi : i = hsCeil
        · exact .inl (StepRes.go.inj (by simpa [he, hc, hi] using h)).symm
        · exact .inr (.inr (StepRes.go.inj (by simpa [he, hc, hi] using h)).symm)
  | h7 i => exact .inr (.inr ⟨i, rfl, (StepRes.go.inj h).symm⟩)

/-- PoolPop (R301): a free buffer leaves the pool for its new owner in the same step. -/
theorem poolPop_some {draw : Nat} {o : Owner} {b : BufId} (h : poolPop s draw o = some (b, t)) :
    b ∈ s.free ∧ t = ({ s with free := s.free.eraseIdx (draw % s.free.length), plock := none }).modBuf b
      (Buf.setOwner o) := by
  unfold poolPop at h
  split at h
  · cases h
  · rename_i x hx
    obtain ⟨rfl, rfl⟩ := Prod.mk.inj (Option.some.inj h)
    exact ⟨List.mem_of_getElem? hx, rfl⟩

/-- `PoolPop` fails exactly on an empty pool. -/
theorem poolPop_none {draw : Nat} {o : Owner} : poolPop s draw o = none ↔ s.free = [] := by
  unfold poolPop
  split
  · rename_i h
    simp only [true_iff]
    by_contra hne
    rw [List.getElem?_eq_none_iff] at h
    have hl : 0 < s.free.length := List.length_pos_iff.mpr hne
    have := Nat.mod_lt draw hl
    omega
  · rename_i x h
    simp only [reduceCtorEq, false_iff]
    rintro he
    rw [he] at h
    simp at h

/-- RELEASE (R305): to the pool, to the host, or (no such buffer) nothing. -/
theorem releaseBuf_cases (s : State) (b : BufId) :
    releaseBuf s b = poolPush s b ∨ releaseBuf s b = s.modBuf b (Buf.setOwner .host) ∨ releaseBuf s b = s := by
  unfold releaseBuf
  split
  · split
    · exact .inl rfl
    · exact .inr (.inl rfl)
  · exact .inr (.inr rfl)

/-- REPLENISH (R220). -/
theorem repStep_go {p : RepPc} {draw : Nat} {jump : RepPc → State → State} {done : State → State}
    (h : repStep s p draw jump done = .go t) :
    (p = .r2 ∧ t = jump .r9 (s.emit (.rxSlotBusy s.c.rdt)))
      ∨ (p = .r3 ∧ s.free = [] ∧ t = jump .r4 { s with plock := none })
      ∨ (p = .r3 ∧ ∃ b u, poolPop s draw (.rxSlot s.c.id s.c.rdt) = some (b, u)
          ∧ t = jump (.r5 b) (u.modC fun c => { c with rb := c.rb.set c.rdt.toNat (some b) }))
      ∨ (p = .r4 ∧ t = jump .r9 (s.emit .rxPoolEmpty))
      ∨ (∃ b, p = .r5 b ∧ t = jump (.r6 b) (s.modBuf b Buf.resetCursors))
      ∨ (∃ b r, p = .r6 b ∧ s.buf? b = some r
          ∧ t = jump (.r7 b) (s.setRd32 s.c.rdt offAddrLo (addrLoWord (r.pa 0#32))))
      ∨ (∃ b r, p = .r7 b ∧ s.buf? b = some r
          ∧ t = jump (.r8 b) (s.setRd32 s.c.rdt offAddrHi (addrHiWord (r.pa 0#32))))
      ∨ (∃ b u, p = .r8 b ∧ u = ((s.setRd8 s.c.rdt offStatus 0#8).modC fun c =>
            { c with rdfree := c.rdfree + 1#16, rdt := ringNext c.rdt c.cfg.nrd })
          ∧ t = jump (repNext u.c) u)
      ∨ (p = .r9 ∧ t = done (mmioWrite s .rdt (s.c.rdt.setWidth 32))) := by
  cases p <;> simp only [repStep] at h
  case r2 => cases h; simp
  case r3 =>
    split at h
    · rename_i hp; cases h; simp [poolPop_none.mp hp]
    · rename_i b u hp; cases h; simp only [reduceCtorEq, false_and, true_and, exists_false, false_or, or_false]
      exact .inr ⟨b, u, hp, rfl⟩
  case r4 => cases h; simp
  case r5 b => cases h; simp
  case r6 b =>
    split at h
    · cases h
    · rename_i r hr; cases h; simp [hr]
  case r7 b =>
    split at h
    · cases h
    · rename_i r hr; cases h; simp [hr]
  case r8 b => cases h; simp
  case r9 => cases h; simp

end Sys2Proof.Machine
end

