-- ==== Sys2Proof/Laws/Kept.lean ====
section
/-! SUPPORT. What no agent's step ever changes (the other controllers, the parameters, identifiers, ring addresses,
the schedule), and that it keeps the memory's canonical form. -/

namespace Sys2Proof.Machine

/-- What every agent's step keeps. -/
structure Kept (s t : State) : Prop where
  others : t.others = s.others
  pool : t.pool = s.pool
  port : t.port = s.port
  sched : t.sched = s.sched
  tick : t.tick = s.tick
  ident : t.c.id = s.c.id
  cfg : t.c.cfg = s.c.cfg
  rdba : t.c.rdba = s.c.rdba
  tdba : t.c.tdba = s.c.tdba
  mem : Mem.wf s.mem = true → Mem.wf t.mem = true

namespace Kept

variable {s t u : State}

theorem refl (s : State) : Kept s s := ⟨rfl, rfl, rfl, rfl, rfl, rfl, rfl, rfl, rfl, id⟩

theorem trans (h : Kept s t) (k : Kept t u) : Kept s u :=
  ⟨k.others.trans h.others, k.pool.trans h.pool, k.port.trans h.port, k.sched.trans h.sched, k.tick.trans h.tick,
    k.ident.trans h.ident, k.cfg.trans h.cfg, k.rdba.trans h.rdba, k.tdba.trans h.tdba, fun m => k.mem (h.mem m)⟩

/-- An update of the selected controller that leaves its parameters alone. -/
theorem modC {f : Ctlr → Ctlr} (h1 : (f s.c).id = s.c.id) (h2 : (f s.c).cfg = s.c.cfg)
    (h3 : (f s.c).rdba = s.c.rdba) (h4 : (f s.c).tdba = s.c.tdba) : Kept s (s.modC f) :=
  ⟨rfl, rfl, rfl, rfl, rfl, h1, h2, h3, h4, id⟩

theorem emit (e : TraceEv) : Kept s (s.emit e) := ⟨rfl, rfl, rfl, rfl, rfl, rfl, rfl, rfl, rfl, id⟩
theorem modBuf (b : BufId) (f : Buf → Buf) : Kept s (s.modBuf b f) := ⟨rfl, rfl, rfl, rfl, rfl, rfl, rfl, rfl, rfl, id⟩
theorem mmioWrite (r : Reg) (v : Word) : Kept s (Machine.mmioWrite s r v) :=
  ⟨rfl, rfl, rfl, rfl, rfl, rfl, rfl, rfl, rfl, id⟩
theorem mmioRead (r : Reg) : Kept s (Machine.mmioRead s r).2 := ⟨rfl, rfl, rfl, rfl, rfl, rfl, rfl, rfl, rfl, id⟩
theorem releaseM : Kept s (Machine.releaseM s) := ⟨rfl, rfl, rfl, rfl, rfl, rfl, rfl, rfl, rfl, id⟩
theorem releaseT : Kept s (Machine.releaseT s) := ⟨rfl, rfl, rfl, rfl, rfl, rfl, rfl, rfl, rfl, id⟩
theorem raiseFault (r : FaultRec) : Kept s (Machine.raiseFault s r) := ⟨rfl, rfl, rfl, rfl, rfl, rfl, rfl, rfl, rfl, id⟩
theorem finishLc (st : Status) : Kept s (Machine.finishLc s st) := ⟨rfl, rfl, rfl, rfl, rfl, rfl, rfl, rfl, rfl, id⟩
theorem fatal (r : FaultRec) : Kept s (Machine.fatal s r) := ⟨rfl, rfl, rfl, rfl, rfl, rfl, rfl, rfl, rfl, id⟩
theorem poolPush (b : BufId) : Kept s (Machine.poolPush s b) := ⟨rfl, rfl, rfl, rfl, rfl, rfl, rfl, rfl, rfl, id⟩
theorem setDisp (f : Disp → Disp) : Kept s (Machine.setDisp s f) := ⟨rfl, rfl, rfl, rfl, rfl, rfl, rfl, rfl, rfl, id⟩
theorem setRxw (f : RxWorker → RxWorker) : Kept s (Machine.setRxw s f) :=
  ⟨rfl, rfl, rfl, rfl, rfl, rfl, rfl, rfl, rfl, id⟩
theorem rxwJump (x : RxCtl) : Kept s (Machine.rxwJump x s) := ⟨rfl, rfl, rfl, rfl, rfl, rfl, rfl, rfl, rfl, id⟩
theorem txwJump (x : TxwCtl) : Kept s (Machine.txwJump x s) := ⟨rfl, rfl, rfl, rfl, rfl, rfl, rfl, rfl, rfl, id⟩
theorem lnkJump (x : LnkCtl) : Kept s (Machine.lnkJump x s) := ⟨rfl, rfl, rfl, rfl, rfl, rfl, rfl, rfl, rfl, id⟩
theorem lcJump (x : LcCtl) : Kept s (Machine.lcJump x s) := ⟨rfl, rfl, rfl, rfl, rfl, rfl, rfl, rfl, rfl, id⟩
theorem txcJump (k : Nat) (r : TxRun) : Kept s (Machine.txcJump k r s) :=
  ⟨rfl, rfl, rfl, rfl, rfl, rfl, rfl, rfl, rfl, id⟩
theorem txcEnd (k : Nat) : Kept s (Machine.txcEnd k s) := ⟨rfl, rfl, rfl, rfl, rfl, rfl, rfl, rfl, rfl, id⟩
theorem setRd8 (i : Half) (o : Nat) (v : Byte) : Kept s (s.setRd8 i o v) :=
  ⟨rfl, rfl, rfl, rfl, rfl, rfl, rfl, rfl, rfl, Mem.write8_wf _ _⟩
theorem setRd16 (i : Half) (o : Nat) (v : Half) : Kept s (s.setRd16 i o v) :=
  ⟨rfl, rfl, rfl, rfl, rfl, rfl, rfl, rfl, rfl, Mem.write16_wf _ _⟩
theorem setRd32 (i : Half) (o : Nat) (v : Word) : Kept s (s.setRd32 i o v) :=
  ⟨rfl, rfl, rfl, rfl, rfl, rfl, rfl, rfl, rfl, Mem.write32_wf _ _⟩
theorem setTd32 (i : Half) (o : Nat) (v : Word) : Kept s (s.setTd32 i o v) :=
  ⟨rfl, rfl, rfl, rfl, rfl, rfl, rfl, rfl, rfl, Mem.write32_wf _ _⟩

theorem setTxControl (i : Half) (v : Word) : Kept s (s.setTxControl i v) := setTd32 _ _ _

theorem releaseBuf (b : BufId) : Kept s (Machine.releaseBuf s b) := by
  rcases releaseBuf_cases s b with h | h | h <;> rw [h]
  · exact poolPush b
  · exact modBuf b _
  · exact refl s

theorem releaseTx (b : BufId) : Kept s (Machine.releaseTx s b) := (releaseBuf b).trans (emit _)

theorem poolPop {draw : Nat} {o : Owner} {b : BufId} (h : Machine.poolPop s draw o = some (b, t)) : Kept s t := by
  obtain ⟨-, rfl⟩ := poolPop_some h
  exact ⟨rfl, rfl, rfl, rfl, rfl, rfl, rfl, rfl, rfl, id⟩

/-! ## Routines an agent calls -/

theorem armStep {a : AgentId} {cls : Word} {p : ArmPc} {jump : ArmPc → State → State} {done : State → State}
    (hj : ∀ q v, Kept v (jump q v)) (hd : ∀ v, Kept v (done v)) (h : Machine.armStep s a cls p jump done = .go t) :
    Kept s t := by
  rcases armStep_go h with ⟨-, -, rfl⟩ | ⟨-, rfl⟩ | ⟨-, rfl⟩ | ⟨-, rfl⟩
  · exact (modC rfl rfl rfl rfl).trans (hj _ _)
  · exact (modC rfl rfl rfl rfl).trans (hj _ _)
  · exact (mmioWrite _ _).trans (hj _ _)
  · exact releaseM.trans (hd _)

theorem wakeStep {a : AgentId} {p : WakePc} {take : State → State} {jump : WakePc → State → State}
    {done : State → State} (ht : ∀ v, Kept v (take v)) (hj : ∀ q v, Kept v (jump q v)) (hd : ∀ v, Kept v (done v))
    (h : Machine.wakeStep s a p take jump done = .go t) : Kept s t := by
  rcases wakeStep_go h with ⟨-, -, rfl⟩ | ⟨-, rfl⟩ | ⟨-, rfl⟩
  · exact (modC rfl rfl rfl rfl).trans (hj _ _)
  · exact (ht _).trans (hj _ _)
  · exact releaseM.trans (hd _)

theorem hsStep {r : Reg} {req : Word} {err cpl : Word → Bool} {p : HsPc} {jump : HsPc → State → State}
    {done : Bool → Word → State → State} (hj : ∀ q v, Kept v (jump q v)) (hd : ∀ ok w v, Kept v (done ok w v))
    (h : Machine.hsStep s r req err cpl p jump done = .go t) : Kept s t := by
  rcases hsStep_go h with ⟨-, rfl⟩ | ⟨i, -, rfl | ⟨-, -, rfl⟩ | rfl⟩ | ⟨i, -, rfl⟩
  · exact (mmioWrite _ _).trans (hj _ _)
  · exact (mmioRead _).trans (hd _ _ _)
  · exact (mmioRead _).trans (hd _ _ _)
  · exact (mmioRead _).trans (hj _ _)
  · exact hj _ _

theorem repStep {p : RepPc} {draw : Nat} {jump : RepPc → State → State} {done : State → State}
    (hj : ∀ q v, Kept v (jump q v)) (hd : ∀ v, Kept v (done v)) (h : Machine.repStep s p draw jump done = .go t) :
    Kept s t := by
  rcases repStep_go h with ⟨-, rfl⟩ | ⟨-, -, rfl⟩ | ⟨-, b, u, hp, rfl⟩ | ⟨-, rfl⟩ | ⟨b, -, rfl⟩ | ⟨b, r, -, -, rfl⟩ |
    ⟨b, r, -, -, rfl⟩ | ⟨b, u, -, rfl, rfl⟩ | ⟨-, rfl⟩
  · exact (emit _).trans (hj _ _)
  · exact (Kept.mk (s := s) (t := { s with plock := none }) rfl rfl rfl rfl rfl rfl rfl rfl rfl id).trans (hj _ _)
  · exact ((poolPop hp).trans (modC rfl rfl rfl rfl)).trans (hj _ _)
  · exact (emit _).trans (hj _ _)
  · exact (modBuf _ _).trans (hj _ _)
  · exact (setRd32 _ _ _).trans (hj _ _)
  · exact (setRd32 _ _ _).trans (hj _ _)
  · exact ((setRd8 _ _ _).trans (modC rfl rfl rfl rfl)).trans (hj _ _)
  · exact (mmioWrite _ _).trans (hd _)

end Kept

/-! ## The agents -/

variable {s t : State}

theorem dispRead_kept (s : State) : Kept s (dispRead s) := by
  unfold dispRead
  exact (Kept.mmioRead _).trans (Kept.setDisp _)

theorem dispStep_kept (h : dispStep s = .go t) : Kept s t := by
  unfold dispStep at h
  split at h
  · split at h
    · cases h; unfold takeInterrupt; split
      · exact Kept.modC rfl rfl rfl rfl
      · exact Kept.refl _
    · cases h
  · obtain ⟨-, rfl⟩ := acquireM_go h
    exact (Kept.modC rfl rfl rfl rfl).trans (Kept.setDisp _)
  all_goals cases h
  · exact (Kept.mmioWrite _ _).trans (Kept.setDisp _)
  · exact (Kept.setDisp _).trans (dispRead_kept _)
  · exact dispRead_kept _
  · exact Kept.modC rfl rfl rfl rfl
  · exact Kept.modC rfl rfl rfl rfl
  · exact Kept.modC rfl rfl rfl rfl
  · exact Kept.modC rfl rfl rfl rfl
  · exact (Kept.mmioWrite _ _).trans (Kept.setDisp _)
  · exact Kept.releaseM.trans (Kept.modC rfl rfl rfl rfl)

theorem lnkDecode_kept (s : State) (v : Half) : Kept s (lnkDecode s v) := by
  unfold lnkDecode
  exact Kept.modC rfl rfl rfl rfl

theorem lnkCount_kept (s : State) (up : Bool) (idx : Fin 4) : Kept s (lnkCount s up idx) :=
  ⟨rfl, rfl, rfl, rfl, rfl, rfl, rfl, rfl, rfl, id⟩

theorem lnkStep_kept (h : lnkStep s = .go t) : Kept s t := by
  unfold lnkStep at h
  split at h
  · cases h
  · exact Kept.hsStep (fun _ _ => Kept.lnkJump _) (fun _ _ _ => Kept.lnkJump _) h
  · cases h; exact (Kept.emit _).trans (Kept.lnkJump _)
  · obtain rfl := StepRes.go.inj h; exact lnkDecode_kept _ _
  · cases h; exact (lnkCount_kept _ _ _).trans (Kept.lnkJump _)
  · obtain ⟨-, rfl⟩ := acquireM_go h
    exact (Kept.modC rfl rfl rfl rfl).trans (Kept.lnkJump _)
  · cases h; exact (Kept.modC rfl rfl rfl rfl).trans (Kept.lnkJump _)
  · cases h; exact Kept.releaseM.trans (Kept.lnkJump _)
  · exact Kept.armStep (fun _ _ => Kept.lnkJump _) (fun _ => Kept.lnkJump _) h
  · split at h
    · cases h
    · cases h; exact Kept.lnkJump _
  · exact Kept.wakeStep (fun _ => Kept.modC rfl rfl rfl rfl) (fun _ _ => Kept.lnkJump _)
      (fun _ => Kept.lnkJump _) h

theorem rxwStep_kept {draw : Nat} (h : rxwStep s draw = .go t) : Kept s t := by
  unfold rxwStep at h
  simp only at h
  split at h
  · cases h
  · exact Kept.armStep (fun _ _ => Kept.rxwJump _) (fun _ => Kept.rxwJump _) h
  · split at h
    · cases h
    · cases h; exact Kept.rxwJump _
  · exact Kept.wakeStep (fun _ => Kept.modC rfl rfl rfl rfl) (fun _ _ => Kept.rxwJump _) (fun _ => Kept.setRxw _) h
  · split at h <;> (cases h; exact Kept.setRxw _)
  · split at h
    · cases h; exact (Kept.raiseFault _).trans (Kept.rxwJump _)
    · cases h; exact Kept.setRxw _
  · cases h; exact Kept.setRxw _
  · split at h
    · cases h
    · split at h
      · cases h; exact (Kept.raiseFault _).trans (Kept.rxwJump _)
      · cases h; exact (Kept.modBuf _ _).trans (Kept.rxwJump _)
  · cases h; exact (Kept.modBuf _ _).trans (Kept.rxwJump _)
  · cases h
    exact (((Kept.modC rfl rfl rfl rfl).trans (Kept.modBuf _ _)).trans (Kept.emit _)).trans (Kept.rxwJump _)
  · cases h
    exact (((Kept.modC rfl rfl rfl rfl).trans (Kept.poolPush _)).trans (Kept.emit _)).trans (Kept.rxwJump _)
  · cases h; exact (Kept.setRd8 _ _ _).trans (Kept.rxwJump _)
  · cases h; exact ((Kept.setRd8 _ _ _).trans (Kept.modC rfl rfl rfl rfl)).trans (Kept.rxwJump _)
  · exact Kept.repStep (fun _ _ => Kept.rxwJump _) (fun _ => Kept.setRxw _) h
  · exact Kept.repStep (fun _ _ => Kept.rxwJump _) (fun _ => Kept.rxwJump _) h
  · cases h
  · cases h

theorem txReclaim_kept (s : State) : Kept s (txReclaim s) := by
  unfold txReclaim
  split
  · exact (Kept.modC rfl rfl rfl rfl).trans (Kept.releaseTx _)
  · exact Kept.emit _

theorem txStep_kept {a : AgentId} {r : TxRun} {jump : TxRun → State → State} {done : State → State}
    (hj : ∀ q v, Kept v (jump q v)) (hd : ∀ v, Kept v (done v)) (h : txStep s a r jump done = .go t) : Kept s t := by
  unfold txStep at h
  split at h
  · obtain ⟨-, rfl⟩ := acquireT_go h
    exact (Kept.modC rfl rfl rfl rfl).trans (hj _ _)
  · split at h <;> (cases h; exact hj _ _)
  · cases h; exact (txReclaim_kept _).trans (hj _ _)
  · cases h; exact ((Kept.setTd32 _ _ _).trans (Kept.modC rfl rfl rfl rfl)).trans (hj _ _)
  · split at h
    · cases h; exact hj _ _
    · cases h; exact ((Kept.modC rfl rfl rfl rfl).trans (Kept.modBuf _ _)).trans (hj _ _)
  · split at h
    · cases h
    · split at h
      · cases h; exact (Kept.setTd32 _ _ _).trans (hj _ _)
      · cases h; exact (Kept.raiseFault _).trans (hj _ _)
  · split at h
    · cases h
    · cases h; exact (Kept.setTd32 _ _ _).trans (hj _ _)
  · split at h
    · cases h
    · cases h; exact (Kept.setTxControl _ _).trans (hj _ _)
  · cases h; exact (Kept.modC rfl rfl rfl rfl).trans (hj _ _)
  · split at h <;> (cases h; exact hj _ _)
  · exact Kept.armStep (fun _ _ => hj _ _) (fun _ => hj _ _) h
  · cases h; exact (Kept.emit _).trans (hj _ _)
  · cases h; exact (Kept.mmioWrite _ _).trans (hj _ _)
  · cases h; exact Kept.releaseT.trans (hd _)
  · cases h

theorem txwStep_kept (h : txwStep s = .go t) : Kept s t := by
  unfold txwStep at h
  split at h
  · cases h
  · exact Kept.armStep (fun _ _ => Kept.txwJump _) (fun _ => Kept.txwJump _) h
  · split at h
    · cases h; exact Kept.txwJump _
    · cases h
  · exact Kept.wakeStep (fun _ => Kept.modC rfl rfl rfl rfl) (fun _ _ => Kept.txwJump _) (fun _ => Kept.txwJump _) h
  · exact txStep_kept (fun _ _ => Kept.txwJump _) (fun _ => Kept.txwJump _) h

theorem txcStep_kept {k : Nat} (h : txcStep s k = .go t) : Kept s t := by
  unfold txcStep at h
  split at h
  · cases h
  · exact txStep_kept (fun _ _ => Kept.txcJump _ _) (fun _ => Kept.txcEnd _) h

theorem zeroRd_kept (s : State) (i : Half) (f : Nat) : Kept s (zeroRd s i f) := by
  unfold zeroRd
  split
  · exact Kept.setRd32 _ _ _
  · exact Kept.setRd32 _ _ _
  · exact Kept.setRd16 _ _ _
  · exact Kept.setRd16 _ _ _
  · exact Kept.setRd8 _ _ _
  · exact Kept.setRd8 _ _ _
  · exact Kept.setRd16 _ _ _

theorem zeroTd_kept (s : State) (i : Half) (f : Nat) : Kept s (zeroTd s i f) := by
  unfold zeroTd
  split <;> exact Kept.setTd32 _ _ _

theorem lcFreeRx_kept (s : State) (i : Nat) : Kept s (lcFreeRx s i) := by
  unfold lcFreeRx
  split
  · exact (Kept.modC rfl rfl rfl rfl).trans (Kept.poolPush _)
  · exact Kept.refl _

theorem lcFreeTx_kept (s : State) (i : Nat) : Kept s (lcFreeTx s i) := by
  unfold lcFreeTx
  split
  · exact (Kept.modC rfl rfl rfl rfl).trans (Kept.releaseTx _)
  · exact Kept.refl _

theorem lcEeDone_kept (w : Nat) (ok : Bool) (v : Word) (s : State) : Kept s (lcEeDone w ok v s) := by
  unfold lcEeDone
  split
  · exact Kept.modC rfl rfl rfl rfl
  · exact Kept.lcJump _

theorem eeReadStep_kept {w : Nat} {p : HsPc} {jump : HsPc → State → State} {done : Bool → Word → State → State}
    (hj : ∀ q v, Kept v (jump q v)) (hd : ∀ ok w v, Kept v (done ok w v))
    (h : eeReadStep s w p jump done = .go t) : Kept s t := by
  unfold eeReadStep at h
  exact Kept.hsStep hj hd h

theorem lcChecksum_kept (s : State) : Kept s (lcChecksum s) := by
  unfold lcChecksum
  simp only
  split
  · exact Kept.modC rfl rfl rfl rfl
  · exact Kept.fatal _

theorem lcCounter_kept (s : State) (k : Nat) : Kept s (lcCounter s k) := by
  unfold lcCounter
  exact (Kept.mmioRead _).trans (Kept.modC rfl rfl rfl rfl)

theorem lcStep_kept {draw : Nat} (h : lcStep s draw = .go t) : Kept s t := by
  cases hc : s.c.lcCtl <;> simp only [lcStep, hc] at h
  case idle =>
    cases h
  case a1 =>
    split at h <;> cases h
    · exact (Kept.mmioWrite _ _).trans (Kept.lcJump _)
    · exact Kept.lcJump _
  case a2 =>
    obtain rfl := StepRes.go.inj h; exact (Kept.mmioWrite _ _).trans (Kept.lcJump _)
  case a3 =>
    obtain rfl := StepRes.go.inj h; exact (Kept.mmioWrite _ _).trans (Kept.lcJump _)
  case a4 =>
    obtain rfl := StepRes.go.inj h; exact (Kept.mmioWrite _ _).trans (Kept.lcJump _)
  case rmwR w =>
    obtain rfl := StepRes.go.inj h; exact (Kept.mmioRead _).trans (Kept.lcJump _)
  case rmwW w v =>
    obtain rfl := StepRes.go.inj h; exact (Kept.mmioWrite _ _).trans (Kept.lcJump _)
  case pollR p i =>
    obtain rfl := StepRes.go.inj h; exact (Kept.mmioRead _).trans (Kept.lcJump _)
  case pollD p i =>
    obtain rfl := StepRes.go.inj h; exact Kept.lcJump _
  case fatal r =>
    obtain rfl := StepRes.go.inj h; exact Kept.fatal _
  case b0 =>
    obtain rfl := StepRes.go.inj h; exact Kept.modC rfl rfl rfl rfl
  case b1 w q =>
    exact eeReadStep_kept (fun _ _ => Kept.lcJump _) (fun _ _ _ => lcEeDone_kept _ _ _ _) h
  case b2 =>
    obtain rfl := StepRes.go.inj h; exact lcChecksum_kept _
  case b3 =>
    obtain rfl := StepRes.go.inj h; exact (Kept.mmioRead _).trans (Kept.modC rfl rfl rfl rfl)
  case c1 n hi =>
    cases hi <;> (obtain rfl := StepRes.go.inj h; exact (Kept.mmioWrite _ _).trans (Kept.lcJump _))
  case c2 hi =>
    cases hi <;> (obtain rfl := StepRes.go.inj h; exact (Kept.mmioWrite _ _).trans (Kept.lcJump _))
  case c3 k =>
    obtain rfl := StepRes.go.inj h; exact (Kept.mmioWrite _ _).trans (Kept.lcJump _)
  case c4 j =>
    obtain rfl := StepRes.go.inj h; exact (Kept.mmioWrite _ _).trans (Kept.lcJump _)
  case c5 =>
    obtain rfl := StepRes.go.inj h; exact Kept.modC rfl rfl rfl rfl
  case i1 =>
    obtain rfl := StepRes.go.inj h; exact (Kept.mmioWrite _ _).trans (Kept.lcJump _)
  case i2 =>
    obtain rfl := StepRes.go.inj h; exact (Kept.mmioWrite _ _).trans (Kept.lcJump _)
  case i3 =>
    obtain rfl := StepRes.go.inj h; exact (Kept.mmioWrite _ _).trans (Kept.lcJump _)
  case i4 =>
    obtain rfl := StepRes.go.inj h; exact ((Kept.modC rfl rfl rfl rfl).trans (Kept.mmioWrite _ _)).trans (Kept.lcJump _)
  case i5 =>
    obtain rfl := StepRes.go.inj h; exact (Kept.mmioWrite _ _).trans (Kept.lcJump _)
  case i6 i =>
    obtain rfl := StepRes.go.inj h; exact (lcFreeRx_kept _ _).trans (Kept.lcJump _)
  case i7 i f =>
    obtain rfl := StepRes.go.inj h; exact (zeroRd_kept _ _ _).trans (Kept.lcJump _)
  case i8 b =>
    cases b <;> (obtain rfl := StepRes.go.inj h; exact (Kept.mmioWrite _ _).trans (Kept.lcJump _))
  case i9 =>
    obtain rfl := StepRes.go.inj h; exact (Kept.mmioWrite _ _).trans (Kept.lcJump _)
  case i10 p =>
    exact Kept.repStep (fun _ _ => Kept.lcJump _) (fun _ => Kept.lcJump _) h
  case i11 =>
    obtain rfl := StepRes.go.inj h; exact (Kept.mmioWrite _ _).trans (Kept.lcJump _)
  case t1 =>
    obtain rfl := StepRes.go.inj h; exact (Kept.mmioWrite _ _).trans (Kept.lcJump _)
  case t2 =>
    obtain rfl := StepRes.go.inj h; exact (Kept.mmioWrite _ _).trans (Kept.lcJump _)
  case t3 =>
    obtain rfl := StepRes.go.inj h; exact (Kept.mmioWrite _ _).trans (Kept.lcJump _)
  case t4 =>
    obtain rfl := StepRes.go.inj h; exact ((Kept.modC rfl rfl rfl rfl).trans (Kept.mmioWrite _ _)).trans (Kept.lcJump _)
  case t5 =>
    obtain rfl := StepRes.go.inj h; exact (Kept.mmioWrite _ _).trans (Kept.lcJump _)
  case t6 i =>
    obtain rfl := StepRes.go.inj h; exact (lcFreeTx_kept _ _).trans (Kept.lcJump _)
  case t7 i f =>
    obtain rfl := StepRes.go.inj h; exact (zeroTd_kept _ _ _).trans (Kept.lcJump _)
  case t8 b =>
    cases b <;> (obtain rfl := StepRes.go.inj h; exact (Kept.mmioWrite _ _).trans (Kept.lcJump _))
  case t9 =>
    obtain rfl := StepRes.go.inj h; exact (Kept.mmioWrite _ _).trans (Kept.lcJump _)
  case d3 =>
    obtain rfl := StepRes.go.inj h; exact Kept.modC rfl rfl rfl rfl
  case d4 =>
    obtain rfl := StepRes.go.inj h; exact (Kept.modC rfl rfl rfl rfl).trans (Kept.finishLc _)
  case z1 =>
    obtain ⟨-, rfl⟩ := acquireM_go h
    exact (Kept.modC rfl rfl rfl rfl).trans (Kept.lcJump _)
  case z2 =>
    obtain rfl := StepRes.go.inj h; exact ((Kept.modC rfl rfl rfl rfl).trans (Kept.mmioWrite _ _)).trans (Kept.lcJump _)
  case z3 =>
    obtain rfl := StepRes.go.inj h; exact (Kept.mmioWrite _ _).trans (Kept.lcJump _)
  case z4 =>
    obtain rfl := StepRes.go.inj h; exact (Kept.mmioWrite _ _).trans (Kept.lcJump _)
  case z7 d =>
    obtain rfl := StepRes.go.inj h; exact Kept.releaseM.trans (Kept.lcJump _)
  case z8 d =>
    cases d <;> obtain rfl := StepRes.go.inj h
    · exact Kept.fatal _
    · exact (Kept.modC rfl rfl rfl rfl).trans (Kept.finishLc _)
  case promiscR =>
    obtain rfl := StepRes.go.inj h; exact (Kept.mmioRead _).trans (Kept.lcJump _)
  case promiscW v =>
    obtain rfl := StepRes.go.inj h; exact (Kept.mmioWrite _ _).trans (Kept.finishLc _)
  case mcastW v =>
    obtain rfl := StepRes.go.inj h; exact (Kept.mmioWrite _ _).trans (Kept.finishLc _)
  case tunableW =>
    obtain rfl := StepRes.go.inj h; exact (Kept.mmioWrite _ _).trans (Kept.finishLc _)
  case u1 =>
    obtain ⟨-, rfl⟩ := acquireS_go h
    exact Kept.modC rfl rfl rfl rfl
  case u2 k =>
    obtain rfl := StepRes.go.inj h; exact lcCounter_kept _ _
  case u3 j =>
    obtain rfl := StepRes.go.inj h; exact (Kept.mmioRead _).trans (Kept.lcJump _)
  case u3e j v =>
    obtain rfl := StepRes.go.inj h; exact (Kept.emit _).trans (Kept.lcJump _)
  case u4 =>
    obtain rfl := StepRes.go.inj h; exact (Kept.emit _).trans (Kept.lcJump _)
  case u5 =>
    obtain rfl := StepRes.go.inj h; exact (Kept.modC rfl rfl rfl rfl).trans (Kept.finishLc _)

/-- Every agent's step keeps what `Kept` names. -/
theorem agentStep_kept {a : AgentId} {draw : Nat} (h : agentStep a draw s = .go t) : Kept s t := by
  cases a with
  | disp => exact dispStep_kept h
  | rxw => exact rxwStep_kept h
  | txw => exact txwStep_kept h
  | lnk => exact lnkStep_kept h
  | lc => exact lcStep_kept h
  | txc k => exact txcStep_kept h

/-- A turn keeps it too. -/
theorem turn_kept (a : AgentId) (draw n : Nat) (s : State) : Kept s (turn a draw n s) := by
  induction n generalizing s with
  | zero => exact Kept.refl s
  | succ n ih =>
    unfold turn
    split
    · rename_i u hu; exact (agentStep_kept hu).trans (ih u)
    · exact Kept.refl s
    · exact Kept.refl s

end Sys2Proof.Machine
end

