-- ==== Sys2Proof/Laws/PerInstr.lean ====
section
/-!
SUPPORT. Bytes and numbers; and, per instruction, that its word fits its format, so that its bytes spell it.
-/

namespace Sys2Proof

open Machine

theorem length_leBytes (n v : Nat) : (leBytes n v).length = n := by
  induction n generalizing v with
  | zero => rfl
  | succ n ih => simp [leBytes, ih]

/-- The bytes of a number spell it, modulo their room. -/
theorem leNat_leBytes (n v : Nat) : leNat (leBytes n v) = v % 256 ^ n := by
  induction n generalizing v with
  | zero => simp [leBytes, leNat, Nat.mod_one]
  | succ n ih =>
    rw [leBytes, leNat, ih, BitVec.toNat_ofNat, Nat.pow_succ (m := n), Nat.mul_comm (256 ^ n) 256, Nat.mod_mul]

/-- A list of bytes is the bytes of the number it spells. -/
theorem leBytes_leNat (bs : List Byte) : leBytes bs.length (leNat bs) = bs := by
  induction bs with
  | nil => rfl
  | cons b bs ih =>
    have hb : b.toNat < 256 := b.isLt
    rw [List.length_cons, leBytes, leNat, Nat.add_mul_div_left _ _ (by decide), Nat.div_eq_of_lt hb, Nat.zero_add, ih]
    congr 1
    apply BitVec.eq_of_toNat_eq
    rw [BitVec.toNat_ofNat]
    omega

namespace Laws.EncodeSize

/-- Under every register map the encoding is as long as its format says, and spells the operation's word. -/
def Statement (i : Instr) : Prop :=
  ∀ m : RegMap, (encodeWith m i).length = i.format.size ∧ leNat (encodeWith m i) = i.wordWith m

theorem of_lt {i : Instr} (h : ∀ m : RegMap, i.wordWith m < 256 ^ i.format.size) : Statement i :=
  fun m => ⟨length_leBytes _ _, by rw [encodeWith, leNat_leBytes, Nat.mod_eq_of_lt (h m)]⟩

theorem attach : Statement .attach := of_lt fun _ => BitVec.isLt _
theorem txRequest : Statement .txRequest := of_lt fun _ => BitVec.isLt _
theorem shutdown : Statement .shutdown := of_lt fun _ => BitVec.isLt _
theorem setPromisc (on : Bool) : Statement (.setPromisc on) := of_lt fun _ => BitVec.isLt _
theorem setMcast (member : Bool) (addr : BitVec 48) : Statement (.setMcast member addr) := of_lt fun _ => BitVec.isLt _
theorem setRdtr (val : BitVec 48) : Statement (.setRdtr val) := of_lt fun _ => BitVec.isLt _
theorem setRadv (val : BitVec 48) : Statement (.setRadv val) := of_lt fun _ => BitVec.isLt _
theorem dump : Statement .dump := of_lt fun _ => BitVec.isLt _
theorem bufFree (id : BitVec 32) : Statement (.bufFree id) := of_lt fun _ => BitVec.isLt _
theorem reservedOp (w : BitVec 64) : Statement (.reservedOp w) := of_lt fun _ => BitVec.isLt _
theorem mmioCtrl (a : Access) : Statement (.mmioCtrl a) := of_lt fun _ => BitVec.isLt _
theorem mmioStatus (a : Access) : Statement (.mmioStatus a) := of_lt fun _ => BitVec.isLt _
theorem mmioEerd (a : Access) : Statement (.mmioEerd a) := of_lt fun _ => BitVec.isLt _
theorem mmioCtrlExt (a : Access) : Statement (.mmioCtrlExt a) := of_lt fun _ => BitVec.isLt _
theorem mmioMdic (a : Access) : Statement (.mmioMdic a) := of_lt fun _ => BitVec.isLt _
theorem mmioFcal (a : Access) : Statement (.mmioFcal a) := of_lt fun _ => BitVec.isLt _
theorem mmioFcah (a : Access) : Statement (.mmioFcah a) := of_lt fun _ => BitVec.isLt _
theorem mmioFct (a : Access) : Statement (.mmioFct a) := of_lt fun _ => BitVec.isLt _
theorem mmioIcr (a : Access) : Statement (.mmioIcr a) := of_lt fun _ => BitVec.isLt _
theorem mmioIms (a : Access) : Statement (.mmioIms a) := of_lt fun _ => BitVec.isLt _
theorem mmioImc (a : Access) : Statement (.mmioImc a) := of_lt fun _ => BitVec.isLt _
theorem mmioRctl (a : Access) : Statement (.mmioRctl a) := of_lt fun _ => BitVec.isLt _
theorem mmioFcttv (a : Access) : Statement (.mmioFcttv a) := of_lt fun _ => BitVec.isLt _
theorem mmioTctl (a : Access) : Statement (.mmioTctl a) := of_lt fun _ => BitVec.isLt _
theorem mmioTipg (a : Access) : Statement (.mmioTipg a) := of_lt fun _ => BitVec.isLt _
theorem mmioPba (a : Access) : Statement (.mmioPba a) := of_lt fun _ => BitVec.isLt _
theorem mmioFcrtl (a : Access) : Statement (.mmioFcrtl a) := of_lt fun _ => BitVec.isLt _
theorem mmioFcrth (a : Access) : Statement (.mmioFcrth a) := of_lt fun _ => BitVec.isLt _
theorem mmioRdbal (a : Access) : Statement (.mmioRdbal a) := of_lt fun _ => BitVec.isLt _
theorem mmioRdbah (a : Access) : Statement (.mmioRdbah a) := of_lt fun _ => BitVec.isLt _
theorem mmioRdlen (a : Access) : Statement (.mmioRdlen a) := of_lt fun _ => BitVec.isLt _
theorem mmioRdh (a : Access) : Statement (.mmioRdh a) := of_lt fun _ => BitVec.isLt _
theorem mmioRdt (a : Access) : Statement (.mmioRdt a) := of_lt fun _ => BitVec.isLt _
theorem mmioRdtr (a : Access) : Statement (.mmioRdtr a) := of_lt fun _ => BitVec.isLt _
theorem mmioRadv (a : Access) : Statement (.mmioRadv a) := of_lt fun _ => BitVec.isLt _
theorem mmioTdbal (a : Access) : Statement (.mmioTdbal a) := of_lt fun _ => BitVec.isLt _
theorem mmioTdbah (a : Access) : Statement (.mmioTdbah a) := of_lt fun _ => BitVec.isLt _
theorem mmioTdlen (a : Access) : Statement (.mmioTdlen a) := of_lt fun _ => BitVec.isLt _
theorem mmioTdh (a : Access) : Statement (.mmioTdh a) := of_lt fun _ => BitVec.isLt _
theorem mmioTdt (a : Access) : Statement (.mmioTdt a) := of_lt fun _ => BitVec.isLt _
theorem mmioTidv (a : Access) : Statement (.mmioTidv a) := of_lt fun _ => BitVec.isLt _
theorem mmioRxcsum (a : Access) : Statement (.mmioRxcsum a) := of_lt fun _ => BitVec.isLt _
theorem mmioStat (k : Fin 73) (a : Access) : Statement (.mmioStat k a) := of_lt fun _ => BitVec.isLt _
theorem mmioMta (k : Fin 128) (a : Access) : Statement (.mmioMta k a) := of_lt fun _ => BitVec.isLt _
theorem mmioRal (n : Fin 16) (a : Access) : Statement (.mmioRal n a) := of_lt fun _ => BitVec.isLt _
theorem mmioRah (n : Fin 16) (a : Access) : Statement (.mmioRah n a) := of_lt fun _ => BitVec.isLt _
theorem rxdesc (d : RxDesc) : Statement (.rxdesc d) := of_lt fun _ => BitVec.isLt _
theorem txdescLegacy (len : Half) : Statement (.txdescLegacy len) := of_lt fun _ => BitVec.isLt _
theorem txdescContext (w : Word) : Statement (.txdescContext w) := of_lt fun _ => BitVec.isLt _
theorem txdescExtdata (w : Word) : Statement (.txdescExtdata w) := of_lt fun _ => BitVec.isLt _
theorem txdescReserved (w : Word) : Statement (.txdescReserved w) := of_lt fun _ => BitVec.isLt _
theorem causeTxdw (w : Word) : Statement (.causeTxdw w) := of_lt fun _ => BitVec.isLt _
theorem causeTxqe (w : Word) : Statement (.causeTxqe w) := of_lt fun _ => BitVec.isLt _
theorem causeLsc (w : Word) : Statement (.causeLsc w) := of_lt fun _ => BitVec.isLt _
theorem causeRxseq (w : Word) : Statement (.causeRxseq w) := of_lt fun _ => BitVec.isLt _
theorem causeRxdmt0 (w : Word) : Statement (.causeRxdmt0 w) := of_lt fun _ => BitVec.isLt _
theorem causeRxo (w : Word) : Statement (.causeRxo w) := of_lt fun _ => BitVec.isLt _
theorem causeRxt0 (w : Word) : Statement (.causeRxt0 w) := of_lt fun _ => BitVec.isLt _
theorem causeAck (w : Word) : Statement (.causeAck w) := of_lt fun _ => BitVec.isLt _

end Laws.EncodeSize

/-- Every operation's bytes spell its word. -/
theorem leNat_encodeWith (m : RegMap) (i : Instr) : leNat (encodeWith m i) = i.wordWith m := by
  have h : ∀ m : RegMap, i.wordWith m < 256 ^ i.format.size := by cases i <;> exact fun _ => BitVec.isLt _
  exact (Laws.EncodeSize.of_lt h m).2

/-! ## Register offsets and register maps -/

/-- R110 lists every register at an offset of its own. -/
theorem offsetReg_regOffset (r : Reg) : offsetReg (regOffset r) = some r := by
  cases r with
  | stat k => revert k; decide
  | mta k => revert k; decide
  | ral n => revert n; decide
  | rah n => revert n; decide
  | _ => rfl

/-- The offsets of R110 are distinct. -/
theorem regOffset_inj {r q : Reg} (h : regOffset r = regOffset q) : r = q :=
  Option.some.inj (by rw [← offsetReg_regOffset r, h, offsetReg_regOffset])

/-- They are multiples of 4 in the window (R81, R85). -/
theorem regOffset_aligned (r : Reg) : regOffset r % 4 = 0 ∧ regOffset r < 2 ^ 17 := by
  cases r <;> simp only [regOffset] <;> first | decide | omega

/-- At an offset that is a multiple of 4 stands no register but the one whose offset it is. -/
theorem regOffset_of_offsetReg {o : Nat} {r : Reg} (ho : o % 4 = 0) (h : offsetReg o = some r) : regOffset r = o := by
  unfold offsetReg at h
  split at h
  · obtain rfl := Option.some.inj h; simp only [regOffset]; omega
  split at h
  · obtain rfl := Option.some.inj h; simp only [regOffset]; omega
  split at h
  · split at h <;> (obtain rfl := Option.some.inj h; simp only [regOffset]; omega)
  · simpa using List.find?_some h

@[simp] theorem RegMap.pro1000_offset (r : Reg) : RegMap.pro1000.offset r = regOffset r := rfl

/-- The defaults of 30_encoding.md are a register map a chip can have. -/
theorem RegMap.pro1000_wf : RegMap.pro1000.wf :=
  ⟨fun _ _ h => regOffset_inj h, regOffset_aligned, List.nodup_nil, by simp [RegMap.pro1000]⟩

/-- A listed register stands where it is listed. -/
theorem RegMap.offset_of_mem {m : RegMap} {e : Reg × Nat} (hn : (m.offsets.map Prod.fst).Nodup) (he : e ∈ m.offsets) :
    m.offset e.1 = e.2 := by
  cases hf : m.offsets.find? fun x => x.1 == e.1 with
  | none => simpa using List.find?_eq_none.mp hf e he
  | some x =>
    have hx : x.1 = e.1 := by simpa using List.find?_some hf
    simp only [offset, hf]
    rw [List.inj_on_of_nodup_map hn (List.mem_of_find?_eq_some hf) he hx]

/-- A register that is not listed stands where R110 has it. -/
theorem RegMap.offset_of_not_mem {m : RegMap} {r : Reg} (h : r ∉ m.offsets.map Prod.fst) : m.offset r = regOffset r := by
  have hf : (m.offsets.find? fun x => x.1 == r) = none :=
    List.find?_eq_none.mpr fun x hx => by simpa using fun he => h (List.mem_map.mpr ⟨x, hx, he⟩)
  simp only [offset, hf]

/-- The test says what the predicate says (R85, D5). -/
theorem RegMap.ok_iff_wf {m : RegMap} : m.ok = true ↔ m.wf := by
  have hb : ∀ e : WordKind × Vector (Fin 32) 32,
      (decide (∀ i j : Fin 32, e.2[i] = e.2[j] → i = j)
        && decide (∀ i : Fin 32, i.val < e.1.width → e.2[i].val < e.1.width)) = true ↔ bitsOk e := by
    intro e; simp only [Bool.and_eq_true, decide_eq_true_eq, bitsOk]
  simp only [ok, wf, Bool.and_eq_true, List.all_eq_true, decide_eq_true_eq, beq_iff_eq] at hb ⊢
  constructor
  · rintro ⟨⟨⟨hr, ho⟩, hl⟩, hbits⟩
    have inv : ∀ r : Reg, (∃ e ∈ m.offsets, e.1 = r ∧ m.offset r = e.2)
        ∨ (r ∉ m.offsets.map Prod.fst ∧ m.offset r = regOffset r) := by
      intro r
      by_cases h : r ∈ m.offsets.map Prod.fst
      · obtain ⟨e, he, rfl⟩ := List.mem_map.mp h
        exact .inl ⟨e, he, rfl, offset_of_mem hr he⟩
      · exact .inr ⟨h, offset_of_not_mem h⟩
    have free : ∀ e ∈ m.offsets, ∀ r : Reg, r ∉ m.offsets.map Prod.fst → e.2 ≠ regOffset r := by
      intro e he r hn heq
      have := (hl e he).2
      rw [heq, offsetReg_regOffset] at this
      exact hn (by simpa using this)
    refine ⟨?_, ?_, hr, fun e he => (hb e).mp (hbits e he)⟩
    · intro r q h
      rcases inv r with ⟨e, he, rfl, hre⟩ | ⟨hnr, hre⟩ <;> rcases inv q with ⟨f, hf, rfl, hqf⟩ | ⟨hnq, hqf⟩
      · rw [List.inj_on_of_nodup_map ho he hf (by rw [← hre, ← hqf, h])]
      · exact absurd (by rw [← hre, ← hqf, h]) (free e he q hnq)
      · exact absurd (by rw [← hre, ← hqf, h]) (free f hf r hnr)
      · exact regOffset_inj (by rw [← hre, ← hqf, h])
    · intro r
      rcases inv r with ⟨e, he, rfl, hre⟩ | ⟨-, hre⟩ <;> rw [hre]
      · exact (hl e he).1
      · exact regOffset_aligned r
  · rintro ⟨hinj, hal, hr, hbits⟩
    have heq := fun e he => offset_of_mem (e := e) hr he
    refine ⟨⟨⟨hr, ?_⟩, ?_⟩, fun e he => (hb e).mpr (hbits e he)⟩
    · refine List.Nodup.map_on (fun e he f hf h => ?_) (List.Nodup.of_map _ hr)
      exact Prod.ext (hinj _ _ (by rw [heq e he, heq f hf, h])) h
    · intro e he
      refine ⟨heq e he ▸ hal e.1, ?_⟩
      split
      · rename_i r hoff
        by_contra hn
        have hn' : r ∉ m.offsets.map Prod.fst := by simpa using hn
        have h1 := regOffset_of_offsetReg (heq e he ▸ hal e.1).1 hoff
        have : r = e.1 := hinj _ _ (by rw [offset_of_not_mem hn', heq e he, h1])
        exact hn' (List.mem_map.mpr ⟨e, he, this.symm⟩)
      · rfl

end Sys2Proof
end

