-- ==== Sys2Proof/Laws/Step.lean ====
section
/-! SUPPORT. One step of the machine, said once: which cases it has, what an operation leaves alone, and how a property
of every controller is carried over a step. -/

namespace Sys2Proof.Machine

variable {s t : State}

/-! ## The cases of a step -/

/-- A step that gives a next state ran an operation, or made a choice. -/
theorem step_next (h : step s = .next t) :
    (∃ w ws i, s.port = w :: ws ∧ decodeWith s.c.cfg.regMap w.fmt w.bytes = .ok i ∧ exec i { s with port := ws } = .next t)
      ∨ (∃ e u, s.port = [] ∧ eventAct e u = .next t
          ∧ ((∃ es, s.sched = e :: es ∧ u = { s with sched := es })
            ∨ (s.sched = [] ∧ e = Config.freeEvent s.tick ∧ u = { s with tick := s.tick + 1 }))) := by
  unfold step runStep at h
  split at h
  · rename_i w ws hp
    unfold runWord at h
    split at h
    · rename_i i hd; exact .inl ⟨w, ws, i, hp, hd, h⟩
    · cases h
  · rename_i hp
    unfold runEvent at h
    split at h
    · rename_i e es hs; exact .inr ⟨e, _, hp, h, .inl ⟨es, hs, rfl⟩⟩
    · rename_i hs; exact .inr ⟨_, _, hp, h, .inr ⟨hs, rfl, rfl⟩⟩

/-- A choice that gives a next state. -/
theorem eventAct_next {e : Event} (h : eventAct e s = .next t) :
    (∃ a d, e = .agent a d ∧ (agentStep a d s = .go t ∨ t = s))
      ∨ (∃ x, e = .nic x ∧ t = nicAct s x)
      ∨ (∃ x, e = .host x ∧ hostAct s x = .next t)
      ∨ (∃ k, e = .select k ∧ t = selectCtlr s k)
      ∨ (∃ p a b, e = .discover p a b ∧ launch (discoverCtlr s p a b) = .next t) := by
  cases e with
  | agent a d =>
    refine .inl ⟨a, d, rfl, ?_⟩
    simp only [eventAct, agentAct] at h
    split at h
    · rename_i u hu; cases h; exact .inl hu
    · cases h; exact .inr rfl
    · cases h
  | nic x => simp only [eventAct] at h; cases h; exact .inr (.inl ⟨x, rfl, rfl⟩)
  | host x => exact .inr (.inr (.inl ⟨x, rfl, h⟩))
  | select k => simp only [eventAct] at h; cases h; exact .inr (.inr (.inr (.inl ⟨k, rfl, rfl⟩)))
  | discover p a b => exact .inr (.inr (.inr (.inr ⟨p, a, b, rfl, h⟩)))

/-- A launch that is not refused gives the machine it was given, which meets the premises (R512). -/
theorem launch_next (h : launch s = .next t) : launchable s = true ∧ t = s := by
  unfold launch at h
  split at h
  · cases h; exact ⟨‹_›, rfl⟩
  · cases h

/-- The parts of `launchable`. -/
theorem launchable_iff :
    launchable s = true ↔ disjointOk s = true ∧ shapesOk s = true ∧ cleanEntry s = true ∧ ownWindow s = true := by
  simp [launchable, and_assoc]

/-- In a launchable machine every controller's rings and buffers have a shape the HRE admits, and its register map is one a
chip can have. -/
theorem launchable_shape {c : Ctlr} (h : launchable s = true) (hc : c ∈ s.ctlrs) :
    launchShapeOk c.cfg s.pool c.rdba c.tdba = true ∧ c.cfg.regMap.wf := by
  have := List.all_eq_true.mp (launchable_iff.mp h).2.1 c hc
  simp only [ctlrShapeOk, Bool.and_eq_true] at this
  exact ⟨this.1, RegMap.ok_iff_wf.mp this.2⟩

/-- A host action that gives a next state changes the selected controller in its outbound queue only. -/
theorem hostAct_next {x : HostAct} (h : hostAct s x = .next t) :
    t.others = s.others ∧ t.pool = s.pool ∧ (t.c = s.c ∨ ∃ b, t.c = { s.c with oq := s.c.oq ++ [b] }) := by
  cases x <;> simp only [hostAct] at h
  case issue w => cases h; exact ⟨rfl, rfl, .inl rfl⟩
  case enqueue b =>
    split at h
    · cases h; exact ⟨rfl, rfl, .inr ⟨b, rfl⟩⟩
    · cases h
  case supply b base cap =>
    split at h
    · cases h; exact ⟨rfl, rfl, .inl rfl⟩
    · cases h
  case cursors b rp wp lim =>
    split at h
    · cases h; exact ⟨rfl, rfl, .inl rfl⟩
    · cases h
  case data b off v =>
    split at h
    · cases h; unfold writeData; split <;> exact ⟨rfl, rfl, .inl rfl⟩
    · cases h

/-! ## Selecting a controller -/

theorem ctlrFind_mem {xs : List Ctlr} {k : Nat} {x : Ctlr} (h : ctlrFind xs k = some x) : x ∈ xs ∧ x.id = k := by
  induction xs with
  | nil => cases h
  | cons y ys ih =>
    unfold ctlrFind at h
    split at h
    · cases h; exact ⟨List.mem_cons_self, ‹_›⟩
    · exact ⟨List.mem_cons_of_mem _ (ih h).1, (ih h).2⟩

/-- Selection only permutes: it brings in no new controller. -/
theorem mem_selectCtlr {k : Nat} {c : Ctlr} (h : c ∈ (selectCtlr s k).ctlrs) : c ∈ s.ctlrs := by
  unfold selectCtlr at h
  split at h
  · rename_i x hx
    rcases List.mem_cons.mp h with rfl | h
    · exact List.mem_cons_of_mem _ (ctlrFind_mem hx).1
    · obtain ⟨y, hy, rfl⟩ := List.mem_map.mp h
      split
      · exact List.mem_cons_self
      · exact List.mem_cons_of_mem _ hy
  · exact h

/-- Selection permutes the controllers, their identifiers being distinct. -/
theorem ctlrSwap_perm {xs : List Ctlr} {k : Nat} {x y : Ctlr} (h : ctlrFind xs k = some x) (hn : (xs.map Ctlr.id).Nodup) :
    (x :: ctlrSwap xs k y).Perm (y :: xs) := by
  induction xs with
  | nil => cases h
  | cons z zs ih =>
    rw [List.map_cons, List.nodup_cons] at hn
    unfold ctlrFind at h
    split at h
    · rename_i hz
      cases h
      have hs : ctlrSwap zs k y = zs := by
        refine (List.map_congr_left fun w hw => if_neg ?_).trans (List.map_id _)
        exact fun hk => hn.1 (hz.trans hk.symm ▸ List.mem_map_of_mem hw)
      have hc : ctlrSwap (x :: zs) k y = y :: ctlrSwap zs k y := by simp [ctlrSwap, hz]
      rw [hc, hs]; exact .swap ..
    · rename_i hz
      have hc : ctlrSwap (z :: zs) k y = z :: ctlrSwap zs k y := by simp [ctlrSwap, hz]
      rw [hc]
      exact (List.Perm.swap ..).trans (((ih h hn.2).cons z).trans (.swap ..))

theorem selectCtlr_perm (hn : (s.ctlrs.map Ctlr.id).Nodup) (k : Nat) : (selectCtlr s k).ctlrs.Perm s.ctlrs := by
  unfold selectCtlr
  split
  · rename_i x hx; exact ctlrSwap_perm hx (List.nodup_cons.mp hn).2
  · exact .refl _

/-- Two lists of the same controllers, their identifiers distinct, stand in one order by identifier. -/
theorem insertionSort_id_eq {xs ys : List Ctlr} (hp : xs.Perm ys) (hn : (ys.map Ctlr.id).Nodup) :
    xs.insertionSort (fun a b => a.id ≤ b.id) = ys.insertionSort fun a b => a.id ≤ b.id := by
  have hq := ((List.perm_insertionSort (fun a b : Ctlr => a.id ≤ b.id) xs).trans hp).trans
    (List.perm_insertionSort (fun a b : Ctlr => a.id ≤ b.id) ys).symm
  refine hq.eq_of_pairwise ?_ (List.pairwise_insertionSort _ _) (List.pairwise_insertionSort _ _)
  intro a b ha hb h1 h2
  have hid := Nat.le_antisymm h1 h2
  exact List.inj_on_of_nodup_map hn (hp.mem_iff.mp ((List.perm_insertionSort _ _).mem_iff.mp ha))
    ((List.perm_insertionSort _ _).mem_iff.mp hb) hid

/-- What is observed at the end of a run does not depend on which controller is selected. -/
theorem observe_selectCtlr (hn : (s.ctlrs.map Ctlr.id).Nodup) (k : Nat) : observe (selectCtlr s k) = observe s := by
  have hm : (selectCtlr s k).mem = s.mem ∧ (selectCtlr s k).free = s.free ∧ (selectCtlr s k).plock = s.plock
      ∧ (selectCtlr s k).bufs = s.bufs := by
    unfold selectCtlr; split <;> exact ⟨rfl, rfl, rfl, rfl⟩
  have ho : ctlrObs (selectCtlr s k) = ctlrObs s := by
    funext c; simp only [ctlrObs, descArray, hm.1]
  simp only [observe, State.ctlrsById, ho, hm.2.1, hm.2.2.1, hm.2.2.2, insertionSort_id_eq (selectCtlr_perm hn k) hn]

theorem mem_discoverCtlr {p : Params} {a b : DWord} {c : Ctlr} (h : c ∈ (discoverCtlr s p a b).ctlrs) :
    c ∈ s.ctlrs ∨ c = Ctlr.discovery (s.others.length + 1) p a b := by
  simp only [State.ctlrs, discoverCtlr, List.mem_cons, List.mem_append, List.not_mem_nil, or_false] at h ⊢
  rcases h with rfl | h | rfl
  · exact .inl (.inl rfl)
  · exact .inl (.inr h)
  · exact .inr rfl

/-! ## What an operation leaves alone -/

/-- A register operation that gives a next state is the read or the write of its register. -/
theorem mmioOp_next {r : Reg} {a : Access} (h : mmioOp r a s = .next t) :
    (a = .read ∧ t = (mmioRead s r).2) ∨ ∃ v, a = .write v ∧ t = mmioWrite s r v := by
  cases a with
  | read =>
    simp only [mmioOp] at h
    split at h
    · cases h; exact .inl ⟨rfl, rfl⟩
    · cases h
  | write v =>
    simp only [mmioOp] at h
    split at h
    · cases h; exact .inr ⟨v, rfl, rfl⟩
    · cases h

/-- What an action of the NIC leaves alone: of a controller all but its registers and the NIC's own state, of the machine
all but that, memory and the counter. -/
structure NicFrame (s t : State) : Prop where
  c : t.c = { s.c with regs := t.c.regs, dev := t.c.dev }
  others : t.others = s.others
  pool : t.pool = s.pool
  bufs : t.bufs = s.bufs
  free : t.free = s.free
  plock : t.plock = s.plock
  port : t.port = s.port
  sched : t.sched = s.sched

theorem NicFrame.refl (s : State) : NicFrame s s := ⟨rfl, rfl, rfl, rfl, rfl, rfl, rfl, rfl⟩

theorem NicFrame.ite {p : Prop} [Decidable p] {u : State} (h : NicFrame s t) (k : NicFrame s u) :
    NicFrame s (if p then t else u) := by
  split
  · exact h
  · exact k

theorem nicRx_frame (s : State) (d : RxDesc) (data : List Byte) : NicFrame s (nicRx s d data) := by
  unfold nicRx
  simp only []
  refine NicFrame.ite ⟨?_, ?_, ?_, ?_, ?_, ?_, ?_, ?_⟩ (NicFrame.refl s) <;> simp [rxWriteBack]

theorem nicTx_frame (s : State) (ec lc tu : Bool) (rsv : BitVec 4) : NicFrame s (nicTx s ec lc tu rsv) := by
  simp only [nicTx]
  refine NicFrame.ite ?_ (NicFrame.refl s)
  split <;> exact ⟨rfl, rfl, rfl, rfl, rfl, rfl, rfl, rfl⟩

theorem nicAct_frame (s : State) (x : NicAct) : NicFrame s (nicAct s x) := by
  cases x with
  | rx d data => exact nicRx_frame s d data
  | tx ec lc tu rsv => exact nicTx_frame s ec lc tu rsv
  | latch bits => exact ⟨rfl, rfl, rfl, rfl, rfl, rfl, rfl, rfl⟩
  | resetDone img => exact NicFrame.ite ⟨rfl, rfl, rfl, rfl, rfl, rfl, rfl, rfl⟩ (NicFrame.refl s)
  | eeRstDone => exact NicFrame.ite ⟨rfl, rfl, rfl, rfl, rfl, rfl, rfl, rfl⟩ (NicFrame.refl s)
  | eerdDone o => exact NicFrame.ite ⟨rfl, rfl, rfl, rfl, rfl, rfl, rfl, rfl⟩ (NicFrame.refl s)
  | mdicDone e => exact NicFrame.ite ⟨rfl, rfl, rfl, rfl, rfl, rfl, rfl, rfl⟩ (NicFrame.refl s)
  | statSet k v => exact ⟨rfl, rfl, rfl, rfl, rfl, rfl, rfl, rfl⟩
  | phySet r v => exact ⟨rfl, rfl, rfl, rfl, rfl, rfl, rfl, rfl⟩
  | statusSet v => exact ⟨rfl, rfl, rfl, rfl, rfl, rfl, rfl, rfl⟩
  | stuck b => cases b <;> exact ⟨rfl, rfl, rfl, rfl, rfl, rfl, rfl, rfl⟩

/-- An operation other than a host command leaves a controller alone but for its registers, the NIC, the trace, the fault
record and the dispatcher. -/
structure OpFrame (s t : State) : Prop where
  c : t.c = { s.c with regs := t.c.regs, dev := t.c.dev, trace := t.c.trace, fault := t.c.fault, disp := t.c.disp }
  disp : t.c.disp = s.c.disp ∨ (s.c.disp.ctl = .idle ∧ t.c.disp = { s.c.disp with ctl := .q1 })
  others : t.others = s.others

theorem mmioOp_frame {r : Reg} {a : Access} (h : mmioOp r a s = .next t) : OpFrame s t := by
  rcases mmioOp_next h with ⟨-, rfl⟩ | ⟨v, -, rfl⟩ <;> exact ⟨rfl, .inl rfl, rfl⟩

theorem takeInterrupt_frame (s : State) : OpFrame s (takeInterrupt s) := by
  unfold takeInterrupt
  split
  · rename_i h
    simp only [Bool.and_eq_true, beq_iff_eq] at h
    exact ⟨rfl, .inr ⟨h.2, rfl⟩, rfl⟩
  · exact ⟨rfl, .inl rfl, rfl⟩

theorem causeOp_frame {w : Word} (h : causeOp w s = .next t) : OpFrame s t := by
  cases h
  have := takeInterrupt_frame (latch s w)
  exact ⟨this.c, this.disp, this.others⟩

theorem OpFrame.of_nic (h : NicFrame s t) : OpFrame s t := by
  refine ⟨?_, .inl ?_, h.others⟩ <;> rw [h.c]

theorem rxdesc_frame {d : RxDesc} (h : execRxdesc d s = .next t) : OpFrame s t := by
  obtain rfl := Host.Outcome.next.inj h
  split
  · exact .of_nic (nicRx_frame s d [])
  · exact .of_nic (.refl s)

theorem txdescLegacy_frame {len : Half} (h : execTxdescLegacy len s = .next t) : OpFrame s t := by
  unfold execTxdescLegacy at h
  split at h <;> cases h <;> exact ⟨rfl, .inl rfl, rfl⟩

/-- Every operation but a host command is within `OpFrame`. -/
theorem exec_frame {i : Instr} (hf : i.format ≠ .hostCmd) (h : exec i s = .next t) : OpFrame s t := by
  cases i <;> first
    | exact absurd rfl hf
    | exact mmioOp_frame h
    | exact causeOp_frame h
    | exact rxdesc_frame h
    | exact txdescLegacy_frame h
    | cases h

/-- A host command that gives a next state leaves the other controllers and the parameters alone. -/
theorem exec_cmd_others {i : Instr} (hf : i.format = .hostCmd) (h : exec i s = .next t) :
    t.others = s.others ∧ t.pool = s.pool ∧ t.mem = s.mem := by
  cases i <;> cases hf <;> simp only [exec] at h
  case attach =>
    unfold execAttach at h
    split at h
    · split at h <;> cases h; exact ⟨rfl, rfl, rfl⟩
    · cases h; exact ⟨rfl, rfl, rfl⟩
  case txRequest => unfold execTxRequest at h; split at h <;> cases h <;> exact ⟨rfl, rfl, rfl⟩
  case shutdown =>
    unfold execShutdown at h
    split at h
    · split at h <;> cases h <;> exact ⟨rfl, rfl, rfl⟩
    · cases h; exact ⟨rfl, rfl, rfl⟩
  case setPromisc on => unfold execSetPromisc at h; split at h <;> cases h <;> exact ⟨rfl, rfl, rfl⟩
  case setMcast m a => unfold execSetMcast at h; split at h <;> cases h <;> exact ⟨rfl, rfl, rfl⟩
  case setRdtr v =>
    unfold execSetRdtr at h
    split at h
    · split at h <;> cases h <;> exact ⟨rfl, rfl, rfl⟩
    · cases h; exact ⟨rfl, rfl, rfl⟩
  case setRadv v =>
    unfold execSetRadv at h
    split at h
    · split at h <;> cases h <;> exact ⟨rfl, rfl, rfl⟩
    · cases h; exact ⟨rfl, rfl, rfl⟩
  case dump =>
    unfold execDump at h
    split at h
    · split at h <;> cases h <;> exact ⟨rfl, rfl, rfl⟩
    · cases h; exact ⟨rfl, rfl, rfl⟩
  case bufFree n => unfold execBufFree at h; split at h <;> cases h <;> exact ⟨rfl, rfl, rfl⟩
  case reservedOp w => cases h; exact ⟨rfl, rfl, rfl⟩

/-- An operation leaves the other controllers alone. -/
theorem exec_others {i : Instr} (h : exec i s = .next t) : t.others = s.others := by
  by_cases hf : i.format = .hostCmd
  · exact (exec_cmd_others hf h).1
  · exact (exec_frame hf h).others

/-! ## A property of every controller over a step -/

/-- A property of a controller that host commands, the other operations, the agents and the outbound queue's growth
keep, and that holds at discovery, is kept by every step for every controller. -/
theorem step_keeps {P : Ctlr → Prop}
    (hcmd : ∀ (i : Instr) (s t : State), i.format = .hostCmd → exec i s = .next t → P s.c → P t.c)
    (hop : ∀ s t : State, OpFrame s t → P s.c → P t.c)
    (hag : ∀ (a : AgentId) (d : Nat) (s t : State), agentStep a d s = .go t → P s.c → P t.c)
    (hoq : ∀ (c : Ctlr) (b : BufId), P c → P { c with oq := c.oq ++ [b] })
    (hdisc : ∀ (k : Nat) (p : Params) (q : PoolParams) (a b : DWord), launchShapeOk p q a b = true →
      P (Ctlr.discovery k p a b))
    (h : step s = .next t) (hs : ∀ c ∈ s.ctlrs, P c) : ∀ c ∈ t.ctlrs, P c := by
  have hsel : ∀ u v : State, v.others = u.others → (P u.c → P v.c) → (∀ c ∈ u.ctlrs, P c) → ∀ c ∈ v.ctlrs, P c := by
    intro u v ho hc hu c hm
    rcases List.mem_cons.mp hm with rfl | hm
    · exact hc (hu _ List.mem_cons_self)
    · rw [ho] at hm
      exact hu c (List.mem_cons_of_mem _ hm)
  rcases step_next h with ⟨w, ws, i, -, -, he⟩ | ⟨e, u, -, he, hu⟩
  · refine hsel { s with port := ws } t (exec_others he) ?_ hs
    intro hc
    by_cases hf : i.format = .hostCmd
    · exact hcmd i _ t hf he hc
    · exact hop _ t (exec_frame hf he) hc
  · have hu' : ∀ c ∈ u.ctlrs, P c := by
      rcases hu with ⟨es, -, rfl⟩ | ⟨-, -, rfl⟩ <;> exact hs
    rcases eventAct_next he with ⟨a, d, -, hg | rfl⟩ | ⟨x, -, rfl⟩ | ⟨x, -, hx⟩ | ⟨k, -, rfl⟩ | ⟨p, a, b, -, hd⟩
    · exact hsel u t (agentStep_kept hg).others (hag a d u t hg) hu'
    · exact hu'
    · exact hsel u _ (nicAct_frame u x).others (hop _ _ (.of_nic (nicAct_frame u x))) hu'
    · obtain ⟨ho, -, hc⟩ := hostAct_next hx
      refine hsel u t ho ?_ hu'
      rcases hc with hc | ⟨b, hc⟩ <;> rw [hc]
      · exact id
      · exact hoq u.c b
    · exact fun c hm => hu' c (mem_selectCtlr hm)
    · obtain ⟨hl, rfl⟩ := launch_next hd
      intro c hm
      rcases mem_discoverCtlr hm with hm' | rfl
      · exact hu' c hm'
      · exact hdisc _ p u.pool a b (launchable_shape hl hm).1

end Sys2Proof.Machine
end

