-- ==== Sys2Proof/Laws/Commands.lean ====
section
/-! SUPPORT. What a host command's first step does to the selected controller, said once for all commands. -/

namespace Sys2Proof.Machine

variable {s t : State}

/-- A line a control command of R378-R381 starts at. -/
def LcCtl.controlStart : LcCtl → Bool
  | .promiscR | .mcastW _ | .tunableW | .u1 | .u2 0 => true
  | _ => false

/-- The cases of a host command's first step. -/
inductive CmdCase (s t : State) : Prop where
  /-- Answered in this step; a stored value apart, nothing but the trace changes. -/
  | reply (es : List TraceEv) (h : t.c = { s.c with
      promisc := t.c.promisc, rdtr := t.c.rdtr, radv := t.c.radv, trace := s.c.trace ++ es })
  /-- ATTACH accepted. -/
  | attach (hl : s.c.lc = .poweredUnknown) (hi : s.c.lcCtl = .idle) (h : t.c = { s.c with
      lc := .resetting, lcCmd := .attach, lcCtl := lcAfterA0 s.c.cfg s.pool })
  /-- TX_REQUEST accepted. -/
  | tx (hl : s.c.lc = .running) (h : t.c = { s.c with
      txcs := s.c.txcs ++ [{ k := s.c.txcNext, run := TxRun.start }], txcNext := s.c.txcNext + 1 })
  /-- SHUTDOWN accepted, with `mlock` taken at once or still to be taken. -/
  | shutdown (hl : s.c.lc = .running) (hi : s.c.lcCtl = .idle)
      (h : (s.c.mlock = none ∧ t.c = { s.c with mlock := some .lc, lcCmd := .shutdown, lcCtl := .z2 })
        ∨ t.c = { s.c with lcCmd := .shutdown, lcCtl := .z1 })
  /-- A control command accepted. -/
  | control (x : LcCtl) (es : List TraceEv) (hx : x.controlStart = true) (hl : s.c.lc = .running ∨ s.c.lc = .halted)
      (hi : s.c.lcCtl = .idle) (h : t.c = { s.c with
        promisc := t.c.promisc, rdtr := t.c.rdtr, radv := t.c.radv, regs := t.c.regs, slock := t.c.slock
        lcCmd := t.c.lcCmd, lcCtl := x, trace := s.c.trace ++ es })

theorem acceptSet_run {c : Ctlr} (h : acceptSet c = .run) : c.lc = .running ∧ c.lcCtl = .idle := by
  unfold acceptSet at h
  split at h
  · split at h
    · cases h
    · exact ⟨‹_›, ‹_›⟩
    · cases h
  · cases h

theorem acceptIdle_run {c : Ctlr} (h : acceptIdle c = .run) : c.lc = .running ∧ c.lcCtl = .idle := by
  unfold acceptIdle at h
  split at h
  · assumption
  · cases h

/-- Every host command's first step is one of these. -/
theorem exec_cmd_case {i : Instr} (hf : i.format = .hostCmd) (h : exec i s = .next t) : CmdCase s t := by
  cases i <;> cases hf <;> simp only [exec] at h
  case attach =>
    unfold execAttach acceptAttach at h
    split at h
    · rename_i ha
      split at ha
      · rename_i hl
        split at h
        · cases h; exact .attach hl.1 hl.2 rfl
        · cases h
      · cases ha
    · cases h; exact .reply _ rfl
  case txRequest =>
    unfold execTxRequest acceptTx at h
    split at h
    · rename_i ha
      split at ha
      · cases h; exact .tx ‹_› rfl
      · cases ha
    · cases h; exact .reply _ rfl
  case shutdown =>
    unfold execShutdown at h
    split at h
    · rename_i ha
      obtain ⟨hl, hi⟩ := acceptIdle_run ha
      split at h <;> cases h
      · exact .shutdown hl hi (.inl ⟨‹_›, rfl⟩)
      · exact .shutdown hl hi (.inr rfl)
    · cases h; exact .reply _ rfl
  case setPromisc on =>
    unfold execSetPromisc at h
    split at h
    · rename_i ha
      cases h
      exact .control .promiscR [] rfl (.inl (acceptSet_run ha).1) (acceptSet_run ha).2 (by simp [startLc, State.modC])
    · cases h; exact .reply _ rfl
    · cases h; exact .reply _ rfl
  case setMcast m a =>
    unfold execSetMcast at h
    split at h
    · rename_i ha
      cases h
      exact .control _ [_] rfl (.inl (acceptIdle_run ha).1) (acceptIdle_run ha).2 rfl
    · cases h; exact .reply _ rfl
  case setRdtr v =>
    unfold execSetRdtr at h
    split at h
    · split at h
      · rename_i ha
        cases h
        exact .control .tunableW [] rfl (.inl (acceptSet_run ha).1) (acceptSet_run ha).2 (by simp [startLc, State.modC])
      · cases h; exact .reply _ rfl
      · cases h; exact .reply _ rfl
    · cases h; exact .reply _ rfl
  case setRadv v =>
    unfold execSetRadv at h
    split at h
    · split at h
      · rename_i ha
        cases h
        exact .control .tunableW [] rfl (.inl (acceptSet_run ha).1) (acceptSet_run ha).2 (by simp [startLc, State.modC])
      · cases h; exact .reply _ rfl
      · cases h; exact .reply _ rfl
    · cases h; exact .reply _ rfl
  case dump =>
    unfold execDump acceptDump at h
    split at h
    · rename_i ha
      split at ha
      · rename_i hl
        split at h <;> cases h
        · exact .control (.u2 0) [] rfl hl.1 hl.2 (by simp [startLc, State.modC])
        · exact .control .u1 [] rfl hl.1 hl.2 (by simp [startLc, State.modC])
      · cases ha
    · cases h; exact .reply _ rfl
  case bufFree n => unfold execBufFree at h; split at h <;> cases h <;> exact .reply _ rfl
  case reservedOp w => cases h; exact .reply _ rfl

end Sys2Proof.Machine
end

