-- ==== Sys2Proof/Laws/Frames.lean ====
section
/-! SUPPORT. What the agents other than `LC` leave alone in a controller, and how they may change its mask. -/

namespace Sys2Proof.Machine

variable {s t : State}

/-- A worker's or a caller's step: the lifecycle, the dispatcher and `LC` stay; the soft mask stays or gains the whole
class `cls`; the fault record and the trace only grow. -/
structure WorkerFrame (cls : Word) (s t : State) : Prop where
  c : t.c = { s.c with
    im := t.c.im, rim := t.c.rim, lim := t.c.lim, tsig := t.c.tsig, mlock := t.c.mlock, tlock := t.c.tlock
    rdh := t.c.rdh, rdt := t.c.rdt, rdfree := t.c.rdfree, rb := t.c.rb, tdh := t.c.tdh, tdt := t.c.tdt, tb := t.c.tb
    rxw := t.c.rxw, txw := t.c.txw, lnk := t.c.lnk, txcs := t.c.txcs
    speedHist := t.c.speedHist, linkUp := t.c.linkUp, speedIdx := t.c.speedIdx
    fault := t.c.fault, trace := t.c.trace, oq := t.c.oq, regs := t.c.regs, dev := t.c.dev }
  im : t.c.im = s.c.im ∨ t.c.im = s.c.im ||| cls
  trace : s.c.trace <+: t.c.trace
  fault : s.c.fault <+: t.c.fault

namespace WorkerFrame

variable {cls : Word} {u : State}

/-- An update that leaves the mask, the trace and the fault record alone may follow. -/
theorem after (h : WorkerFrame cls s t) (hc : u.c = { t.c with
      im := t.c.im, rim := u.c.rim, lim := u.c.lim, tsig := u.c.tsig, mlock := u.c.mlock, tlock := u.c.tlock
      rdh := u.c.rdh, rdt := u.c.rdt, rdfree := u.c.rdfree, rb := u.c.rb, tdh := u.c.tdh, tdt := u.c.tdt, tb := u.c.tb
      rxw := u.c.rxw, txw := u.c.txw, lnk := u.c.lnk, txcs := u.c.txcs
      speedHist := u.c.speedHist, linkUp := u.c.linkUp, speedIdx := u.c.speedIdx
      fault := t.c.fault, trace := u.c.trace, oq := u.c.oq, regs := u.c.regs, dev := u.c.dev })
    (ht : t.c.trace <+: u.c.trace) : WorkerFrame cls s u := by
  have him : u.c.im = t.c.im := by rw [hc]
  have hf : u.c.fault = t.c.fault := by rw [hc]
  refine ⟨?_, by rw [him]; exact h.im, h.trace.trans ht, by rw [hf]; exact h.fault⟩
  rw [hc, h.c]

theorem armStep {a : AgentId} {p : ArmPc} {jump : ArmPc → State → State} {done : State → State}
    (hj : ∀ q v, WorkerFrame cls s v → WorkerFrame cls s (jump q v))
    (hd : ∀ v, WorkerFrame cls s v → WorkerFrame cls s (done v))
    (h : Machine.armStep s a cls p jump done = .go t) : WorkerFrame cls s t := by
  rcases armStep_go h with ⟨-, -, rfl⟩ | ⟨-, rfl⟩ | ⟨-, rfl⟩ | ⟨-, rfl⟩
  · exact hj _ _ ⟨rfl, .inl rfl, List.prefix_rfl, List.prefix_rfl⟩
  · exact hj _ _ ⟨rfl, .inr rfl, List.prefix_rfl, List.prefix_rfl⟩
  · exact hj _ _ ⟨rfl, .inl rfl, List.prefix_append _ _, List.prefix_rfl⟩
  · exact hd _ ⟨rfl, .inl rfl, List.prefix_rfl, List.prefix_rfl⟩

theorem wakeStep {a : AgentId} {p : WakePc} {take : State → State} {jump : WakePc → State → State}
    {done : State → State} (ht : WorkerFrame cls s (take s))
    (hj : ∀ q v, WorkerFrame cls s v → WorkerFrame cls s (jump q v))
    (hd : ∀ v, WorkerFrame cls s v → WorkerFrame cls s (done v))
    (h : Machine.wakeStep s a p take jump done = .go t) : WorkerFrame cls s t := by
  rcases wakeStep_go h with ⟨-, -, rfl⟩ | ⟨-, rfl⟩ | ⟨-, rfl⟩
  · exact hj _ _ ⟨rfl, .inl rfl, List.prefix_rfl, List.prefix_rfl⟩
  · exact hj _ _ ht
  · exact hd _ ⟨rfl, .inl rfl, List.prefix_rfl, List.prefix_rfl⟩

theorem repStep {p : RepPc} {draw : Nat} {jump : RepPc → State → State} {done : State → State}
    (hj : ∀ q v, WorkerFrame cls s v → WorkerFrame cls s (jump q v))
    (hd : ∀ v, WorkerFrame cls s v → WorkerFrame cls s (done v))
    (h : Machine.repStep s p draw jump done = .go t) : WorkerFrame cls s t := by
  rcases repStep_go h with ⟨-, rfl⟩ | ⟨-, -, rfl⟩ | ⟨-, b, u, hp, rfl⟩ | ⟨-, rfl⟩ | ⟨b, -, rfl⟩ | ⟨b, r, -, -, rfl⟩ |
    ⟨b, r, -, -, rfl⟩ | ⟨b, u, -, rfl, rfl⟩ | ⟨-, rfl⟩
  · exact hj _ _ ⟨rfl, .inl rfl, List.prefix_append _ _, List.prefix_rfl⟩
  · exact hj _ _ ⟨rfl, .inl rfl, List.prefix_rfl, List.prefix_rfl⟩
  · obtain ⟨-, rfl⟩ := poolPop_some hp
    exact hj _ _ ⟨rfl, .inl rfl, List.prefix_rfl, List.prefix_rfl⟩
  · exact hj _ _ ⟨rfl, .inl rfl, List.prefix_append _ _, List.prefix_rfl⟩
  · exact hj _ _ ⟨rfl, .inl rfl, List.prefix_rfl, List.prefix_rfl⟩
  · exact hj _ _ ⟨rfl, .inl rfl, List.prefix_rfl, List.prefix_rfl⟩
  · exact hj _ _ ⟨rfl, .inl rfl, List.prefix_rfl, List.prefix_rfl⟩
  · exact hj _ _ ⟨rfl, .inl rfl, List.prefix_rfl, List.prefix_rfl⟩
  · exact hd _ ⟨rfl, .inl rfl, List.prefix_append _ _, List.prefix_rfl⟩

theorem refl (s : State) : WorkerFrame cls s s := ⟨rfl, .inl rfl, List.prefix_rfl, List.prefix_rfl⟩

end WorkerFrame

/-- The RX worker. -/
theorem rxwStep_frame {d : Nat} (h : rxwStep s d = .go t) : WorkerFrame rxClass s t := by
  cases hc : s.c.rxw.ctl <;> simp only [rxwStep, hc] at h
  case w1 p => refine .armStep (fun _ _ k => ?_) (fun _ k => ?_) h <;> exact k.after rfl List.prefix_rfl
  case w2 =>
    split at h <;> cases h
    exact (WorkerFrame.refl s).after rfl List.prefix_rfl
  case w3 p =>
    refine .wakeStep ((WorkerFrame.refl s).after rfl List.prefix_rfl) (fun _ _ k => ?_) (fun _ k => ?_) h <;>
      exact k.after rfl List.prefix_rfl
  case s1 => split at h <;> cases h <;> exact (WorkerFrame.refl s).after rfl List.prefix_rfl
  case s3 =>
    split at h <;> cases h
    · exact ⟨rfl, .inl rfl, List.prefix_rfl, List.prefix_append _ _⟩
    · exact (WorkerFrame.refl s).after rfl List.prefix_rfl
  case d1 => cases h; exact (WorkerFrame.refl s).after rfl List.prefix_rfl
  case d2 =>
    split at h
    · cases h
    · split at h <;> cases h
      · exact ⟨rfl, .inl rfl, List.prefix_rfl, List.prefix_append _ _⟩
      · exact (WorkerFrame.refl s).after rfl List.prefix_rfl
  case d4 => cases h; exact (WorkerFrame.refl s).after rfl List.prefix_rfl
  case d5 => cases h; exact (WorkerFrame.refl s).after rfl (List.prefix_append _ _)
  case discard => cases h; exact (WorkerFrame.refl s).after rfl (List.prefix_append _ _)
  case s6 => cases h; exact (WorkerFrame.refl s).after rfl List.prefix_rfl
  case s7 => cases h; exact (WorkerFrame.refl s).after rfl List.prefix_rfl
  case s8 p => refine .repStep (fun _ _ k => ?_) (fun _ k => ?_) h <;> exact k.after rfl List.prefix_rfl
  case p1 p => refine .repStep (fun _ _ k => ?_) (fun _ k => ?_) h <;> exact k.after rfl List.prefix_rfl
  all_goals cases h

theorem txReclaim_frame {cls : Word} (s : State) : WorkerFrame cls s (txReclaim s) := by
  unfold txReclaim
  split
  · rename_i b hb
    unfold releaseTx
    rcases releaseBuf_cases (s.modC fun c => { c with tb := c.tb.set c.tdh.toNat none }) b with h | h | h <;> rw [h] <;>
      exact (WorkerFrame.refl s).after rfl (List.prefix_append _ _)
  · exact (WorkerFrame.refl s).after rfl (List.prefix_append _ _)

/-- TX_ROUTINE, whoever runs it. -/
theorem txStep_frame {a : AgentId} {r : TxRun} {jump : TxRun → State → State} {done : State → State}
    (hj : ∀ q v, WorkerFrame txClass s v → WorkerFrame txClass s (jump q v))
    (hd : ∀ v, WorkerFrame txClass s v → WorkerFrame txClass s (done v)) (h : txStep s a r jump done = .go t) :
    WorkerFrame txClass s t := by
  have hs : WorkerFrame txClass s s := .refl s
  cases hc : r.pc <;> simp only [txStep, hc] at h
  case x0 =>
    obtain ⟨-, rfl⟩ := acquireT_go h
    exact hj _ _ (hs.after rfl List.prefix_rfl)
  case a1 => split at h <;> cases h <;> exact hj _ _ hs
  case a3 => cases h; exact hj _ _ (txReclaim_frame s)
  case a4 => cases h; exact hj _ _ (hs.after rfl List.prefix_rfl)
  case b2 =>
    split at h <;> cases h
    · exact hj _ _ hs
    · exact hj _ _ (hs.after rfl List.prefix_rfl)
  case b4 =>
    split at h
    · cases h
    · split at h <;> cases h
      · exact hj _ _ (hs.after rfl List.prefix_rfl)
      · exact hj _ _ ⟨rfl, .inl rfl, List.prefix_rfl, List.prefix_append _ _⟩
  case b5 =>
    split at h <;> cases h
    exact hj _ _ (hs.after rfl List.prefix_rfl)
  case b6 =>
    split at h <;> cases h
    exact hj _ _ (hs.after rfl List.prefix_rfl)
  case b7 => cases h; exact hj _ _ (hs.after rfl List.prefix_rfl)
  case c1 => split at h <;> cases h <;> exact hj _ _ hs
  case c1Arm p => exact .armStep (fun _ _ k => by exact hj _ _ k) (fun _ k => by exact hj _ _ k) h
  case c1Emit => cases h; exact hj _ _ (hs.after rfl (List.prefix_append _ _))
  case e1 => cases h; exact hj _ _ (hs.after rfl (List.prefix_append _ _))
  case e2 => cases h; exact hd _ (hs.after rfl List.prefix_rfl)
  all_goals cases h

/-- The TX worker. -/
theorem txwStep_frame (h : txwStep s = .go t) : WorkerFrame txClass s t := by
  cases hc : s.c.txw <;> simp only [txwStep, hc] at h
  case t1 p => refine .armStep (fun _ _ k => ?_) (fun _ k => ?_) h <;> exact k.after rfl List.prefix_rfl
  case t2 =>
    split at h <;> cases h
    exact (WorkerFrame.refl s).after rfl List.prefix_rfl
  case t3 p =>
    refine .wakeStep ((WorkerFrame.refl s).after rfl List.prefix_rfl) (fun _ _ k => ?_) (fun _ k => ?_) h <;>
      exact k.after rfl List.prefix_rfl
  case t4 r => refine txStep_frame (fun _ _ k => ?_) (fun _ k => ?_) h <;> exact k.after rfl List.prefix_rfl
  all_goals cases h

/-- A direct-send caller. -/
theorem txcStep_frame {k : Nat} (h : txcStep s k = .go t) : WorkerFrame txClass s t := by
  unfold txcStep at h
  split at h
  · cases h
  · refine txStep_frame (fun _ _ k => ?_) (fun _ k => ?_) h
    · exact k.after rfl List.prefix_rfl
    · exact k.after rfl (List.prefix_append _ _)

/-- The link monitor. -/
theorem lnkStep_frame (h : lnkStep s = .go t) : WorkerFrame linkClass s t := by
  have hs : WorkerFrame linkClass s s := .refl s
  cases hc : s.c.lnk <;> simp only [lnkStep, hc] at h
  case l1 p =>
    unfold phyReadStep at h
    rcases hsStep_go h with ⟨-, rfl⟩ | ⟨i, -, rfl | ⟨-, -, rfl⟩ | rfl⟩ | ⟨i, -, rfl⟩
    · exact hs.after rfl (List.prefix_append _ _)
    · exact hs.after rfl (List.prefix_append _ _)
    · exact hs.after rfl (List.prefix_append _ _)
    · exact hs.after rfl (List.prefix_append _ _)
    · exact hs.after rfl List.prefix_rfl
  case l2 => cases h; exact hs.after rfl (List.prefix_append _ _)
  case l3 v => obtain rfl := StepRes.go.inj h; exact hs.after rfl List.prefix_rfl
  case l4 up idx => cases h; exact hs.after rfl (List.prefix_append _ _)
  case l5a => obtain ⟨-, rfl⟩ := acquireM_go h; exact hs.after rfl List.prefix_rfl
  case l5b => cases h; exact hs.after rfl List.prefix_rfl
  case l5c => cases h; exact hs.after rfl List.prefix_rfl
  case l6 p => refine .armStep (fun _ _ k => ?_) (fun _ k => ?_) h <;> exact k.after rfl List.prefix_rfl
  case l7 =>
    split at h <;> cases h
    exact hs.after rfl List.prefix_rfl
  case l8 p =>
    refine .wakeStep (hs.after rfl List.prefix_rfl) (fun _ _ k => ?_) (fun _ k => ?_) h <;>
      exact k.after rfl List.prefix_rfl
  all_goals cases h

/-- The dispatcher leaves all but the mask, the flags, `mlock`, ICR, HwIMS, the trace and its own locals alone. -/
theorem dispStep_frame (h : dispStep s = .go t) :
    t.c = { s.c with
      im := t.c.im, rim := t.c.rim, lim := t.c.lim, tsig := t.c.tsig, mlock := t.c.mlock, disp := t.c.disp
      trace := t.c.trace, regs := t.c.regs } ∧ s.c.trace <+: t.c.trace := by
  cases hc : s.c.disp.ctl <;> simp only [dispStep, hc] at h
  case idle =>
    split at h <;> cases h
    unfold takeInterrupt
    split <;> exact ⟨rfl, List.prefix_rfl⟩
  case q1 => obtain ⟨-, rfl⟩ := acquireM_go h; exact ⟨rfl, List.prefix_rfl⟩
  all_goals obtain rfl := StepRes.go.inj h
  case q2 => exact ⟨rfl, List.prefix_append _ _⟩
  case q3 => simp [dispRead, regAfterRead]
  case l1 => simp [dispRead, regAfterRead]
  case x2 => exact ⟨rfl, List.prefix_append _ _⟩
  all_goals exact ⟨rfl, List.prefix_rfl⟩

end Sys2Proof.Machine
end

