-- ==== Sys2Proof/Tests/Slice0.lean ====
section
/-!
SUPPORT. Tests: ill-formed terms, the words of the spec's encodings, the test vectors of 95_test_vectors.md on one step
or one turn, and a witness for the hypotheses of every statement. Expected values are the spec's.
-/

section

open Sys2Proof Sys2Proof.Machine

namespace Sys2Proof.Tests

/-! ## Small states -/

/-- A controller with rings of 8. -/
def tinyParams : Params := { Params.reference with nrd := 8, ntd := 8 }

/-- One controller and four pool buffers, at discovery. -/
def tiny : State :=
  { State.reset with
    c := Ctlr.discovery 0 tinyParams 0x100000#64 0x200000#64
    pool := { npool := 4, rbsize := 2048 }
    bufs := (List.range 4).map fun b => (b, Buf.pool 2048 b)
    free := List.range 4 }

def tinyWith (f : Ctlr → Ctlr) : State := { tiny with c := f tiny.c }

/-- Running, the three workers parked. -/
def running (f : Ctlr → Ctlr) : State :=
  tinyWith fun c => f { c with lc := .running, rxw := { c.rxw with ctl := .w2 }, txw := .t2, lnk := .l7 }

/-- An operation's word at the port. -/
def atPort (s : State) (f : Format) (n : Nat) : State :=
  { s with port := [{ fmt := f, bytes := leBytes f.size n }] }

def after (o : Host.Outcome State Fault Refusal) (p : State → Bool) : Bool :=
  match o with
  | .next t => p t
  | _ => false

def afterGo (o : StepRes) (p : State → Bool) : Bool :=
  match o with
  | .go t => p t
  | _ => false

/-! ## Ill-formed terms -/

theorem test_wf_reservedOp : (Instr.reservedOp 0x1#64).wellFormed = false := by decide
theorem test_wf_context : (Instr.txdescContext 0x8B00003C#32).wellFormed = false := by decide
theorem test_wf_extdata : (Instr.txdescExtdata 0x20000000#32).wellFormed = false := by decide
theorem test_wf_reserved : (Instr.txdescReserved 0x20100000#32).wellFormed = false := by decide
theorem test_wf_txdw : (Instr.causeTxdw 0x2#32).wellFormed = false := by decide
theorem test_wf_txqe : (Instr.causeTxqe 0x3#32).wellFormed = false := by decide
theorem test_wf_lsc : (Instr.causeLsc 0x80#32).wellFormed = false := by decide
theorem test_wf_rxseq : (Instr.causeRxseq 0x4#32).wellFormed = false := by decide
theorem test_wf_rxdmt0 : (Instr.causeRxdmt0 0x18#32).wellFormed = false := by decide
theorem test_wf_rxo : (Instr.causeRxo 0x0#32).wellFormed = false := by decide
theorem test_wf_rxt0 : (Instr.causeRxt0 0x20000#32).wellFormed = false := by decide
theorem test_wf_ack : (Instr.causeAck 0x20020#32).wellFormed = true ∧ (Instr.causeAck 0x20040#32).wellFormed = false := by
  decide

/-! ## A word for every row (30_encoding.md R110, R130, R140, R148, R150, R161) -/

theorem test_decode_hostCmd :
    decodeTableWord 64 0x0000000000000001 = some .attach
      ∧ decodeTableWord 64 0x0000000000000002 = some .txRequest
      ∧ decodeTableWord 64 0x0000000000000003 = some .shutdown
      ∧ decodeTableWord 64 0x0000000000000104 = some (.setPromisc true)
      ∧ decodeTableWord 64 0x0100005E00010105 = some (.setMcast true 0x0100005E0001#48)
      ∧ decodeTableWord 64 0x0000000000200006 = some (.setRdtr 0x20#48)
      ∧ decodeTableWord 64 0x00000000FFFF0007 = some (.setRadv 0xFFFF#48)
      ∧ decodeTableWord 64 0x0000000000000008 = some .dump
      ∧ decodeTableWord 64 0x0000000000070009 = some (.bufFree 7#32)
      ∧ decodeTableWord 64 0x000000000000000A = some (.reservedOp 0xA#64) := by
  decide

theorem test_decode_malformed_cmd :
    decodeTableWord 64 0x0000000000000101 = some (.reservedOp 0x101#64)
      ∧ decodeTableWord 64 0x0000000000000201 = some (.reservedOp 0x201#64)
      ∧ decodeTableWord 64 0x0000000000000107 = some (.reservedOp 0x107#64)
      ∧ decodeTableWord 64 0x0001000000070009 = some (.reservedOp 0x0001000000070009#64)
      ∧ decodeTableWord 64 0x0000000100000006 = some (.setRdtr 0x10000#48) := by
  decide

/-- A read at each plain offset of R110. -/
theorem test_decode_mmio_low :
    (∀ p ∈ [(0x00000, Instr.mmioCtrl .read), (0x00008, .mmioStatus .read), (0x00014, .mmioEerd .read),
        (0x00018, .mmioCtrlExt .read), (0x00020, .mmioMdic .read), (0x00028, .mmioFcal .read),
        (0x0002C, .mmioFcah .read), (0x00030, .mmioFct .read), (0x000C0, .mmioIcr .read), (0x000D0, .mmioIms .read),
        (0x000D8, .mmioImc .read), (0x00100, .mmioRctl .read), (0x00170, .mmioFcttv .read),
        (0x00400, .mmioTctl .read), (0x00410, .mmioTipg .read), (0x01000, .mmioPba .read)],
      decode .mmio (leBytes 8 p.1) = .ok p.2) := by
  decide

theorem test_decode_mmio_high :
    (∀ p ∈ [(0x02160, Instr.mmioFcrtl .read), (0x02168, .mmioFcrth .read), (0x02800, .mmioRdbal .read),
        (0x02804, .mmioRdbah .read), (0x02808, .mmioRdlen .read), (0x02810, .mmioRdh .read), (0x02818, .mmioRdt .read),
        (0x02820, .mmioRdtr .read), (0x0282C, .mmioRadv .read), (0x03800, .mmioTdbal .read),
        (0x03804, .mmioTdbah .read), (0x03808, .mmioTdlen .read), (0x03810, .mmioTdh .read), (0x03818, .mmioTdt .read),
        (0x03820, .mmioTidv .read), (0x05000, .mmioRxcsum .read)],
      decode .mmio (leBytes 8 p.1) = .ok p.2) := by
  decide

/-- TV-E-11, TV-E-12, and the ends of the arrays. -/
theorem test_decode_mmio_arrays :
    (∀ p ∈ [(0x04000, Instr.mmioStat 0 .read), (0x04120, .mmioStat 72 .read), (0x05200, .mmioMta 0 .read),
        (0x053FC, .mmioMta 127 .read), (0x05400, .mmioRal 0 .read), (0x05478, .mmioRal 15 .read),
        (0x05404, .mmioRah 0 .read), (0x0547C, .mmioRah 15 .read)],
      decode .mmio (leBytes 8 p.1) = .ok p.2)
      ∧ decode .mmio (leBytes 8 0x8B00003C80003818) = .ok (.mmioTdt (.write 0x8B00003C#32)) := by
  decide

theorem test_decode_mmio_refused :
    decode .mmio (leBytes 8 0x00004) = .error .reservedOffset ∧ decode .mmio (leBytes 8 0x00002) = .error .misalignedOffset
      ∧ decode .mmio (leBytes 8 0x04124) = .error .reservedOffset
      ∧ decode .mmio (leBytes 8 0x05480) = .error .reservedOffset ∧ decode .mmio [] = .error .length := by
  decide

/-- Another register map (R8, D3): RDT at 0x00128, RDH at RDT's default offset, and pairs of bits exchanged: the causes
TXDW and LSC, RS and bit 28 of a transmit control word, DD and EOP of a receive status byte. -/
def otherMap : RegMap where
  offsets := [(.rdt, 0x00128), (.rdh, 0x02818)]
  bits := [(.cause, ((Vector.finRange 32).set 0 2).set 2 0), (.txControl, ((Vector.finRange 32).set 27 28).set 28 27),
    (.rxStatus, ((Vector.finRange 32).set 0 1).set 1 0)]

theorem test_decode_other_map :
    decodeWith otherMap .mmio (leBytes 8 0x00000007_80000128) = .ok (.mmioRdt (.write 7#32))
      ∧ decodeWith otherMap .mmio (leBytes 8 0x02818) = .ok (.mmioRdh .read)
      ∧ decodeWith otherMap .mmio (leBytes 8 0x02810) = .error .reservedOffset
      ∧ decodeWith otherMap .icr (leBytes 4 0x00000084) = .ok (.causeTxdw 0x00000081#32)
      ∧ encodeWith otherMap (.causeTxdw 0x00000081#32) = leBytes 4 0x00000084
      ∧ encodeWith otherMap (.mmioRdt (.write 7#32)) = leBytes 8 0x00000007_80000128 := by
  refine ⟨?_, ?_, ?_, ?_, ?_, ?_⟩ <;> decide +kernel

/-- R85, D5: a register at no multiple of 4, outside the window or at another's offset makes no register map. -/
theorem test_map_ok :
    RegMap.pro1000.ok = true ∧ otherMap.ok = true ∧ (⟨[(.rdt, 0x0012A)], []⟩ : RegMap).ok = false
      ∧ (⟨[(.rdt, 0x20000)], []⟩ : RegMap).ok = false ∧ (⟨[(.rdt, 0x02810)], []⟩ : RegMap).ok = false
      ∧ (⟨[], [(.rxStatus, ((Vector.finRange 32).set 0 8).set 8 0)]⟩ : RegMap).ok = false := by
  refine ⟨?_, ?_, ?_, ?_, ?_, ?_⟩ <;> decide +kernel

/-- TV-E-15, TV-E-8, TV-E-9. -/
theorem test_decode_descriptors :
    decode .rxDesc [0x00, 0x00, 0x00, 0x10, 0x00, 0x00, 0x00, 0x00, 0x3C, 0x00, 0xEF, 0xBE, 0x63, 0x00, 0x00, 0x00]
        = .ok (.rxdesc
            { addrLo := 0x10000000#32, addrHi := 0#32, length := 60#16, checksum := 0xBEEF#16, status := 0x63#8,
              errors := 0#8, special := 0#16 })
      ∧ decodeTableWord 32 0x8B0005EA = some (.txdescLegacy 1514#16)
      ∧ decodeTableWord 32 0x20000000 = some (.txdescContext 0x20000000#32)
      ∧ decodeTableWord 32 0x20100000 = some (.txdescExtdata 0x20100000#32)
      ∧ decodeTableWord 32 0x20500000 = some (.txdescReserved 0x20500000#32)
      ∧ decode .txCtrl (leBytes 4 0x8B01003C) = .error .legacyForm := by
  decide

theorem test_decode_causes :
    decode .icr (leBytes 4 0x00000001) = .ok (.causeTxdw 0x00000001#32)
      ∧ decode .icr (leBytes 4 0x00000002) = .ok (.causeTxqe 0x00000002#32)
      ∧ decode .icr (leBytes 4 0x00000004) = .ok (.causeLsc 0x00000004#32)
      ∧ decode .icr (leBytes 4 0x00000008) = .ok (.causeRxseq 0x00000008#32)
      ∧ decode .icr (leBytes 4 0x00000010) = .ok (.causeRxdmt0 0x00000010#32)
      ∧ decode .icr (leBytes 4 0x00000040) = .ok (.causeRxo 0x00000040#32)
      ∧ decode .icr (leBytes 4 0x00000080) = .ok (.causeRxt0 0x00000080#32)
      ∧ decode .icr (leBytes 4 0x00020000) = .ok (.causeAck 0x00020000#32)
      ∧ decode .icr (leBytes 4 0x00000020) = .error .noNamedCause := by
  decide

/-! ## Fields (95_test_vectors.md, group E; 44_lifecycle.md R325-R327) -/

theorem test_rctl_words :
    rctlInit .half 2048 = 0x00008002#32 ∧ rctlInit .quarter 4096 = 0x02038102#32
      ∧ promiscValue true 0x00008002#32 = 0x0000801A#32 := by
  decide
theorem test_ring_words : ringLen 256 = 0x00001000#32 ∧ ringLen 8 = 0x00000080#32 ∧ rxcsumInit = 0x0000030E#32 := by
  decide
theorem test_station_words :
    eaOf ((Vector.replicate 64 0#16).set 0 0x1B00#16 |>.set 1 0x3A21#16 |>.set 2 0xFE4C#16)
        = #v[0x00, 0x1B, 0x21, 0x3A, 0x4C, 0xFE]
      ∧ ralOf #v[0x00, 0x1B, 0x21, 0x3A, 0x4C, 0xFE] = 0x3A211B00#32
      ∧ rahOf #v[0x00, 0x1B, 0x21, 0x3A, 0x4C, 0xFE] = 0x8000FE4C#32
      ∧ eaAdjust #v[0x00, 0x1B, 0x21, 0x3A, 0x4C, 0xFE] 0x00000008#32 = #v[0x00, 0x1B, 0x21, 0x3A, 0x4C, 0x00] := by
  decide
theorem test_handshake_words :
    eerdRequest .doneBit4Addr8 3 = 0x00000301#32 ∧ eerdRequest .doneBit1Addr2 3 = 0x0000000D#32
      ∧ mdicReadReq 1 0x11 = 0x08310000#32 ∧ mdicWriteReq 1 0 0x1140 = 0x04201140#32 := by
  decide
theorem test_mcast_hashes :
    mcastHash 0x0100005E0001#48 = 0x010#12 ∧ mcastHash 0xFAFF7F5E0001#48 = 0xFAF#12
      ∧ mcastHash 0x010000003333#48 = 0x010#12 ∧ mcastEntry 0xFAF#12 = 125 ∧ mcastBit 0xFAF#12 = 0x00008000#32 := by
  decide
/-- R402, with VARIANT k = 0: 0xAC00 is up at 1000 Mb/s. -/
theorem test_phy_decode : phyDecode (.standard 0) 0xAC00#16 = (true, 2) ∧ phyDecode (.standard 1) 0xC000#16 = (false, 3) := by
  decide
/-- TV-R-10 to TV-R-14. -/
theorem test_triggers :
    rxTrigger 256 224#16 0x80#32 = true ∧ rxTrigger 256 225#16 0x80#32 = false ∧ rxTrigger 256 230#16 0x90#32 = true
      ∧ rxTrigger 32 0#16 0x80#32 = true ∧ rxTrigger 16 0#16 0x80#32 = false := by
  decide
theorem test_next_wraps : ringNext 255#16 256 = 0#16 ∧ ringNext 0xFFFF#16 65536 = 0#16 ∧ ringDist 254#16 2#16 256 = 4#16 := by
  decide

/-! ## Memory -/

theorem test_mem_canonical :
    Mem.put (Mem.put [] 5 7#8) 3 1#8 = [(3, 1#8), (5, 7#8)] ∧ Mem.put [(3, 1#8), (5, 7#8)] 3 0#8 = [(5, 7#8)]
      ∧ Mem.wf [(3, 1#8), (5, 7#8)] = true ∧ Mem.wf [(5, 7#8), (3, 1#8)] = false ∧ Mem.wf [(3, 0#8)] = false := by
  decide
/-- A word across the top of the address space wraps (R11). -/
theorem test_mem_wraps :
    Mem.write32 [] 0xFFFFFFFFFFFFFFFE#64 0x44332211#32
      = [(0, 0x33#8), (1, 0x44#8), (2 ^ 64 - 2, 0x11#8), (2 ^ 64 - 1, 0x22#8)] := by
  decide

/-! ## One operation (95_test_vectors.md, group H and others) -/

/-- TV-H-1, and R330: no rebalance, so line A2. -/
theorem test_attach : after (exec .attach tiny) (fun t => t.c.lc == .resetting && t.c.lcCtl == .a2) = true := by decide
/-- TV-H-2. -/
theorem test_attach_twice :
    after (exec .attach (running id)) (fun t => t.c.trace == [.cmd .attach .notReady] && t.c.lc == .running) = true := by
  decide
/-- TV-H-12. -/
theorem test_txRequest_early : after (exec .txRequest tiny) (fun t => t.c.trace == [.cmd .txRequest .notReady]) = true := by
  decide
theorem test_txRequest :
    after (exec .txRequest (running id)) (fun t => t.c.txcs == [{ k := 0, run := TxRun.start }]) = true := by
  decide
theorem test_shutdown :
    after (exec .shutdown (running id)) (fun t => t.c.mlock == some .lc && t.c.lcCtl == .z2) = true := by
  decide
/-- TV-H-19. -/
theorem test_setPromisc_halted :
    after (exec (.setPromisc true) (tinyWith fun c => { c with lc := .halted }))
      (fun t => t.c.trace == [.cmd (.setPromisc true) .notReady] && !t.c.promisc) = true := by
  decide
theorem test_setPromisc_stored :
    after (exec (.setPromisc true) tiny) (fun t => t.c.promisc && t.c.trace == [.cmd (.setPromisc true) .ok]) = true := by
  decide
/-- TV-H-22. -/
theorem test_setMcast :
    after (exec (.setMcast true 0xFAFF7F5E0001#48) (running id))
      (fun t => t.c.lcCtl == .mcastW 0x00008000#32 && t.c.trace == [.mmioR (.mta 125) 0#32]) = true := by
  decide
/-- TV-H-8. -/
theorem test_setRdtr_large :
    after (exec (.setRdtr 0x10000#48) (running id))
      (fun t => t.c.rdtr == 0#16 && t.c.trace == [.cmd (.setRdtr 0x10000#48) .badArgument]) = true := by
  decide
/-- TV-H-9. -/
theorem test_setRadv :
    after (exec (.setRadv 0xFFFF#48) (running id)) (fun t => t.c.radv == 0xFFFF#16 && t.c.lcCtl == .tunableW) = true := by
  decide
theorem test_dump : after (exec .dump (running id)) (fun t => t.c.slock == some .lc && t.c.lcCtl == .u2 0) = true := by
  decide
/-- TV-H-14 and TV-H-15, on a pool of four. -/
theorem test_bufFree :
    after (exec (.bufFree 2#32) { tiny with free := [0, 1, 3], bufs := bufMod tiny.bufs 2 (Buf.setOwner .host) })
      (fun t => t.free == [2, 0, 1, 3] && (t.buf? 2).map Buf.owner == some .pool) = true
      ∧ after (exec (.bufFree 2#32) tiny) (fun t => t.c.trace == [.cmd (.bufFree 2#32) .badArgument]) = true := by
  decide
/-- TV-H-13. -/
theorem test_reservedOp :
    after (step (atPort tiny .hostCmd 0xA)) (fun t => t.c.trace == [.cmd (.reservedOp 0xA#64) .badArgument]) = true := by
  decide
/-- R422: RST reads 1 while the reset is pending, whatever is written. -/
theorem test_ctrl :
    after (exec (.mmioCtrl (.write 0x04000041#32)) tiny) (fun t => after (exec (.mmioCtrl (.write 0x40#32)) t)
      (fun u => u.c.regs.ctrl == 0x04000040#32)) = true := by
  decide
theorem test_status : exec (.mmioStatus (.write 0#32)) tiny = .refused (.deviceInterface .status) := by rfl
theorem test_eerd :
    after (exec (.mmioEerd (.write 0x00000301#32)) tiny) (fun t => t.c.dev.eerdPending && t.c.regs.eerd == 0x301#32)
      = true := by
  decide
theorem test_ctrlExt :
    after (exec (.mmioCtrlExt (.write 0x2000#32)) tiny) (fun t => (nicAct t .eeRstDone).c.regs.ctrlExt == 0#32) = true := by
  decide
/-- R434: the data of the PHY register and R in one step. -/
theorem test_mdic :
    after (exec (.mmioMdic (.write 0x08310000#32))
        (tinyWith fun c => { c with dev := { c.dev with phy := c.dev.phy.set 0x11 0xAC00#16 } }))
      (fun t => (nicAct t (.mdicDone false)).c.regs.mdic == 0x1831AC00#32) = true := by
  decide
/-- R435. -/
theorem test_icr :
    after (exec (.mmioIcr .read) (tinyWith fun c => { c with regs := { c.regs with icr := 0x84#32 } }))
      (fun t => t.c.regs.icr == 0#32 && t.c.trace == [.mmioR .icr 0x84#32]) = true := by
  decide
/-- R436. -/
theorem test_ims_imc :
    after (exec (.mmioIms (.write 0x85#32)) tiny) (fun t => after (exec (.mmioImc (.write 0x81#32)) t)
      (fun u => u.c.regs.hwIms == 0x4#32)) = true := by
  decide
theorem test_plain_registers :
    (∀ r ∈ [Reg.fcal, .fcah, .fct, .fcttv, .rctl, .tctl, .tipg, .pba, .fcrtl, .fcrth, .rdbal, .rdbah, .rdlen, .rdtr,
        .radv, .tdbal, .tdbah, .tdlen, .tidv, .rxcsum, .mta 127, .ral 15, .rah 15],
      after (exec (mmioInstr r (.write 0x12345678#32)) tiny) (fun t => regRead t.c.regs r == 0x12345678#32) = true) := by
  decide
/-- R165: bits 31:16 of an index register are not kept. -/
theorem test_index_registers :
    (∀ r ∈ [Reg.rdh, .rdt, .tdh, .tdt],
      after (exec (mmioInstr r (.write 0x12340007#32)) tiny) (fun t => regRead t.c.regs r == 7#32) = true) := by
  decide
/-- R438. -/
theorem test_stat :
    after (exec (.mmioStat 72 .read) (tinyWith fun c => { c with regs := { c.regs with stat := c.regs.stat.set 72 5#32 } }))
      (fun t => t.c.regs.stat[72] == 0#32 && t.c.trace == [.mmioR (.stat 72) 5#32]) = true := by
  decide

/-- The receiver enabled and three descriptors owned, slot 0 holding buffer 0. -/
def rxReady : State :=
  let s := tinyWith fun c =>
    { c with rdt := 3, rdfree := 3, rb := c.rb.set 0 (some 0), regs := { c.regs with rctl := 2#32, rdt := 3#16 } }
  { s with mem := Mem.write32 [] 0x100000#64 0x10000000#32 }

def rxFrame : RxDesc :=
  { addrLo := 0, addrHi := 0, length := 60#16, checksum := 0xBEEF#16, status := 0x63#8, errors := 0, special := 0 }

/-- TV-E-15: the bytes of the descriptor after the write-back; the address is not written. -/
theorem test_rxdesc_bytes :
    (List.range 16).map (fun k => Mem.read8 (rxWriteBack rxReady 0 rxFrame).mem (0x100000#64 + BitVec.ofNat 64 k)) =
      [0x00, 0x00, 0x00, 0x10, 0x00, 0x00, 0x00, 0x00, 0x3C, 0x00, 0xEF, 0xBE, 0x63, 0x00, 0x00, 0x00] := by
  decide
theorem test_rxdesc :
    after (exec (.rxdesc { rxFrame with length := 0 }) rxReady)
      (fun t => t.c.regs.hwRdh == 1#16 && Mem.read8 t.mem 0x10000C#64 == 0x63#8) = true := by
  decide
/-- R424: the frame's bytes stand in the buffer, in order. -/
theorem test_rx_frame_bytes :
    (List.range 2).map (fun k => Mem.read8 (nicAct rxReady (.rx { rxFrame with length := 2 } [0xAA#8, 0xBB#8])).mem
      (0x10000000#64 + BitVec.ofNat 64 k)) = [0xAA#8, 0xBB#8] := by
  decide
theorem test_rxdesc_disabled : exec (.rxdesc rxFrame) tiny = .next tiny := by rfl
/-- TV-E-8. -/
theorem test_txdescLegacy :
    after (exec (.txdescLegacy 1514#16) tiny) (fun t => Mem.read32 t.mem 0x200008#64 == 0x8B0005EA#32) = true := by
  decide
/-- A controller whose chip has another register map. -/
def mapped (f : Ctlr → Ctlr) (s : State) : State :=
  { s with c := f { s.c with cfg := { s.c.cfg with regMap := otherMap } } }

/-- R8: descriptors stand in memory in the chip's layout, written and read. -/
theorem test_mapped_descriptors :
    after (exec (.txdescLegacy 60#16) (mapped id tiny)) (fun t => Mem.read32 t.mem 0x200008#64 == 0x9300003C#32) = true
      ∧ Mem.read8 (rxWriteBack (mapped id rxReady) 0 { rxFrame with status := 0x01#8 }).mem 0x10000C#64 = 0x02#8
      ∧ afterGo (rxwStep { mapped (fun c => { c with rxw := { c.rxw with ctl := .s1 } }) tiny with
            mem := [(0x10000C, 0x02#8)] } 0) (fun t => t.c.rxw.ctl == .s3 && t.c.rxw.st == 0x01#8) = true := by
  refine ⟨?_, ?_, ?_⟩ <;> decide +kernel

/-- TV-T-8. -/
theorem test_txdescLegacy_long :
    after (exec (.txdescLegacy 1515#16) tiny)
      (fun t => t.mem == [] && t.c.fault == [{ kind := .upstreamContract, info := .txLength 0 1515#32 }]) = true := by
  decide
theorem test_txdesc_other_kinds :
    exec (.txdescContext 0x20000000#32) tiny = .refused (.descriptorKind .context)
      ∧ exec (.txdescExtdata 0x20100000#32) tiny = .refused (.descriptorKind .extData)
      ∧ exec (.txdescReserved 0x20500000#32) tiny = .refused (.descriptorKind .reserved) :=
  ⟨rfl, rfl, rfl⟩
/-- Every cause row latches its bit and, where it is enabled, starts the dispatcher (R431, R270). -/
theorem test_causes :
    (∀ q ∈ causes,
      after (exec (causeInstr q (causeBit q)) (tinyWith fun c => { c with regs := { c.regs with hwIms := 0x000200DD#32 } }))
        (fun t => t.c.regs.icr == causeBit q && (t.c.disp.ctl == .q1) == (q != .txqe)) = true) := by
  decide
/-- TV-D-8. -/
theorem test_cause_masked :
    after (exec (.causeRxt0 0x80#32) tiny) (fun t => t.c.regs.icr == 0x80#32 && t.c.disp.ctl == .idle) = true := by
  decide

/-! ## Launches and ends of runs -/

/-- R512, R85: (c) refuses a launch with TX_MAX_LEN 0, (e) one with a register transaction at the port or two controllers of
one identifier, and R85 one whose register map has a register at no multiple of 4. -/
theorem test_launch_premises :
    launchable (tinyWith fun c => { c with cfg := { c.cfg with txMaxLen := 0 } }) = false
      ∧ launchable (atPort tiny .mmio 0xC0) = false ∧ launchable (atPort tiny .hostCmd 1) = true
      ∧ launchable { tiny with others := [Ctlr.discovery 0 tinyParams 0x300000#64 0x400000#64] } = false
      ∧ launchable (tinyWith fun c => { c with cfg := { c.cfg with regMap := ⟨[(.rdt, 0x0012A)], []⟩ } }) = false := by
  refine ⟨?_, ?_, ?_, ?_, ?_⟩ <;> decide +kernel
/-- R49: a slot without a buffer is Empty, but not one in the range the NIC owns. -/
theorem test_rx_slot_states :
    rxSlotState rxReady 5 = .empty ∧ rxSlotState rxReady 1 = .unexpected ∧ rxSlotState rxReady 0 = .hardware := by
  decide
/-- R49, R50 after a SHUTDOWN's reset (R527): the NIC's heads at 0, the tails written, filled slots wrapping past 0. Slot 0 is
the NIC's, slot 7 Armed; with DD = 1 in Done's range a slot is Done. -/
theorem test_slot_states_overlap :
    let s := tinyWith fun c =>
      { c with rdh := 2, rdt := 1, rb := List.replicate 8 (some 0), tdh := 2, tdt := 1, tb := List.replicate 8 (some 0)
               regs := { c.regs with rdt := 6#16, tdt := 6#16 } }
    let t := { s with mem := [(0x10003C, 1#8), (0x20003C, 1#8)] }
    rxSlotState s 0 = .hardware ∧ rxSlotState s 7 = .armed ∧ rxSlotState t 3 = .done
      ∧ txSlotState s 0 = .hardware ∧ txSlotState s 7 = .armed ∧ txSlotState t 3 = .done := by
  decide
/-- R512: (d) refuses a launch with a controller past its discovery, and one with a buffer out of the pool; a second
controller may be discovered before. -/
theorem test_launch :
    launchable tiny = true ∧ launchable (tinyWith fun c => { c with rdba := 0x100040#64 }) = false
      ∧ launchable (tinyWith fun c => { c with im := 1#32 }) = false ∧ launchable { tiny with free := [1, 2, 3] } = false
      ∧ launchable (discoverCtlr tiny tinyParams 0x300000#64 0x400000#64) = true
      ∧ launchable (discoverCtlr tiny tinyParams 0x100000#64 0x400000#64) = false := by
  decide
/-- R531: a choice still to come, an operation at the port and a model fault each keep the run from its end. -/
theorem test_run_ends :
    runEnds tiny = true ∧ runEnds { tiny with sched := [.nic .eeRstDone] } = false
      ∧ runEnds (atPort tiny .hostCmd 1) = false
      ∧ runEnds (tinyWith fun c => { c with fault := [{ kind := .upstreamContract, info := .txLength 0 0 }] }) = false := by
  decide

/-! ## Turns of the agents -/

/-- Line T6 of TX_INIT: a leftover of the host goes back to it, with its event (R240, R305). -/
theorem test_tx_leftover :
    (turn .lc 0 1 { (tinyWith fun c => { c with lcCtl := .t6 3, tb := c.tb.set 3 (some 9) }) with
      bufs := [(9, { Buf.supplied 0x20000000#64 64#32 with owner := .txSlot 0 3 })] }).c.trace = [.txRelease 9]
      ∧ (turn .lc 0 1 { (tinyWith fun c => { c with lcCtl := .t6 3, tb := c.tb.set 3 (some 9) }) with
          bufs := [(9, { Buf.supplied 0x20000000#64 64#32 with owner := .txSlot 0 3 })] }).bufs
        = [(9, Buf.supplied 0x20000000#64 64#32)] := by
  decide

def dispatching (im icr : Word) : State :=
  tinyWith fun c => { c with im := im, regs := { c.regs with icr := icr, hwIms := im } }

/-- TV-D-1. -/
theorem test_dispatch :
    (turn .disp 0 12 (dispatching 0x000200DD#32 0x84#32)).c.im = 0x00000001#32
      ∧ (turn .disp 0 12 (dispatching 0x000200DD#32 0x84#32)).c.rim = 0x80#32
      ∧ (turn .disp 0 12 (dispatching 0x000200DD#32 0x84#32)).c.lim = 0x4#32
      ∧ (turn .disp 0 12 (dispatching 0x000200DD#32 0x84#32)).c.trace
        = [.mmioW .imc 0xFFFFFFFF#32, .mmioR .icr 0x84#32, .mmioR .icr 0#32, .mmioW .ims 0x00000001#32] := by
  decide
/-- TV-D-5: TXQE is cleared and ignored. -/
theorem test_dispatch_txqe :
    (turn .disp 0 12 (dispatching 0x000200DD#32 0x82#32)).c.im = 0x00000005#32
      ∧ (turn .disp 0 12 (dispatching 0x000200DD#32 0x82#32)).c.regs.icr = 0#32 := by
  decide
/-- TV-D-9. -/
theorem test_arm :
    (turn .rxw 0 4 (tinyWith fun c => { c with im := 0x4#32, rxw := { c.rxw with ctl := .w1 .m1 } })).c.trace
      = [.mmioW .ims 0x000200DC#32] := by
  decide
/-- R152: the reserved bit 3 of the errors byte is no error; bit 0 is (TV-R-6). -/
theorem test_rx_errors :
    afterGo (rxwStep { (running fun c => { c with rb := c.rb.set 0 (some 2), rxw := { c.rxw with ctl := .s3, st := 3 } }) with
        mem := [(0x10000D, 0x08#8)] } 0) (fun t => t.c.rxw.ctl == .d1 && t.c.rxw.er == 0#8) = true
      ∧ afterGo (rxwStep { (running fun c => { c with rb := c.rb.set 0 (some 2), rxw := { c.rxw with ctl := .s3, st := 3 } })
        with mem := [(0x10000D, 0x01#8)] } 0) (fun t => t.c.rxw.ctl == .discard && t.c.rxw.er == 1#8) = true := by
  decide
/-- TV-R-17. -/
theorem test_rx_no_buffer :
    (turn .rxw 0 2 (tinyWith fun c => { c with rdh := 5, rxw := { c.rxw with ctl := .s3, st := 3 } })).c.fault
      = [{ kind := .deviceContract, info := .rxNoBuffer 5 }] := by
  decide
/-- TV-P-3: an empty pool fills nothing, and the tail is written. -/
theorem test_pool_empty :
    (turn .rxw 0 3 { (tinyWith fun c => { c with rdt := 7, rxw := { c.rxw with ctl := .s8 .r3 } }) with free := [] }).c.trace
      = [.rxPoolEmpty, .mmioW .rdt 7#32] := by
  decide
/-- TV-T-6: no register write at all. -/
theorem test_tx_idle :
    (turn (.txc 0) 0 6 (running fun c => { c with tdh := 3, tdt := 3, txcNext := 1, txcs := [{ k := 0, run := TxRun.start }] })).c.trace
      = [.cmd .txRequest .ok] := by
  decide
/-- TV-L-11: the error bit is tested first. -/
theorem test_handshake_error_first :
    (turn .lnk 0 1 (tinyWith fun c => { c with lnk := .l1 (.h3 1), regs := { c.regs with mdic := 0x50000000#32 } })).c.lnk = .l2 := by
  decide
/-- TV-L-13: SHUTDOWN's accesses up to the reset request. -/
theorem test_shutdown_accesses :
    after (exec .shutdown (running fun c => { c with im := 0x000200DD#32 })) (fun t => (turn .lc 0 5 t).c.trace ==
      [.mmioW .imc 0xFFFFFFFF#32, .mmioW .rctl 0#32, .mmioW .tctl 0#32, .mmioR .ctrl 0#32, .mmioW .ctrl 0x04000000#32])
      = true := by
  decide

/-! ## Witnesses: for every statement with hypotheses, a state and operands that meet them, clause by clause -/

theorem witness_StepRunsDecodedOperation :
    (∃ s : State, ∃ w ws i, s.port = w :: ws ∧ decodeWith s.c.cfg.regMap w.fmt w.bytes = .ok i)
      ∧ (∃ s : State, ∃ w ws r, s.port = w :: ws ∧ decodeWith s.c.cfg.regMap w.fmt w.bytes = .error r)
      ∧ ∃ s : State, ∃ nbits w i, s.c.cfg.regMap.wf ∧ decodeTableWord nbits w = some i :=
  ⟨⟨atPort tiny .hostCmd 1, _, [], .attach, rfl, by decide⟩,
    ⟨atPort tiny .mmio 4, _, [], .reservedOffset, rfl, by decide⟩,
    ⟨tiny, 32, 0x8B00003C, .txdescLegacy 60#16, RegMap.pro1000_wf, by decide⟩⟩

/-- A state with one listed choice. -/
def choosing (e : Event) : State := { tiny with sched := [e] }

theorem witness_StepMakesListedChoice :
    (∃ s : State, ∃ a d es t, s.port = [] ∧ s.sched = .agent a d :: es
        ∧ agentStep a d { s with sched := es } = .go t)
      ∧ (∃ s : State, ∃ a d es, s.port = [] ∧ s.sched = .agent a d :: es
        ∧ agentStep a d { s with sched := es } = .blocked)
      ∧ (∃ s : State, ∃ a d es f, s.port = [] ∧ s.sched = .agent a d :: es
        ∧ agentStep a d { s with sched := es } = .fault f)
      ∧ (∃ s : State, ∃ x es, s.port = [] ∧ s.sched = .nic x :: es)
      ∧ (∃ s : State, ∃ x es, s.port = [] ∧ s.sched = .host x :: es)
      ∧ (∃ s : State, ∃ k es, s.port = [] ∧ s.sched = .select k :: es)
      ∧ (∃ s : State, ∃ p a b es, s.port = [] ∧ s.sched = .discover p a b :: es) ∧ ∃ s : State, s.port = [] ∧ s.sched = [] :=
  ⟨⟨{ choosing (.agent .lc 0) with c := { tiny.c with lcCtl := .a2 } }, .lc, 0, [], _, rfl, rfl, rfl⟩,
    ⟨choosing (.agent .rxw 3), .rxw, 3, [], rfl, rfl, rfl⟩,
    ⟨{ choosing (.agent .rxw 0) with c := { tiny.c with rxw := { tiny.c.rxw with ctl := .s8 (.r6 4) } } }, .rxw, 0, [],
      .noSuchBuffer 4, rfl, rfl, rfl⟩,
    ⟨choosing (.nic (.latch 1#32)), .latch 1#32, [], rfl, rfl⟩,
    ⟨choosing (.host (.issue 1#64)), .issue 1#64, [], rfl, rfl⟩, ⟨choosing (.select 1), 1, [], rfl, rfl⟩,
    ⟨choosing (.discover tinyParams 0 0), tinyParams, 0, 0, [], rfl, rfl⟩, ⟨tiny, rfl, rfl⟩⟩

theorem witness_DecodeOfEncodeIsIdentity :
    RegMap.pro1000.wf ∧ (Instr.causeAck 0xFFFFFF20#32).wellFormed = true := ⟨RegMap.pro1000_wf, by decide⟩

theorem witness_EncodeOfDecodeIsIdentity : ∃ m f bs i, RegMap.wf m ∧ decodeWith m f bs = .ok i ∧ decode f bs = .ok i :=
  ⟨RegMap.pro1000, .hostCmd, leBytes 8 0x200, .reservedOp 0x200#64, RegMap.pro1000_wf, by decide, by decide⟩

theorem witness_UnlistedTransactionsAreRefused :
    ∃ (s : State) (w : DWord) (ws : List PortWord), s.port = { fmt := .mmio, bytes := leBytes 8 w.toNat } :: ws
      ∧ s.c.cfg.regMap.wf ∧ ∀ r : Reg, s.c.cfg.regMap.offset r ≠ (w.extractLsb' 0 17).toNat := by
  refine ⟨{ tiny with port := [{ fmt := .mmio, bytes := leBytes 8 (0x4124#64).toNat }] }, 0x4124#64, [], rfl,
    RegMap.pro1000_wf, ?_⟩
  rw [show ((0x4124#64).extractLsb' 0 17).toNat = 0x4124 from by decide]
  intro r
  change RegMap.pro1000.offset r ≠ _
  rw [RegMap.pro1000_offset]
  cases r <;> simp only [regOffset] <;> omega

theorem witness_ResetIsDiscoveryAndMeetsInvariants : ∃ k p a b c, c = Ctlr.discovery k p a b :=
  ⟨1, tinyParams, 0x300000#64, 0x400000#64, _, rfl⟩

/-- A step of `LC` in the middle of ATTACH. -/
def attaching : State :=
  { choosing (.agent .lc 0) with
    c := { tiny.c with lc := .resetting, lcCtl := .a4, im := 0x000200D8#32, rdh := 7, rdt := 6, tdh := 7, tdt := 0 } }

theorem witness_StepKeepsMemoryCanonical : ∃ s t : State, step s = .next t ∧ Mem.wf s.mem = true :=
  ⟨{ attaching with mem := [(3, 1#8), (5, 7#8)] }, _, rfl, by decide⟩

theorem witness_StepKeepsRingIndices : ∃ s t : State, step s = .next t ∧ ∀ c ∈ s.ctlrs, indexOk c :=
  ⟨attaching, _, rfl, by
    intro c hc
    obtain rfl : c = attaching.c := by simpa [State.ctlrs, attaching, choosing, tiny, State.reset] using hc
    unfold indexOk
    decide⟩

theorem witness_StepKeepsWholeClassMask : ∃ s t : State, step s = .next t ∧ ∀ c ∈ s.ctlrs, maskOk c :=
  ⟨attaching, _, rfl, by
    intro c hc
    obtain rfl : c = attaching.c := by simpa [State.ctlrs, attaching, choosing, tiny, State.reset] using hc
    unfold maskOk
    decide⟩

theorem attaching_startOk : startOk attaching.c := by
  refine ⟨fun h => absurd h (by decide), ?_, ?_, ?_, ?_, fun h => absurd h (by decide)⟩
  · exact fun _ => ⟨rfl, rfl, rfl, rfl, rfl⟩
  all_goals decide

theorem witness_StepKeepsStartOrder : ∃ s t : State, step s = .next t ∧ ∀ c ∈ s.ctlrs, startOk c :=
  ⟨attaching, _, rfl, by
    intro c hc
    obtain rfl : c = attaching.c := by simpa [State.ctlrs, attaching, choosing, tiny, State.reset] using hc
    exact attaching_startOk⟩

/-- The dispatcher inside its critical section, a worker waiting for it. -/
def contended : State :=
  { choosing (.agent .disp 0) with
    c := { tiny.c with
      lc := .running, mlock := some .disp, disp := { Disp.reset with ctl := .q2 }
      rxw := { tiny.c.rxw with ctl := .w1 .m1 }, txw := .t4 { pc := .a1, t0 := 0, p := 0 }, tlock := some .txw } }

theorem witness_StepKeepsMutualExclusion : ∃ s t : State, step s = .next t ∧ ∀ c ∈ s.ctlrs, locksOk c :=
  ⟨contended, _, rfl, by
    intro c hc
    obtain rfl : c = contended.c := by simpa [State.ctlrs, contended, choosing, tiny, State.reset] using hc
    constructor <;> intro a <;> cases a <;>
      simp [inMlock, inTlock, contended, choosing, tiny, ArmPc.holds, TxPc.holdsM, TxPc.holdsT, Ctlr.discovery, txcFind,
        LcCtl.shutdownLine]⟩

theorem startOk_of_running {c : Ctlr} (h : c.lc = .running) (hi : c.lcCtl = .idle)
    (hw : c.rxw.ctl ≠ .notStarted ∧ c.txw ≠ .notStarted ∧ c.lnk ≠ .notStarted) : startOk c := by
  refine ⟨?_, ?_, ?_, ?_, ?_, fun _ => hw⟩ <;> simp [h, hi, LcCtl.attachLine, Lifecycle.attaching, LcCtl.shutdownLine]

/-- A worker at line M3 of its ARM, the mask's agreement suspended; a dispatcher inside its run. -/
def armingState : State :=
  { choosing (.agent .rxw 0) with
    c := { (running id).c with
      im := 0x000200D9#32, mlock := some .rxw, rxw := { tiny.c.rxw with ctl := .w1 .m3 }
      regs := { tiny.c.regs with hwIms := 0x00000001#32 } } }

/-- A controller whose ATTACH failed at its device reset. -/
def failedAttach : Ctlr :=
  { tiny.c with lc := .faulted, regs := { tiny.c.regs with ctrl := 0x04000000#32 }
                fault := [{ kind := .hardwareTimeout, info := .resetTimeout }]
                lastError := some { kind := .hardwareTimeout, info := .resetTimeout } }

theorem startOk_of_ended {c : Ctlr} (h : c.lc = .faulted ∨ c.lc = .halted) (hi : c.lcCtl = .idle) : startOk c := by
  refine ⟨?_, ?_, ?_, ?_, ?_, ?_⟩ <;> rcases h with h | h <;>
    simp [h, hi, LcCtl.attachLine, Lifecycle.attaching, LcCtl.shutdownLine]

def maskedState : State :=
  { choosing (.agent .disp 0) with
    c := { (running id).c with
      im := 0x000200DD#32, mlock := some .disp
      disp := { ctl := .x1, imEntry := 0x000200DD#32, work := 0x00000004#32, icr := 0#32 } } }

theorem witness_StepKeepsMaskAgreement :
    (∃ s t : State, step s = .next t ∧ (∀ (w : PortWord) (ws : List PortWord), s.port = w :: ws → w.fmt ≠ .mmio)
        ∧ (∀ c ∈ s.ctlrs, startOk c ∧ locksOk c ∧ syncOk c) ∧ s.c.regs.hwIms ≠ s.c.im ∧ s.c.disp.masked = false)
      ∧ (∃ s t : State, step s = .next t ∧ (∀ (w : PortWord) (ws : List PortWord), s.port = w :: ws → w.fmt ≠ .mmio)
        ∧ (∀ c ∈ s.ctlrs, startOk c ∧ locksOk c ∧ syncOk c) ∧ s.c.disp.masked = true)
      ∧ (∃ c : Ctlr, locksOk c ∧ syncOk c ∧ c.mlock = none ∧ c.beforeMask = false ∧ c.resetLate = false)
      ∧ ∃ c : Ctlr, startOk c ∧ syncOk c ∧ c.lc = .faulted ∧ c.rxw.ctl = .notStarted ∧ c.resetLate = false := by
  have port : ∀ (w : PortWord) (ws : List PortWord), ([] : List PortWord) = w :: ws → w.fmt ≠ .mmio := nofun
  have idle : ∀ v, LcCtl.idle ≠ .rmwW .a7 v := nofun
  refine ⟨⟨armingState, _, rfl, port, ?_, by decide, by decide⟩, ⟨maskedState, _, rfl, port, ?_, by decide⟩,
    ⟨(running id).c, ?_, ?_, rfl, rfl, rfl⟩, failedAttach, startOk_of_ended (.inl rfl) rfl, ?_, rfl, rfl, rfl⟩
  · intro c hc
    obtain rfl : c = armingState.c := by simpa [State.ctlrs, armingState, choosing, tiny, State.reset] using hc
    refine ⟨startOk_of_running rfl rfl (by decide), ?_, .inr ⟨nofun, by decide, by decide, by decide, by decide,
      fun v h => absurd h (idle v), fun _ => ⟨by decide, by decide, fun _ h => absurd (h .rxw) (by decide)⟩⟩⟩
    constructor <;> intro a <;> cases a <;> simp [inMlock, inTlock, armingState, choosing, running, tinyWith, tiny,
      ArmPc.holds, Ctlr.discovery, txcFind, LcCtl.shutdownLine, Disp.reset]
  · intro c hc
    obtain rfl : c = maskedState.c := by simpa [State.ctlrs, maskedState, choosing, tiny, State.reset] using hc
    refine ⟨startOk_of_running rfl rfl (by decide), ?_, .inr ⟨nofun, by decide, by decide, by decide, by decide,
      fun v h => absurd h (idle v), fun _ => ⟨by decide, by decide, fun h => absurd h (by decide)⟩⟩⟩
    constructor <;> intro a <;> cases a <;> simp [inMlock, inTlock, maskedState, choosing, running, tinyWith, tiny,
      Ctlr.discovery, txcFind, LcCtl.shutdownLine]
  · constructor <;> intro a <;> cases a <;> simp [inMlock, inTlock, running, tinyWith, tiny, Ctlr.discovery, txcFind,
      LcCtl.shutdownLine, Disp.reset]
  · exact .inr ⟨nofun, by decide, by decide, by decide, by decide, fun v h => absurd h (idle v),
      fun _ => ⟨by decide, by decide, fun _ _ => rfl⟩⟩
  · exact .inr ⟨fun _ => ⟨rfl, rfl, rfl, rfl⟩, fun _ => rfl, by decide, by decide, by decide, fun v h => absurd h (idle v),
      fun _ => ⟨by decide, by decide, fun _ _ => rfl⟩⟩

/-- The worker inside DISCARD with buffer 1 in its hand, buffer 2 in the TX slot at `tdh`, buffer 3 queued by the host. -/
def discarding : State :=
  { choosing (.agent .rxw 0) with
    c := { (running id).c with
      rb := tiny.c.rb.set 0 (some 1), rdt := 1, rdfree := 1, tb := tiny.c.tb.set 0 (some 2), tdt := 1, oq := [3]
      rxw := { tiny.c.rxw with ctl := .discard, b := 1 } }
    free := [0]
    bufs := [(0, Buf.pool 2048 0), (1, { Buf.pool 2048 1 with owner := .rxSlot 0 0 }),
      (2, { Buf.pool 2048 2 with owner := .txSlot 0 0 }), (3, { Buf.pool 2048 3 with owner := .host })] }

theorem discarding_buf (b : BufId) (r : Buf) (h : discarding.buf? b = some r) :
    (b = 0 ∧ r = Buf.pool 2048 0) ∨ (b = 1 ∧ r = { Buf.pool 2048 1 with owner := .rxSlot 0 0 })
      ∨ (b = 2 ∧ r = { Buf.pool 2048 2 with owner := .txSlot 0 0 }) ∨ (b = 3 ∧ r = { Buf.pool 2048 3 with owner := .host }) := by
  simp only [State.buf?, discarding, bufGet] at h
  split at h <;> [skip; split at h <;> [skip; split at h <;> [skip; split at h]]] <;> simp_all

/-- The only slot of a ring of 8 that holds a buffer. -/
theorem slot_of_set (b x : BufId) (i : Half) :
    ((List.replicate 8 none).set 0 (some b)).getD i.toNat none = some x ↔ i = 0#16 ∧ x = b := by
  rcases hi : i.toNat with _ | n
  · simp [← BitVec.toNat_inj, hi, eq_comm]
  · have : i ≠ 0#16 := by rintro rfl; simp at hi
    have : ((List.replicate 7 none)[n]?.getD none : Option BufId) = none := by
      rw [List.getElem?_replicate]; split <;> rfl
    simp_all [List.replicate]

theorem witness_StepKeepsBufferPlaces :
    ∃ s t : State, step s = .next t ∧ idsOk s ∧ (∀ c ∈ s.ctlrs, indexOk c ∧ startOk c ∧ locksOk c ∧ slotsOk c) ∧ placesOk s := by
  refine ⟨discarding, _, rfl, ?_, ?_, ?_⟩
  · unfold idsOk; decide
  · intro c hc
    obtain rfl : c = discarding.c := by simpa [State.ctlrs, discarding, choosing, tiny, State.reset] using hc
    have norun : ∀ a q, txRunOf discarding.c a ≠ some q := by intro a q; cases a <;> exact nofun
    refine ⟨by unfold indexOk; decide, startOk_of_running rfl rfl (by decide), ?_, by decide, fun x h => ?_, fun h => ?_,
      fun a q h => absurd h (norun a q), fun a q h => absurd h (norun a q), fun i b h => ?_⟩
    · constructor <;> intro a <;> cases a <;> simp [inMlock, inTlock, discarding, choosing, running, tinyWith, tiny,
        Ctlr.discovery, txcFind, LcCtl.shutdownLine, Disp.reset]
    · cases x <;> exact nomatch (show none = some RepPc.r3 from h)
    · exact absurd h (by decide)
    · obtain ⟨rfl, -⟩ := (slot_of_set 2 b i).mp h
      exact .inl (by decide)
  · refine ⟨by decide, fun b => ?_, fun c hc i b => ?_, fun b r k i h ho => ?_, by decide, fun c hc b hb => ?_,
      fun b r h => ?_, fun b r h => ?_, fun b hb => ?_⟩
    · constructor
      · intro h
        obtain rfl : b = 0 := by simpa [discarding] using h
        exact ⟨_, rfl, rfl⟩
      · rintro ⟨r, h, ho⟩
        obtain ⟨rfl, rfl⟩ | ⟨rfl, rfl⟩ | ⟨rfl, rfl⟩ | ⟨rfl, rfl⟩ := discarding_buf b r h <;> simp_all [discarding]
    · obtain rfl : c = discarding.c := by simpa [State.ctlrs, discarding, choosing, tiny, State.reset] using hc
      constructor
      · refine (slot_of_set 1 b i).trans ⟨?_, ?_⟩
        · rintro ⟨rfl, rfl⟩; exact ⟨_, rfl, rfl⟩
        · rintro ⟨r, h, ho⟩
          obtain ⟨rfl, rfl⟩ | ⟨rfl, rfl⟩ | ⟨rfl, rfl⟩ | ⟨rfl, rfl⟩ := discarding_buf b r h <;> cases ho
          exact ⟨rfl, rfl⟩
      · refine (slot_of_set 2 b i).trans ⟨?_, ?_⟩
        · rintro ⟨rfl, rfl⟩; exact ⟨_, rfl, rfl⟩
        · rintro ⟨r, h, ho⟩
          obtain ⟨rfl, rfl⟩ | ⟨rfl, rfl⟩ | ⟨rfl, rfl⟩ | ⟨rfl, rfl⟩ := discarding_buf b r h <;> cases ho
          exact ⟨rfl, rfl⟩
    · refine ⟨_, .head _, ?_⟩
      obtain ⟨rfl, rfl⟩ | ⟨rfl, rfl⟩ | ⟨rfl, rfl⟩ | ⟨rfl, rfl⟩ := discarding_buf b r h <;>
        simp_all [Buf.pool, discarding, running, tinyWith, tiny, Ctlr.discovery]
    · obtain rfl : c = discarding.c := by simpa [State.ctlrs, discarding, choosing, tiny, State.reset] using hc
      obtain rfl : b = 3 := by simpa [discarding] using hb
      exact ⟨_, rfl, rfl⟩
    · obtain ⟨rfl, rfl⟩ | ⟨rfl, rfl⟩ | ⟨rfl, rfl⟩ | ⟨rfl, rfl⟩ := discarding_buf b r h <;> decide
    · obtain ⟨rfl, rfl⟩ | ⟨rfl, rfl⟩ | ⟨rfl, rfl⟩ | ⟨rfl, rfl⟩ := discarding_buf b r h <;> exact fun _ => rfl
    · obtain _ | _ | _ | _ | b := b <;> first | exact ⟨_, rfl⟩ | exact absurd hb (by simp [discarding, choosing, tiny])

theorem witness_RecordsGrowAndEndStatesLast :
    (∃ s t : State, step s = .next t ∧ idsOk s ∧ ∀ c ∈ s.ctlrs, startOk c)
      ∧ (∃ c : Ctlr, c.lc = .faulted ∧ startOk c) ∧ ∃ c : Ctlr, c.lc = .halted ∧ startOk c := by
  refine ⟨⟨attaching, _, rfl, ?_, ?_⟩, ⟨{ tiny.c with lc := .faulted }, rfl, ?_⟩,
    ⟨{ tiny.c with lc := .halted }, rfl, ?_⟩⟩
  · unfold idsOk; decide
  · intro c hc
    obtain rfl : c = attaching.c := by simpa [State.ctlrs, attaching, choosing, tiny, State.reset] using hc
    exact attaching_startOk
  · exact startOk_of_ended (.inl rfl) rfl
  · exact startOk_of_ended (.inr rfl) rfl

theorem witness_ReservedCommandsAreBadArgument :
    (∀ w ∈ [0x0#64, 0xA#64, 0xFF#64, 0x201#64, 0x8001#64],
      cmdOp w = 0#8 ∨ 10 ≤ (cmdOp w).toNat ∨ cmdReserved w ≠ 0#7) ∧ spellsCommand 0x101#64 = false := by
  simp only [List.forall_mem_cons, List.not_mem_nil, false_imp_iff, implies_true, and_true]
  decide

theorem witness_AttachIsAccepted :
    (tiny.c.lc = .poweredUnknown ∧ tiny.c.lcCtl = .idle ∧ launchOk tiny = true)
      ∧ launchOk (tinyWith fun c => { c with rdba := 0x100040#64 }) = false
      ∧ launchOk (tinyWith fun c => { c with tdba := 0x100000#64 }) = false
      ∧ launch tiny = .next tiny ∧ launch (running id) = .refused .badLaunch :=
  ⟨by decide, by decide, by decide, if_pos (by decide), if_neg (by decide)⟩

theorem witness_CommandsOutsideTheirStatesAreNotReady :
    (∀ l ∈ [Lifecycle.resetting, .eepromLoading, .configured, .faulted], ∀ x ∈ [LcCtl.idle, .a2],
      ¬ (l = .poweredUnknown ∧ x = .idle) ∧ l ≠ .running ∧ ¬ (l = .running ∧ x = .idle)
      ∧ ¬ ((l = .poweredUnknown ∨ l = .running) ∧ x = .idle) ∧ ¬ ((l = .running ∨ l = .halted) ∧ x = .idle))
      ∧ (∀ x ∈ [LcCtl.z2, .u2 5, .promiscR], ¬ (Lifecycle.running = .running ∧ x = .idle)
        ∧ ¬ ((Lifecycle.running = .poweredUnknown ∨ Lifecycle.running = .running) ∧ x = .idle)
        ∧ ¬ ((Lifecycle.running = .running ∨ Lifecycle.running = .halted) ∧ x = .idle))
      ∧ ∀ x ∈ [LcCtl.u1, .u2 5, .u5], ¬ ((Lifecycle.halted = .running ∨ Lifecycle.halted = .halted) ∧ x = .idle) := by
  decide

theorem witness_TunablesAreValidatedAndStored :
    0xFFFF < (0x10000#48).toNat ∧ (0xFFFF#48).toNat ≤ 0xFFFF ∧ tiny.c.lcCtl = .idle ∧ tiny.c.lc = .poweredUnknown
      ∧ (running id).c.lcCtl = .idle ∧ (running id).c.lc = .running := by
  decide

theorem witness_PromiscuousSetsOnlyItsBits :
    (tiny.c.lcCtl = .idle ∧ tiny.c.lc = .poweredUnknown) ∧ (running id).c.lcCtl = .idle ∧ (running id).c.lc = .running := by
  decide

theorem witness_MulticastChangesOneHashBit :
    (running id).c.lcCtl = .idle ∧ (running id).c.lc = .running
      ∧ (127 : Fin 128).val = ((0xFE0000000000#48).extractLsb' 41 7).toNat
      ∧ (0 : Fin 128).val = ((0x0100005E0001#48).extractLsb' 41 7).toNat := by
  decide

theorem witness_DumpAddsAndClearsCounters :
    (running id).c.lcCtl = .idle ∧ (running id).c.lc = .running ∧ (running id).c.slock = none
      ∧ (tinyWith fun c => { c with lc := .halted }).c.lc = .halted := by
  decide

theorem witness_ShutdownHaltsOrTimesOut :
    (∃ (s : State) (v : Word), s.c.lcCtl = .idle ∧ s.c.lc = .running ∧ s.c.mlock = none
        ∧ v = s.c.regs.ctrl ||| 0x04000000#32)
      ∧ ∃ (s : State) (i : Nat), s.c.lcCtl = .pollR .z6 i ∧ s.c.regs.ctrl &&& 0x04000000#32 = 0#32 :=
  ⟨⟨running id, _, rfl, rfl, rfl, rfl⟩, ⟨running fun c => { c with lcCtl := .pollR .z6 1000 }, 1000, rfl, by decide⟩⟩

theorem witness_TxRequestCreatesCaller :
    ∃ s : State, s.c.lc = .running ∧ (∀ x ∈ s.c.txcs, x.k < s.c.txcNext) ∧ s.c.tlock = none ∧ s.c.oq = []
      ∧ s.c.cfg.regMap.fromChip .txStatus (Mem.read32 s.mem (tdAddr s.c s.c.tdh 12)) &&& 1#32 = 0#32 :=
  ⟨running fun c => { c with txcNext := 1, txcs := [{ k := 0, run := TxRun.start }] }, rfl, by decide, rfl, rfl,
    by decide⟩

theorem witness_BufFreeReturnsDeliveredBuffer :
    (∃ (s : State) (n : BitVec 32) (r : Buf), n.toNat < s.pool.npool ∧ s.buf? n.toNat = some r ∧ r.owner = .host
        ∧ ∀ c ∈ s.ctlrs, n.toNat ∉ c.oq)
      ∧ (tiny.pool.npool ≤ (4#32).toNat) ∧ (∀ r, tiny.buf? (3#32).toNat = some r → r.owner ≠ .host)
      ∧ ∃ c ∈ (tinyWith fun c => { c with oq := [3] }).ctlrs, (3#32).toNat ∈ c.oq := by
  refine ⟨⟨{ tiny with bufs := bufMod tiny.bufs 3 (Buf.setOwner .host) }, 3#32, { Buf.pool 2048 3 with owner := .host },
    by decide, by decide, rfl, by decide⟩, by decide, ?_, by decide⟩
  intro r h
  rw [show tiny.buf? (3#32).toNat = some (Buf.pool 2048 3) from by decide] at h
  cases h
  decide

theorem witness_RegisterReadsReturnAndClear :
    Reg.status ≠ .imc ∧ Reg.status ≠ .icr ∧ ∀ k, Reg.status ≠ .stat k := by
  refine ⟨by decide, by decide, ?_⟩
  intro k h
  cases h

theorem witness_RegisterWriteStoresValue :
    Reg.rxcsum ∈ [Reg.fcal, .fcah, .fct, .fcttv, .rctl, .tctl, .tipg, .pba, .fcrtl, .fcrth, .rdbal, .rdbah, .rdlen, .rdtr,
        .radv, .tdbal, .tdbah, .tdlen, .tidv, .rxcsum]
      ∧ (∃ k, Reg.mta 127 = .mta k) ∧ (∃ n, Reg.ral 15 = .ral n) ∧ (∃ n, Reg.rah 15 = .rah n)
      ∧ Reg.tdt ∈ [Reg.rdh, .rdt, .tdh, .tdt] :=
  ⟨by decide, ⟨127, rfl⟩, ⟨15, rfl⟩, ⟨15, rfl⟩, by decide⟩

theorem witness_DeviceResetIsPendingUntilCompleted :
    (∃ s : State, s.c.regs.ctrlExt &&& 0x00002000#32 ≠ 0#32 ∧ s.c.dev.stuckEeRst = false)
      ∧ (∃ s : State, s.c.regs.ctrl &&& 0x04000000#32 ≠ 0#32 ∧ s.c.dev.stuckRst = true)
      ∧ ∃ s : State, ∃ img t, s.c.regs.ctrl &&& 0x04000000#32 ≠ 0#32 ∧ s.c.dev.stuckRst = false
          ∧ nicAct s (.resetDone img) = t :=
  ⟨⟨tinyWith fun c => { c with regs := { c.regs with ctrlExt := 0x2000#32 } }, by decide, rfl⟩,
    ⟨tinyWith fun c => { c with regs := { c.regs with ctrl := 0x04000000#32 }, dev := { c.dev with stuckRst := true } },
      by decide, rfl⟩,
    ⟨tinyWith fun c => { c with regs := { c.regs with ctrl := 0x04000000#32 } }, NicRegs.zero, _, by decide, rfl, rfl⟩⟩

theorem witness_HandshakeRegistersAnswerRequests :
    (∃ s : State, ∃ (w : Fin 64) (lo : Nat) (done : Word), s.c.dev.eerdPending = true
        ∧ (s.c.cfg.variant.eerdLayout = .doneBit1Addr2 ∧ lo = 2 ∧ done = 0x00000002#32
          ∨ s.c.cfg.variant.eerdLayout = .doneBit4Addr8 ∧ lo = 8 ∧ done = 0x00000010#32)
        ∧ s.c.regs.eerd = 1#32 ||| (BitVec.ofNat 32 w.val <<< lo))
      ∧ ((0x08310000#32).extractLsb' 26 2 = 2#2 ∧ (0x04201140#32).extractLsb' 26 2 = 1#2
        ∧ (0x0C000000#32).extractLsb' 26 2 = 3#2 ∧ (0x00000000#32).extractLsb' 26 2 = 0#2)
      ∧ ∃ s : State, ∃ (v : Word) (r : Fin 32), s.c.dev.mdicPending = true ∧ v = s.c.regs.mdic
          ∧ r.val = (v.extractLsb' 16 5).toNat ∧ v.extractLsb' 21 5 = s.c.cfg.phyAddr ∧ v.extractLsb' 26 2 = 2#2 :=
  ⟨⟨tinyWith fun c => { c with regs := { c.regs with eerd := 0x00003F01#32 }, dev := { c.dev with eerdPending := true } },
      63, 8, 0x10#32, rfl, .inr ⟨rfl, rfl, rfl⟩, by decide⟩, by decide,
    ⟨tinyWith fun c => { c with regs := { c.regs with mdic := 0x08310000#32 }, dev := { c.dev with mdicPending := true } },
      _, 17, rfl, rfl, by decide, by decide, by decide⟩⟩

theorem witness_WordsAreStoredLittleEndian :
    Mem.wf [(3, 1#8)] = true ∧ 4 ≤ (0x103#64 - 0xFF#64).toNat ∧ 4 ≤ (0xFE#64 - 0xFF#64).toNat := by
  decide

theorem witness_RxDescriptorIsWrittenBack :
    (Mem.wf rxReady.mem = true ∧ rxReady.c.regs.rctl &&& 0x00000002#32 ≠ 0#32
        ∧ rxReady.c.regs.ctrl &&& 0x04000000#32 = 0#32 ∧ rxReady.c.regs.hwRdh ≠ rxReady.c.regs.rdt
        ∧ rxFrame.status &&& 0x01#8 ≠ 0#8)
      ∧ tiny.c.regs.rctl &&& 0x00000002#32 = 0#32 ∧ tiny.c.regs.hwRdh = tiny.c.regs.rdt
      ∧ ({ rxFrame with status := 0x62#8 } : RxDesc).status &&& 0x01#8 = 0#8
      ∧ ({ rxFrame with length := 2048#16 } : RxDesc).length.toNat = rxReady.pool.rbsize
      ∧ rxReady.pool.rbsize < ({ rxFrame with length := 2049#16 } : RxDesc).length.toNat
      ∧ (0x10000000#64 = Mem.read32 rxReady.mem (rdAddr rxReady.c rxReady.c.regs.hwRdh 4)
            ++ Mem.read32 rxReady.mem (rdAddr rxReady.c rxReady.c.regs.hwRdh 0))
      ∧ 59 < (List.replicate 60 0xAA#8).length ∧ 59 < min rxFrame.length.toNat rxReady.pool.rbsize
      ∧ 8 ≤ (0x10000000#64 + BitVec.ofNat 64 59 - rdAddr rxReady.c rxReady.c.regs.hwRdh 8).toNat
      ∧ 8 ≤ (0x10000000#64 + BitVec.ofNat 64 0 - rdAddr rxReady.c rxReady.c.regs.hwRdh 8).toNat := by
  decide

theorem witness_TxDescriptorRowsWriteOrRefuse :
    Mem.wf tiny.mem = true ∧ (1514#16).toNat ≤ tiny.c.cfg.txMaxLen ∧ 1 ≤ (1#16).toNat
      ∧ tiny.c.cfg.txMaxLen < (1515#16).toNat := by
  decide

/-- A transmitter enabled, with a descriptor handed over. -/
def txReady (ctl : Word) : State :=
  let s := tinyWith fun c => { c with regs := { c.regs with tctl := 2#32, hwTdh := 7#16 } }
  { s with mem := Mem.write32 [] 0x200078#64 ctl }

/-- R428, R147, V5: DD and the reported EC, whatever the reserved bits 7:4; CSS and the special field stay. -/
theorem test_tx_completion :
    Mem.read32 (nicAct { txReady 0x8B00003C#32 with mem := Mem.write32 (txReady 0x8B00003C#32).mem 0x20007C#64 0xABCD1200#32 }
      (.tx true false false 0b0101#4)).mem 0x20007C#64 = 0xABCD1253#32 := by
  decide

theorem witness_TxDescriptorIsCompleted :
    (∀ ctl ∈ [0x8B00003C#32, 0x8300003C#32],
      Mem.wf (txReady ctl).mem = true ∧ (txReady ctl).c.regs.tctl &&& 0x00000002#32 ≠ 0#32
        ∧ (txReady ctl).c.regs.ctrl &&& 0x04000000#32 = 0#32
        ∧ (txReady ctl).c.regs.hwTdh ≠ (txReady ctl).c.regs.tdt
        ∧ ctl = (txReady ctl).c.cfg.regMap.fromChip .txControl
            (Mem.read32 (txReady ctl).mem (tdAddr (txReady ctl).c (txReady ctl).c.regs.hwTdh 8))
        ∧ ctl.getLsbD 29 = false) ∧ (0x8B00003C#32).getLsbD 27 = true ∧ (0x8300003C#32).getLsbD 27 = false := by
  simp only [List.forall_mem_cons, List.not_mem_nil, false_imp_iff, implies_true, and_true]
  refine ⟨⟨⟨?_, ?_, ?_, ?_, ?_, ?_⟩, ?_, ?_, ?_, ?_, ?_, ?_⟩, ?_, ?_⟩ <;> decide

theorem witness_DispatcherReadsAndHandlesEachClass :
    (∃ s : State, s.c.disp.ctl = .l1)
      ∧ ∀ icr ∈ [0x00000001#32, 0x00000004#32, 0x00000080#32, 0x000200DD#32],
      ∃ s : State, icr = s.c.disp.icr ∧ icr &&& ~~~0x000200DD#32 = 0#32 ∧ icr ≠ 0#32
        ∧ s.c.disp.ctl = dispFromL2 icr := by
  refine ⟨⟨tinyWith fun c => { c with disp := { c.disp with ctl := .l1 } }, rfl⟩, fun icr h => ?_⟩
  refine ⟨tinyWith fun c => { c with disp := { c.disp with icr := icr, ctl := dispFromL2 icr } }, rfl, ?_, ?_, rfl⟩ <;>
    (simp only [List.mem_cons, List.not_mem_nil, or_false] at h; obtain rfl | rfl | rfl | rfl := h <;> decide)

theorem witness_DispatcherRunMasksSignalledClasses :
    ∃ (s : State) (e : Word), maskOk s.c ∧ s.c.disp.ctl = .idle ∧ s.c.mlock = none
      ∧ s.c.regs.icr &&& s.c.regs.hwIms ≠ 0#32 ∧ e = s.c.regs.icr &&& s.c.im :=
  ⟨dispatching 0x000200DD#32 0x84#32, _, ⟨by decide, by decide, by decide, by decide⟩, rfl, rfl, by decide, rfl⟩

/-- The three workers parked, their flags clear or set. -/
def parked (rim lim : Word) (tsig : Bool) : State :=
  running fun c =>
    { c with rim := rim, lim := lim, tsig := tsig, rxw := { c.rxw with ctl := .w2 }, txw := .t2, lnk := .l7 }

theorem witness_ArmAddsOwnClassAndWakeTakesFlag :
    (∃ s : State, s.c.mlock = none ∧ s.c.rxw.ctl = .w1 .m1 ∧ s.c.txw = .t1 .m1 ∧ s.c.lnk = .l6 .m1)
      ∧ ((parked 0 0 false).c.rxw.ctl = .w2 ∧ (parked 0 0 false).c.rim = 0#32 ∧ (parked 0 0 false).c.txw = .t2
        ∧ (parked 0 0 false).c.tsig = false ∧ (parked 0 0 false).c.lnk = .l7 ∧ (parked 0 0 false).c.lim = 0#32)
      ∧ (parked 0x90 4 true).c.mlock = none ∧ (parked 0x90 4 true).c.rim ≠ 0#32 ∧ (parked 0x90 4 true).c.tsig = true
      ∧ (parked 0x90 4 true).c.lim ≠ 0#32 :=
  ⟨⟨running fun c => { c with rxw := { c.rxw with ctl := .w1 .m1 }, txw := .t1 .m1, lnk := .l6 .m1 }, rfl, rfl, rfl, rfl⟩,
    by decide⟩

/-- Each of the three runs of REPLENISH at a line of it. -/
def filling (x : RepCaller) (p : RepPc) : State := x.goto p (running fun c => { c with rdt := 7 })

theorem witness_ReplenishFillsTheTailSlot :
    ∀ x ∈ [RepCaller.harvest, .retry, .init], ∃ (s : State) (d : Nat) (b : BufId) (r : Buf) (i : Half),
      Mem.wf s.mem = true ∧ x.line s.c = some .r3 ∧ i = s.c.rdt ∧ s.free[d % s.free.length]? = some b
        ∧ s.buf? b = some r := by
  intro x _
  refine ⟨filling x .r3, 7, 3, Buf.pool 2048 3, 7, ?_, ?_, ?_, ?_, ?_⟩ <;> cases x <;> decide

theorem witness_ReplenishStopsAndWritesTail :
    (∀ x ∈ [RepCaller.harvest, .retry, .init], x.line (filling x .r2).c = some .r2 ∧ x.line (filling x .r9).c = some .r9
        ∧ x.line ({ filling x .r3 with free := [] } : State).c = some .r3)
      ∧ (repNext (tinyWith fun c => { c with rdt := 7 }).c = .r9)
      ∧ (repNext (tinyWith fun c => { c with rdt := 3, rb := c.rb.set 3 (some 1) }).c = .r2)
      ∧ repNext (tinyWith fun c => { c with rdt := 3 }).c = .r3 := by
  decide

/-- The RX worker at line S3, slot 7 holding buffer 2 with these descriptor bytes. -/
def harvesting (st er : Byte) : State :=
  let s := running fun c => { c with rdh := 7, rb := c.rb.set 7 (some 2), rxw := { c.rxw with ctl := .s3, st := st } }
  { s with mem := Mem.write8 (Mem.write16 [] 0x100078#64 2048#16) 0x10007D#64 er }

theorem witness_GoodPacketIsDelivered :
    (∀ st ∈ [0x63#8, 0x07#8], ∀ er ∈ [0x00#8, 0x08#8],
      (harvesting st er).c.rxw.ctl = .s3
        ∧ (harvesting st er).c.rb.getD (harvesting st er).c.rdh.toNat none = some 2
        ∧ (harvesting st er).buf? 2 = some (Buf.pool 2048 2) ∧ (harvesting st er).c.rxw.st &&& 0x02#8 ≠ 0#8
        ∧ (harvesting st er).c.cfg.regMap.fromChip8 .rxErrors
            (Mem.read8 (harvesting st er).mem (rdAddr (harvesting st er).c (harvesting st er).c.rdh 13)) &&& 0xF7#8 = 0#8
        ∧ (Buf.pool 2048 2).wp + (Mem.read16 (harvesting st er).mem
            (rdAddr (harvesting st er).c (harvesting st er).c.rdh 8)).setWidth 32 ≤ (Buf.pool 2048 2).cap) := by
  intro st hs er he
  simp only [List.mem_cons, List.not_mem_nil, or_false] at hs he
  obtain rfl | rfl := hs <;> obtain rfl | rfl := he <;> refine ⟨?_, ?_, ?_, ?_, ?_, ?_⟩ <;> decide

theorem witness_BadPacketIsDiscarded :
    (harvesting 0x01 0).c.rxw.st &&& 0x02#8 = 0#8
      ∧ (harvesting 0x03 1).c.cfg.regMap.fromChip8 .rxErrors
          (Mem.read8 (harvesting 0x03 1).mem (rdAddr (harvesting 0x03 1).c (harvesting 0x03 1).c.rdh 13)) &&& 0xF7#8 ≠ 0#8
      ∧ (harvesting 0x03 1).c.rb.getD (harvesting 0x03 1).c.rdh.toNat none = some 2
      ∧ (harvesting 0x03 1).buf? 2 = some (Buf.pool 2048 2) := by
  decide

theorem witness_HarvestAdvancesHeadAndTriggersReplenish :
    ∃ (s : State) (i : Half), Mem.wf s.mem = true ∧ s.c.rxw.ctl = .s6 ∧ i = s.c.rdh :=
  ⟨running fun c => { c with rdh := 7, rxw := { c.rxw with ctl := .s6 } }, 7, by decide, rfl, rfl⟩

theorem witness_ScanStopsAtFirstDescriptorNotDone :
    ∃ (s u : State), s.c.rxw.ctl = .s1
      ∧ s.c.cfg.regMap.fromChip8 .rxStatus (Mem.read8 s.mem (rdAddr s.c s.c.rdh 12)) &&& 0x01#8 = 0#8
      ∧ u.c.rxw.ctl = .s1
      ∧ u.c.cfg.regMap.fromChip8 .rxStatus (Mem.read8 u.mem (rdAddr u.c u.c.rdh 12)) &&& 0x01#8 ≠ 0#8 :=
  ⟨running fun c => { c with rxw := { c.rxw with ctl := .s1 } },
    { (running fun c => { c with rxw := { c.rxw with ctl := .s1 } }) with mem := [(0x10000C, 3#8)] },
    rfl, by decide, rfl, by decide⟩

/-- The TX worker and a direct-send caller at a line of TX_ROUTINE, one of them with `tlock`. -/
def sending (pc : TxPc) (t0 : Half) (oq : List BufId) : State :=
  running fun c =>
    { c with tdh := 6, tdt := 7, oq := oq, tb := c.tb.set 6 (some 1), tlock := some .txw
             txw := .t4 { pc := pc, t0 := t0, p := 1 }, txcs := [{ k := 1, run := { pc := pc, t0 := t0, p := 1 } }] }

theorem witness_ContractBreachStopsTheAgent :
    (∃ s : State, s.c.rxw.ctl = .s3 ∧ s.c.rb.getD s.c.rdh.toNat none = none)
      ∧ (∃ (s : State) (r : Buf), s.c.rxw.ctl = .d2 ∧ s.buf? s.c.rxw.b = some r ∧ r.cap < r.wp + s.c.rxw.len)
      ∧ (∀ a ∈ [AgentId.txw, .txc 1], ∀ wp ∈ [0#32, 1515#32], ∃ (s : State) (q : TxRun) (r : Buf),
        txRunOf s.c a = some { q with pc := .b4 }
        ∧ s.buf? q.p = some r ∧ (r.wp - r.rp = 0#32 ∨ s.c.cfg.txMaxLen < (r.wp - r.rp).toNat))
      ∧ (∃ s : State, s.c.rxw.ctl = .haltS3)
      ∧ (∀ a ∈ [AgentId.txw, .txc 1], ∃ s : State, ∃ q : TxRun, txRunOf s.c a = some { q with pc := .haltB3 })
      ∧ ∃ (u : State) (c : Ctlr) (e : FaultRec), c ∈ u.ctlrs ∧ e ∈ c.fault
          ∧ (e.kind = .deviceContract ∨ e.kind = .upstreamContract) := by
  refine ⟨⟨running fun c => { c with rxw := { c.rxw with ctl := .s3 } }, rfl, by decide⟩,
    ⟨running fun c => { c with rxw := { c.rxw with ctl := .d2, b := 2, len := 2049#32 } }, Buf.pool 2048 2, rfl, by decide,
      by decide⟩, ?_, ⟨running fun c => { c with rxw := { c.rxw with ctl := .haltS3 } }, rfl⟩, ?_,
    ⟨running fun c => { c with fault := [{ kind := .deviceContract, info := .rxNoBuffer 0 }] }, _, _, .head _, .head _,
      .inl rfl⟩⟩
  · intro a ha wp h
    refine ⟨{ sending .b4 0 [] with bufs := [(1, { Buf.pool 2048 1 with wp := wp })] }, { pc := .b4, t0 := 0, p := 1 },
      { Buf.pool 2048 1 with wp := wp }, ?_, rfl, ?_⟩
    · simp only [List.mem_cons, List.not_mem_nil, or_false] at ha
      obtain rfl | rfl := ha <;> rfl
    · simp only [List.mem_cons, List.not_mem_nil, or_false] at h
      obtain rfl | rfl := h <;> decide
  · intro a ha
    refine ⟨sending .haltB3 0 [], { pc := .haltB3, t0 := 0, p := 1 }, ?_⟩
    simp only [List.mem_cons, List.not_mem_nil, or_false] at ha
    obtain rfl | rfl := ha <;> rfl

theorem witness_ReclaimReleasesToOrigin :
    (∃ (s : State) (r : Buf), s.c.tb.getD s.c.tdh.toNat none = some 1 ∧ s.buf? 1 = some r ∧ r.origin = .host)
      ∧ ∀ a ∈ [AgentId.txw, .txc 1], (∃ (s : State) (q : TxRun), txRunOf s.c a = some { q with pc := .a1 })
      ∧ ∃ (s u : State) (q : TxRun), Mem.wf s.mem = true ∧ txRunOf s.c a = some { q with pc := .a3 }
        ∧ s.c.tb.getD s.c.tdh.toNat none = some 1 ∧ s.buf? 1 = some (Buf.pool 2048 1) ∧ (Buf.pool 2048 1).origin = .pool
        ∧ txRunOf u.c a = some { q with pc := .a3 } ∧ u.c.tb.getD u.c.tdh.toNat none = none := by
  refine ⟨⟨{ sending .a3 7 [] with bufs := [(1, Buf.supplied 0x10400000#64 2048#32)] }, _, by decide, rfl, rfl⟩, ?_⟩
  intro a ha
  simp only [List.mem_cons, List.not_mem_nil, or_false] at ha
  obtain rfl | rfl := ha <;>
    exact ⟨⟨sending .a1 7 [], { pc := .a1, t0 := 7, p := 1 }, rfl⟩, sending .a3 7 [],
      { sending .a3 7 [] with c := { (sending .a3 7 []).c with tdh := 5 } }, { pc := .a3, t0 := 7, p := 1 }, by decide, rfl,
      by decide, by decide, rfl, rfl, by decide⟩

theorem witness_RefillInstallsTheFrontPacket :
    ∀ a ∈ [AgentId.txw, .txc 1], ∃ (s : State) (q : TxRun) (b : BufId) (bs : List BufId) (r : Buf) (i : Half),
      Mem.wf s.mem = true ∧ txRunOf s.c a = some { q with pc := .b2 } ∧ s.c.oq = b :: bs ∧ s.buf? b = some r ∧ i = s.c.tdt
      ∧ r.wp - r.rp ≠ 0#32 ∧ (r.wp - r.rp).toNat ≤ s.c.cfg.txMaxLen ∧ s.c.cfg.txMaxLen ≤ 0xFFFF := by
  intro a ha
  simp only [List.mem_cons, List.not_mem_nil, or_false] at ha
  obtain rfl | rfl := ha <;>
    exact ⟨{ sending .b2 7 [0x400] with bufs := [(0x400, { Buf.supplied 0x10400000#64 2048#32 with wp := 1514#32 })] },
      { pc := .b2, t0 := 7, p := 1 }, 0x400, [], _, 7, by decide, rfl, rfl, rfl, rfl, by decide, by decide, by decide⟩

theorem witness_TxTailIsWrittenOnlyIfChanged :
    (∀ a ∈ [AgentId.txw, .txc 1], ∀ t0 ∈ [7#16, 3#16],
        txRunOf (sending .b2 t0 []).c a = some { pc := .b2, t0 := t0, p := 1 } ∧ (sending .b2 t0 []).c.oq = [])
      ∧ (sending .b2 7 []).c.tdt = 7#16 ∧ (sending .b2 3 []).c.tdt ≠ 3#16 := by
  simp only [List.forall_mem_cons, List.not_mem_nil, false_imp_iff, implies_true, and_true]
  decide

theorem witness_FullTxRingRequestsTxdw :
    (∀ a ∈ [AgentId.txw, .txc 1], txRunOf (sending .c1 7 [2]).c a = some { pc := .c1, t0 := 7, p := 1 }
        ∧ txRunOf (sending .c1 7 []).c a = some { pc := .c1, t0 := 7, p := 1 })
      ∧ (sending .c1 7 [2]).c.oq ≠ [] ∧ (sending .c1 7 [2]).c.mlock = none ∧ (sending .c1 7 []).c.oq = []
      ∧ ringNext (sending .c1 7 []).c.tdt 8 = 0#16 := by
  simp only [List.forall_mem_cons, List.not_mem_nil, false_imp_iff, implies_true, and_true]
  decide

theorem witness_ResetTimeoutComesAfterExactlyTheCeiling :
    (∃ (s : State) (v : Word), s.c.lcCtl = .rmwR .a5 ∧ v = s.c.regs.ctrl ||| 0x04000000#32)
      ∧ ∃ (s : State) (n : Nat) (v : Word), s.c.lcCtl = .rmwR .a8 ∧ v = s.c.regs.ctrlExt ||| 0x00002000#32
        ∧ n = s.c.cfg.eerstCeil ∧ 1 ≤ n :=
  ⟨⟨tinyWith fun c => { c with lc := .resetting, lcCtl := .rmwR .a5 }, _, rfl, rfl⟩,
    ⟨tinyWith fun c => { c with lc := .resetting, lcCtl := .rmwR .a8 }, _, _, rfl, rfl, rfl, by decide⟩⟩

/-- `LC` at a read of a bounded poll, the polled condition holding or not. -/
def polling (p : PollId) (i : Nat) (good : Bool) : State :=
  tinyWith fun c => { c with lc := .resetting, lcCtl := .pollR p i, regs := if good then c.regs else
    { c.regs with ctrl := 0x04000000#32, ctrlExt := 0x00002000#32, icr := 0x00000004#32 } }

/-- Every poll, its condition holding or not, at a read before the ceiling, at it and behind it. -/
theorem witness_BoundedPollsSucceedOrTimeOut :
    ∀ g ∈ [true, false], ∀ i ∈ [1, 999, 1000, 1001],
      (∀ p ∈ [PollId.a6, .a9, .a10, .z6], (polling p i g).c.lcCtl = .pollR p i)
      ∧ (!(regRead (polling .a6 i g).c.regs .ctrl).getLsbD 26) = g
      ∧ (!(regRead (polling .a9 i g).c.regs .ctrlExt).getLsbD 13) = g
      ∧ (regRead (polling .a10 i g).c.regs .icr == 0#32) = g
      ∧ (polling .a9 i g).c.cfg.eerstCeil = 1000 ∧ (polling .a10 i g).c.cfg.drainCeil = 1000 := by
  intro g hg i hi
  simp only [List.mem_cons, List.not_mem_nil, or_false] at hg hi
  obtain rfl | rfl := hg <;> obtain rfl | rfl | rfl | rfl := hi <;>
    exact ⟨fun p _ => rfl, by decide, by decide, by decide, rfl, rfl⟩

theorem witness_HandshakeEndsWithinSixtyFourReads :
    (∃ (s : State) (i : Nat), s.c.lnk = .l1 (.h3 i) ∧ i = 64)
      ∧ (∀ w ∈ [(0 : Fin 64), 63], ∀ i ∈ [1, 63, 64], ∀ v ∈ [0x00000000#32, 0xABCD0010#32], ∃ s : State,
        s.c.lcCtl = .b1 w.val (.h3 i) ∧ v = s.c.regs.eerd
          ∧ v.getLsbD (if s.c.cfg.variant.eerdLayout = .doneBit1Addr2 then 1 else 4) = (v != 0#32))
      ∧ (∃ s : State, s.c.lnk = .l1 .h1) ∧ ∃ (s : State) (w : Nat), s.c.lcCtl = .b1 w .h1 ∧ w < 64 ∧ 63 ≤ w := by
  refine ⟨⟨running fun c => { c with lnk := .l1 (.h3 64) }, 64, rfl, rfl⟩, ?_,
    ⟨running fun c => { c with lnk := .l1 .h1 }, rfl⟩,
    ⟨tinyWith fun c => { c with lcCtl := .b1 63 .h1 }, 63, rfl, by decide, by decide⟩⟩
  intro w _ i _ v hv
  refine ⟨tinyWith fun c => { c with lcCtl := .b1 w.val (.h3 i), regs := { c.regs with eerd := v } }, rfl, rfl, ?_⟩
  change v.getLsbD 4 = _
  simp only [List.mem_cons, List.not_mem_nil, or_false] at hv
  obtain rfl | rfl := hv <;> decide

theorem witness_EepromSumDecidesAttach :
    (∀ last ∈ [0#16, 0xBABA#16, 0xBABB#16], ∃ s : State, s.c.lcCtl = .b2
        ∧ last = BitVec.ofNat 16 ((s.c.ee.toList.map BitVec.toNat).sum)) ∧ ∃ s : State, s.c.lcCtl = .b3 := by
  refine ⟨fun last h => ⟨tinyWith fun c => { c with lcCtl := .b2, ee := c.ee.set 63 last }, rfl, ?_⟩,
    ⟨tinyWith fun c => { c with lcCtl := .b3 }, rfl⟩⟩
  simp only [List.mem_cons, List.not_mem_nil, or_false] at h
  obtain rfl | rfl | rfl := h <;> decide

theorem witness_FiltersAndFlowControlAreProgrammed : ∃ s : State, s.c.lcCtl = .c1 0 false :=
  ⟨tinyWith fun c => { c with lcCtl := .c1 0 false }, rfl⟩

/-- `LC` at a line of RX_INIT or TX_INIT, with leftovers in slots 2 and 7 of each ring. -/
def initing (x : LcCtl) : State :=
  tinyWith fun c =>
    { c with lc := .configured, lcCtl := x, rb := (c.rb.set 2 (some 1)).set 7 (some 2)
             tb := (c.tb.set 2 (some 0)).set 7 (some 3) }

theorem witness_RxInitPreparesTheRing :
    (initing .i1).c.lcCtl = .i1
      ∧ (∀ e ∈ [(2, 1), (7, 2)], (initing (.i6 e.1)).c.lcCtl = .i6 e.1
        ∧ (initing (.i6 e.1)).c.rb.getD e.1 none = some e.2
        ∧ (initing (.i6 e.1)).buf? e.2 = some (Buf.pool 2048 e.2))
      ∧ ((initing (.i7 0 0)).c.lcCtl = .i7 0 0 ∧ ringSizeOk (initing (.i7 0 0)).c.cfg.nrd = true
        ∧ Mem.wf (initing (.i7 0 0)).mem = true)
      ∧ (initing (.i8 false)).c.lcCtl = .i8 false ∧ (initing .i11).c.lcCtl = .i11
      ∧ ((initing .i11).pool.rbsize, 0#32) = (2048, 0x00000000#32) := by
  decide

/-- TCTL after line T9 with `v` for the parameter `TCTL_INIT`. -/
def tctlAfterT9 (v : Word) : Option Word :=
  match agentStep .lc 0 ((initing .t9).modC fun c => { c with cfg := { c.cfg with tctlInit := v } }) with
  | .go t => some t.c.regs.tctl
  | _ => none

/-- Line T9: the default of R128 goes into TCTL as it is, and a parameter without EN gets it (D27, R502). -/
theorem test_t9_enables_transmitter :
    tctlAfterT9 0x0003F0FA#32 = some 0x0003F0FA#32 ∧ tctlAfterT9 0x0003F0F8#32 = some 0x0003F0FA#32 := by
  decide

/-- R531: two controllers are observed under their identifiers, whichever is selected. -/
theorem test_observe_two_controllers :
    (selectCtlr (discoverCtlr tiny tinyParams 0x300000#64 0x400000#64) 1).ctlrsById.map Ctlr.id = [0, 1] := by
  decide

theorem witness_TxInitPreparesTheRing :
    (initing .t1).c.lcCtl = .t1
      ∧ (∀ e ∈ [(2, 0), (7, 3)], (initing (.t6 e.1)).c.lcCtl = .t6 e.1
        ∧ (initing (.t6 e.1)).c.tb.getD e.1 none = some e.2
        ∧ (initing (.t6 e.1)).buf? e.2 = some (Buf.pool 2048 e.2))
      ∧ ((initing (.t7 0 0)).c.lcCtl = .t7 0 0 ∧ ringSizeOk (initing (.t7 0 0)).c.cfg.ntd = true
        ∧ Mem.wf (initing (.t7 0 0)).mem = true)
      ∧ ((Buf.pool 2048 0).origin = .pool ∧ (Buf.supplied 0x10400000#64 2048#32).origin = .host)
      ∧ (initing (.t8 false)).c.lcCtl = .t8 false := by
  decide

/-- `LC` at a line of ATTACH, on a variant that rebalances the packet buffer. -/
def attachAt (x : LcCtl) : State :=
  tinyWith fun c =>
    { c with
      lcCtl := x
      cfg := { c.cfg with variant := { c.cfg.variant with pbaThreshold := 2047, pbaRebalance := some 0x1E#32 } } }

theorem witness_AttachLinesSetRegistersAndStartWorkers :
    (∀ x ∈ [LcCtl.a1, .a2, .rmwR .a7, .b0, .c5, .d3], (attachAt x).c.lcCtl = x)
      ∧ (attachAt .a1).c.cfg.variant.pbaThreshold < (attachAt .a1).pool.rbsize
      ∧ (attachAt .a1).c.cfg.variant.pbaRebalance = some 0x1E#32 :=
  ⟨fun _ _ => rfl, by decide, rfl⟩

theorem witness_LinkStatusIsDecodedAndCounted :
    (∃ (s : State) (k : Nat) (v : Half), s.c.lnk = .l3 v ∧ s.c.cfg.variant.phyDecode = .standard k)
      ∧ ∃ s : State, s.c.lnk = .l5a ∧ s.c.mlock = none :=
  ⟨⟨running fun c => { c with lnk := .l3 0xC000#16 }, 0, _, rfl, rfl⟩, running fun c => { c with lnk := .l5a }, rfl, rfl⟩

theorem witness_PoolPopAndPushMoveOneBuffer :
    (∃ (s t : State) (d : Nat) (o : Owner) (b : BufId) (r : Buf), poolPop s d o = some (b, t) ∧ s.buf? b = some r)
      ∧ ∃ (s : State) (b : BufId) (r : Buf), s.buf? b = some r ∧ s.c.rxw.ctl = .s8 .r3 :=
  ⟨⟨tiny, _, 7, .host, 3, Buf.pool 2048 3, rfl, by decide⟩, ⟨filling .harvest .r3, 3, Buf.pool 2048 3, by decide, rfl⟩⟩

/-- Buffer 3 with the host, holding the packet of a delivery; queued or not. -/
def hostHolds (oq : List BufId) : State :=
  { (tinyWith fun c => { c with oq := oq }) with
    free := [0, 1, 2], bufs := bufMod tiny.bufs 3 fun r => { r with owner := .host, wp := 60#32, lim := 60#32 } }

theorem witness_HostActionsAreDuties :
    (∃ r, (hostHolds []).buf? 3 = some r ∧ r.owner = .host ∧ (∀ c ∈ (hostHolds []).ctlrs, 3 ∉ c.oq)
        ∧ r.wp - r.rp ≠ 0#32 ∧ (60#32 ≤ 2048#32 ∧ 2048#32 ≤ r.cap) ∧ r.cap < 2049#32 ∧ 2047#32 < r.cap)
      ∧ (∃ r, (tiny.modBuf 3 (Buf.setOwner .host)).buf? 3 = some r ∧ r.owner = .host ∧ r.wp - r.rp = 0#32)
      ∧ (∀ r, tiny.buf? 3 = some r → r.owner ≠ .host) ∧ (∃ c ∈ (hostHolds [3]).ctlrs, 3 ∈ c.oq)
      ∧ (tiny.pool.npool ≤ 4 ∧ tiny.buf? 4 = none ∧ disjointOk (supplyBuf tiny 4 0x20000000#64 64#32) = true)
      ∧ disjointOk (supplyBuf tiny 4 0x10000000#64 64#32) = false := by
  refine ⟨⟨_, rfl, rfl, by decide, by decide, by decide, by decide, by decide⟩, ⟨_, rfl, rfl, by decide⟩, ?_, by decide,
    by decide, by decide⟩
  intro r h
  rw [show tiny.buf? 3 = some (Buf.pool 2048 3) from by decide] at h
  cases h
  decide

end Sys2Proof.Tests

end
end

section
/-!
SUPPORT. The decoder and the encoder undo each other (30_encoding.md R110, R130, R140, R146-R151, R160-R162): first the
register map's bit and offset maps, then each of the five formats, in both directions.
-/

namespace Sys2Proof

open Machine

/-! ## Bit positions under a register map -/

theorem getLsbD_gatherBits (p : Vector (Fin 32) 32) (w : Word) (j : Fin 32) :
    (gatherBits p w).getLsbD j = w.getLsbD p[j] := by
  simp [gatherBits]

theorem getLsbD_scatterBits (p : Vector (Fin 32) 32) (w : Word) (b : Fin 32) :
    (scatterBits p w).getLsbD b = true ↔ ∃ j : Fin 32, p[j] = b ∧ w.getLsbD j = true := by
  simp [scatterBits]

/-- A position map that keeps the low `n` bits among themselves reaches each of them from one of them. -/
theorem exists_position {n : Nat} (hn : n ≤ 32) {p : Vector (Fin 32) 32} (hinj : ∀ i j : Fin 32, p[i] = p[j] → i = j)
    (hlow : ∀ i : Fin 32, i.val < n → p[i].val < n) (b : Fin 32) (hb : b.val < n) :
    ∃ j : Fin 32, j.val < n ∧ p[j] = b := by
  have hf : Function.Injective fun i : Fin n => (⟨p[i.castLE hn].val, hlow (i.castLE hn) i.isLt⟩ : Fin n) := by
    intro i j h
    exact Fin.castLE_injective hn (hinj _ _ (Fin.ext (Fin.mk.inj h)))
  obtain ⟨j, hj⟩ := Finite.surjective_of_injective hf ⟨b.val, hb⟩
  exact ⟨j.castLE hn, j.isLt, Fin.ext (Fin.mk.inj hj)⟩

theorem WordKind.width_le (k : WordKind) : k.width ≤ 32 := by cases k <;> simp [width]

/-- Reading what was placed gives the field back, whatever its width. -/
theorem RegMap.fromChip_toChip_field {m : RegMap} (hm : m.wf) (k : WordKind) {n : Nat} (hn : k.width = n)
    (v : BitVec n) :
    (m.fromChip k (((m.toChip k (v.setWidth 32)).setWidth n).setWidth 32)).setWidth n = v := by
  have hn32 : n ≤ 32 := hn ▸ k.width_le
  obtain ⟨-, -, -, hbits⟩ := hm
  simp only [fromChip, toChip]
  cases hf : m.bits.find? fun e => e.1 == k with
  | none => ext i hi; simp [hi, show i < 32 by omega]
  | some e =>
    obtain ⟨hinj, hlow⟩ := hbits e (List.mem_of_find?_eq_some hf)
    have hk : e.1 = k := by simpa using List.find?_some hf
    rw [hk, hn] at hlow
    ext i hi
    have hi32 : i < 32 := by omega
    have hp := hlow ⟨i, hi32⟩ hi
    simp only [BitVec.getElem_setWidth]
    rw [getLsbD_gatherBits e.2 _ ⟨i, hi32⟩, Bool.eq_iff_iff]
    simp only [BitVec.getLsbD_setWidth, hp, Fin.isLt, decide_true, Bool.true_and, getLsbD_scatterBits]
    constructor
    · rintro ⟨j, hj, hv⟩
      obtain rfl := hinj _ _ hj
      simpa [hi] using hv
    · intro hv
      exact ⟨⟨i, hi32⟩, rfl, by simpa [hi] using hv⟩

/-- Placing what was read gives the chip's field back. -/
theorem RegMap.toChip_fromChip_field {m : RegMap} (hm : m.wf) (k : WordKind) {n : Nat} (hn : k.width = n)
    (v : BitVec n) :
    (m.toChip k (((m.fromChip k (v.setWidth 32)).setWidth n).setWidth 32)).setWidth n = v := by
  have hn32 : n ≤ 32 := hn ▸ k.width_le
  obtain ⟨-, -, -, hbits⟩ := hm
  simp only [fromChip, toChip]
  cases hf : m.bits.find? fun e => e.1 == k with
  | none => ext i hi; simp [hi, show i < 32 by omega]
  | some e =>
    obtain ⟨hinj, hlow⟩ := hbits e (List.mem_of_find?_eq_some hf)
    have hk : e.1 = k := by simpa using List.find?_some hf
    rw [hk, hn] at hlow
    ext i hi
    have hi32 : i < 32 := by omega
    simp only [BitVec.getElem_setWidth]
    rw [Bool.eq_iff_iff, getLsbD_scatterBits e.2 _ ⟨i, hi32⟩]
    simp only [BitVec.getLsbD_setWidth, getLsbD_gatherBits, Fin.isLt, decide_true, Bool.true_and, Bool.and_eq_true,
      decide_eq_true_eq]
    constructor
    · rintro ⟨j, hj, -, hv⟩
      rw [hj] at hv
      simpa [hi] using hv
    · intro hv
      obtain ⟨j, hjn, hj⟩ := exists_position hn32 hinj hlow ⟨i, hi32⟩ hi
      exact ⟨j, hj, hjn, by rw [hj]; simpa [hi] using hv⟩

theorem RegMap.fromChip_toChip {m : RegMap} (hm : m.wf) {k : WordKind} (hk : k.width = 32) (w : Word) :
    m.fromChip k (m.toChip k w) = w := by
  simpa using fromChip_toChip_field hm k hk w

theorem RegMap.toChip_fromChip {m : RegMap} (hm : m.wf) {k : WordKind} (hk : k.width = 32) (w : Word) :
    m.toChip k (m.fromChip k w) = w := by
  simpa using toChip_fromChip_field hm k hk w

theorem RegMap.fromChip8_toChip8 {m : RegMap} (hm : m.wf) {k : WordKind} (hk : k.width = 8) (v : Byte) :
    m.fromChip8 k (m.toChip8 k v) = v := fromChip_toChip_field hm k hk v

theorem RegMap.toChip8_fromChip8 {m : RegMap} (hm : m.wf) {k : WordKind} (hk : k.width = 8) (v : Byte) :
    m.toChip8 k (m.fromChip8 k v) = v := toChip_fromChip_field hm k hk v

theorem RegMap.fromChip16_toChip16 {m : RegMap} (hm : m.wf) {k : WordKind} (hk : k.width = 16) (v : Half) :
    m.fromChip16 k (m.toChip16 k v) = v := fromChip_toChip_field hm k hk v

theorem RegMap.toChip16_fromChip16 {m : RegMap} (hm : m.wf) {k : WordKind} (hk : k.width = 16) (v : Half) :
    m.toChip16 k (m.fromChip16 k v) = v := toChip_fromChip_field hm k hk v

theorem Reg.wordKind_width (r : Reg) : r.wordKind.width = 32 := by cases r <;> rfl

/-! ## Offsets under a register map -/

/-- At a register's offset stands that register. -/
theorem RegMap.regAt_offset {m : RegMap} (hm : m.wf) (r : Reg) : m.regAt (m.offset r) = some r := by
  obtain ⟨hinj, -, hnd, -⟩ := hm
  unfold regAt
  cases hf : m.offsets.find? fun e => e.2 == m.offset r with
  | some e =>
    have he : e.2 = m.offset r := by simpa using List.find?_some hf
    simp only [hinj _ _ ((offset_of_mem hnd (List.mem_of_find?_eq_some hf)).trans he)]
  | none =>
    have hr : ∀ e ∈ m.offsets, e.1 ≠ r := by
      rintro e he rfl
      exact absurd (offset_of_mem hnd he).symm (by simpa using List.find?_eq_none.mp hf e he)
    have ho : m.offset r = regOffset r := offset_of_not_mem fun h => by
      obtain ⟨e, he, hx⟩ := List.mem_map.mp h
      exact hr e he hx
    have hany : (m.offsets.any fun e => e.1 == r) = false := by simpa using hr
    simp [ho, offsetReg_regOffset, hany]

/-- What stands at an aligned offset has that offset. -/
theorem RegMap.offset_of_regAt {m : RegMap} (hm : m.wf) {o : Nat} {r : Reg} (ho : o % 4 = 0) (h : m.regAt o = some r) :
    m.offset r = o := by
  obtain ⟨-, -, hnd, -⟩ := hm
  unfold regAt at h
  split at h
  · rename_i e hf
    obtain rfl := Option.some.inj h
    exact (offset_of_mem hnd (List.mem_of_find?_eq_some hf)).trans (by simpa using List.find?_some hf)
  · split at h
    · rename_i q hq
      split at h
      · cases h
      · rename_i hany
        obtain rfl := Option.some.inj h
        rw [offset_of_not_mem (by simpa using hany), regOffset_of_offsetReg ho hq]
    · cases h

end Sys2Proof
end

section
namespace Sys2Proof

open Machine

/-! ## Command words (R160-R162) -/

theorem cmdOp_cmdWord (op : Byte) (flag : Bool) (a : BitVec 48) : cmdOp (cmdWord op flag a) = op := by
  simp (disch := decide) only [cmdOp, cmdWord, BitVec.setWidth_eq_extractLsb', BitVec.extractLsb'_append_eq_of_add_le]
  exact BitVec.extractLsb'_eq_self

theorem cmdFlag_cmdWord (op : Byte) (flag : Bool) (a : BitVec 48) :
    cmdFlag (cmdWord op flag a) = BitVec.ofBool flag := by
  simp (disch := decide) only [cmdFlag, cmdWord, BitVec.extractLsb'_append_eq_of_le,
    BitVec.extractLsb'_append_eq_of_add_le]
  exact BitVec.extractLsb'_eq_self

theorem cmdReserved_cmdWord (op : Byte) (flag : Bool) (a : BitVec 48) : cmdReserved (cmdWord op flag a) = 0#7 := by
  simp (disch := decide) only [cmdReserved, cmdWord, BitVec.extractLsb'_append_eq_of_le,
    BitVec.extractLsb'_append_eq_of_add_le]
  exact BitVec.extractLsb'_eq_self

theorem cmdOperand_cmdWord (op : Byte) (flag : Bool) (a : BitVec 48) : cmdOperand (cmdWord op flag a) = a := by
  simp (disch := decide) only [cmdOperand, cmdWord, BitVec.extractLsb'_append_eq_of_le]
  exact BitVec.extractLsb'_eq_self

theorem ofBool_eq_one (x : BitVec 1) : BitVec.ofBool (x == 1#1) = x := by
  revert x; decide

/-- A command word with zeros in its reserved bits is put together from its fields. -/
theorem cmdWord_fields {w : DWord} (h : cmdReserved w = 0#7) :
    cmdWord (cmdOp w) (cmdFlag w == 1#1) (cmdOperand w) = w := by
  rw [cmdWord, ofBool_eq_one, ← h]
  simp only [cmdOperand, cmdReserved, cmdFlag, cmdOp, BitVec.setWidth_eq_extractLsb' (show 8 ≤ 64 by decide)]
  rw [BitVec.extractLsb'_append_extractLsb'_eq_extractLsb' (show 16 = 9 + 7 from rfl),
    BitVec.extractLsb'_append_extractLsb'_eq_extractLsb' (show 9 = 8 + 1 from rfl),
    BitVec.extractLsb'_append_extractLsb'_eq_extractLsb' (show 8 = 0 + 8 from rfl)]
  exact BitVec.extractLsb'_eq_self

/-- A buffer identifier in an operand: the operand's upper 16 bits are zero. -/
theorem extractLsb'_operand_bufId (n : BitVec 32) : (n.setWidth 48).extractLsb' 32 16 = 0#16 := by
  ext i hi; simp

theorem setWidth_bufId_operand {a : BitVec 48} (h : a.extractLsb' 32 16 = 0#16) : (a.setWidth 32).setWidth 48 = a := by
  have h' := congrArg BitVec.toNat h
  simp only [BitVec.extractLsb'_toNat, BitVec.toNat_ofNat, Nat.shiftRight_eq_div_pow] at h'
  apply BitVec.eq_of_toNat_eq
  simp only [BitVec.toNat_setWidth]
  omega

/-- A command word decodes to the command it was made from. -/
theorem decodeCmd_wordWith (m : RegMap) {i : Instr} (hf : i.format = .hostCmd) (hw : i.wellFormed = true) :
    decodeCmd (BitVec.ofNat 64 (i.wordWith m)) = i := by
  cases i <;> cases hf <;> simp only [Instr.wordWith, BitVec.ofNat_toNat, BitVec.setWidth_eq]
  case reservedOp w =>
    have hs : spellsCommand w = false := by simpa [Instr.wellFormed] using hw
    simp [decodeCmd, hs]
  case setPromisc on => cases on <;> rfl
  case setMcast b a =>
    cases b <;>
      simp [decodeCmd, spellsCommand, cmdOp_cmdWord, cmdFlag_cmdWord, cmdReserved_cmdWord, cmdOperand_cmdWord]
  all_goals
    simp [decodeCmd, spellsCommand, cmdOp_cmdWord, cmdFlag_cmdWord, cmdReserved_cmdWord, cmdOperand_cmdWord,
      extractLsb'_operand_bufId]

/-- A word that spells a command (R161) is that command's word. -/
theorem exists_of_spellsCommand {w : DWord} (h : spellsCommand w = true) :
    ∃ i : Instr, i.format = .hostCmd ∧ i.wellFormed = true ∧ ∀ m, i.wordWith m = w.toNat := by
  simp only [spellsCommand, Bool.and_eq_true, Bool.or_eq_true, beq_iff_eq, or_assoc, and_assoc] at h
  obtain ⟨hr, h⟩ := h
  have hw := cmdWord_fields hr
  rcases h with ⟨ho, hf, ha⟩ | ⟨ho, hf, ha⟩ | ⟨ho, hf, ha⟩ | ⟨ho, ha⟩ | ho | ⟨ho, hf⟩ | ⟨ho, hf⟩ | ⟨ho, hf, ha⟩ |
    ⟨ho, hf, ha⟩
  · exact ⟨.attach, rfl, rfl, fun m => by rw [← hw, ho, hf, ha]; rfl⟩
  · exact ⟨.txRequest, rfl, rfl, fun m => by rw [← hw, ho, hf, ha]; rfl⟩
  · exact ⟨.shutdown, rfl, rfl, fun m => by rw [← hw, ho, hf, ha]; rfl⟩
  · exact ⟨.setPromisc (cmdFlag w == 1#1), rfl, rfl, fun m => by rw [Instr.wordWith, ← ho, ← ha, hw]⟩
  · exact ⟨.setMcast (cmdFlag w == 1#1) (cmdOperand w), rfl, rfl, fun m => by rw [Instr.wordWith, ← ho, hw]⟩
  · exact ⟨.setRdtr (cmdOperand w), rfl, rfl, fun m => by rw [← congrArg BitVec.toNat hw, ho, hf]; rfl⟩
  · exact ⟨.setRadv (cmdOperand w), rfl, rfl, fun m => by rw [← congrArg BitVec.toNat hw, ho, hf]; rfl⟩
  · exact ⟨.dump, rfl, rfl, fun m => by rw [← hw, ho, hf, ha]; rfl⟩
  · refine ⟨.bufFree ((cmdOperand w).setWidth 32), rfl, rfl, fun m => ?_⟩
    rw [Instr.wordWith, setWidth_bufId_operand ha, ← congrArg BitVec.toNat hw, ho, hf]; rfl

/-- What a command word decodes to is well-formed and has that word. -/
theorem decodeCmd_spec (m : RegMap) (w : DWord) : (decodeCmd w).format = .hostCmd ∧ (decodeCmd w).wellFormed = true
    ∧ (decodeCmd w).wordWith m = w.toNat := by
  by_cases hs : spellsCommand w = true
  · obtain ⟨i, hf, hi, hw⟩ := exists_of_spellsCommand hs
    have hd := decodeCmd_wordWith m hf hi
    rw [hw m, BitVec.ofNat_toNat, BitVec.setWidth_eq] at hd
    rw [hd]
    exact ⟨hf, hi, hw m⟩
  · simp [decodeCmd, hs, Instr.format, Instr.wellFormed, Instr.wordWith]

end Sys2Proof
end

section
namespace Sys2Proof

open Machine

theorem toNat_append_eq_add {n m : Nat} (x : BitVec n) (y : BitVec m) :
    (x ++ y).toNat = x.toNat * 2 ^ m + y.toNat := by
  rw [BitVec.toNat_append, ← Nat.shiftLeft_add_eq_or_of_lt y.isLt, Nat.shiftLeft_eq]

/-! ## Register transactions (R110) -/

theorem format_mmioInstr (r : Reg) (a : Access) : (mmioInstr r a).format = .mmio := by cases r <;> rfl

theorem wellFormed_mmioInstr (r : Reg) (a : Access) : (mmioInstr r a).wellFormed = true := by cases r <;> rfl

theorem wordWith_mmioInstr (m : RegMap) (r : Reg) (a : Access) :
    (mmioInstr r a).wordWith m = (mmioWord m r a).toNat := by cases r <;> rfl

/-- The operations of the register interface are the transactions. -/
theorem exists_mmioInstr {i : Instr} (h : i.format = .mmio) : ∃ r a, i = mmioInstr r a := by
  cases i with
  | mmioCtrl a => exact ⟨.ctrl, a, rfl⟩
  | mmioStatus a => exact ⟨.status, a, rfl⟩
  | mmioEerd a => exact ⟨.eerd, a, rfl⟩
  | mmioCtrlExt a => exact ⟨.ctrlExt, a, rfl⟩
  | mmioMdic a => exact ⟨.mdic, a, rfl⟩
  | mmioFcal a => exact ⟨.fcal, a, rfl⟩
  | mmioFcah a => exact ⟨.fcah, a, rfl⟩
  | mmioFct a => exact ⟨.fct, a, rfl⟩
  | mmioIcr a => exact ⟨.icr, a, rfl⟩
  | mmioIms a => exact ⟨.ims, a, rfl⟩
  | mmioImc a => exact ⟨.imc, a, rfl⟩
  | mmioRctl a => exact ⟨.rctl, a, rfl⟩
  | mmioFcttv a => exact ⟨.fcttv, a, rfl⟩
  | mmioTctl a => exact ⟨.tctl, a, rfl⟩
  | mmioTipg a => exact ⟨.tipg, a, rfl⟩
  | mmioPba a => exact ⟨.pba, a, rfl⟩
  | mmioFcrtl a => exact ⟨.fcrtl, a, rfl⟩
  | mmioFcrth a => exact ⟨.fcrth, a, rfl⟩
  | mmioRdbal a => exact ⟨.rdbal, a, rfl⟩
  | mmioRdbah a => exact ⟨.rdbah, a, rfl⟩
  | mmioRdlen a => exact ⟨.rdlen, a, rfl⟩
  | mmioRdh a => exact ⟨.rdh, a, rfl⟩
  | mmioRdt a => exact ⟨.rdt, a, rfl⟩
  | mmioRdtr a => exact ⟨.rdtr, a, rfl⟩
  | mmioRadv a => exact ⟨.radv, a, rfl⟩
  | mmioTdbal a => exact ⟨.tdbal, a, rfl⟩
  | mmioTdbah a => exact ⟨.tdbah, a, rfl⟩
  | mmioTdlen a => exact ⟨.tdlen, a, rfl⟩
  | mmioTdh a => exact ⟨.tdh, a, rfl⟩
  | mmioTdt a => exact ⟨.tdt, a, rfl⟩
  | mmioTidv a => exact ⟨.tidv, a, rfl⟩
  | mmioRxcsum a => exact ⟨.rxcsum, a, rfl⟩
  | mmioStat k a => exact ⟨.stat k, a, rfl⟩
  | mmioMta k a => exact ⟨.mta k, a, rfl⟩
  | mmioRal n a => exact ⟨.ral n, a, rfl⟩
  | mmioRah n a => exact ⟨.rah n, a, rfl⟩
  | _ => cases h

/-- Bits 30:0 of a write's word are its offset. -/
theorem mmioWord_write_low (m : RegMap) (r : Reg) (v : Word) {i n : Nat} (h : i + n ≤ 31) :
    (mmioWord m r (.write v)).extractLsb' i n = (BitVec.ofNat 31 (m.offset r)).extractLsb' i n := by
  rw [mmioWord]
  exact BitVec.extractLsb'_append_eq_of_add_le h

/-- Bits 63:17 of a read's word are zero. -/
theorem mmioWord_read_high {m : RegMap} (hm : m.wf) (r : Reg) {i : Nat} (n : Nat) (h : 17 ≤ i) :
    (mmioWord m r .read).extractLsb' i n = 0#n := by
  have hlt := (hm.2.1 r).2
  have hs : m.offset r % 2 ^ 64 = m.offset r := Nat.mod_eq_of_lt (by omega)
  have hq : m.offset r / 2 ^ i = 0 := Nat.div_eq_of_lt (hlt.trans_le (Nat.pow_le_pow_right (by decide) h))
  apply BitVec.eq_of_toNat_eq
  simp only [mmioWord, BitVec.extractLsb'_toNat, BitVec.toNat_ofNat, Nat.shiftRight_eq_div_pow, hs, hq, Nat.zero_mod]

/-- Bits 16:0 of a transaction word are the register's offset. -/
theorem mmioWord_offset {m : RegMap} (hm : m.wf) (r : Reg) (a : Access) :
    ((mmioWord m r a).extractLsb' 0 17).toNat = m.offset r := by
  have hlt := (hm.2.1 r).2
  cases a with
  | read => simp only [mmioWord, BitVec.extractLsb'_toNat, BitVec.toNat_ofNat, Nat.shiftRight_zero]; omega
  | write v =>
    simp only [mmioWord_write_low m r v (show 0 + 17 ≤ 31 by decide), BitVec.extractLsb'_toNat, BitVec.toNat_ofNat,
      Nat.shiftRight_zero]
    omega

/-- A transaction word decodes to the transaction it was made from. -/
theorem decodeMmio_mmioWord {m : RegMap} (hm : m.wf) (r : Reg) (a : Access) :
    decodeMmio m (mmioWord m r a) = .ok (mmioInstr r a) := by
  have hreg := RegMap.regAt_offset hm r
  have ho := mmioWord_offset hm r a
  obtain ⟨hal, hlt⟩ : m.offset r % 4 = 0 ∧ m.offset r < 2 ^ 17 := hm.2.1 r
  cases a with
  | read => simp [decodeMmio, ho, hal, hreg, mmioWord_read_high hm r]
  | write v =>
    have hz : (mmioWord m r (.write v)).extractLsb' 17 14 = 0#14 := by
      rw [mmioWord_write_low m r v (by decide)]
      apply BitVec.eq_of_toNat_eq
      simp only [BitVec.extractLsb'_toNat, BitVec.toNat_ofNat, Nat.shiftRight_eq_div_pow]
      omega
    have hwr : (mmioWord m r (.write v)).extractLsb' 31 1 = 1#1 := by
      simp (disch := decide) only [mmioWord, BitVec.extractLsb'_append_eq_of_le, BitVec.extractLsb'_append_eq_of_add_le]
      exact BitVec.extractLsb'_eq_self
    have hd : (mmioWord m r (.write v)).extractLsb' 32 32 = m.toChip r.wordKind v := by
      simp (disch := decide) only [mmioWord, BitVec.extractLsb'_append_eq_of_le]
      exact BitVec.extractLsb'_eq_self
    simp [decodeMmio, ho, hal, hreg, hz, hwr, hd, RegMap.fromChip_toChip hm r.wordKind_width]

/-- A transaction word is put together from its four fields. -/
theorem mmio_fields (w : DWord) :
    (w.extractLsb' 32 32 ++ w.extractLsb' 31 1 ++ w.extractLsb' 17 14 ++ w.extractLsb' 0 17 : DWord) = w := by
  rw [BitVec.extractLsb'_append_extractLsb'_eq_extractLsb' (show 32 = 31 + 1 from rfl),
    BitVec.extractLsb'_append_extractLsb'_eq_extractLsb' (show 31 = 17 + 14 from rfl),
    BitVec.extractLsb'_append_extractLsb'_eq_extractLsb' (show 17 = 0 + 17 from rfl)]
  exact BitVec.extractLsb'_eq_self

/-- A word that decodes on the register window is the word of the transaction it decodes to. -/
theorem decodeMmio_ok {m : RegMap} (hm : m.wf) {w : DWord} {i : Instr} (h : decodeMmio m w = .ok i) :
    ∃ r a, i = mmioInstr r a ∧ mmioWord m r a = w := by
  have hfields := mmio_fields w
  simp only [decodeMmio] at h
  split at h
  · cases h
  rename_i hz
  split at h
  · cases h
  rename_i hal
  split at h
  · cases h
  rename_i r hr
  have ho := RegMap.offset_of_regAt hm (by omega) hr
  rw [Decidable.not_not.mp hz] at hfields
  split at h
  · rename_i hwr
    cases h
    refine ⟨r, _, rfl, ?_⟩
    rw [hwr] at hfields
    rw [mmioWord, RegMap.toChip_fromChip hm r.wordKind_width, ho]
    refine Eq.trans (BitVec.eq_of_toNat_eq ?_) hfields
    have hlt := (w.extractLsb' 0 17).isLt
    simp only [toNat_append_eq_add, BitVec.toNat_ofNat] at hlt ⊢
    omega
  · rename_i hwr
    split at h
    · rename_i hd
      cases h
      refine ⟨r, .read, rfl, ?_⟩
      rw [show w.extractLsb' 31 1 = 0#1 from (BitVec.eq_zero_or_eq_one _).resolve_right hwr, hd] at hfields
      rw [mmioWord, ho]
      refine Eq.trans (BitVec.eq_of_toNat_eq ?_) hfields
      have hlt := (w.extractLsb' 0 17).isLt
      simp only [toNat_append_eq_add, BitVec.toNat_ofNat] at hlt ⊢
      omega
    · cases h

/-! ## Receive descriptors (R140) -/

theorem rxDescOf_rxDescWord {m : RegMap} (hm : m.wf) (d : RxDesc) : rxDescOf m (rxDescWord m d) = d := by
  simp (disch := decide) only [rxDescOf, rxDescWord, BitVec.extractLsb'_append_eq_of_le,
    BitVec.extractLsb'_append_eq_of_add_le]
  simp [RegMap.fromChip8_toChip8 hm (k := .rxStatus) rfl, RegMap.fromChip8_toChip8 hm (k := .rxErrors) rfl,
    RegMap.fromChip16_toChip16 hm (k := .rxSpecial) rfl]

theorem rxDescWord_rxDescOf {m : RegMap} (hm : m.wf) (w : BitVec 128) : rxDescWord m (rxDescOf m w) = w := by
  simp only [rxDescWord, rxDescOf, RegMap.toChip8_fromChip8 hm (k := .rxStatus) rfl,
    RegMap.toChip8_fromChip8 hm (k := .rxErrors) rfl, RegMap.toChip16_fromChip16 hm (k := .rxSpecial) rfl]
  rw [BitVec.extractLsb'_append_extractLsb'_eq_extractLsb' (show 112 = 104 + 8 from rfl),
    BitVec.extractLsb'_append_extractLsb'_eq_extractLsb' (show 104 = 96 + 8 from rfl),
    BitVec.extractLsb'_append_extractLsb'_eq_extractLsb' (show 96 = 80 + 16 from rfl),
    BitVec.extractLsb'_append_extractLsb'_eq_extractLsb' (show 80 = 64 + 16 from rfl),
    BitVec.extractLsb'_append_extractLsb'_eq_extractLsb' (show 64 = 32 + 32 from rfl),
    BitVec.extractLsb'_append_extractLsb'_eq_extractLsb' (show 32 = 0 + 32 from rfl)]
  exact BitVec.extractLsb'_eq_self

/-! ## Transmit control words (R146-R151) -/

theorem txControl_eq (len : Half) : txControl len = (0x8B00#16 ++ len : Word) := by
  rw [txControl, BitVec.append_def]; rfl

/-- The legacy control word the HRE writes (R148) decodes to its row. -/
theorem decodeTx_txControl (len : Half) : decodeTx (txControl len) = .ok (.txdescLegacy len) := by
  have hhi : (txControl len).extractLsb' 16 16 = 0x8B00#16 := by
    rw [txControl_eq, BitVec.extractLsb'_append_eq_of_le (by decide)]
    exact BitVec.extractLsb'_eq_self
  have hlo : txCtlLength (txControl len) = len := by
    rw [txCtlLength, txControl_eq, BitVec.setWidth_eq_extractLsb' (by decide),
      BitVec.extractLsb'_append_eq_of_add_le (by decide)]
    exact BitVec.extractLsb'_eq_self
  have hk : txKind (txControl len) = .legacy := by
    rw [txKind, txControl_eq, BitVec.extractLsb'_append_eq_of_le (by decide)]
    rfl
  simp only [decodeTx, hk, hhi, hlo, if_true]

/-- A control word that decodes is well-formed and is its operation's word. -/
theorem decodeTx_ok {w : Word} {i : Instr} (h : decodeTx w = .ok i) :
    i.format = .txCtrl ∧ i.wellFormed = true ∧ ∀ m : RegMap, i.wordWith m = (m.toChip .txControl w).toNat := by
  unfold decodeTx at h
  split at h
  · cases h; exact ⟨rfl, by simpa [Instr.wellFormed], fun _ => rfl⟩
  · cases h; exact ⟨rfl, by simpa [Instr.wellFormed], fun _ => rfl⟩
  · cases h; exact ⟨rfl, by simpa [Instr.wellFormed], fun _ => rfl⟩
  · split at h
    · rename_i hhi
      cases h
      have hw : txControl (txCtlLength w) = w := by
        rw [txControl_eq, ← hhi, txCtlLength, BitVec.setWidth_eq_extractLsb' (by decide),
          BitVec.extractLsb'_append_extractLsb'_eq_extractLsb' (show 16 = 0 + 16 from rfl)]
        exact BitVec.extractLsb'_eq_self
      exact ⟨rfl, rfl, fun m => by rw [Instr.wordWith, hw]⟩
    · cases h

/-! ## Cause words (R130) -/

theorem format_causeInstr (c : Cause) (w : Word) : (causeInstr c w).format = .icr := by cases c <;> rfl

theorem wellFormed_causeInstr (c : Cause) (w : Word) : (causeInstr c w).wellFormed = (firstCause w == some c) := by
  cases c <;> rfl

theorem wordWith_causeInstr (m : RegMap) (c : Cause) (w : Word) :
    (causeInstr c w).wordWith m = (m.toChip .cause w).toNat := by cases c <;> rfl

/-- The operations of the interrupt interface are the cause rows. -/
theorem exists_causeInstr {i : Instr} (h : i.format = .icr) : ∃ c w, i = causeInstr c w := by
  cases i with
  | causeTxdw w => exact ⟨.txdw, w, rfl⟩
  | causeTxqe w => exact ⟨.txqe, w, rfl⟩
  | causeLsc w => exact ⟨.lsc, w, rfl⟩
  | causeRxseq w => exact ⟨.rxseq, w, rfl⟩
  | causeRxdmt0 w => exact ⟨.rxdmt0, w, rfl⟩
  | causeRxo w => exact ⟨.rxo, w, rfl⟩
  | causeRxt0 w => exact ⟨.rxt0, w, rfl⟩
  | causeAck w => exact ⟨.ack, w, rfl⟩
  | _ => cases h

theorem decodeCause_ok_iff {w : Word} {i : Instr} :
    decodeCause w = .ok i ↔ ∃ c, firstCause w = some c ∧ i = causeInstr c w := by
  unfold decodeCause
  cases firstCause w <;> simp [eq_comm]

/-! ## The decoder and the encoder -/

theorem leNat_lt (bs : List Byte) : leNat bs < 256 ^ bs.length := by
  induction bs with
  | nil => decide
  | cons b bs ih =>
    have hb : b.toNat < 256 := b.isLt
    rw [List.length_cons, leNat, Nat.pow_succ]
    omega

/-- Bytes that spell an operation's word at its interface are its encoding. -/
theorem encodeWith_eq {m : RegMap} {i : Instr} {bs : List Byte} (hl : bs.length = i.format.size)
    (hw : i.wordWith m = leNat bs) : encodeWith m i = bs := by
  rw [encodeWith, hw, ← hl, leBytes_leNat]

/-- Decoding the encoding of a well-formed operation gives it back. -/
theorem decodeWith_encodeWith {m : RegMap} (hm : m.wf) {i : Instr} (hi : i.wellFormed = true) :
    decodeWith m i.format (encodeWith m i) = .ok i := by
  have hlen : (encodeWith m i).length = i.format.size := length_leBytes _ _
  simp only [decodeWith, hlen, ne_eq, not_true_eq_false, if_false, leNat_encodeWith]
  cases hf : i.format with
  | hostCmd => simp only [decodeCmd_wordWith m hf hi]
  | mmio =>
    obtain ⟨r, a, rfl⟩ := exists_mmioInstr hf
    simp only [wordWith_mmioInstr, BitVec.ofNat_toNat, BitVec.setWidth_eq, decodeMmio_mmioWord hm]
  | rxDesc =>
    cases i <;> cases hf
    simp only [Instr.wordWith, BitVec.ofNat_toNat, BitVec.setWidth_eq, rxDescOf_rxDescWord hm]
  | txCtrl =>
    cases i <;> cases hf <;>
      simp only [Instr.wordWith, BitVec.ofNat_toNat, BitVec.setWidth_eq, RegMap.fromChip_toChip hm (k := .txControl) rfl]
    case txdescLegacy.refl len => exact decodeTx_txControl len
    all_goals
      have hk := eq_of_beq hi
      simp only [decodeTx, hk]
  | icr =>
    obtain ⟨c, w, rfl⟩ := exists_causeInstr hf
    rw [wellFormed_causeInstr, beq_iff_eq] at hi
    simp only [wordWith_causeInstr, BitVec.ofNat_toNat, BitVec.setWidth_eq, RegMap.fromChip_toChip hm (k := .cause) rfl]
    exact decodeCause_ok_iff.mpr ⟨c, hi, rfl⟩

/-- What decodes is well-formed, of its format, and encodes to the same bytes. -/
theorem decodeWith_ok {m : RegMap} (hm : m.wf) {f : Format} {bs : List Byte} {i : Instr}
    (h : decodeWith m f bs = .ok i) : i.wellFormed = true ∧ i.format = f ∧ encodeWith m i = bs := by
  unfold decodeWith at h
  split at h
  · cases h
  rename_i hl
  have hlen : bs.length = f.size := Decidable.not_not.mp hl
  have hlt := leNat_lt bs
  rw [hlen] at hlt
  have key : i.format = f → i.wellFormed = true → i.wordWith m = leNat bs →
      i.wellFormed = true ∧ i.format = f ∧ encodeWith m i = bs :=
    fun hf hw hword => ⟨hw, hf, encodeWith_eq (hf ▸ hlen) hword⟩
  cases f with
  | hostCmd =>
    cases h
    obtain ⟨hf, hw, hword⟩ := decodeCmd_spec m (BitVec.ofNat 64 (leNat bs))
    exact key hf hw (hword.trans (Nat.mod_eq_of_lt hlt))
  | mmio =>
    obtain ⟨r, a, rfl, hword⟩ := decodeMmio_ok hm h
    exact key (format_mmioInstr r a) (wellFormed_mmioInstr r a)
      (by rw [wordWith_mmioInstr, hword]; exact Nat.mod_eq_of_lt hlt)
  | rxDesc =>
    cases h
    exact key rfl rfl (by rw [Instr.wordWith, rxDescWord_rxDescOf hm]; exact Nat.mod_eq_of_lt hlt)
  | txCtrl =>
    obtain ⟨hf, hw, hword⟩ := decodeTx_ok h
    exact key hf hw (by rw [hword, RegMap.toChip_fromChip hm rfl]; exact Nat.mod_eq_of_lt hlt)
  | icr =>
    obtain ⟨c, hc, rfl⟩ := decodeCause_ok_iff.mp h
    exact key (format_causeInstr c _) (by rw [wellFormed_causeInstr, hc, beq_self_eq_true])
      (by rw [wordWith_causeInstr, RegMap.toChip_fromChip hm rfl]; exact Nat.mod_eq_of_lt hlt)

/-- Settles O4: the encoder's word of each format is read back field by field, each field through the register map and
back. -/
theorem decodeOfEncodeIsIdentity : Obligations.DecodeOfEncodeIsIdentity :=
  ⟨fun _ hi => decodeWith_encodeWith RegMap.pro1000_wf hi, fun _ _ hm hi => decodeWith_encodeWith hm hi⟩

/-- Settles O5: a word of each format is put together again from the fields its decoding read. -/
theorem encodeOfDecodeIsIdentity : Obligations.EncodeOfDecodeIsIdentity :=
  ⟨fun _ _ _ h => decodeWith_ok RegMap.pro1000_wf h, fun _ _ _ _ hm h => decodeWith_ok hm h⟩

/-! ## The word at the port -/

theorem Machine.step_of_decode_ok {s : State} {w : PortWord} {ws : List PortWord} {i : Instr} (hp : s.port = w :: ws)
    (hd : decodeWith s.c.cfg.regMap w.fmt w.bytes = .ok i) : step s = exec i { s with port := ws } := by
  simp only [step, runStep, hp, runWord, hd]

theorem Machine.step_of_decode_error {s : State} {w : PortWord} {ws : List PortWord} {r : Reject}
    (hp : s.port = w :: ws) (hd : decodeWith s.c.cfg.regMap w.fmt w.bytes = .error r) :
    step s = .refused (.undecodable r) := by
  simp only [step, runStep, hp, runWord, hd]

/-- Settles O1: a placed operation stands at the port in the words of the chip's own map, under which it decodes back
(R8, R112). -/
theorem stepRunsDecodedOperation : Obligations.StepRunsDecodedOperation := by
  refine fun s => ⟨fun w ws i => step_of_decode_ok, fun w ws r => step_of_decode_error, fun nbits w i hm hi => ?_⟩
  have hwf : i.wellFormed = true := by
    unfold decodeTableWord at hi
    split at hi
    · rename_i j hj
      obtain rfl := Option.some.inj hi
      exact (decodeWith_ok RegMap.pro1000_wf hj).1
    · cases hi
  have hp : (s.withFetchWord nbits w).port =
      { fmt := i.format, bytes := encodeWith s.c.cfg.regMap i } :: s.port := by
    simp only [State.withFetchWord, presentWord, portWord, hi]
  exact step_of_decode_ok hp (decodeWith_encodeWith hm hwf)

/-- Settles O6: a transaction word that decodes carries the offset of its register, so one at an offset of no register
does not decode (R112). -/
theorem unlistedTransactionsAreRefused : Obligations.UnlistedTransactionsAreRefused := by
  refine ⟨fun _ _ => regOffset_inj, regOffset_aligned, ?_, fun _ _ _ => ⟨rfl, rfl, rfl, rfl⟩⟩
  intro s w ws hp hm hnone
  have hbytes : decodeWith s.c.cfg.regMap .mmio (leBytes 8 w.toNat) = decodeMmio s.c.cfg.regMap w := by
    have hmod : w.toNat % 256 ^ 8 = w.toNat := Nat.mod_eq_of_lt w.isLt
    simp only [decodeWith, length_leBytes, Format.size, ne_eq, not_true_eq_false, if_false, leNat_leBytes, hmod,
      BitVec.ofNat_toNat, BitVec.setWidth_eq]
  cases hd : decodeMmio s.c.cfg.regMap w with
  | error x => exact ⟨x, step_of_decode_error hp (hbytes.trans hd)⟩
  | ok i =>
    obtain ⟨r, a, -, rfl⟩ := decodeMmio_ok hm hd
    exact absurd (mmioWord_offset hm r a).symm (hnone r)

end Sys2Proof
end

section
/-!
SUPPORT. The ring indices (10_state.md R65): what the lines that move an index, clear or fill a slot do to `indexOk`,
and that every step keeps it.
-/

namespace Sys2Proof.Machine

variable {s t : State}

/-! ## Ring arithmetic (R12) -/

theorem ringSizeOk_pos {n : Nat} (h : ringSizeOk n = true) : 0 < n := by
  rcases Nat.eq_zero_or_pos n with rfl | h0
  · exact absurd h (by decide)
  · exact h0

/-- `NEXT` stays in the ring. -/
theorem ringNext_lt {n : Nat} (h : ringSizeOk n = true) (i : Half) : (ringNext i n).toNat < n := by
  have hpos := ringSizeOk_pos h
  have hle : (ringNext i n).toNat ≤ n - 1 := by
    rw [ringNext, BitVec.toNat_and, BitVec.toNat_ofNat]
    exact Nat.and_le_right.trans (Nat.mod_le _ _)
  omega

/-! ## The updates that move an index or change a slot -/

theorem indexOk.setRdh {c : Ctlr} (h : indexOk c) {i : Half} (hi : i.toNat < c.cfg.nrd) :
    indexOk { c with rdh := i } := by
  obtain ⟨hn, ht, -, h2, h3, h4, h5, h6⟩ := h
  exact ⟨hn, ht, hi, h2, h3, h4, h5, h6⟩

theorem indexOk.setRdt {c : Ctlr} (h : indexOk c) {i : Half} (hi : i.toNat < c.cfg.nrd) :
    indexOk { c with rdt := i } := by
  obtain ⟨hn, ht, h1, -, h3, h4, h5, h6⟩ := h
  exact ⟨hn, ht, h1, hi, h3, h4, h5, h6⟩

theorem indexOk.setTdh {c : Ctlr} (h : indexOk c) {i : Half} (hi : i.toNat < c.cfg.ntd) :
    indexOk { c with tdh := i } := by
  obtain ⟨hn, ht, h1, h2, -, h4, h5, h6⟩ := h
  exact ⟨hn, ht, h1, h2, hi, h4, h5, h6⟩

theorem indexOk.setTdt {c : Ctlr} (h : indexOk c) {i : Half} (hi : i.toNat < c.cfg.ntd) :
    indexOk { c with tdt := i } := by
  obtain ⟨hn, ht, h1, h2, h3, -, h5, h6⟩ := h
  exact ⟨hn, ht, h1, h2, h3, hi, h5, h6⟩

theorem indexOk.setRb {c : Ctlr} (h : indexOk c) (k : Nat) (x : Option BufId) :
    indexOk { c with rb := c.rb.set k x } := by
  obtain ⟨hn, ht, h1, h2, h3, h4, h5, h6⟩ := h
  exact ⟨hn, ht, h1, h2, h3, h4, (List.length_set ..).trans h5, h6⟩

theorem indexOk.setTb {c : Ctlr} (h : indexOk c) (k : Nat) (x : Option BufId) :
    indexOk { c with tb := c.tb.set k x } := by
  obtain ⟨hn, ht, h1, h2, h3, h4, h5, h6⟩ := h
  exact ⟨hn, ht, h1, h2, h3, h4, h5, (List.length_set ..).trans h6⟩

theorem indexOk.rx_size {c : Ctlr} (h : indexOk c) : ringSizeOk c.cfg.nrd = true := h.1

theorem indexOk.tx_size {c : Ctlr} (h : indexOk c) : ringSizeOk c.cfg.ntd = true := h.2.1

/-! ## The updates that leave the rings alone -/

theorem indexOk.emit (h : indexOk s.c) (e : TraceEv) : indexOk (s.emit e).c := h
theorem indexOk.mmioWrite (h : indexOk s.c) (r : Reg) (v : Word) : indexOk (Machine.mmioWrite s r v).c := by
  simpa [indexOk] using h
theorem indexOk.mmioRead (h : indexOk s.c) (r : Reg) : indexOk (Machine.mmioRead s r).2.c := by
  simpa [indexOk] using h
theorem indexOk.lcJump (h : indexOk s.c) (x : LcCtl) : indexOk (Machine.lcJump x s).c := h
theorem indexOk.rxwJump (h : indexOk s.c) (x : RxCtl) : indexOk (Machine.rxwJump x s).c := h
theorem indexOk.setRxw (h : indexOk s.c) (f : RxWorker → RxWorker) : indexOk (Machine.setRxw s f).c := h
theorem indexOk.txwJump (h : indexOk s.c) (x : TxwCtl) : indexOk (Machine.txwJump x s).c := h
theorem indexOk.lnkJump (h : indexOk s.c) (x : LnkCtl) : indexOk (Machine.lnkJump x s).c := h
theorem indexOk.txcJump (h : indexOk s.c) (k : Nat) (r : TxRun) : indexOk (Machine.txcJump k r s).c := h
theorem indexOk.txcEnd (h : indexOk s.c) (k : Nat) : indexOk (Machine.txcEnd k s).c := h
theorem indexOk.releaseM (h : indexOk s.c) : indexOk (Machine.releaseM s).c := h
theorem indexOk.releaseT (h : indexOk s.c) : indexOk (Machine.releaseT s).c := h
theorem indexOk.raiseFault (h : indexOk s.c) (r : FaultRec) : indexOk (Machine.raiseFault s r).c := h
theorem indexOk.finishLc (h : indexOk s.c) (st : Status) : indexOk (Machine.finishLc s st).c := h
theorem indexOk.fatal (h : indexOk s.c) (r : FaultRec) : indexOk (Machine.fatal s r).c := h

theorem indexOk.releaseTx (h : indexOk s.c) (b : BufId) : indexOk (Machine.releaseTx s b).c := by
  rw [Machine.releaseTx, State.emit_c]
  rcases releaseBuf_cases s b with e | e | e <;> rw [e] <;> exact h

/-! ## Routines an agent calls -/

section Routines

variable {α : Type} {jump : α → State → State} {done : State → State}

theorem armStep_index {jump : ArmPc → State → State} {a : AgentId} {cls : Word} {p : ArmPc}
    (h : armStep s a cls p jump done = .go t) (hj : ∀ q v, indexOk v.c → indexOk (jump q v).c)
    (hd : ∀ v, indexOk v.c → indexOk (done v).c) (hs : indexOk s.c) : indexOk t.c := by
  rcases armStep_go h with ⟨-, -, rfl⟩ | ⟨-, rfl⟩ | ⟨-, rfl⟩ | ⟨-, rfl⟩
  · exact hj _ _ hs
  · exact hj _ _ hs
  · exact hj _ _ (hs.mmioWrite _ _)
  · exact hd _ hs.releaseM

theorem wakeStep_index {jump : WakePc → State → State} {a : AgentId} {p : WakePc} {take : State → State}
    (h : wakeStep s a p take jump done = .go t) (ht : indexOk s.c → indexOk (take s).c)
    (hj : ∀ q v, indexOk v.c → indexOk (jump q v).c) (hd : ∀ v, indexOk v.c → indexOk (done v).c)
    (hs : indexOk s.c) : indexOk t.c := by
  rcases wakeStep_go h with ⟨-, -, rfl⟩ | ⟨-, rfl⟩ | ⟨-, rfl⟩
  · exact hj _ _ hs
  · exact hj _ _ (ht hs)
  · exact hd _ hs.releaseM

theorem hsStep_index {jump : HsPc → State → State} {done : Bool → Word → State → State} {r : Reg} {req : Word}
    {err cpl : Word → Bool} {p : HsPc} (h : hsStep s r req err cpl p jump done = .go t)
    (hj : ∀ q v, indexOk v.c → indexOk (jump q v).c) (hd : ∀ ok w v, indexOk v.c → indexOk (done ok w v).c)
    (hs : indexOk s.c) : indexOk t.c := by
  rcases hsStep_go h with ⟨-, rfl⟩ | ⟨i, -, rfl | ⟨-, -, rfl⟩ | rfl⟩ | ⟨i, -, rfl⟩
  · exact hj _ _ (hs.mmioWrite _ _)
  · exact hd _ _ _ (hs.mmioRead _)
  · exact hd _ _ _ (hs.mmioRead _)
  · exact hj _ _ (hs.mmioRead _)
  · exact hj _ _ hs

/-- REPLENISH records the popped buffer (line R3) and advances the tail (line R8). -/
theorem repStep_index {jump : RepPc → State → State} {p : RepPc} {draw : Nat}
    (h : repStep s p draw jump done = .go t) (hj : ∀ q v, indexOk v.c → indexOk (jump q v).c)
    (hd : ∀ v, indexOk v.c → indexOk (done v).c) (hs : indexOk s.c) : indexOk t.c := by
  rcases repStep_go h with ⟨-, rfl⟩ | ⟨-, -, rfl⟩ | ⟨-, b, u, hp, rfl⟩ | ⟨-, rfl⟩ | ⟨b, -, rfl⟩ | ⟨b, r, -, -, rfl⟩ |
    ⟨b, r, -, -, rfl⟩ | ⟨b, u, -, rfl, rfl⟩ | ⟨-, rfl⟩
  · exact hj _ _ (hs.emit _)
  · exact hj _ _ hs
  · obtain ⟨-, rfl⟩ := poolPop_some hp
    exact hj _ _ (hs.setRb _ _)
  · exact hj _ _ (hs.emit _)
  · exact hj _ _ hs
  · exact hj _ _ hs
  · exact hj _ _ hs
  · exact hj _ _ (hs.setRdt (ringNext_lt hs.rx_size _))
  · exact hd _ (hs.mmioWrite _ _)

theorem txReclaim_index (hs : indexOk s.c) : indexOk (txReclaim s).c := by
  unfold txReclaim
  split
  · refine indexOk.releaseTx ?_ _
    exact hs.setTb _ _
  · exact hs.emit _

/-- TX_ROUTINE clears a slot (line A3), fills one (line B2), and advances the head (line A4) and the tail (line B7). -/
theorem txStep_index {jump : TxRun → State → State} {a : AgentId} {r : TxRun}
    (h : txStep s a r jump done = .go t) (hj : ∀ q v, indexOk v.c → indexOk (jump q v).c)
    (hd : ∀ v, indexOk v.c → indexOk (done v).c) (hs : indexOk s.c) : indexOk t.c := by
  cases hc : r.pc <;> simp only [txStep, hc] at h
  case x0 => obtain ⟨-, rfl⟩ := acquireT_go h; exact hj _ _ hs
  case a1 => split at h <;> cases h <;> exact hj _ _ hs
  case a3 => cases h; exact hj _ _ (txReclaim_index hs)
  case a4 => cases h; exact hj _ _ (hs.setTdh (ringNext_lt hs.tx_size _))
  case b2 =>
    split at h <;> cases h
    · exact hj _ _ hs
    · exact hj _ _ (hs.setTb _ _)
  case b4 =>
    split at h
    · cases h
    · split at h <;> cases h
      · exact hj _ _ hs
      · exact hj _ _ (hs.raiseFault _)
  case b5 => split at h <;> cases h; exact hj _ _ hs
  case b6 => split at h <;> cases h; exact hj _ _ hs
  case b7 => cases h; exact hj _ _ (hs.setTdt (ringNext_lt hs.tx_size _))
  case c1 => split at h <;> cases h <;> exact hj _ _ hs
  case c1Arm p => exact armStep_index h (fun _ _ => hj _ _) (fun _ => hj _ _) hs
  case c1Emit => cases h; exact hj _ _ (hs.emit _)
  case e1 => cases h; exact hj _ _ (hs.mmioWrite _ _)
  case e2 => cases h; exact hd _ hs.releaseT
  case haltB3 => cases h

end Routines

/-! ## Agents -/

theorem dispStep_index (h : dispStep s = .go t) (hs : indexOk s.c) : indexOk t.c := by
  rw [(dispStep_frame h).1]
  exact hs

theorem lnkStep_index (h : lnkStep s = .go t) (hs : indexOk s.c) : indexOk t.c := by
  cases hc : s.c.lnk <;> simp only [lnkStep, hc] at h
  case notStarted => cases h
  case l1 p => exact hsStep_index h (fun _ _ k => k.lnkJump _) (fun _ _ _ k => k.lnkJump _) hs
  case l5a => obtain ⟨-, rfl⟩ := acquireM_go h; exact hs
  case l6 p => exact armStep_index h (fun _ _ k => k.lnkJump _) (fun _ k => k.lnkJump _) hs
  case l7 => split at h <;> cases h; exact hs
  case l8 p => exact wakeStep_index h id (fun _ _ k => k.lnkJump _) (fun _ k => k.lnkJump _) hs
  all_goals obtain rfl := StepRes.go.inj h
  case l4 up idx =>
    refine (indexOk.emit ?_ _).lnkJump _
    exact hs
  all_goals exact hs

theorem rxwStep_index {d : Nat} (h : rxwStep s d = .go t) (hs : indexOk s.c) : indexOk t.c := by
  cases hc : s.c.rxw.ctl <;> simp only [rxwStep, hc] at h
  case w1 p => exact armStep_index h (fun _ _ k => k.rxwJump _) (fun _ k => k.rxwJump _) hs
  case w2 => split at h <;> cases h; exact hs
  case w3 p => exact wakeStep_index h id (fun _ _ k => k.rxwJump _) (fun _ k => k.setRxw _) hs
  case s1 => split at h <;> cases h <;> exact hs
  case s3 => split at h <;> cases h <;> exact hs
  case d1 => cases h; exact hs
  case d2 =>
    split at h
    · cases h
    · split at h <;> cases h <;> exact hs
  case d4 => cases h; exact hs
  case d5 => cases h; exact hs.setRb _ _
  case discard => cases h; exact hs.setRb _ _
  case s6 => cases h; exact hs
  case s7 => cases h; exact hs.setRdh (ringNext_lt hs.rx_size _)
  case s8 p => exact repStep_index h (fun _ _ k => k.rxwJump _) (fun _ k => k.setRxw _) hs
  case p1 p => exact repStep_index h (fun _ _ k => k.rxwJump _) (fun _ k => k.rxwJump _) hs
  all_goals cases h

theorem txwStep_index (h : txwStep s = .go t) (hs : indexOk s.c) : indexOk t.c := by
  cases hc : s.c.txw <;> simp only [txwStep, hc] at h
  case notStarted => cases h
  case t1 p => exact armStep_index h (fun _ _ k => k.txwJump _) (fun _ k => k.txwJump _) hs
  case t2 => split at h <;> cases h; exact hs
  case t3 p => exact wakeStep_index h id (fun _ _ k => k.txwJump _) (fun _ k => k.txwJump _) hs
  case t4 r => exact txStep_index h (fun _ _ k => k.txwJump _) (fun _ k => k.txwJump _) hs

theorem txcStep_index {k : Nat} (h : txcStep s k = .go t) (hs : indexOk s.c) : indexOk t.c := by
  unfold txcStep at h
  split at h
  · cases h
  · exact txStep_index h (fun _ _ k => k.txcJump _ _) (fun _ k => k.txcEnd _) hs

theorem lcFreeRx_index (i : Nat) (hs : indexOk s.c) : indexOk (lcFreeRx s i).c := by
  unfold lcFreeRx
  split
  · exact hs.setRb _ _
  · exact hs

theorem lcFreeTx_index (i : Nat) (hs : indexOk s.c) : indexOk (lcFreeTx s i).c := by
  unfold lcFreeTx
  split
  · refine indexOk.releaseTx ?_ _
    exact hs.setTb _ _
  · exact hs

theorem lcChecksum_index (hs : indexOk s.c) : indexOk (lcChecksum s).c := by
  unfold lcChecksum
  simp only
  split
  · exact hs
  · exact hs.fatal _

theorem lcEeDone_index (w : Nat) (ok : Bool) (v : Word) (hs : indexOk s.c) : indexOk (lcEeDone w ok v s).c := by
  unfold lcEeDone
  split <;> exact hs

/-- `LC` sets the indices of a ring to 0 (lines I4, T4) and clears leftovers (lines I6, T6). -/
theorem lcStep_index {d : Nat} (h : lcStep s d = .go t) (hs : indexOk s.c) : indexOk t.c := by
  have hrx := ringSizeOk_pos hs.rx_size
  have htx := ringSizeOk_pos hs.tx_size
  cases hc : s.c.lcCtl <;> simp only [lcStep, hc] at h
  case idle => cases h
  case a1 =>
    split at h <;> cases h
    · exact (hs.mmioWrite _ _).lcJump _
    · exact hs
  case b1 w q =>
    unfold eeReadStep at h
    exact hsStep_index h (fun _ _ k => k.lcJump _) (fun _ _ _ => lcEeDone_index _ _ _) hs
  case c1 n hi => cases hi <;> (obtain rfl := StepRes.go.inj h; exact (hs.mmioWrite _ _).lcJump _)
  case c2 hi => cases hi <;> (obtain rfl := StepRes.go.inj h; exact (hs.mmioWrite _ _).lcJump _)
  case i8 b => cases b <;> (obtain rfl := StepRes.go.inj h; exact (hs.mmioWrite _ _).lcJump _)
  case i10 p => exact repStep_index h (fun _ _ k => k.lcJump _) (fun _ k => k.lcJump _) hs
  case t8 b => cases b <;> (obtain rfl := StepRes.go.inj h; exact (hs.mmioWrite _ _).lcJump _)
  case z1 => obtain ⟨-, rfl⟩ := acquireM_go h; exact hs
  case z8 d =>
    cases d <;> obtain rfl := StepRes.go.inj h
    · exact hs.fatal _
    · refine indexOk.finishLc ?_ _
      exact hs
  case u1 => obtain ⟨-, rfl⟩ := acquireS_go h; exact hs
  all_goals obtain rfl := StepRes.go.inj h
  case b2 => exact lcChecksum_index hs
  case i4 =>
    refine (indexOk.mmioWrite ?_ _ _).lcJump _
    exact (hs.setRdh (i := 0) hrx).setRdt (i := 0) hrx
  case i6 i => exact (lcFreeRx_index i hs).lcJump _
  case i7 i f => unfold zeroRd; split <;> exact hs
  case t4 =>
    refine (indexOk.mmioWrite ?_ _ _).lcJump _
    exact (hs.setTdh (i := 0) htx).setTdt (i := 0) htx
  case t6 i => exact (lcFreeTx_index i hs).lcJump _
  case t7 i f => unfold zeroTd; split <;> exact hs
  case rmwR | promiscR | u3 => exact (hs.mmioRead _).lcJump _
  case pollR => exact (hs.mmioRead _).lcJump _
  case fatal r => exact hs.fatal _
  case pollD | b0 | c5 | d3 | z7 | u3e | u4 => exact hs
  case b3 => exact hs.mmioRead .status
  case u2 k => exact hs.mmioRead (.stat (Fin.ofNat 73 k))
  case d4 | u5 =>
    refine indexOk.finishLc ?_ _
    exact hs
  case promiscW | mcastW | tunableW => exact (hs.mmioWrite _ _).finishLc _
  case z2 =>
    refine (indexOk.mmioWrite ?_ _ _).lcJump _
    exact hs
  all_goals exact (hs.mmioWrite _ _).lcJump _

theorem agentStep_index {a : AgentId} {d : Nat} (h : agentStep a d s = .go t) (hs : indexOk s.c) : indexOk t.c := by
  cases a with
  | disp => exact dispStep_index h hs
  | rxw => exact rxwStep_index h hs
  | txw => exact txwStep_index h hs
  | lnk => exact lnkStep_index h hs
  | lc => exact lcStep_index h hs
  | txc k => exact txcStep_index h hs

/-- A host command moves no index. -/
theorem exec_cmd_index {i : Instr} (hf : i.format = .hostCmd) (h : exec i s = .next t) (hs : indexOk s.c) :
    indexOk t.c := by
  cases exec_cmd_case hf h with
  | reply es h => rw [h]; exact hs
  | attach _ _ h => rw [h]; exact hs
  | tx _ h => rw [h]; exact hs
  | shutdown _ _ h => rcases h with ⟨-, h⟩ | h <;> (rw [h]; exact hs)
  | control x es _ _ _ h => rw [h]; exact hs

theorem discovery_index {k : Nat} {p : Params} {q : PoolParams} {a b : DWord} (h : launchShapeOk p q a b = true) :
    indexOk (Ctlr.discovery k p a b) := by
  simp only [launchShapeOk, Bool.and_eq_true] at h
  obtain ⟨⟨⟨⟨⟨⟨⟨hn, ht⟩, -⟩, -⟩, -⟩, -⟩, -⟩, -⟩ := h
  exact ⟨hn, ht, ringSizeOk_pos hn, ringSizeOk_pos hn, ringSizeOk_pos ht, ringSizeOk_pos ht, List.length_replicate,
    List.length_replicate⟩

/-- Settles O9: an index moves only by `NEXT` or to 0, both inside the ring (R12, R65). -/
theorem stepKeepsRingIndices : Obligations.StepKeepsRingIndices := by
  intro s t h hs
  refine step_keeps (fun i _ _ hf he => exec_cmd_index hf he) (fun u v hf hu => ?_) (fun _ _ _ _ => agentStep_index)
    (fun _ _ => id) (fun _ _ _ _ _ => discovery_index) h hs
  rw [hf.c]
  exact hu

end Sys2Proof.Machine
end

section
/-!
SUPPORT. Where the agents stand (10_state.md R38) and the locks they hold (20_memory.md R96, R97), over one step: an
agent moves its own line alone, and takes or frees a lock exactly at the ends of a critical section.
-/

namespace Sys2Proof.Machine

variable {s t u v : State} {a : AgentId}

/-! ## Updates that move no agent -/

/-- The lifecycle, the locks and every agent's line stay. -/
structure Quiet (s t : State) : Prop where
  lc : t.c.lc = s.c.lc := by rfl
  lcCtl : t.c.lcCtl = s.c.lcCtl := by rfl
  mlock : t.c.mlock = s.c.mlock := by rfl
  tlock : t.c.tlock = s.c.tlock := by rfl
  disp : t.c.disp.ctl = s.c.disp.ctl := by rfl
  rxw : t.c.rxw.ctl = s.c.rxw.ctl := by rfl
  txw : t.c.txw = s.c.txw := by rfl
  lnk : t.c.lnk = s.c.lnk := by rfl
  txcs : t.c.txcs = s.c.txcs := by rfl

namespace Quiet

theorem refl (s : State) : Quiet s s := {}

theorem trans (h : Quiet s t) (k : Quiet t u) : Quiet s u :=
  ⟨k.lc.trans h.lc, k.lcCtl.trans h.lcCtl, k.mlock.trans h.mlock, k.tlock.trans h.tlock, k.disp.trans h.disp,
    k.rxw.trans h.rxw, k.txw.trans h.txw, k.lnk.trans h.lnk, k.txcs.trans h.txcs⟩

theorem of_c (h : t.c = s.c) : Quiet s t := by constructor <;> rw [h]

theorem mmioWrite (s : State) (r : Reg) (x : Word) : Quiet s (Machine.mmioWrite s r x) := by constructor <;> simp

theorem mmioRead (s : State) (r : Reg) : Quiet s (Machine.mmioRead s r).2 := by constructor <;> simp

theorem emit (s : State) (e : TraceEv) : Quiet s (s.emit e) := {}

theorem raiseFault (s : State) (r : FaultRec) : Quiet s (Machine.raiseFault s r) :=
  {}

theorem releaseTx (s : State) (b : BufId) : Quiet s (Machine.releaseTx s b) := by
  refine trans (of_c ?_) (emit _ _)
  rcases releaseBuf_cases s b with h | h | h <;> rw [h] <;> rfl

end Quiet

/-! ## A lock over one step -/

/-- What a step of agent `a` may do to a lock: leave it while not entering its section, take it when it is free, or free
it when leaving the section. `i` and `j` say whether `a` is inside the section before and after. -/
inductive LockMove (a : AgentId) (l m : Option AgentId) (i j : Bool) : Prop where
  | keep (hl : m = l) (hi : j = true → i = true)
  | take (hl : l = none) (hm : m = some a)
  | free (hi : i = true) (hm : m = none) (hj : j = false)

/-- Whoever is inside a section holds its lock: kept when one agent moves and no other enters. -/
theorem LockMove.holds {l m : Option AgentId} {i j : AgentId → Bool} (h : LockMove a l m (i a) (j a))
    (ho : ∀ b, b ≠ a → j b = true → i b = true) (hi : ∀ b, i b = true → l = some b) : ∀ b, j b = true → m = some b := by
  intro b hb
  by_cases hba : b = a
  · subst hba
    cases h with
    | keep hl hk => rw [hl]; exact hi b (hk hb)
    | take _ hm => exact hm
    | free _ _ hj => rw [hj] at hb; cases hb
  · have hlb := hi b (ho b hba hb)
    cases h with
    | keep hl _ => rw [hl]; exact hlb
    | take hl _ => rw [hl] at hlb; cases hlb
    | free hia _ _ => rw [hi a hia] at hlb; exact absurd (Option.some.inj hlb).symm hba

/-! ## One agent's move -/

/-- Agent `a` may stand elsewhere; all others stand where they stood, and no worker is back before its start. -/
structure OthersKept (a : AgentId) (c d : Ctlr) : Prop where
  lc : d.lc = c.lc
  lcCtl : d.lcCtl = c.lcCtl
  disp : a ≠ .disp → d.disp.ctl = c.disp.ctl
  rxw : a ≠ .rxw → d.rxw.ctl = c.rxw.ctl
  txw : a ≠ .txw → d.txw = c.txw
  lnk : a ≠ .lnk → d.lnk = c.lnk
  txcs : (∀ k, a ≠ .txc k) → d.txcs = c.txcs
  caller : ∀ k, a ≠ .txc k → txcFind d.txcs k = txcFind c.txcs k
  started : (d.rxw.ctl = .notStarted → c.rxw.ctl = .notStarted) ∧ (d.txw = .notStarted → c.txw = .notStarted)
    ∧ (d.lnk = .notStarted → c.lnk = .notStarted)

/-- Agent `a` jumps: it is then inside the `mlock` section only if `x`, in TX_ROUTINE only if `y`; the locks stay. -/
structure Jumped (a : AgentId) (x y : Bool) (s t : State) : Prop where
  others : OthersKept a s.c t.c
  mlock : t.c.mlock = s.c.mlock
  tlock : t.c.tlock = s.c.tlock
  inM : inMlock t.c a = true → x = true
  inT : inTlock t.c a = true → y = true

/-- A step of agent `a`: the others stay, and each lock is moved at the ends of its section only. -/
structure AgentMove (a : AgentId) (c d : Ctlr) : Prop where
  others : OthersKept a c d
  mlock : LockMove a c.mlock d.mlock (inMlock c a) (inMlock d a)
  tlock : LockMove a c.tlock d.tlock (inTlock c a) (inTlock d a)

theorem OthersKept.of_quiet (q : Quiet s u) (h : OthersKept a u.c t.c) : OthersKept a s.c t.c where
  lc := h.lc.trans q.lc
  lcCtl := h.lcCtl.trans q.lcCtl
  disp ha := (h.disp ha).trans q.disp
  rxw ha := (h.rxw ha).trans q.rxw
  txw ha := (h.txw ha).trans q.txw
  lnk ha := (h.lnk ha).trans q.lnk
  txcs ha := (h.txcs ha).trans q.txcs
  caller k hk := (h.caller k hk).trans (by rw [q.txcs])
  started := by
    obtain ⟨h1, h2, h3⟩ := h.started
    exact ⟨fun k => q.rxw ▸ h1 k, fun k => q.txw ▸ h2 k, fun k => q.lnk ▸ h3 k⟩

/-- The locks are no agent's place. -/
theorem OthersKept.of_locks {c d : Ctlr} {l m : Option AgentId} (h : OthersKept a { c with mlock := l, tlock := m } d) :
    OthersKept a c d := ⟨h.lc, h.lcCtl, h.disp, h.rxw, h.txw, h.lnk, h.txcs, h.caller, h.started⟩

namespace AgentMove

variable {x y : Bool}

/-- A line that touches no lock. -/
theorem keep (j : Jumped a x y u t) (q : Quiet s u) (hx : x = true → inMlock s.c a = true)
    (hy : y = true → inTlock s.c a = true) : AgentMove a s.c t.c where
  others := j.others.of_quiet q
  mlock := .keep (j.mlock.trans q.mlock) fun k => hx (j.inM k)
  tlock := .keep (j.tlock.trans q.tlock) fun k => hy (j.inT k)

/-- A line outside both sections. -/
theorem plain (j : Jumped a false false u t) (q : Quiet s u) : AgentMove a s.c t.c := keep j q nofun nofun

/-- A line that acquires `mlock`. -/
theorem takeM (hl : s.c.mlock = none) (j : Jumped a x y (s.modC fun c => { c with mlock := some a }) t)
    (hy : y = true → inTlock s.c a = true) : AgentMove a s.c t.c where
  others := .of_locks j.others
  mlock := .take hl j.mlock
  tlock := .keep j.tlock fun k => hy (j.inT k)

/-- A line that releases `mlock`. -/
theorem freeM (hi : inMlock s.c a = true) (j : Jumped a false y (releaseM s) t)
    (hy : y = true → inTlock s.c a = true) : AgentMove a s.c t.c where
  others := .of_locks j.others
  mlock := .free hi j.mlock (Bool.eq_false_iff.mpr fun k => Bool.false_ne_true (j.inM k))
  tlock := .keep j.tlock fun k => hy (j.inT k)

/-- A line that acquires `tlock`. -/
theorem takeT (hl : s.c.tlock = none) (j : Jumped a x y (s.modC fun c => { c with tlock := some a }) t)
    (hx : x = true → inMlock s.c a = true) : AgentMove a s.c t.c where
  others := .of_locks j.others
  mlock := .keep j.mlock fun k => hx (j.inM k)
  tlock := .take hl j.tlock

/-- A line that releases `tlock`. -/
theorem freeT (hi : inTlock s.c a = true) (j : Jumped a x false (releaseT s) t)
    (hx : x = true → inMlock s.c a = true) : AgentMove a s.c t.c where
  others := .of_locks j.others
  mlock := .keep j.mlock fun k => hx (j.inM k)
  tlock := .free hi j.tlock (Bool.eq_false_iff.mpr fun k => Bool.false_ne_true (j.inT k))

end AgentMove

/-! ## Routines an agent calls -/

theorem armStep_move {cls : Word} {p : ArmPc} {jump : ArmPc → State → State} {done : State → State} {y : Bool}
    (h : armStep s a cls p jump done = .go t) (hp : inMlock s.c a = p.holds) (hy : y = true → inTlock s.c a = true)
    (hj : ∀ q v, Jumped a q.holds y v (jump q v))
    (hd : ∀ v, Jumped a false y v (done v)) : AgentMove a s.c t.c := by
  rcases armStep_go h with ⟨rfl, hl, rfl⟩ | ⟨rfl, rfl⟩ | ⟨rfl, rfl⟩ | ⟨rfl, rfl⟩
  · exact .takeM hl (hj _ _) hy
  · exact .keep (hj _ _) {} (fun _ => hp) hy
  · exact .keep (hj _ _) (.mmioWrite _ _ _) (fun _ => hp) hy
  · exact .freeM hp (hd _) hy

theorem wakeStep_move {p : WakePc} {take : State → State} {jump : WakePc → State → State} {done : State → State}
    {y : Bool} (h : wakeStep s a p take jump done = .go t) (hp : inMlock s.c a = p.holds)
    (hy : y = true → inTlock s.c a = true) (ht : Quiet s (take s)) (hj : ∀ q v, Jumped a q.holds y v (jump q v))
    (hd : ∀ v, Jumped a false y v (done v)) : AgentMove a s.c t.c := by
  rcases wakeStep_go h with ⟨rfl, hl, rfl⟩ | ⟨rfl, rfl⟩ | ⟨rfl, rfl⟩
  · exact .takeM hl (hj _ _) hy
  · exact .keep (hj _ _) ht (fun _ => hp) hy
  · exact .freeM hp (hd _) hy

theorem hsStep_move {r : Reg} {req : Word} {err cpl : Word → Bool} {p : HsPc} {jump : HsPc → State → State}
    {done : Bool → Word → State → State} (h : hsStep s r req err cpl p jump done = .go t)
    (hj : ∀ q v, Jumped a false false v (jump q v)) (hd : ∀ ok w v, Jumped a false false v (done ok w v)) :
    AgentMove a s.c t.c := by
  rcases hsStep_go h with ⟨-, rfl⟩ | ⟨i, -, rfl | ⟨-, -, rfl⟩ | rfl⟩ | ⟨i, -, rfl⟩
  · exact .plain (hj _ _) (.mmioWrite _ _ _)
  · exact .plain (hd _ _ _) (.mmioRead _ _)
  · exact .plain (hd _ _ _) (.mmioRead _ _)
  · exact .plain (hj _ _) (.mmioRead _ _)
  · exact .plain (hj _ _) (.refl _)

theorem repStep_move {p : RepPc} {draw : Nat} {jump : RepPc → State → State} {done : State → State}
    (h : repStep s p draw jump done = .go t) (hj : ∀ q v, Jumped a false false v (jump q v))
    (hd : ∀ v, Jumped a false false v (done v)) : AgentMove a s.c t.c := by
  rcases repStep_go h with ⟨-, rfl⟩ | ⟨-, -, rfl⟩ | ⟨-, b, w, hp, rfl⟩ | ⟨-, rfl⟩ | ⟨b, -, rfl⟩ | ⟨b, r, -, -, rfl⟩ |
    ⟨b, r, -, -, rfl⟩ | ⟨b, w, -, rfl, rfl⟩ | ⟨-, rfl⟩
  · exact .plain (hj _ _) (.emit _ _)
  · exact .plain (hj _ _) (.of_c rfl)
  · obtain ⟨-, rfl⟩ := poolPop_some hp
    exact .plain (hj _ _) {}
  · exact .plain (hj _ _) (.emit _ _)
  · exact .plain (hj _ _) (.of_c rfl)
  · exact .plain (hj _ _) (.of_c rfl)
  · exact .plain (hj _ _) (.of_c rfl)
  · exact .plain (hj _ _) {}
  · exact .plain (hd _) (.mmioWrite _ _ _)

theorem txReclaim_quiet (s : State) : Quiet s (txReclaim s) := by
  unfold txReclaim
  split
  · exact Quiet.trans (t := s.modC _) {} (.releaseTx _ _)
  · exact .emit _ _

/-- TX_ROUTINE (R241): `tlock` from line X0 to line E2, `mlock` inside the ARM of line C1. -/
theorem txStep_move {r : TxRun} {jump : TxRun → State → State} {done : State → State}
    (h : txStep s a r jump done = .go t) (hm : inMlock s.c a = r.pc.holdsM) (ht : inTlock s.c a = r.pc.holdsT)
    (hj : ∀ q v, Jumped a q.pc.holdsM q.pc.holdsT v (jump q v))
    (hd : ∀ v, Jumped a false false v (done v)) : AgentMove a s.c t.c := by
  have hin : r.pc ≠ .x0 → inTlock s.c a = true := fun hx => by
    rw [ht]
    cases hr : r.pc with
    | x0 => exact absurd hr hx
    | _ => rfl
  have line : ∀ {u : State} {q : TxRun}, Quiet s u → q.pc.holdsM = false → r.pc ≠ .x0 →
      AgentMove a s.c (jump q u).c := fun {u q} hu hq hx =>
    .keep (hj q u) hu (fun k => by rw [hq] at k; cases k) fun _ => hin hx
  have txNext_out : ∀ c, (txNext c).holdsM = false := fun c => by unfold txNext; split <;> rfl
  have txTail_out : ∀ c, (txTail c r).holdsM = false := fun c => by unfold txTail; split <;> rfl
  cases hc : r.pc <;> simp only [txStep, hc] at h <;> simp only [hc, ne_eq, reduceCtorEq, not_false_eq_true,
    not_true_eq_false, forall_true_left] at hm ht hin line
  case x0 =>
    obtain ⟨hl, rfl⟩ := acquireT_go h
    exact .takeT hl (hj _ _) nofun
  case a1 =>
    split at h <;> cases h
    · exact line (.refl _) rfl
    · exact line (.refl _) (txNext_out _)
  case a3 => cases h; exact line (txReclaim_quiet s) rfl
  case a4 => cases h; exact line {} rfl
  case b2 =>
    split at h <;> cases h
    · exact line (.refl _) (txTail_out _)
    · exact line {} rfl
  case b4 =>
    split at h
    · cases h
    · split at h <;> cases h
      · exact line (.of_c rfl) rfl
      · exact line (.raiseFault _ _) rfl
  case b5 => split at h <;> cases h; exact line (.of_c rfl) rfl
  case b6 => split at h <;> cases h; exact line (.of_c rfl) rfl
  case b7 => cases h; exact line {} (txNext_out _)
  case c1 =>
    split at h <;> cases h
    · exact line (.refl _) (txTail_out _)
    · exact line (.refl _) rfl
  case c1Arm p =>
    exact armStep_move (y := true) h hm (fun _ => hin) (fun q v => hj { r with pc := .c1Arm q } v)
      fun v => hj { r with pc := .c1Emit } v
  case c1Emit => cases h; exact line (.emit _ _) (txTail_out _)
  case e1 => cases h; exact line (.mmioWrite _ _ _) rfl
  case e2 => cases h; exact .freeT hin (hd _) nofun
  case haltB3 => cases h

/-! ## The agents' own lines -/

/-- The worker is at a line of ARM or WAKE that holds `mlock`. -/
def RxCtl.holdsM : RxCtl → Bool
  | .w1 p => p.holds
  | .w3 p => p.holds
  | _ => false

def TxwCtl.holdsM : TxwCtl → Bool
  | .t1 p => p.holds
  | .t3 p => p.holds
  | .t4 r => r.pc.holdsM
  | _ => false

def TxwCtl.holdsT : TxwCtl → Bool
  | .t4 r => r.pc.holdsT
  | _ => false

def LnkCtl.holdsM : LnkCtl → Bool
  | .l5b | .l5c => true
  | .l6 p => p.holds
  | .l8 p => p.holds
  | _ => false

def DispCtl.holdsM (x : DispCtl) : Bool := x != .idle && x != .q1

theorem inMlock_rxw (c : Ctlr) : inMlock c .rxw = c.rxw.ctl.holdsM := rfl
theorem inMlock_txw (c : Ctlr) : inMlock c .txw = c.txw.holdsM := rfl
theorem inTlock_txw (c : Ctlr) : inTlock c .txw = c.txw.holdsT := rfl
theorem inMlock_lnk (c : Ctlr) : inMlock c .lnk = c.lnk.holdsM := rfl
theorem inMlock_disp (c : Ctlr) : inMlock c .disp = c.disp.ctl.holdsM := rfl

theorem inMlock_txc {c : Ctlr} {k : Nat} {r : TxRun} (h : txcFind c.txcs k = some r) :
    inMlock c (.txc k) = r.pc.holdsM := by simp only [inMlock, h]

theorem inTlock_txc {c : Ctlr} {k : Nat} {r : TxRun} (h : txcFind c.txcs k = some r) :
    inTlock c (.txc k) = r.pc.holdsT := by simp only [inTlock, h]

/-! ## The list of callers (R243) -/

theorem txcFind_txcSet (xs : List Txc) (k j : Nat) (r : TxRun) :
    txcFind (txcSet xs k r) j = if j = k then (txcFind xs k).map fun _ => r else txcFind xs j := by
  induction xs with
  | nil => simp [txcSet, txcFind]
  | cons x xs ih =>
    simp only [txcSet, List.map_cons, txcFind] at ih ⊢
    by_cases hx : x.k = k
    · by_cases hj : j = k
      · simp [hx, hj]
      · simp [hx, hj, Ne.symm hj, ih]
    · by_cases hj : j = k
      · subst hj; simp [hx, ih]
      · simp [hx, hj, ih]

theorem txcFind_filter (xs : List Txc) (k j : Nat) :
    txcFind (xs.filter fun x => x.k != k) j = if j = k then none else txcFind xs j := by
  induction xs with
  | nil => simp [txcFind]
  | cons x xs ih =>
    by_cases hx : x.k = k
    · rw [List.filter_cons_of_neg (by simp [hx]), ih]
      by_cases hj : j = k
      · simp [hj]
      · simp [hx, hj, Ne.symm hj, txcFind]
    · rw [List.filter_cons_of_pos (by simp [hx]), txcFind, txcFind, ih]
      by_cases hj : j = k
      · subst hj; simp [hx]
      · simp [hj]

/-- A caller appended behind the others is found where none of its number stood. -/
theorem txcFind_append (xs : List Txc) (x : Txc) (j : Nat) :
    txcFind (xs ++ [x]) j = (txcFind xs j).or (if x.k = j then some x.run else none) := by
  induction xs with
  | nil => simp [txcFind]
  | cons y ys ih =>
    simp only [List.cons_append, txcFind, ih]
    split <;> simp

/-! ## Jumps -/

namespace Jumped

theorem setRxw (s : State) {f : RxWorker → RxWorker} {x : Bool} (hm : (f s.c.rxw).ctl.holdsM = x := by rfl)
    (hx : (f s.c.rxw).ctl ≠ .notStarted := by nofun) : Jumped .rxw x false s (Machine.setRxw s f) where
  others := ⟨rfl, rfl, fun _ => rfl, fun h => absurd rfl h, fun _ => rfl, fun _ => rfl, fun _ => rfl, fun _ _ => rfl,
    fun h => absurd h hx, id, id⟩
  mlock := rfl
  tlock := rfl
  inM h := hm ▸ h
  inT := nofun

theorem rxwJump (s : State) {l : RxCtl} {x : Bool} (hm : l.holdsM = x := by rfl) (hx : l ≠ .notStarted := by nofun) :
    Jumped .rxw x false s (Machine.rxwJump l s) := setRxw (f := fun w => { w with ctl := l }) s hm hx

theorem txwJump (s : State) {l : TxwCtl} {x y : Bool} (hm : l.holdsM = x := by rfl) (ht : l.holdsT = y := by rfl)
    (hx : l ≠ .notStarted := by nofun) : Jumped .txw x y s (Machine.txwJump l s) where
  others := ⟨rfl, rfl, fun _ => rfl, fun _ => rfl, fun h => absurd rfl h, fun _ => rfl, fun _ => rfl, fun _ _ => rfl,
    id, fun h => absurd h hx, id⟩
  mlock := rfl
  tlock := rfl
  inM h := hm ▸ h
  inT h := ht ▸ h

theorem lnkJump (s : State) {l : LnkCtl} {x : Bool} (hm : l.holdsM = x := by rfl) (hx : l ≠ .notStarted := by nofun) :
    Jumped .lnk x false s (Machine.lnkJump l s) where
  others := ⟨rfl, rfl, fun _ => rfl, fun _ => rfl, fun _ => rfl, fun h => absurd rfl h, fun _ => rfl, fun _ _ => rfl,
    id, id, fun h => absurd h hx⟩
  mlock := rfl
  tlock := rfl
  inM h := hm ▸ h
  inT := nofun

theorem setDisp (s : State) {f : Disp → Disp} {x : Bool} (hm : (f s.c.disp).ctl.holdsM = x := by rfl) :
    Jumped .disp x false s (Machine.setDisp s f) where
  others := ⟨rfl, rfl, fun h => absurd rfl h, fun _ => rfl, fun _ => rfl, fun _ => rfl, fun _ => rfl, fun _ _ => rfl,
    id, id, id⟩
  mlock := rfl
  tlock := rfl
  inM h := hm ▸ h
  inT := nofun

theorem txcJump (s : State) (k : Nat) (r : TxRun) :
    Jumped (.txc k) r.pc.holdsM r.pc.holdsT s (Machine.txcJump k r s) where
  others := ⟨rfl, rfl, fun _ => rfl, fun _ => rfl, fun _ => rfl, fun _ => rfl, fun h => absurd rfl (h k),
    fun j hj => (txcFind_txcSet _ _ _ _).trans (if_neg fun h : j = k => hj (h ▸ rfl)), id, id, id⟩
  mlock := rfl
  tlock := rfl
  inM h := by
    simp only [inMlock, txcJump_c, txcFind_txcSet, if_true] at h
    cases hf : txcFind s.c.txcs k <;> simp only [hf, Option.map_none, Option.map_some] at h
    · cases h
    · exact h
  inT h := by
    simp only [inTlock, txcJump_c, txcFind_txcSet, if_true] at h
    cases hf : txcFind s.c.txcs k <;> simp only [hf, Option.map_none, Option.map_some] at h
    · cases h
    · exact h

theorem txcEnd (s : State) (k : Nat) : Jumped (.txc k) false false s (Machine.txcEnd k s) where
  others := ⟨rfl, rfl, fun _ => rfl, fun _ => rfl, fun _ => rfl, fun _ => rfl, fun h => absurd rfl (h k),
    fun j hj => (txcFind_filter _ _ _).trans (if_neg fun h : j = k => hj (h ▸ rfl)), id, id, id⟩
  mlock := rfl
  tlock := rfl
  inM h := by
    simp [inMlock, Machine.txcEnd, txcFind_filter] at h
  inT h := by
    simp [inTlock, Machine.txcEnd, txcFind_filter] at h

end Jumped

/-! ## Every agent but `LC` -/

theorem rxwAfterScan_cases (c : Ctlr) : rxwAfterScan c = .w1 .m1 ∨ ∃ p, rxwAfterScan c = .p1 p := by
  unfold rxwAfterScan
  split
  · exact .inr ⟨_, rfl⟩
  · exact .inl rfl

theorem rxwAfterHarvest_cases (c : Ctlr) : rxwAfterHarvest c = .s1 ∨ ∃ p, rxwAfterHarvest c = .s8 p := by
  unfold rxwAfterHarvest
  split
  · exact .inr ⟨_, rfl⟩
  · exact .inl rfl

theorem rxwStep_move {d : Nat} (h : rxwStep s d = .go t) : AgentMove .rxw s.c t.c := by
  cases hc : s.c.rxw.ctl <;> simp only [rxwStep, hc] at h
  case w1 p =>
    exact armStep_move (y := false) h (by rw [inMlock_rxw, hc]; rfl) nofun (fun _ v => .rxwJump v) fun v => .rxwJump v
  case w2 =>
    split at h <;> cases h
    exact .plain (.rxwJump _) (.refl _)
  case w3 p =>
    exact wakeStep_move (y := false) h (by rw [inMlock_rxw, hc]; rfl) nofun {}
      (fun _ v => .rxwJump v) fun v => .setRxw v
  case s1 =>
    split at h <;> cases h
    · exact .plain (.setRxw _) (.refl _)
    · rcases rxwAfterScan_cases s.c with e | ⟨p, e⟩ <;> simp only [e] <;>
        exact .plain (.setRxw _) (.refl _)
  case s3 =>
    split at h <;> cases h
    · exact .plain (.rxwJump _) (.raiseFault _ _)
    · have hout : ∀ b : Bool, (if b then RxCtl.d1 else .discard).holdsM = false
          ∧ (if b then RxCtl.d1 else .discard) ≠ .notStarted := by decide
      exact .plain (.setRxw _ (hout _).1 (hout _).2) (.refl _)
  case d1 => cases h; exact .plain (.setRxw _) (.refl _)
  case d2 =>
    split at h
    · cases h
    · split at h <;> cases h
      · exact .plain (.rxwJump _) (.raiseFault _ _)
      · split <;> exact .plain (.rxwJump _) (.of_c rfl)
  case d4 => cases h; exact .plain (.rxwJump _) (.of_c rfl)
  case d5 => cases h; exact .plain (.rxwJump _) {}
  case discard => cases h; exact .plain (.rxwJump _) {}
  case s6 => cases h; exact .plain (.rxwJump _) (.of_c rfl)
  case s7 =>
    cases h
    rcases rxwAfterHarvest_cases (((s.setRd8 s.c.rdh offErrors 0#8).modC fun c =>
      { c with rdfree := c.rdfree - 1#16, rdh := ringNext c.rdh c.cfg.nrd }).c) with e | ⟨p, e⟩ <;> rw [e] <;>
      exact .plain (.rxwJump _) {}
  case s8 p => exact repStep_move h (fun _ v => .rxwJump v) fun v => .setRxw v
  case p1 p => exact repStep_move h (fun _ v => .rxwJump v) fun v => .rxwJump v
  all_goals cases h

theorem txwStep_move (h : txwStep s = .go t) : AgentMove .txw s.c t.c := by
  cases hc : s.c.txw <;> simp only [txwStep, hc] at h
  case notStarted => cases h
  case t1 p =>
    exact armStep_move (y := false) h (by rw [inMlock_txw, hc]; rfl) nofun (fun _ v => .txwJump v)
      fun v => .txwJump v
  case t2 =>
    split at h <;> cases h
    exact .plain (.txwJump _) (.refl _)
  case t3 p =>
    exact wakeStep_move (y := false) h (by rw [inMlock_txw, hc]; rfl) nofun
      {} (fun _ v => .txwJump v) fun v => .txwJump v
  case t4 r =>
    exact txStep_move h (by rw [inMlock_txw, hc]; rfl) (by rw [inTlock_txw, hc]; rfl) (fun _ v => .txwJump v)
      fun v => .txwJump v

theorem txcStep_move {k : Nat} (h : txcStep s k = .go t) : AgentMove (.txc k) s.c t.c := by
  unfold txcStep at h
  split at h
  · cases h
  · rename_i r hr
    exact txStep_move h (inMlock_txc hr) (inTlock_txc hr) (fun q v => .txcJump v k q) fun v => .txcEnd v k

theorem lnkStep_move (h : lnkStep s = .go t) : AgentMove .lnk s.c t.c := by
  cases hc : s.c.lnk <;> simp only [lnkStep, hc] at h
  case notStarted => cases h
  case l1 p =>
    refine hsStep_move h (fun _ v => .lnkJump v) fun ok w v => ?_
    cases ok <;> exact .lnkJump v
  case l2 => cases h; exact .plain (.lnkJump _) (.emit _ _)
  case l3 w =>
    obtain rfl := StepRes.go.inj h
    have hq : Quiet s (s.modC fun c => { c with
        linkUp := (phyDecode s.c.cfg.variant.phyDecode w).1, speedIdx := (phyDecode s.c.cfg.variant.phyDecode w).2 }) :=
      {}
    exact .plain (.lnkJump _) hq
  case l4 up idx => cases h; exact .plain (.lnkJump _) {}
  case l5a =>
    obtain ⟨hl, rfl⟩ := acquireM_go h
    exact .takeM hl (.lnkJump _) nofun
  case l5b =>
    cases h
    exact .keep (.lnkJump _) {} (fun _ => by rw [inMlock_lnk, hc]; rfl)
      nofun
  case l5c =>
    cases h
    exact .freeM (by rw [inMlock_lnk, hc]; rfl) (.lnkJump _) nofun
  case l6 p =>
    exact armStep_move (y := false) h (by rw [inMlock_lnk, hc]; rfl) nofun (fun _ v => .lnkJump v) fun v => .lnkJump v
  case l7 =>
    split at h <;> cases h
    exact .plain (.lnkJump _) (.refl _)
  case l8 p =>
    exact wakeStep_move (y := false) h (by rw [inMlock_lnk, hc]; rfl) nofun {}
      (fun _ v => .lnkJump v) fun v => .lnkJump v

/-- Inside its run the dispatcher keeps `mlock` (R97). -/
theorem dispStep_mlock (h : dispStep s = .go t) :
    LockMove .disp s.c.mlock t.c.mlock (inMlock s.c .disp) (inMlock t.c .disp) := by
  have inside : ∀ {x : DispCtl}, s.c.disp.ctl = x → x.holdsM = true → t.c.mlock = s.c.mlock →
      LockMove .disp s.c.mlock t.c.mlock (inMlock s.c .disp) (inMlock t.c .disp) := fun hx hh hl =>
    .keep hl fun _ => by rw [inMlock_disp, hx, hh]
  cases hc : s.c.disp.ctl <;> simp only [dispStep, hc] at h
  case idle =>
    split at h <;> cases h
    rename_i hl
    refine .keep ?_ fun k => ?_
    · unfold takeInterrupt; split <;> rfl
    · simp [inMlock, takeInterrupt, hl, hc] at k
  case q1 =>
    obtain ⟨hl, rfl⟩ := acquireM_go h
    exact .take hl rfl
  all_goals obtain rfl := StepRes.go.inj h
  case x3 => exact .free (by rw [inMlock_disp, hc]; rfl) rfl rfl
  case q2 | x2 => exact inside hc rfl (by simp)
  case q3 | l1 => exact inside hc rfl (by simp [dispRead])
  case l3 | l4 | l5 | x1 => exact inside hc rfl rfl

theorem dispStep_move (h : dispStep s = .go t) : AgentMove .disp s.c t.c where
  others := by
    have hf := (dispStep_frame h).1
    exact ⟨by rw [hf], by rw [hf], nofun, fun _ => by rw [hf], fun _ => by rw [hf], fun _ => by rw [hf],
      fun _ => by rw [hf], fun _ _ => by rw [hf], by rw [hf]; exact id, by rw [hf]; exact id, by rw [hf]; exact id⟩
  mlock := dispStep_mlock h
  tlock := .keep (by rw [(dispStep_frame h).1]) nofun

end Sys2Proof.Machine
end

section
/-!
SUPPORT. The flow of `LC` (44_lifecycle.md R320): which lines follow which, and what each does to the lifecycle state,
to `mlock` and to the workers.
-/

namespace Sys2Proof.Machine

variable {s t u : State}

/-- A line of the control commands (R378-R381). -/
def LcCtl.controlLine : LcCtl → Bool
  | .promiscR | .promiscW _ | .mcastW _ | .tunableW | .u1 | .u2 _ | .u3 _ | .u3e _ _ | .u4 | .u5 => true
  | _ => false

/-- A line of SHUTDOWN between the acquire and the release of `mlock` (R377). -/
def LcCtl.holdsM (x : LcCtl) : Bool := x.shutdownLine && x != .z1 && x != .z8 true && x != .z8 false

theorem inMlock_lc (c : Ctlr) : inMlock c .lc = c.lcCtl.holdsM := rfl

/-- No agent but `LC` moves, and `tlock` stays. -/
structure LcAlone (c d : Ctlr) : Prop where
  tlock : d.tlock = c.tlock := by rfl
  disp : d.disp.ctl = c.disp.ctl := by rfl
  rxw : d.rxw.ctl = c.rxw.ctl := by rfl
  txw : d.txw = c.txw := by rfl
  lnk : d.lnk = c.lnk := by rfl
  txcs : d.txcs = c.txcs := by rfl

/-- The cases of a step of `LC`. -/
inductive LcFlow (c d : Ctlr) : Prop where
  /-- From line to line of ATTACH. -/
  | attach (hc : c.lcCtl.attachLine = true) (hd : d.lcCtl.attachLine = true)
      (hl : d.lc = c.lc ∨ d.lc.attaching = true) (hm : d.mlock = c.mlock) (ha : LcAlone c d)
  /-- ATTACH fails (R322). -/
  | failed (hc : c.lcCtl.attachLine = true) (hd : d.lcCtl = .idle) (hl : d.lc = .faulted) (hm : d.mlock = c.mlock)
      (ha : LcAlone c d)
  /-- Line D3: the workers start (R511). -/
  | start (hc : c.lcCtl = .d3) (hd : d.lcCtl = .d4) (hl : d.lc = c.lc) (hm : d.mlock = c.mlock)
      (ht : d.tlock = c.tlock) (hi : d.disp.ctl = c.disp.ctl) (hx : d.txcs = c.txcs) (hr : d.rxw.ctl = .w1 .m1)
      (hw : d.txw = .t1 .m1) (hk : d.lnk = .l1 .h1)
  /-- Line D4. -/
  | ready (hc : c.lcCtl = .d4) (hd : d.lcCtl = .idle) (hl : d.lc = .running) (hm : d.mlock = c.mlock)
      (ha : LcAlone c d)
  /-- Line Z1: `mlock` is acquired. -/
  | lock (hc : c.lcCtl = .z1) (hd : d.lcCtl = .z2) (hl : d.lc = c.lc) (hfree : c.mlock = none)
      (hm : d.mlock = some .lc) (ha : LcAlone c d)
  /-- From line to line of SHUTDOWN under `mlock`. -/
  | shut (hc : c.lcCtl.holdsM = true) (hd : d.lcCtl.holdsM = true) (hl : d.lc = c.lc) (hm : d.mlock = c.mlock)
      (ha : LcAlone c d)
  /-- Line Z7: `mlock` is released. -/
  | unlock (b : Bool) (hc : c.lcCtl = .z7 b) (hd : d.lcCtl = .z8 b) (hl : d.lc = c.lc) (hm : d.mlock = none)
      (ha : LcAlone c d)
  /-- Line Z8: SHUTDOWN ends, halted or faulted. -/
  | ended (b : Bool) (hc : c.lcCtl = .z8 b) (hd : d.lcCtl = .idle) (hl : d.lc = .halted ∨ d.lc = .faulted)
      (hm : d.mlock = c.mlock) (ha : LcAlone c d)
  /-- From line to line of a control command, or behind its last. -/
  | control (hc : c.lcCtl.controlLine = true) (hd : d.lcCtl.controlLine = true ∨ d.lcCtl = .idle)
      (hl : d.lc = c.lc) (hm : d.mlock = c.mlock) (ha : LcAlone c d)

namespace Quiet

theorem attach {x : LcCtl} (q : Quiet s u) (hc : s.c.lcCtl.attachLine = true) (hx : x.attachLine = true) :
    LcFlow s.c (lcJump x u).c :=
  .attach hc hx (.inl q.lc) q.mlock ⟨q.tlock, q.disp, q.rxw, q.txw, q.lnk, q.txcs⟩

theorem shut {x : LcCtl} (q : Quiet s u) (hc : s.c.lcCtl.holdsM = true) (hx : x.holdsM = true) :
    LcFlow s.c (lcJump x u).c :=
  .shut hc hx q.lc q.mlock ⟨q.tlock, q.disp, q.rxw, q.txw, q.lnk, q.txcs⟩

theorem control {x : LcCtl} (q : Quiet s u) (hc : s.c.lcCtl.controlLine = true) (hx : x.controlLine = true) :
    LcFlow s.c (lcJump x u).c :=
  .control hc (.inl hx) q.lc q.mlock ⟨q.tlock, q.disp, q.rxw, q.txw, q.lnk, q.txcs⟩

theorem finish {st : Status} (q : Quiet s u) (hc : s.c.lcCtl.controlLine = true) : LcFlow s.c (finishLc u st).c :=
  .control hc (.inr rfl) q.lc q.mlock ⟨q.tlock, q.disp, q.rxw, q.txw, q.lnk, q.txcs⟩

end Quiet

/-! ## The lines that follow -/

theorem lcAfterA0_attach (p : Params) (q : PoolParams) : (lcAfterA0 p q).attachLine = true := by
  unfold lcAfterA0; split <;> rfl

theorem lcAfterWord_attach (w : Nat) : (lcAfterWord w).attachLine = true := by
  unfold lcAfterWord; split <;> rfl

theorem i6From_attach (c : Ctlr) (i : Nat) : (i6From c i).attachLine = true := by
  unfold i6From; split <;> rfl

theorem t6From_attach (c : Ctlr) (i : Nat) : (t6From c i).attachLine = true := by
  unfold t6From; split <;> rfl

theorem i7Next_attach (n i f : Nat) : (i7Next n i f).attachLine = true := by
  unfold i7Next; split
  · rfl
  · split <;> rfl

theorem t7Next_attach (n i f : Nat) : (t7Next n i f).attachLine = true := by
  unfold t7Next; split
  · rfl
  · split <;> rfl

theorem lcFreeRx_quiet (s : State) (i : Nat) : Quiet s (lcFreeRx s i) := by
  unfold lcFreeRx
  split
  · exact {}
  · exact .refl _

theorem lcFreeTx_quiet (s : State) (i : Nat) : Quiet s (lcFreeTx s i) := by
  unfold lcFreeTx
  split
  · exact Quiet.trans (t := s.modC _) {} (.releaseTx _ _)
  · exact .refl _

theorem zeroRd_quiet (s : State) (i : Half) (f : Nat) : Quiet s (zeroRd s i f) := by
  unfold zeroRd; split <;> exact .of_c rfl

theorem zeroTd_quiet (s : State) (i : Half) (f : Nat) : Quiet s (zeroTd s i f) := by
  unfold zeroTd; split <;> exact .of_c rfl

/-- REPLENISH inside RX_INIT (line I10) ends at line I11. -/
theorem repStep_attach {p : RepPc} {draw : Nat} (hc : s.c.lcCtl.attachLine = true)
    (h : repStep s p draw (fun q t => lcJump (.i10 q) t) (lcJump .i11) = .go t) : LcFlow s.c t.c := by
  rcases repStep_go h with ⟨-, rfl⟩ | ⟨-, -, rfl⟩ | ⟨-, b, w, hp, rfl⟩ | ⟨-, rfl⟩ | ⟨b, -, rfl⟩ | ⟨b, r, -, -, rfl⟩ |
    ⟨b, r, -, -, rfl⟩ | ⟨b, w, -, rfl, rfl⟩ | ⟨-, rfl⟩
  · exact (Quiet.emit _ _).attach hc rfl
  · exact Quiet.attach (.of_c rfl) hc rfl
  · obtain ⟨-, rfl⟩ := poolPop_some hp
    exact Quiet.attach {} hc rfl
  · exact (Quiet.emit _ _).attach hc rfl
  · exact Quiet.attach (.of_c rfl) hc rfl
  · exact Quiet.attach (.of_c rfl) hc rfl
  · exact Quiet.attach (.of_c rfl) hc rfl
  · exact Quiet.attach {} hc rfl
  · exact (Quiet.mmioWrite _ _ _).attach hc rfl

/-- EE_READ (line B1) goes on, stores the word, or fails towards `fatal`. -/
theorem eeReadStep_attach {w : Nat} {p : HsPc} (hc : s.c.lcCtl.attachLine = true)
    (h : eeReadStep s w p (fun q t => lcJump (.b1 w q) t) (lcEeDone w) = .go t) : LcFlow s.c t.c := by
  unfold eeReadStep at h
  rcases hsStep_go h with ⟨-, rfl⟩ | ⟨i, -, rfl | ⟨-, -, rfl⟩ | rfl⟩ | ⟨i, -, rfl⟩
  · exact (Quiet.mmioWrite _ _ _).attach hc rfl
  · exact (Quiet.mmioRead _ _).attach hc rfl
  · have hq : Quiet s ((mmioRead s .eerd).2.modC fun c =>
        { c with ee := c.ee.set! w (eerdData (regRead s.c.regs .eerd)) }) :=
      (Quiet.mmioRead s .eerd).trans {}
    exact hq.attach hc (lcAfterWord_attach w)
  · exact (Quiet.mmioRead _ _).attach hc rfl
  · exact (Quiet.refl _).attach hc rfl

theorem lcFlow_fatal (r : FaultRec) (hc : s.c.lcCtl.attachLine = true) : LcFlow s.c (fatal s r).c :=
  .failed hc rfl rfl rfl {}

theorem lcChecksum_attach (hc : s.c.lcCtl.attachLine = true) : LcFlow s.c (lcChecksum s).c := by
  unfold lcChecksum
  simp only
  split
  · refine .attach hc ?_ (.inl rfl) rfl {}
    simp only [State.modC_c]
    split <;> rfl
  · exact lcFlow_fatal _ hc

/-- A counted read (R323) is followed by the poll's success, its failure or the next read. -/
theorem pollStep_quiet (s : State) (p : PollId) (i : Nat) :
    ∃ x u, pollStep s p i = lcJump x u ∧ Quiet s u ∧ (x = p.ok ∨ x = p.fail ∨ x = .pollD p i) := by
  refine ⟨_, _, rfl, .mmioRead _ _, ?_⟩
  split
  · exact .inl rfl
  · split
    · exact .inr (.inl rfl)
    · exact .inr (.inr rfl)

theorem lcCounter_flow (k : Nat) (hc : s.c.lcCtl.controlLine = true) : LcFlow s.c (lcCounter s k).c := by
  have hq : Quiet s ((mmioRead s (.stat (Fin.ofNat 73 k))).2.modC fun c =>
      { c with swStats :=
          c.swStats.set! k (c.swStats.getD k 0#64 + (mmioRead s (.stat (Fin.ofNat 73 k))).1.setWidth 64) }) :=
    (Quiet.mmioRead s (.stat (Fin.ofNat 73 k))).trans {}
  exact hq.control (x := if k + 1 < nstats then .u2 (k + 1) else .u3 0) hc (by split <;> rfl)

/-- Line A5, A7 or A8 reads, sets its bit and writes; line Z5 does it under `mlock`. -/
theorem rmw_flow {w : Rmw} {x : LcCtl} (q : Quiet s u) (hc : s.c.lcCtl = .rmwR w ∨ ∃ v, s.c.lcCtl = .rmwW w v)
    (hx : x.attachLine = (w != .z5)) (hz : w = .z5 → x.holdsM = true) : LcFlow s.c (lcJump x u).c := by
  by_cases hw : w = .z5
  · subst hw
    exact q.shut (by rcases hc with e | ⟨v, e⟩ <;> rw [e] <;> rfl) (hz rfl)
  · have hb : (w != .z5) = true := by simp [hw]
    exact q.attach (by rcases hc with e | ⟨v, e⟩ <;> rw [e] <;> exact hb) (hx.trans hb)

/-- A poll of ATTACH goes on inside ATTACH, and poll Z6 under `mlock`. -/
theorem poll_flow {p : PollId} {i : Nat} {x : LcCtl} (q : Quiet s u)
    (hc : s.c.lcCtl = .pollR p i ∨ s.c.lcCtl = .pollD p i)
    (hx : x = p.ok ∨ x = p.fail ∨ x = .pollD p i ∨ x = .pollR p (i + 1)) : LcFlow s.c (lcJump x u).c := by
  have at' : ∀ {p : PollId}, p ≠ .z6 → p.ok.attachLine = true ∧ p.fail.attachLine = true ∧ (p != .z6) = true := by
    intro p hp
    cases p with
    | z6 => exact absurd rfl hp
    | _ => exact ⟨rfl, rfl, rfl⟩
  by_cases hp : p = .z6
  · subst hp
    exact q.shut (by rcases hc with e | e <;> rw [e] <;> rfl) (by rcases hx with e | e | e | e <;> rw [e] <;> rfl)
  · obtain ⟨hok, hfail, hb⟩ := at' hp
    exact q.attach (by rcases hc with e | e <;> rw [e] <;> exact hb)
      (by rcases hx with e | e | e | e <;> rw [e] <;> assumption)

/-- Every step of `LC` is one of `LcFlow`'s. -/
theorem lcStep_flow {d : Nat} (h : lcStep s d = .go t) : LcFlow s.c t.c := by
  cases hc : s.c.lcCtl <;> simp only [lcStep, hc] at h
  case idle => cases h
  case a1 =>
    have ha : s.c.lcCtl.attachLine = true := by rw [hc]; rfl
    split at h <;> cases h
    · exact (Quiet.mmioWrite _ _ _).attach ha rfl
    · exact (Quiet.refl _).attach ha rfl
  case b1 w q => exact eeReadStep_attach (by rw [hc]; rfl) h
  case i10 p => exact repStep_attach (by rw [hc]; rfl) h
  case z1 =>
    obtain ⟨hl, rfl⟩ := acquireM_go h
    exact .lock hc rfl rfl hl rfl {}
  case u1 =>
    unfold acquireS at h
    split at h <;> cases h
    exact .control (by rw [hc]; rfl) (.inl rfl) rfl rfl {}
  case z8 b =>
    cases b <;> obtain rfl := StepRes.go.inj h
    · exact .ended false hc rfl (.inr rfl) rfl {}
    · exact .ended true hc rfl (.inl rfl) rfl {}
  case c1 n hi =>
    cases hi <;> obtain rfl := StepRes.go.inj h
    · exact (Quiet.mmioWrite _ _ _).attach (by rw [hc]; rfl) rfl
    · exact (Quiet.mmioWrite _ _ _).attach (by rw [hc]; rfl) (by split <;> rfl)
  case c2 hi =>
    cases hi <;> obtain rfl := StepRes.go.inj h <;> exact (Quiet.mmioWrite _ _ _).attach (by rw [hc]; rfl) rfl
  case i8 b | t8 b =>
    cases b <;> obtain rfl := StepRes.go.inj h <;> exact (Quiet.mmioWrite _ _ _).attach (by rw [hc]; rfl) rfl
  all_goals obtain rfl := StepRes.go.inj h
  case rmwR w => exact rmw_flow (.mmioRead _ _) (.inl hc) rfl (by rintro rfl; rfl)
  case rmwW w v => exact rmw_flow (.mmioWrite _ _ _) (.inr ⟨v, hc⟩) (by cases w <;> rfl) (by rintro rfl; rfl)
  case pollR p i =>
    obtain ⟨x, u, e, q, hx⟩ := pollStep_quiet s p i
    rw [e]
    exact poll_flow q (.inl hc) (by rcases hx with e | e | e <;> simp [e])
  case pollD p i => exact poll_flow (.refl _) (.inr hc) (.inr (.inr (.inr rfl)))
  case fatal r => exact lcFlow_fatal r (by rw [hc]; rfl)
  case b0 | c5 => exact .attach (by rw [hc]; rfl) rfl (.inr rfl) rfl {}
  case b2 => exact lcChecksum_attach (by rw [hc]; rfl)
  case b3 =>
    have hq : Quiet s ((mmioRead s .status).2.modC fun c => { c with ea := eaAdjust c.ea (mmioRead s .status).1 }) :=
      (Quiet.mmioRead s .status).trans {}
    exact hq.attach (x := .c1 0 false) (by rw [hc]; rfl) rfl
  case a2 | a3 | a4 | i1 | i2 | i3 | i9 | i11 | t1 | t2 | t3 | t9 =>
    exact (Quiet.mmioWrite _ _ _).attach (by rw [hc]; rfl) rfl
  case c3 k => exact (Quiet.mmioWrite _ _ _).attach (by rw [hc]; rfl) (by split <;> rfl)
  case c4 k => exact (Quiet.mmioWrite _ _ _).attach (by rw [hc]; rfl) (by split <;> rfl)
  case i4 | t4 =>
    exact Quiet.attach (s := s) (.trans (t := s.modC _) {} (.mmioWrite _ _ _))
      (by rw [hc]; rfl) rfl
  case i5 => exact (Quiet.mmioWrite _ _ _).attach (by rw [hc]; rfl) (i6From_attach _ _)
  case t5 => exact (Quiet.mmioWrite _ _ _).attach (by rw [hc]; rfl) (t6From_attach _ _)
  case i6 i => exact (lcFreeRx_quiet s i).attach (by rw [hc]; rfl) (i6From_attach _ _)
  case t6 i => exact (lcFreeTx_quiet s i).attach (by rw [hc]; rfl) (t6From_attach _ _)
  case i7 i f => exact (zeroRd_quiet s _ f).attach (by rw [hc]; rfl) (i7Next_attach _ _ _)
  case t7 i f => exact (zeroTd_quiet s _ f).attach (by rw [hc]; rfl) (t7Next_attach _ _ _)
  case d3 => exact .start hc rfl rfl rfl rfl rfl rfl rfl rfl rfl
  case d4 => exact .ready hc rfl rfl rfl {}
  case z2 =>
    exact Quiet.shut (s := s) (.trans (t := s.modC _) {} (.mmioWrite _ _ _))
      (by rw [hc]; rfl) rfl
  case z3 | z4 => exact (Quiet.mmioWrite _ _ _).shut (by rw [hc]; rfl) rfl
  case z7 b => exact .unlock b hc rfl rfl rfl {}
  case promiscR => exact (Quiet.mmioRead _ _).control (by rw [hc]; rfl) rfl
  case u3 j => exact (Quiet.mmioRead _ _).control (by rw [hc]; rfl) rfl
  case promiscW v | mcastW v | tunableW => exact (Quiet.mmioWrite _ _ _).finish (by rw [hc]; rfl)
  case u2 k => exact lcCounter_flow k (by rw [hc]; rfl)
  case u3e j v => exact (Quiet.emit _ _).control (by rw [hc]; rfl) (by split <;> rfl)
  case u4 => exact (Quiet.emit _ _).control (by rw [hc]; rfl) rfl
  case u5 =>
    exact Quiet.finish (u := s.modC _) {} (by rw [hc]; rfl)

end Sys2Proof.Machine
end

section
/-!
SUPPORT. Mutual exclusion and the start order over a step (R14, R96, R256, R5, R320, R511).
-/

namespace Sys2Proof.Machine

variable {s t : State} {c d : Ctlr} {a b : AgentId}

/-! ## Who else is inside a section -/

theorem OthersKept.inMlock (o : OthersKept a c d) (hb : b ≠ a) : inMlock d b = inMlock c b := by
  cases b with
  | disp => rw [inMlock_disp, inMlock_disp, o.disp hb.symm]
  | rxw => rw [inMlock_rxw, inMlock_rxw, o.rxw hb.symm]
  | txw => rw [inMlock_txw, inMlock_txw, o.txw hb.symm]
  | lnk => rw [inMlock_lnk, inMlock_lnk, o.lnk hb.symm]
  | lc => rw [inMlock_lc, inMlock_lc, o.lcCtl]
  | txc k => simp only [Machine.inMlock, o.caller k hb.symm]

theorem OthersKept.inTlock (o : OthersKept a c d) (hb : b ≠ a) : inTlock d b = inTlock c b := by
  cases b with
  | disp | rxw | lnk | lc => rfl
  | txw => rw [inTlock_txw, inTlock_txw, o.txw hb.symm]
  | txc k => simp only [Machine.inTlock, o.caller k hb.symm]

theorem LcAlone.inMlock (o : LcAlone c d) (hb : b ≠ .lc) : inMlock d b = inMlock c b := by
  cases b with
  | disp => rw [inMlock_disp, inMlock_disp, o.disp]
  | rxw => rw [inMlock_rxw, inMlock_rxw, o.rxw]
  | txw => rw [inMlock_txw, inMlock_txw, o.txw]
  | lnk => rw [inMlock_lnk, inMlock_lnk, o.lnk]
  | lc => exact absurd rfl hb
  | txc k => simp only [Machine.inMlock, o.txcs]

theorem LcAlone.inTlock (o : LcAlone c d) (b : AgentId) : inTlock d b = inTlock c b := by
  cases b with
  | disp | rxw | lnk | lc => rfl
  | txw => rw [inTlock_txw, inTlock_txw, o.txw]
  | txc k => simp only [Machine.inTlock, o.txcs]

/-! ## The lines of `LC` exclude each other -/

theorem LcCtl.shutdownLine_of_attach {x : LcCtl} (h : x.attachLine = true) : x.shutdownLine = false := by
  cases x with
  | rmwR w | rmwW w v =>
    cases w with
    | z5 => cases h
    | _ => rfl
  | pollR p i | pollD p i =>
    cases p with
    | z6 => cases h
    | _ => rfl
  | z1 | z2 | z3 | z4 | z7 b | z8 b => cases h
  | _ => rfl

theorem LcCtl.holdsM_of_attach {x : LcCtl} (h : x.attachLine = true) : x.holdsM = false := by
  simp [holdsM, shutdownLine_of_attach h]

theorem LcCtl.attachLine_of_holdsM {x : LcCtl} (h : x.holdsM = true) : x.attachLine = false := by
  by_contra hx
  rw [holdsM_of_attach (by simpa using hx)] at h
  cases h

theorem LcCtl.shutdownLine_of_holdsM {x : LcCtl} (h : x.holdsM = true) : x.shutdownLine = true := by
  simp only [holdsM, Bool.and_eq_true] at h
  exact h.1.1.1

/-- A control line is none of ATTACH, of SHUTDOWN, and not `idle`. -/
theorem LcCtl.of_controlLine {x : LcCtl} (h : x.controlLine = true) :
    x.attachLine = false ∧ x.shutdownLine = false ∧ x ≠ .d4 ∧ x ≠ .idle := by
  cases x with
  | promiscR | promiscW | mcastW | tunableW | u1 | u2 | u3 | u3e | u4 | u5 => exact ⟨rfl, rfl, nofun, nofun⟩
  | _ => cases h

/-- The first line of a control command is a control line. -/
theorem LcCtl.controlLine_of_start {x : LcCtl} (h : x.controlStart = true) : x.controlLine = true := by
  cases x with
  | promiscR | mcastW v | tunableW | u1 | u2 k => rfl
  | _ => cases h

/-! ## Mutual exclusion -/

theorem locksOk.move (h : locksOk c) (hm : LockMove a c.mlock d.mlock (inMlock c a) (inMlock d a))
    (ht : LockMove a c.tlock d.tlock (inTlock c a) (inTlock d a))
    (hom : ∀ b, b ≠ a → inMlock d b = true → inMlock c b = true)
    (hot : ∀ b, b ≠ a → inTlock d b = true → inTlock c b = true) : locksOk d :=
  ⟨hm.holds hom h.1, ht.holds hot h.2⟩

theorem locksOk.agent (m : AgentMove a c d) (h : locksOk c) : locksOk d :=
  h.move m.mlock m.tlock (fun _ hb k => m.others.inMlock hb ▸ k) fun _ hb k => m.others.inTlock hb ▸ k

/-- A step of `LC` with no other agent moved. -/
theorem locksOk.lcAlone (ha : LcAlone c d) (hm : LockMove .lc c.mlock d.mlock c.lcCtl.holdsM d.lcCtl.holdsM)
    (h : locksOk c) : locksOk d :=
  h.move (a := .lc) hm (.keep ha.tlock nofun) (fun _ hb k => ha.inMlock hb ▸ k) fun b _ k => ha.inTlock b ▸ k

theorem locksOk.lcFlow (m : LcFlow c d) (h : locksOk c) : locksOk d := by
  cases m with
  | attach hc hd hl hm ha => exact h.lcAlone ha (.keep hm fun k => by rw [LcCtl.holdsM_of_attach hd] at k; cases k)
  | failed hc hd hl hm ha => exact h.lcAlone ha (.keep hm fun k => by rw [hd] at k; cases k)
  | start hc hd hl hm ht hi hx hr hw hk =>
    refine h.move (a := .lc) (.keep hm fun k => ?_) (.keep ht nofun) (fun b hb k => ?_) fun b hb k => ?_
    · rw [inMlock_lc, hd] at k; cases k
    · cases b with
      | disp => rwa [inMlock_disp, hi] at k
      | rxw => rw [inMlock_rxw, hr] at k; cases k
      | txw => rw [inMlock_txw, hw] at k; cases k
      | lnk => rw [inMlock_lnk, hk] at k; cases k
      | lc => exact absurd rfl hb
      | txc j => simpa only [inMlock, hx] using k
    · cases b with
      | disp | rxw | lnk | lc => cases k
      | txw => rw [inTlock_txw, hw] at k; cases k
      | txc j => simpa only [inTlock, hx] using k
  | ready hc hd hl hm ha => exact h.lcAlone ha (.keep hm fun k => by rw [hd] at k; cases k)
  | lock hc hd hl hfree hm ha => exact h.lcAlone ha (.take hfree hm)
  | shut hc hd hl hm ha => exact h.lcAlone ha (.keep hm fun _ => hc)
  | unlock b hc hd hl hm ha => exact h.lcAlone ha (.free (by rw [hc]; rfl) hm (by rw [hd]; cases b <;> rfl))
  | ended b hc hd hl hm ha => exact h.lcAlone ha (.keep hm fun k => by rw [hd] at k; cases k)
  | control hc hd hl hm ha =>
    refine h.lcAlone ha (.keep hm fun k => ?_)
    rcases hd with hd | hd
    · rw [LcCtl.holdsM, (LcCtl.of_controlLine hd).2.1] at k; cases k
    · rw [hd] at k; cases k

theorem agentStep_locksOk {n : Nat} (h : agentStep a n s = .go t) (hs : locksOk s.c) : locksOk t.c := by
  cases a with
  | disp => exact hs.agent (dispStep_move h)
  | rxw => exact hs.agent (rxwStep_move h)
  | txw => exact hs.agent (txwStep_move h)
  | lnk => exact hs.agent (lnkStep_move h)
  | lc => exact hs.lcFlow (lcStep_flow h)
  | txc k => exact hs.agent (txcStep_move h)

/-- No agent has entered a section and the locks stay. -/
theorem locksOk.mono (h : locksOk c) (hm : d.mlock = c.mlock) (ht : d.tlock = c.tlock)
    (hM : ∀ b, inMlock d b = true → inMlock c b = true) (hT : ∀ b, inTlock d b = true → inTlock c b = true) :
    locksOk d :=
  ⟨fun b k => hm.trans (h.1 b (hM b k)), fun b k => ht.trans (h.2 b (hT b k))⟩

/-- A new caller stands at line X0, outside both sections. -/
theorem txcFind_newCaller (xs : List Txc) (n k : Nat) : txcFind (xs ++ [⟨n, .start⟩]) k = txcFind xs k
    ∨ txcFind (xs ++ [⟨n, .start⟩]) k = some .start := by
  rw [txcFind_append]
  cases txcFind xs k with
  | some r => exact .inl rfl
  | none =>
    by_cases hk : n = k
    · exact .inr (by simp [hk])
    · exact .inl (by simp [hk])

theorem exec_cmd_locksOk {i : Instr} (hf : i.format = .hostCmd) (he : exec i s = .next t) (hs : locksOk s.c) :
    locksOk t.c := by
  cases exec_cmd_case hf he with
  | reply es h => rw [h]; exact hs
  | attach _ hi h =>
    refine hs.lcAlone (c := s.c) (by rw [h]; exact {}) (.keep (by rw [h]) fun k => ?_)
    rw [h] at k
    exact absurd k (by simp [LcCtl.holdsM_of_attach (lcAfterA0_attach s.c.cfg s.pool)])
  | tx _ h =>
    refine hs.mono (by rw [h]) (by rw [h]) (fun b k => ?_) fun b k => ?_ <;> rw [h] at k
    · cases b with
      | txc j =>
        rcases txcFind_newCaller s.c.txcs s.c.txcNext j with e | e <;> simp only [inMlock, e] at k ⊢
        · exact k
        · cases k
      | _ => exact k
    · cases b with
      | txc j =>
        rcases txcFind_newCaller s.c.txcs s.c.txcNext j with e | e <;> simp only [inTlock, e] at k ⊢
        · exact k
        · cases k
      | _ => exact k
  | shutdown _ _ h =>
    rcases h with ⟨hm, h⟩ | h
    · exact hs.lcAlone (c := s.c) (by rw [h]; exact {}) (.take hm (by rw [h]))
    · exact hs.lcAlone (c := s.c) (by rw [h]; exact {})
        (.keep (by rw [h]) fun k => by rw [h] at k; cases k)
  | control x es hx _ _ h =>
    refine hs.lcAlone (c := s.c) (by rw [h]; exact {}) (.keep (by rw [h]) fun k => ?_)
    rw [h, LcCtl.holdsM, (LcCtl.of_controlLine (LcCtl.controlLine_of_start hx)).2.1] at k
    cases k

/-- An operation or a NIC action can only wake the idle dispatcher, at line Q1, where it does not hold `mlock`. -/
theorem OpFrame.locksOk (hf : OpFrame s t) (h : locksOk s.c) : locksOk t.c := by
  refine h.mono (by rw [hf.c]) (by rw [hf.c]) (fun b k => ?_) fun b k => ?_
  · cases b with
    | disp =>
      rw [inMlock_disp] at k ⊢
      rcases hf.disp with e | ⟨-, e⟩ <;> rw [e] at k
      · exact k
      · cases k
    | _ => rw [hf.c] at k; exact k
  · rw [hf.c] at k
    cases b <;> exact k

theorem discovery_locksOk (k : Nat) (p : Params) (x y : DWord) : locksOk (Ctlr.discovery k p x y) := by
  constructor <;> intro b hb <;> cases b <;> cases hb

/-- Settles O12: over every step a lock is held by whoever is inside its section, so no second agent is. -/
theorem stepKeepsMutualExclusion : Obligations.StepKeepsMutualExclusion := fun _ _ =>
  step_keeps (fun _ _ _ hf he => exec_cmd_locksOk hf he) (fun _ _ hf => hf.locksOk) (fun _ _ _ _ => agentStep_locksOk)
    (fun _ _ h => h) (fun k p _ x y _ => discovery_locksOk k p x y)

end Sys2Proof.Machine
end

section
/-!
SUPPORT. The start order over a step (R5, R320, R511): where `LC` stands decides what of `startOk` there is to say.
-/

namespace Sys2Proof.Machine

variable {s t : State} {c d : Ctlr} {a : AgentId}

/-- The three workers have started. -/
def workersStarted (c : Ctlr) : Prop := c.rxw.ctl ≠ .notStarted ∧ c.txw ≠ .notStarted ∧ c.lnk ≠ .notStarted

namespace startOk

/-! ## The phases -/

theorem of_attach (hx : d.lcCtl.attachLine = true) (hl : d.lc.attaching = true) (hn : notStarted d) : startOk d := by
  refine ⟨fun k => ?_, fun _ => ⟨hl, hn⟩, fun k => ?_, fun _ => .inl hx, fun k => ?_, fun k => ?_⟩
  · rw [k] at hl; cases hl
  · rw [k] at hx; cases hx
  · rw [LcCtl.shutdownLine_of_attach hx] at k; cases k
  · rcases k with k | k
    · rw [k] at hx; cases hx
    · rw [k] at hl; cases hl

theorem of_d4 (hx : d.lcCtl = .d4) (hl : d.lc.attaching = true) (ht : d.txcs = []) (hw : workersStarted d) :
    startOk d := by
  refine ⟨fun k => ?_, fun k => ?_, fun _ => ⟨hl, ht⟩, fun _ => .inr hx, fun k => ?_, fun _ => hw⟩
  · rw [k] at hl; cases hl
  · rw [hx] at k; cases k
  · rw [hx] at k; cases k

theorem of_running (hl : d.lc = .running) (ha : d.lcCtl.attachLine = false) (hx : d.lcCtl ≠ .d4)
    (hw : workersStarted d) : startOk d := by
  refine ⟨fun k => ?_, fun k => ?_, fun k => absurd k hx, fun k => ?_, fun _ => hl, fun _ => hw⟩
  · rw [hl] at k; cases k
  · rw [ha] at k; cases k
  · rw [hl] at k; cases k

theorem of_ended (hl : d.lc = .halted ∨ d.lc = .faulted) (ha : d.lcCtl.attachLine = false) (hx : d.lcCtl ≠ .d4)
    (hs : d.lcCtl.shutdownLine = false) : startOk d := by
  refine ⟨fun k => ?_, fun k => ?_, fun k => absurd k hx, fun k => ?_, fun k => ?_, fun k => ?_⟩
  · rcases hl with e | e <;> rw [e] at k <;> cases k
  · rw [ha] at k; cases k
  · rcases hl with e | e <;> rw [e] at k <;> cases k
  · rw [hs] at k; cases k
  · rcases k with k | k
    · exact absurd k hx
    · rcases hl with e | e <;> rw [e] at k <;> cases k

/-! ## What it says at each place -/

theorem unknown (h : startOk c) (hl : c.lc = .poweredUnknown) : c.lcCtl = .idle ∧ notStarted c := h.1 hl

theorem attach (h : startOk c) (hx : c.lcCtl.attachLine = true) : c.lc.attaching = true ∧ notStarted c := h.2.1 hx

theorem d4 (h : startOk c) (hx : c.lcCtl = .d4) : (c.lc.attaching = true ∧ c.txcs = []) ∧ workersStarted c :=
  ⟨h.2.2.1 hx, h.2.2.2.2.2 (.inl hx)⟩

theorem shutdown (h : startOk c) (hx : c.lcCtl.shutdownLine = true) : c.lc = .running := h.2.2.2.2.1 hx

theorem running (h : startOk c) (hl : c.lc = .running) :
    workersStarted c ∧ c.lcCtl.attachLine = false ∧ c.lcCtl ≠ .d4 := by
  refine ⟨h.2.2.2.2.2 (.inr hl), Bool.eq_false_iff.mpr fun k => ?_, fun k => ?_⟩
  · have := (h.attach k).1
    rw [hl] at this; cases this
  · have := (h.d4 k).1.1
    rw [hl] at this; cases this

/-- At a control line the controller is Running, or its lifecycle has ended. -/
theorem control (h : startOk c) (hx : c.lcCtl.controlLine = true) :
    c.lc = .running ∨ c.lc = .halted ∨ c.lc = .faulted := by
  obtain ⟨ha, -, hd, hi⟩ := LcCtl.of_controlLine hx
  have attaching : c.lc.attaching = true → False := fun k => by
    rcases h.2.2.2.1 k with e | e
    · rw [ha] at e; cases e
    · exact hd e
  cases hl : c.lc with
  | poweredUnknown => exact absurd (h.unknown hl).1 hi
  | resetting | eepromLoading | configured => exact (attaching (by rw [hl]; rfl)).elim
  | running => exact .inl rfl
  | halted => exact .inr (.inl rfl)
  | faulted => exact .inr (.inr rfl)

/-! ## Steps of the other agents -/

/-- The lifecycle and `LC` stay, nobody starts early, and nobody is unstarted again. -/
theorem kept (h : startOk c) (hl : d.lc = c.lc) (hx : d.lcCtl = c.lcCtl) (hn : notStarted c → notStarted d)
    (ht : c.txcs = [] → d.txcs = []) (hw : workersStarted c → workersStarted d) : startOk d := by
  unfold startOk
  rw [hl, hx]
  exact ⟨fun k => (h.unknown k).imp_right hn, fun k => (h.attach k).imp_right hn, fun k => (h.d4 k).1.imp_right ht,
    h.2.2.2.1, h.shutdown, fun k => hw (h.2.2.2.2.2 k)⟩

/-- A step of another agent than `LC`, one that has started. -/
theorem agent (o : OthersKept a c d) (hr : a = .rxw → c.rxw.ctl ≠ .notStarted) (hw : a = .txw → c.txw ≠ .notStarted)
    (hk : a = .lnk → c.lnk ≠ .notStarted) (hc : ∀ k, a = .txc k → c.txcs ≠ []) (h : startOk c) : startOk d := by
  have ht : c.txcs = [] → d.txcs = [] := fun e => (o.txcs fun k hk => hc k hk e).trans e
  refine h.kept o.lc o.lcCtl (fun ⟨nr, nw, nk, nt⟩ => ?_) ht fun ⟨wr, ww, wk⟩ => ?_
  · exact ⟨(o.rxw fun e => hr e nr).trans nr, (o.txw fun e => hw e nw).trans nw,
      (o.lnk fun e => hk e nk).trans nk, ht nt⟩
  · obtain ⟨sr, sw, sk⟩ := o.started
    exact ⟨wr ∘ sr, ww ∘ sw, wk ∘ sk⟩

/-! ## Steps of `LC` -/

theorem lcFlow (m : LcFlow c d) (h : startOk c) : startOk d := by
  have still : LcAlone c d → (notStarted c → notStarted d) ∧ (workersStarted c → workersStarted d) := fun ha => by
    unfold notStarted workersStarted
    rw [ha.rxw, ha.txw, ha.lnk, ha.txcs]
    exact ⟨id, id⟩
  cases m with
  | attach hc hd hl hm ha =>
    obtain ⟨hat, hn⟩ := h.attach hc
    exact of_attach hd (hl.elim (fun e => e ▸ hat) id) ((still ha).1 hn)
  | failed hc hd hl hm ha => exact of_ended (.inr hl) (by rw [hd]; rfl) (by rw [hd]; nofun) (by rw [hd]; rfl)
  | start hc hd hl hm ht hi hx hr hw hk =>
    obtain ⟨hat, -, -, -, htx⟩ := h.attach (by rw [hc]; rfl)
    exact of_d4 hd (hl ▸ hat) (hx.trans htx) ⟨by rw [hr]; nofun, by rw [hw]; nofun, by rw [hk]; nofun⟩
  | ready hc hd hl hm ha =>
    exact of_running hl (by rw [hd]; rfl) (by rw [hd]; nofun) ((still ha).2 (h.d4 hc).2)
  | lock hc hd hl hfree hm ha =>
    have hrun := h.shutdown (by rw [hc]; rfl)
    exact of_running (hl.trans hrun) (by rw [hd]; rfl) (by rw [hd]; nofun) ((still ha).2 (h.running hrun).1)
  | shut hc hd hl hm ha =>
    have hrun := h.shutdown (LcCtl.shutdownLine_of_holdsM hc)
    exact of_running (hl.trans hrun) (LcCtl.attachLine_of_holdsM hd) (fun k => by rw [k] at hd; cases hd)
      ((still ha).2 (h.running hrun).1)
  | unlock b hc hd hl hm ha =>
    have hrun := h.shutdown (by rw [hc]; rfl)
    exact of_running (hl.trans hrun) (by rw [hd]; rfl) (by rw [hd]; nofun) ((still ha).2 (h.running hrun).1)
  | ended b hc hd hl hm ha => exact of_ended hl (by rw [hd]; rfl) (by rw [hd]; nofun) (by rw [hd]; rfl)
  | control hc hd hl hm ha =>
    obtain ⟨hat, hsh, hx⟩ : d.lcCtl.attachLine = false ∧ d.lcCtl.shutdownLine = false ∧ d.lcCtl ≠ .d4 := by
      rcases hd with hd | hd
      · obtain ⟨h1, h2, h3, -⟩ := LcCtl.of_controlLine hd
        exact ⟨h1, h2, h3⟩
      · rw [hd]; exact ⟨rfl, rfl, nofun⟩
    rcases h.control hc with hrun | hend
    · exact of_running (hl.trans hrun) hat hx ((still ha).2 (h.running hrun).1)
    · exact of_ended (hl ▸ hend) hat hx hsh

end startOk

theorem agentStep_startOk {n : Nat} (h : agentStep a n s = .go t) (hs : startOk s.c) : startOk t.c := by
  cases a with
  | disp => exact hs.agent (dispStep_move h).others nofun nofun nofun nofun
  | rxw =>
    refine hs.agent (rxwStep_move h).others (fun _ e => ?_) nofun nofun nofun
    simp [agentStep, rxwStep, e] at h
  | txw =>
    refine hs.agent (txwStep_move h).others nofun (fun _ e => ?_) nofun nofun
    simp [agentStep, txwStep, e] at h
  | lnk =>
    refine hs.agent (lnkStep_move h).others nofun nofun (fun _ e => ?_) nofun
    simp [agentStep, lnkStep, e] at h
  | lc => exact hs.lcFlow (lcStep_flow h)
  | txc k =>
    refine hs.agent (txcStep_move h).others nofun nofun nofun fun _ _ e => ?_
    simp [agentStep, txcStep, e, txcFind] at h

theorem exec_cmd_startOk {i : Instr} (hf : i.format = .hostCmd) (he : exec i s = .next t) (hs : startOk s.c) :
    startOk t.c := by
  cases exec_cmd_case hf he with
  | reply es h => rw [h]; exact hs
  | attach hl _ h =>
    obtain ⟨-, hn⟩ := hs.unknown hl
    rw [h]
    exact .of_attach (lcAfterA0_attach s.c.cfg s.pool) rfl hn
  | tx hl h =>
    obtain ⟨hw, ha, hx⟩ := hs.running hl
    rw [h]
    exact .of_running hl ha hx hw
  | shutdown hl _ h =>
    obtain ⟨hw, -⟩ := hs.running hl
    rcases h with ⟨-, h⟩ | h <;> rw [h] <;> exact .of_running hl rfl nofun hw
  | control x es hx hl _ h =>
    obtain ⟨ha, hsh, hd, -⟩ := LcCtl.of_controlLine (LcCtl.controlLine_of_start hx)
    rw [h]
    rcases hl with hl | hl
    · exact .of_running hl ha hd (hs.running hl).1
    · exact .of_ended (.inl hl) ha hd hsh

theorem discovery_startOk (k : Nat) (p : Params) (x y : DWord) : startOk (Ctlr.discovery k p x y) := by
  refine ⟨fun _ => ⟨rfl, rfl, rfl, rfl, rfl⟩, nofun, nofun, nofun, nofun, fun h => ?_⟩
  rcases h with h | h <;> cases h

/-- Settles O11: ATTACH runs before the workers start (line D3), SHUTDOWN and the control commands behind. -/
theorem stepKeepsStartOrder : Obligations.StepKeepsStartOrder := fun _ _ =>
  step_keeps (fun _ _ _ hf he => exec_cmd_startOk hf he) (fun _ _ hf hs => by rw [hf.c]; exact hs)
    (fun _ _ _ _ => agentStep_startOk) (fun _ _ h => h) (fun k p _ x y _ => discovery_startOk k p x y)

end Sys2Proof.Machine
end

section
/-!
SUPPORT. Register transactions (R13, R88, R439): what a read returns and clears, what a write stores and leaves.
-/

namespace Sys2Proof.Machine

variable {s t : State} {g : NicRegs}

/-! ## One transaction -/

theorem exec_mmioInstr (r : Reg) (a : Access) (s : State) : exec (mmioInstr r a) s = mmioOp r a s := by cases r <;> rfl

theorem mmioOp_read {r : Reg} (h : regReadable r = true) (s : State) : mmioOp r .read s = .next (mmioRead s r).2 := by
  simp only [mmioOp, h, if_true]

theorem mmioOp_write {r : Reg} {v : Word} (h : regWritable r v = true) (s : State) :
    mmioOp r (.write v) s = .next (mmioWrite s r v) := by
  simp only [mmioOp, h, if_true]

theorem regReadable_of_ne {r : Reg} (h : r ≠ .imc) : regReadable r = true := by
  cases r with
  | imc => exact absurd rfl h
  | _ => rfl

/-- Only ICR and the counters have a read side effect. -/
theorem regAfterRead_of_ne {r : Reg} (hi : r ≠ .icr) (hs : ∀ k, r ≠ .stat k) : regAfterRead g r = g := by
  cases r with
  | icr => exact absurd rfl hi
  | stat k => exact absurd rfl (hs k)
  | _ => rfl

theorem stat_regAfterRead (g : NicRegs) (k j : Fin 73) :
    (regAfterRead g (.stat k)).stat[j] = if j = k then 0#32 else g.stat[j] := by
  simp only [regAfterRead, Fin.getElem_fin, Vector.getElem_set, Fin.ext_iff, eq_comm]

/-! ## Writes that only store -/

/-- The registers a write stores all of, and nothing else (R439). -/
def regStores : Reg → Bool
  | .fcal | .fcah | .fct | .fcttv | .rctl | .tctl | .tipg | .pba | .fcrtl | .fcrth | .rdbal | .rdbah | .rdlen | .rdtr
  | .radv | .tdbal | .tdbah | .tdlen | .tidv | .rxcsum | .mta _ | .ral _ | .rah _ => true
  | _ => false

/-- The heads and tails (R129). -/
def regIsIndex : Reg → Bool
  | .rdh | .rdt | .tdh | .tdt => true
  | _ => false

theorem regWritable_of_stores {r : Reg} (h : regStores r = true ∨ regIsIndex r = true) (v : Word) :
    regWritable r v = true := by
  cases r with
  | status | icr | stat _ | mdic => rcases h with h | h <;> cases h
  | _ => rfl

/-- Such a write starts no handshake. -/
theorem devAfterWrite_of_stores {r : Reg} (h : regStores r = true ∨ regIsIndex r = true) (d : Device) (v : Word) :
    devAfterWrite d r v = d := by
  cases r with
  | eerd | mdic => rcases h with h | h <;> cases h
  | _ => rfl

theorem regRead_regWrite_stores {r : Reg} (h : regStores r = true) (l : EerdLayout) (v : Word) :
    regRead (regWrite l g r v) r = v := by
  cases r with
  | mta k | ral k | rah k => simp [regRead, regWrite]
  | ctrl | status | eerd | ctrlExt | mdic | icr | ims | imc | rdh | rdt | tdh | tdt | stat _ => cases h
  | _ => rfl

/-- A head or tail keeps bits 15:0 (R129). -/
theorem setWidth_ringIndex (v : Word) : (ringIndex v).setWidth 32 = v &&& 0x0000FFFF#32 := by
  apply BitVec.eq_of_toNat_eq
  rw [BitVec.toNat_and, show (0x0000FFFF#32).toNat = 2 ^ 16 - 1 from rfl, Nat.and_two_pow_sub_one_eq_mod, ringIndex,
    BitVec.toNat_setWidth, BitVec.toNat_setWidth]
  omega

theorem regRead_regWrite_index {r : Reg} (h : regIsIndex r = true) (l : EerdLayout) (v : Word) :
    regRead (regWrite l g r v) r = v &&& 0x0000FFFF#32 := by
  cases r with
  | rdh | rdt | tdh | tdt => exact setWidth_ringIndex v
  | _ => cases h

/-- A write changes no other register's reading; IMS and IMC write one register and are left out. -/
theorem regRead_regWrite_of_ne {r q : Reg} (hs : r ≠ .ims) (hc : r ≠ .imc) (hq : q ≠ r) (l : EerdLayout) (v : Word) :
    regRead (regWrite l g r v) q = regRead g q := by
  cases r with
  | ims => exact absurd rfl hs
  | imc => exact absurd rfl hc
  | status | icr | stat _ => rfl
  | mta k =>
    cases q with
    | mta j => exact Vector.getElem_set_ne k.isLt j.isLt fun e => hq (congrArg Reg.mta (Fin.ext e.symm))
    | _ => rfl
  | ral k =>
    cases q with
    | ral j => exact Vector.getElem_set_ne k.isLt j.isLt fun e => hq (congrArg Reg.ral (Fin.ext e.symm))
    | _ => rfl
  | rah k =>
    cases q with
    | rah j => exact Vector.getElem_set_ne k.isLt j.isLt fun e => hq (congrArg Reg.rah (Fin.ext e.symm))
    | _ => rfl
  | _ => cases q <;> trivial

/-- A write that only stores: what is read back is all that is said of the register, all else stays. -/
theorem exec_write_of_stores {r : Reg} (h : regStores r = true ∨ regIsIndex r = true) (s : State) (v : Word) :
    ∃ t, exec (mmioInstr r (.write v)) s = .next t
      ∧ regRead t.c.regs r = regRead (regWrite s.c.cfg.variant.eerdLayout s.c.regs r v) r
      ∧ (∀ q : Reg, q ≠ r → regRead t.c.regs q = regRead s.c.regs q)
      ∧ t = { s with c := { s.c with regs := t.c.regs, trace := s.c.trace ++ [.mmioW r v] } } := by
  refine ⟨mmioWrite s r v, by rw [exec_mmioInstr, mmioOp_write (regWritable_of_stores h v)], rfl, fun q hq => ?_, ?_⟩
  · refine regRead_regWrite_of_ne ?_ ?_ hq _ _ <;> rintro rfl <;> rcases h with h | h <;> cases h
  · unfold mmioWrite State.modC State.emit
    simp only [devAfterWrite_of_stores h]

/-- Settles O28: each such write sets one field of the register file, which one register reads. -/
theorem registerWriteStoresValue : Obligations.RegisterWriteStoresValue := by
  intro s r v
  constructor
  · intro h
    have hs : regStores r = true := by
      rcases h with h | ⟨k, rfl⟩ | ⟨n, rfl⟩ | ⟨n, rfl⟩
      · fin_cases h <;> rfl
      all_goals rfl
    obtain ⟨t, he, hr, hq, ht⟩ := exec_write_of_stores (.inl hs) s v
    exact ⟨t, he, hr.trans (regRead_regWrite_stores hs _ _), hq, ht⟩
  · intro h
    have hs : regIsIndex r = true := by fin_cases h <;> rfl
    obtain ⟨t, he, hr, hq, ht⟩ := exec_write_of_stores (.inr hs) s v
    exact ⟨t, he, hr.trans (regRead_regWrite_index hs _ _), hq, ht⟩

/-- Settles O26: a read emits its value, and only ICR and the counters are changed by it. -/
theorem registerReadsReturnAndClear : Obligations.RegisterReadsReturnAndClear := by
  refine ⟨fun s r hm hi hs => ?_, fun s k => ⟨rfl, (mmioRead s (.stat k)).2, rfl, rfl, stat_regAfterRead _ _⟩⟩
  rw [exec_mmioInstr, mmioOp_read (regReadable_of_ne hm), mmioRead]
  simp only [State.modRegs, State.emit, regAfterRead_of_ne hi hs]

/-! ## The choice a step makes (R4, R10) -/

theorem step_of_choice {e : Event} {es : List Event} (hp : s.port = []) (hs : s.sched = e :: es) :
    step s = eventAct e { s with sched := es } := by
  simp only [step, runStep, hp, runEvent, hs]

theorem step_of_no_choice (hp : s.port = []) (hs : s.sched = []) :
    step s = eventAct (Config.freeEvent s.tick) { s with tick := s.tick + 1 } := by
  simp only [step, runStep, hp, runEvent, hs]

/-- Settles O2: with an empty port the step is the head of the schedule, or a free choice. -/
theorem stepMakesListedChoice : Obligations.StepMakesListedChoice := by
  intro s hp
  refine ⟨fun a d es t hs h => ?_, fun a d es hs h => ?_, fun a d es f hs h => ?_, fun x es hs => step_of_choice hp hs,
    fun x es hs => step_of_choice hp hs, fun k es hs => step_of_choice hp hs, fun p a b es hs => step_of_choice hp hs,
    fun hs => ⟨_, step_of_no_choice hp hs⟩⟩
  all_goals
    rw [step_of_choice hp hs, eventAct, agentAct, h]

end Sys2Proof.Machine
end

section
/-!
SUPPORT. The records of buffers under an update, and the lines of the receive worker's scan (R206 S1-S5, R211, R214).
-/

namespace Sys2Proof.Machine

variable {s t : State} {a : AgentId} {b x : BufId} {r : Buf} {f g : Buf → Buf} {d n : Nat}

/-! ## Buffers -/

theorem bufGet_bufMod (bs : List (BufId × Buf)) (b x : BufId) (f : Buf → Buf) :
    bufGet (bufMod bs b f) x = if x = b then (bufGet bs x).map f else bufGet bs x := by
  induction bs with
  | nil => simp [bufMod, bufGet]
  | cons e bs ih =>
    obtain ⟨y, r⟩ := e
    have he : (if y = b then (y, f r) else (y, r)) = (y, if y = b then f r else r) := by split <;> rfl
    simp only [bufMod, List.map_cons, he, bufGet] at ih ⊢
    by_cases hy : y = x
    · subst hy
      by_cases hb : y = b <;> simp [hb]
    · simpa only [if_neg hy] using ih

theorem buf?_modBuf_same (h : s.buf? b = some r) : (s.modBuf b f).buf? b = some (f r) := by
  have hb : bufGet s.bufs b = some r := h
  simp [State.buf?, bufGet_bufMod, hb]

theorem buf?_modBuf_of_ne (h : x ≠ b) : (s.modBuf b f).buf? x = s.buf? x := by
  simp [State.buf?, bufGet_bufMod, h]

/-- Two updates of one record are one. -/
theorem bufMod_bufMod (bs : List (BufId × Buf)) (b : BufId) (f g : Buf → Buf) :
    bufMod (bufMod bs b f) b g = bufMod bs b (g ∘ f) := by
  unfold bufMod
  rw [List.map_map]
  refine List.map_congr_left fun e _ => ?_
  by_cases h : e.1 = b <;> simp [h]

/-! ## A turn, step by step -/

theorem turn_go (h : agentStep a d s = .go t) : turn a d (n + 1) s = turn a d n t := by simp only [turn, h]

/-! ## The lines of the scan -/

/-- Line S1 with its free tests: on to line S3, or the end of the scan. -/
theorem agentStep_s1 (hc : s.c.rxw.ctl = .s1) : agentStep .rxw d s = .go (setRxw s fun w => { w with
    ctl := if rxDD (s.rxStatus s.c.rdh) then .s3 else rxwAfterScan s.c, st := s.rxStatus s.c.rdh }) := by
  simp only [agentStep, rxwStep, hc]
  split <;> rfl

/-! ## The scan -/

theorem rxTrigger_iff {nrd : Nat} {free : Half} {cause : Word} : rxTrigger nrd free cause = true ↔
    32 ≤ nrd - free.toNat ∨ cause &&& 0x00000010#32 ≠ 0#32 := by
  rw [rxTrigger, Bool.or_eq_true, decide_eq_true_iff]
  exact Iff.or Iff.rfl bne_iff_ne

/-- Settles O44: line S1 with the free tests behind it. -/
theorem scanStopsAtFirstDescriptorNotDone : Obligations.ScanStopsAtFirstDescriptorNotDone := by
  intro s d st hc hst
  obtain rfl : st = s.rxStatus s.c.rdh := hst
  refine ⟨_, agentStep_s1 hc, fun h => ?_, fun h => ?_, rfl⟩
  · exact if_pos (bne_iff_ne.mpr h)
  · have hd : rxDD (s.rxStatus s.c.rdh) = false := by rw [rxDD, h]; rfl
    simp only [setRxw_c, hd, Bool.false_eq_true, if_false, rxwAfterScan, Bool.and_eq_true, decide_eq_true_eq,
      rxTrigger_iff]

/-! ## DELIVER and DISCARD -/

/-- The worker with locals `w`; nothing else changes. -/
def rxwAt (s : State) (w : RxWorker) : State := { s with c := { s.c with rxw := w } }

/-- The worker inside DELIVER: its locals are `w`, its buffer is changed by `f`. -/
def delivering (s : State) (f : Buf → Buf) (w : RxWorker) : State :=
  { s with bufs := bufMod s.bufs w.b f, c := { s.c with rxw := w } }

/-- The worker behind DELIVER, at line S6. -/
def delivered (s : State) (f : Buf → Buf) (w : RxWorker) : State :=
  { s with bufs := bufMod s.bufs w.b f, c := { s.c with
      rb := s.c.rb.set s.c.rdh.toNat none, rxw := { w with ctl := .s6 }, trace := s.c.trace ++ [.deliver w.b] } }

/-- The worker behind DISCARD, at line S6. -/
def discarded (s : State) (w : RxWorker) : State :=
  { s with bufs := bufMod s.bufs w.b (Buf.setOwner .pool), free := w.b :: s.free, plock := none, c := { s.c with
      rb := s.c.rb.set s.c.rdh.toNat none, rxw := { w with ctl := .s6 }, trace := s.c.trace ++ [.rxDiscard w.b w.er] } }

section
variable {w : RxWorker}

theorem delivered_buf? (h : s.buf? w.b = some r) : (delivered s f w).buf? w.b = some (f r) := buf?_modBuf_same h

theorem delivered_buf?_of_ne (h : x ≠ w.b) : (delivered s f w).buf? x = s.buf? x := buf?_modBuf_of_ne h

theorem discarded_buf? (h : s.buf? w.b = some r) : (discarded s w).buf? w.b = some (Buf.setOwner .pool r) :=
  buf?_modBuf_same h

theorem discarded_buf?_of_ne (h : x ≠ w.b) : (discarded s w).buf? x = s.buf? x := buf?_modBuf_of_ne h

theorem rxwAt_rxw (s : State) (w : RxWorker) : (rxwAt s w).c.rxw = w := rfl
theorem rxwAt_buf? (s : State) (w : RxWorker) (x : BufId) : (rxwAt s w).buf? x = s.buf? x := rfl

/-- Line S3 with line S5's test: the descriptor's buffer and errors are taken. -/
theorem agentStep_s3 (hc : s.c.rxw.ctl = .s3) (hb : s.c.rb.getD s.c.rdh.toNat none = some b) :
    agentStep .rxw d s = .go (rxwAt s { s.c.rxw with
      b := b, er := s.rxErrors s.c.rdh
      ctl := if rxGood s.c.rxw.st (s.rxErrors s.c.rdh) then .d1 else .discard }) := by
  simp only [agentStep, rxwStep, hc, hb, setRxw, State.modC, rxwAt]

theorem agentStep_d1 (hc : w.ctl = .d1) : agentStep .rxw d (rxwAt s w) = .go (rxwAt s { w with
    ctl := .d2, len := (s.rd16 s.c.rdh offLength).setWidth 32 }) := by
  simp only [agentStep, rxwStep, rxwAt, hc]
  rfl

/-- Line D2: the buffer is trimmed to the reported length. -/
theorem agentStep_d2 (hc : w.ctl = .d2) (hb : s.buf? w.b = some r) (hl : r.wp + w.len ≤ r.cap) :
    agentStep .rxw d (rxwAt s w) = .go (delivering s (trimBuf w.len) { w with
      ctl := if rxIXSM w.st then .d5 else .d4 }) := by
  have hn : ¬ r.wp + w.len > r.cap := BitVec.not_lt.mpr hl
  simp only [agentStep, rxwStep, rxwAt_rxw, hc, rxwAt_buf?, hb]
  exact if_neg hn

/-- Line D4: the checksum annotations. -/
theorem agentStep_d4 (hc : w.ctl = .d4) : agentStep .rxw d (delivering s f w) = .go (delivering s
    (annotate w.st (s.rd16 s.c.rdh offChecksum) ∘ f) { w with ctl := .d5 }) := by
  simp only [agentStep, rxwStep, delivering, hc, rxwJump, setRxw, State.modC, State.modBuf, bufMod_bufMod]
  rfl

/-- Line D5: the host owns the buffer. -/
theorem agentStep_d5 (hc : w.ctl = .d5) : agentStep .rxw d (delivering s f w) =
    .go (delivered s (Buf.setOwner .host ∘ f) w) := by
  simp only [agentStep, rxwStep, delivering, hc, rxwJump, setRxw, State.modC, State.modBuf, State.emit, bufMod_bufMod,
    delivered]

/-- DISCARD is one line. -/
theorem agentStep_discard (hc : w.ctl = .discard) : agentStep .rxw d (rxwAt s w) = .go (discarded s w) := by
  simp only [agentStep, rxwStep, rxwAt, hc, rxwJump, setRxw, State.modC, poolPush, State.modBuf, State.emit, discarded]

end

/-- Lines S3 to D2: the good packet's buffer is trimmed. -/
theorem turn_rxw_trim {len : Word} (hc : s.c.rxw.ctl = .s3) (hb : s.c.rb.getD s.c.rdh.toNat none = some b)
    (hr : s.buf? b = some r) (hg : rxGood s.c.rxw.st (s.rxErrors s.c.rdh) = true)
    (hlen : len = (s.rd16 s.c.rdh offLength).setWidth 32) (hl : r.wp + len ≤ r.cap) :
    turn .rxw d (n + 3) s = turn .rxw d n (delivering s (trimBuf len)
      { s.c.rxw with ctl := if rxIXSM s.c.rxw.st then .d5 else .d4, b := b, er := 0#8, len := len }) := by
  have her : s.rxErrors s.c.rdh = 0#8 := by
    simp only [rxGood, Bool.and_eq_true, beq_iff_eq] at hg
    exact hg.2
  subst hlen
  rw [turn_go (agentStep_s3 hc hb), turn_go (agentStep_d1 (if_pos hg)), her]
  exact turn_go (agentStep_d2 rfl hr hl)

/-- Settles O41: lines S3, D1, D2, D4 and D5 with IXSM clear, S3, D1, D2 and D5 with it set. -/
theorem goodPacketIsDelivered : Obligations.GoodPacketIsDelivered := by
  intro s d b r len hc hb hr heop her hlen hl
  have hg : rxGood s.c.rxw.st (s.rxErrors s.c.rdh) = true := by
    simp only [rxGood, rxEOP, Bool.and_eq_true, bne_iff_ne, beq_iff_eq]
    exact ⟨heop, her⟩
  by_cases hx : s.c.rxw.st &&& 0x04#8 = 0#8
  · have hd : (if rxIXSM s.c.rxw.st then RxCtl.d5 else .d4) = .d4 := by rw [rxIXSM, hx]; rfl
    have ht := (turn_rxw_trim (d := d) (n := 2) hc hb hr hg hlen hl).trans
      ((turn_go (agentStep_d4 hd)).trans (turn_go (agentStep_d5 rfl)))
    simp only [if_pos hx]
    exact ⟨_, ht, rfl, rfl, delivered_buf? hr, fun _ h => delivered_buf?_of_ne h, rfl⟩
  · have hd : (if rxIXSM s.c.rxw.st then RxCtl.d5 else .d4) = .d5 := if_pos (bne_iff_ne.mpr hx)
    have ht := (turn_rxw_trim (d := d) (n := 1) hc hb hr hg hlen hl).trans (turn_go (agentStep_d5 hd))
    simp only [if_neg hx]
    exact ⟨_, ht, rfl, rfl, delivered_buf? hr, fun _ h => delivered_buf?_of_ne h, rfl⟩

/-- Lines S3 and DISCARD. -/
theorem turn_rxw_discard (hc : s.c.rxw.ctl = .s3) (hb : s.c.rb.getD s.c.rdh.toNat none = some b)
    (hg : rxGood s.c.rxw.st (s.rxErrors s.c.rdh) = false) :
    turn .rxw d 2 s = discarded s { s.c.rxw with b := b, er := s.rxErrors s.c.rdh } := by
  have hd : (if rxGood s.c.rxw.st (s.rxErrors s.c.rdh) then RxCtl.d1 else .discard) = .discard := by rw [hg]; rfl
  exact (turn_go (agentStep_s3 hc hb)).trans (turn_go (agentStep_discard hd))

/-- Settles O42: lines S3 and DISCARD. -/
theorem badPacketIsDiscarded : Obligations.BadPacketIsDiscarded := by
  intro s d b r er hc hb hr her hbad
  obtain rfl : er = s.rxErrors s.c.rdh := her
  have hg : rxGood s.c.rxw.st (s.rxErrors s.c.rdh) = false := by
    simp only [rxGood, rxEOP, Bool.and_eq_false_iff, bne_eq_false_iff_eq, beq_eq_false_iff_ne]
    exact hbad
  exact ⟨_, turn_rxw_discard hc hb hg, rfl, rfl, rfl, discarded_buf? hr, fun _ h => discarded_buf?_of_ne h, rfl⟩

end Sys2Proof.Machine
end

section
/-!
SUPPORT. Words in memory and the fields of a descriptor (R84, R87, R145).
-/

namespace Sys2Proof.Machine

variable {m : List Host.Cell} {c : Ctlr}

theorem Mem.read32_write32_disjoint (hw : Mem.wf m = true) {a x : DWord} (v : Word) (h : 4 ≤ (x - a).toNat)
    (h' : (x - a).toNat ≤ 2 ^ 64 - 4) : Mem.read32 (Mem.write32 m a v) x = Mem.read32 m x := by
  have out : ∀ k : DWord, k.toNat ≤ 3 → Mem.read8 (Mem.write32 m a v) (x + k) = Mem.read8 m (x + k) := fun k hk =>
    Mem.read8_write32_outside hw _ _ _ (by bv_omega)
  have h0 := out 0#64 (by decide)
  have h1 := out 1#64 (by decide)
  have h2 := out 2#64 (by decide)
  have h3 := out 3#64 (by decide)
  rw [BitVec.add_zero] at h0
  rw [show x + 3#64 = x + 2#64 + 1#64 by bv_omega] at h3
  simp only [Mem.read32, Mem.read16, h0, h1, h2, h3]

theorem descAddr_eq_add (base : DWord) (i : Half) (off : Nat) :
    descAddr base i off = descAddr base i 0 + BitVec.ofNat 64 off := by
  simp [descAddr]

theorem tdAddr_eq_add (c : Ctlr) (i : Half) (off : Nat) : tdAddr c i off = tdAddr c i 0 + BitVec.ofNat 64 off :=
  descAddr_eq_add _ _ _

theorem rdAddr_eq_add (c : Ctlr) (i : Half) (off : Nat) : rdAddr c i off = rdAddr c i 0 + BitVec.ofNat 64 off :=
  descAddr_eq_add _ _ _

/-- An address is its two words. -/
theorem addrHiWord_append_addrLoWord (a : DWord) : addrHiWord a ++ addrLoWord a = a := by
  have h : (addrHiWord a ++ addrLoWord a : DWord).toNat = a.toNat := by
    rw [toNat_append_eq_add, addrHiWord, addrLoWord]
    simp only [BitVec.toNat_setWidth, BitVec.toNat_ushiftRight, Nat.shiftRight_eq_div_pow]
    omega
  exact BitVec.eq_of_toNat_eq h

/-! ## The three words of a transmit descriptor that the HRE writes -/

/-- Memory with the address words and the control word of the transmit descriptor at `i` written (lines B4-B6). -/
def Mem.writeTd (m : List Host.Cell) (c : Ctlr) (i : Half) (lo hi ctl : Word) : List Host.Cell :=
  Mem.write32 (Mem.write32 (Mem.write32 m (tdAddr c i 0) lo) (tdAddr c i 4) hi) (tdAddr c i 8) ctl

section
variable (hw : Mem.wf m = true) (c : Ctlr) (i : Half) (lo hi ctl : Word)
include hw

theorem Mem.read32_writeTd_control : Mem.read32 (Mem.writeTd m c i lo hi ctl) (tdAddr c i 8) = ctl :=
  Mem.read32_write32 (by simp [hw]) _ _

theorem Mem.read32_writeTd_hi : Mem.read32 (Mem.writeTd m c i lo hi ctl) (tdAddr c i 4) = hi := by
  rw [Mem.writeTd, tdAddr_eq_add c i 4, tdAddr_eq_add c i 8, Mem.read32_write32_disjoint (by simp [hw]),
    Mem.read32_write32 (by simp [hw])] <;> bv_omega

theorem Mem.read32_writeTd_lo : Mem.read32 (Mem.writeTd m c i lo hi ctl) (tdAddr c i 0) = lo := by
  rw [Mem.writeTd, tdAddr_eq_add c i 4, tdAddr_eq_add c i 8, Mem.read32_write32_disjoint (by simp [hw]),
    Mem.read32_write32_disjoint (by simp [hw]), Mem.read32_write32 hw] <;> bv_omega

theorem Mem.read8_writeTd_outside {x : DWord} (hx : 12 ≤ (x - tdAddr c i 0).toNat) :
    Mem.read8 (Mem.writeTd m c i lo hi ctl) x = Mem.read8 m x := by
  rw [Mem.writeTd, tdAddr_eq_add c i 4, tdAddr_eq_add c i 8, Mem.read8_write32_outside (by simp [hw]),
    Mem.read8_write32_outside (by simp [hw]), Mem.read8_write32_outside hw] <;> bv_omega
end

end Sys2Proof.Machine
end

section
/-!
SUPPORT. A run of TX_ROUTINE (R241) by the worker or a caller, line by line.
-/

namespace Sys2Proof.Machine

variable {s t u : State} {a : AgentId} {b : BufId} {r : Buf} {p q : TxRun} {d n : Nat}

/-! ## The place of a run -/

/-- A step of an agent inside TX_ROUTINE is the routine's. -/
theorem agentStep_tx (h : txRunOf s.c a = some q) : agentStep a d s = txStep s a q (atTx a) (endTx a) := by
  cases a with
  | disp | rxw | lnk | lc => cases h
  | txw =>
    cases hc : s.c.txw <;> simp only [txRunOf, hc] at h <;> cases h
    simp only [agentStep, txwStep, hc]
    rfl
  | txc k =>
    simp only [txRunOf] at h
    simp only [agentStep, txcStep, h]
    rfl

theorem txcSet_txcSet (xs : List Txc) (k : Nat) : txcSet (txcSet xs k p) k q = txcSet xs k q := by
  unfold txcSet
  rw [List.map_map]
  refine List.map_congr_left fun x _ => ?_
  by_cases h : x.k = k <;> simp [h]

theorem atTx_atTx (a : AgentId) (p q : TxRun) (s : State) : atTx a q (atTx a p s) = atTx a q s := by
  cases a with
  | disp | rxw | lnk | lc | txw => rfl
  | txc k => simp only [atTx, txcJump, State.modC, txcSet_txcSet]

/-- An agent inside the routine that is moved stands where it was moved. -/
theorem txRunOf_atTx (h : (txRunOf s.c a).isSome = true) : txRunOf (atTx a q s).c a = some q := by
  cases a with
  | disp | rxw | lnk | lc => cases h
  | txw => rfl
  | txc k =>
    simp only [txRunOf] at h
    simp only [txRunOf, atTx, txcJump_c, txcFind_txcSet, if_true, Option.map_eq_some_iff]
    exact (Option.isSome_iff_exists.mp h).imp fun _ hx => ⟨hx, trivial⟩

section
variable (a : AgentId) (q : TxRun) (s : State)

theorem atTx_buf? (x : BufId) : (atTx a q s).buf? x = s.buf? x := by cases a <;> rfl
theorem atTx_mem : (atTx a q s).mem = s.mem := by cases a <;> rfl
theorem atTx_bufs : (atTx a q s).bufs = s.bufs := by cases a <;> rfl
theorem atTx_oq : (atTx a q s).c.oq = s.c.oq := by cases a <;> rfl
theorem atTx_tb : (atTx a q s).c.tb = s.c.tb := by cases a <;> rfl
theorem atTx_tdt : (atTx a q s).c.tdt = s.c.tdt := by cases a <;> rfl
theorem atTx_cfg : (atTx a q s).c.cfg = s.c.cfg := by cases a <;> rfl
theorem atTx_txNext : txNext (atTx a q s).c = txNext s.c := by cases a <;> rfl
theorem atTx_setTd32 (i : Half) (o : Nat) (v : Word) :
    (atTx a q s).setTd32 i o v = atTx a q (s.setTd32 i o v) := by cases a <;> rfl
theorem atTx_setTxControl (i : Half) (v : Word) :
    (atTx a q s).setTxControl i v = atTx a q (s.setTxControl i v) := by cases a <;> rfl
end

/-! ## The lines B2-B7 -/

/-- The slot at `tdt` filled with buffer `b`, the front of the queue, and memory `m`. -/
def filling (s : State) (b : BufId) (bs : List BufId) (m : List Host.Cell) : State :=
  { s with mem := m, bufs := bufMod s.bufs b (Buf.setOwner (.txSlot s.c.id s.c.tdt)), c := { s.c with
      oq := bs, tb := s.c.tb.set s.c.tdt.toNat (some b) } }

theorem filling_mem (s : State) (b : BufId) (bs : List BufId) (m : List Host.Cell) : (filling s b bs m).mem = m := rfl

/-- Line B2: the front packet is taken. -/
theorem turn_tx_b2 {bs : List BufId} (hr : txRunOf s.c a = some { q with pc := .b2 }) (ho : s.c.oq = b :: bs) :
    turn a d (n + 1) s = turn a d n (atTx a { q with pc := .b4, p := b } (filling s b bs s.mem)) := by
  refine turn_go ((agentStep_tx hr).trans ?_)
  simp only [txStep, ho]
  rfl

/-- Line B4, for a packet of a length R252 allows. -/
theorem turn_tx_b4 (hr : (txRunOf u.c a).isSome = true) (hb : u.buf? q.p = some r)
    (hl : txLengthOk u.c.cfg r.len = true) :
    turn a d (n + 1) (atTx a { q with pc := .b4 } u) =
      turn a d n (atTx a { q with pc := .b5 } (u.setTd32 u.c.tdt offAddrLo (addrLoWord (r.pa r.rp)))) := by
  rw [turn_go ((agentStep_tx (txRunOf_atTx hr)).trans ?_)]
  simp only [txStep, atTx_buf?, hb, atTx_cfg, hl, if_true, atTx_setTd32, atTx_atTx, atTx_tdt]

theorem turn_tx_b5 (hr : (txRunOf u.c a).isSome = true) (hb : u.buf? q.p = some r) :
    turn a d (n + 1) (atTx a { q with pc := .b5 } u) =
      turn a d n (atTx a { q with pc := .b6 } (u.setTd32 u.c.tdt offAddrHi (addrHiWord (r.pa r.rp)))) := by
  rw [turn_go ((agentStep_tx (txRunOf_atTx hr)).trans ?_)]
  simp only [txStep, atTx_buf?, hb, atTx_setTd32, atTx_atTx, atTx_tdt]

theorem turn_tx_b6 (hr : (txRunOf u.c a).isSome = true) (hb : u.buf? q.p = some r) :
    turn a d (n + 1) (atTx a { q with pc := .b6 } u) =
      turn a d n (atTx a { q with pc := .b7 } (u.setTxControl u.c.tdt (txControl (r.len.setWidth 16)))) := by
  rw [turn_go ((agentStep_tx (txRunOf_atTx hr)).trans ?_)]
  simp only [txStep, atTx_buf?, hb, atTx_setTxControl, atTx_atTx, atTx_tdt]

/-- Line B7: the tail advances. -/
theorem turn_tx_b7 (hr : (txRunOf u.c a).isSome = true) :
    turn a d (n + 1) (atTx a { q with pc := .b7 } u) = turn a d n
      (atTx a { q with pc := txNext { u.c with tdt := ringNext u.c.tdt u.c.cfg.ntd } }
        { u with c := { u.c with tdt := ringNext u.c.tdt u.c.cfg.ntd } }) := by
  have h : (atTx a { q with pc := .b7 } u).modC (fun c => { c with tdt := ringNext c.tdt c.cfg.ntd })
      = atTx a { q with pc := .b7 } { u with c := { u.c with tdt := ringNext u.c.tdt u.c.cfg.ntd } } := by
    cases a <;> rfl
  rw [turn_go ((agentStep_tx (txRunOf_atTx hr)).trans ?_)]
  simp only [txStep, h, atTx_atTx, atTx_txNext]

/-- The control word of line B6, whatever way the length is written (R253). -/
theorem txControl_setWidth {v : Word} (h : v.toNat ≤ 0xFFFF) : txControl (v.setWidth 16) = 0x8B000000#32 ||| v := by
  have hv : (v.setWidth 16).setWidth 32 = v := by bv_omega
  rw [txControl, txCmd, hv]

theorem txLengthOk_iff {p : Params} {v : Word} : txLengthOk p v = true ↔ v ≠ 0#32 ∧ v.toNat ≤ p.txMaxLen := by
  simp [txLengthOk]

/-- Lines B2 to B7: the front packet is installed at the tail. -/
theorem turn_tx_fill {bs : List BufId} (hr : txRunOf s.c a = some { q with pc := .b2 }) (ho : s.c.oq = b :: bs)
    (hb : s.buf? b = some r) (hl : txLengthOk s.c.cfg r.len = true) :
    turn a d 5 s = atTx a { q with pc := txNext { s.c with tdt := ringNext s.c.tdt s.c.cfg.ntd }, p := b }
      { filling s b bs (Mem.writeTd s.mem s.c s.c.tdt (addrLoWord (r.pa r.rp)) (addrHiWord (r.pa r.rp))
          (s.c.cfg.regMap.toChip .txControl (txControl (r.len.setWidth 16)))) with
        c := { (filling s b bs s.mem).c with tdt := ringNext s.c.tdt s.c.cfg.ntd } } := by
  have hin : ∀ m, (txRunOf (filling s b bs m).c a).isSome = true := fun m => by
    rw [show txRunOf (filling s b bs m).c a = txRunOf s.c a by cases a <;> rfl, hr]; rfl
  have hb' : ∀ m, (filling s b bs m).buf? b = some (Buf.setOwner (.txSlot s.c.id s.c.tdt) r) := fun m =>
    buf?_modBuf_same hb
  refine (turn_tx_b2 hr ho).trans ((turn_tx_b4 (q := { q with p := b }) (hin _) (hb' _) hl).trans ?_)
  refine (turn_tx_b5 (q := { q with p := b }) (u := filling s b bs _) (hin _) (hb' _)).trans ?_
  refine (turn_tx_b6 (q := { q with p := b }) (u := filling s b bs _) (hin _) (hb' _)).trans ?_
  exact turn_tx_b7 (q := { q with p := b }) (u := filling s b bs _) (hin _)

/-- Settles O47: lines B2, B4, B5, B6 and B7, in the worker's run and in a caller's. -/
theorem refillInstallsTheFrontPacket : Obligations.RefillInstallsTheFrontPacket := by
  intro s d a q b bs r i hw hr ho hb hi h0 hl hmax
  subst hi
  have hok : txLengthOk s.c.cfg r.len = true := txLengthOk_iff.mpr ⟨h0, hl⟩
  refine ⟨_, turn_tx_fill hr ho hb hok, ?_⟩
  simp only [atTx_oq, atTx_tb, atTx_mem, atTx_bufs, atTx_buf?, atTx_tdt, atTx_txNext, filling_mem]
  refine ⟨rfl, rfl, buf?_modBuf_same hb, fun x hx => buf?_modBuf_of_ne hx, ?_, ?_, fun x hx => ?_, trivial, rfl⟩
  · rw [Mem.read32_writeTd_hi hw, Mem.read32_writeTd_lo hw, addrHiWord_append_addrLoWord]
    rfl
  · rw [Mem.read32_writeTd_control hw, txControl_setWidth (v := r.len) (Nat.le_trans hl hmax)]
    rfl
  · exact Mem.read8_writeTd_outside hw _ _ _ _ _ hx

/-! ## A direct send with nothing to do (R243) -/

/-- The machine with the newest caller at `q`, and `tlock` at `l`. -/
def calling (s : State) (l : Option AgentId) (q : TxRun) : State :=
  { s with c := { s.c with
      tlock := l, txcs := s.c.txcs ++ [{ k := s.c.txcNext, run := q }], txcNext := s.c.txcNext + 1 } }

theorem txcFind_of_fresh {xs : List Txc} {k : Nat} (h : ∀ x ∈ xs, x.k ≠ k) : txcFind xs k = none := by
  induction xs with
  | nil => rfl
  | cons x xs ih =>
    rw [txcFind, if_neg (h x List.mem_cons_self)]
    exact ih fun y hy => h y (List.mem_cons_of_mem _ hy)

theorem txcSet_of_fresh {xs : List Txc} {k : Nat} (h : ∀ x ∈ xs, x.k ≠ k) (p : TxRun) : txcSet xs k p = xs := by
  rw [txcSet, List.map_congr_left fun x hx => if_neg (h x hx), List.map_id']

section
variable (hf : ∀ x ∈ s.c.txcs, x.k ≠ s.c.txcNext) {l : Option AgentId}
include hf

theorem txRunOf_calling : txRunOf (calling s l q).c (.txc s.c.txcNext) = some q := by
  simp [txRunOf, calling, txcFind_append, txcFind_of_fresh hf]

theorem atTx_calling : atTx (.txc s.c.txcNext) p (calling s l q) = calling s l p := by
  have h : txcSet (s.c.txcs ++ [{ k := s.c.txcNext, run := q }]) s.c.txcNext p
      = s.c.txcs ++ [{ k := s.c.txcNext, run := p }] := by
    rw [txcSet, List.map_append, ← txcSet, txcSet_of_fresh hf]
    simp
  simp only [atTx, txcJump, State.modC, calling, h]

theorem endTx_calling : endTx (.txc s.c.txcNext) (calling s l q) = { s with c := { s.c with
    tlock := l, txcNext := s.c.txcNext + 1, trace := s.c.trace ++ [.cmd .txRequest .ok] } } := by
  have h : (s.c.txcs ++ [(⟨s.c.txcNext, q⟩ : Txc)]).filter (fun x => x.k != s.c.txcNext) = s.c.txcs := by
    rw [List.filter_append, List.filter_eq_self.mpr fun x hx => bne_iff_ne.mpr (hf x hx)]
    simp
  simp only [endTx, txcEnd, State.modC, State.emit, calling, h]

/-- A line of the newest caller that moves it and may move `tlock`. -/
theorem turn_calling {m : Option AgentId} (h : txStep (calling s l q) (.txc s.c.txcNext) q (atTx (.txc s.c.txcNext))
    (endTx (.txc s.c.txcNext)) = .go (atTx (.txc s.c.txcNext) p (calling s m q))) :
    turn (.txc s.c.txcNext) d (n + 1) (calling s l q) = turn (.txc s.c.txcNext) d n (calling s m p) := by
  rw [turn_go ((agentStep_tx (txRunOf_calling hf)).trans h), atTx_calling hf]

end

theorem turn_blocked (h : agentStep a d s = .blocked) (n : Nat) : turn a d n s = s := by
  cases n with
  | zero => rfl
  | succ n => simp only [turn, h]


/-- With an empty queue the routine goes from line B1's test to line E2 (R254, R255), the tail unmoved. -/
theorem turn_calling_idle (hf : ∀ x ∈ s.c.txcs, x.k ≠ s.c.txcNext) (ho : s.c.oq = []) {l : Option AgentId} {b : BufId} :
    turn (.txc s.c.txcNext) d (n + 1) (calling s l { pc := txNext s.c, t0 := s.c.tdt, p := b }) =
      turn (.txc s.c.txcNext) d n (calling s l { pc := .e2, t0 := s.c.tdt, p := b }) := by
  have ho' : ∀ q, (calling s l q).c.oq = [] := fun _ => ho
  have ht : ∀ q, txTail (calling s l q).c { pc := .c1, t0 := s.c.tdt, p := b } = .e2
      ∧ txTail (calling s l q).c { pc := .b2, t0 := s.c.tdt, p := b } = .e2 := fun _ => ⟨if_pos rfl, if_pos rfl⟩
  unfold txNext
  split
  · exact turn_calling hf (by simp only [txStep, ho', List.isEmpty_nil, if_true, (ht _).1])
  · exact turn_calling hf (by simp only [txStep, ho', (ht _).2])

/-- Settles O24: the caller goes by lines X0, A1, B2 or C1, and E2, and is gone. -/
theorem txRequestCreatesCaller : Obligations.TxRequestCreatesCaller := by
  intro s d hrun
  have hexec : exec .txRequest s = .next (calling s s.c.tlock .start) := by
    simp only [exec, execTxRequest, acceptTx, hrun, if_true]
    rfl
  refine ⟨hexec, fun hf hl ho hdd => ⟨_, hexec, ?_⟩⟩
  have hf' : ∀ x ∈ s.c.txcs, x.k ≠ s.c.txcNext := fun x hx => Nat.ne_of_lt (hf x hx)
  have hdd' : txDD (s.txStatus s.c.tdh) = false := by
    rw [txDD, hasBits, bne_eq_false_iff_eq]
    exact hdd
  calc turn (.txc s.c.txcNext) d 6 (calling s s.c.tlock .start)
    _ = turn (.txc s.c.txcNext) d 5 (calling s (some (.txc s.c.txcNext)) { pc := .a1, t0 := 0, p := 0 }) :=
      turn_calling hf' (by simp only [TxRun.start, txStep, acquireT, calling, hl]; rfl)
    _ = turn (.txc s.c.txcNext) d 4
        (calling s (some (.txc s.c.txcNext)) { pc := txNext s.c, t0 := s.c.tdt, p := 0 }) := by
      refine turn_calling hf' ?_
      have hd : ∀ q, txDD ((calling s (some (.txc s.c.txcNext)) q).txStatus s.c.tdh) = false := fun _ => hdd'
      simp only [txStep]
      rw [if_neg (by rw [Bool.not_eq_true]; exact hd _)]
      rfl
    _ = turn (.txc s.c.txcNext) d 3 (calling s (some (.txc s.c.txcNext)) { pc := .e2, t0 := s.c.tdt, p := 0 }) :=
      turn_calling_idle hf' ho
    _ = turn (.txc s.c.txcNext) d 2 (endTx (.txc s.c.txcNext) (calling s none { pc := .e2, t0 := s.c.tdt, p := 0 })) :=
      turn_go (agentStep_tx (txRunOf_calling hf'))
    _ = _ := by
      rw [endTx_calling hf', turn_blocked ?_, ← hl]
      simp only [agentStep, txcStep, txcFind_of_fresh hf']

/-! ## The descriptor rows and the NIC's completion (R148, R428) -/

/-- A legacy control word has bit 29 clear (R150). -/
theorem extractLsb'_one_eq_zero {w k : Nat} {v : BitVec w} : v.extractLsb' k 1 = 0#1 ↔ v.getLsbD k = false := by
  constructor
  · intro h
    simpa using congrArg (BitVec.getLsbD · 0) h
  · intro h
    ext i hi
    obtain rfl : i = 0 := by omega
    simpa using h

theorem txKind_eq_legacy_of_bit {w : Word} (h : w.getLsbD 29 = false) : txKind w = .legacy :=
  if_pos (extractLsb'_one_eq_zero.mpr h)

theorem txCtlRs_eq (w : Word) : txCtlRs w = w.getLsbD 27 := by
  rw [txCtlRs, show (0x08000000#32 : Word) = BitVec.twoPow 32 27 from rfl, BitVec.and_twoPow]
  cases w.getLsbD 27 <;> rfl

/-- The bits of a status word written back (R428), the reserved ones apart. -/
theorem getLsbD_txWriteBackStatus (old : Word) (ec lc tu : Bool) (rsv : BitVec 4) {j : Nat} (h : j < 4 ∨ 8 ≤ j) :
    (txWriteBackStatus old ec lc tu rsv).getLsbD j = if j = 0 then true else if j = 1 then ec else if j = 2 then lc
      else if j = 3 then tu else old.getLsbD j := by
  simp only [txWriteBackStatus, BitVec.getLsbD_append]
  rcases h with h | h
  · match j, h with
    | 0, _ => rfl
    | 1, _ | 2, _ | 3, _ => simp
  · obtain ⟨k, rfl⟩ := Nat.exists_eq_add_of_le h
    have hk : old.getLsbD (8 + k) = true → k < 24 := fun hb => by
      have := BitVec.lt_of_getLsbD hb
      omega
    simpa [show 8 + k ≠ 1 by omega, show 8 + k ≠ 2 by omega, show 8 + k ≠ 3 by omega] using hk

/-- Settles O33: one word of memory is written under the length contract, else a fault is recorded. -/
theorem txDescriptorRowsWriteOrRefuse : Obligations.TxDescriptorRowsWriteOrRefuse := by
  refine ⟨fun s len hw => ⟨fun h1 h2 => ?_, fun h => ?_⟩, fun s w => ⟨rfl, rfl, rfl, ?_⟩⟩
  · have hok : txLengthOk s.c.cfg (len.setWidth 32) = true := txLengthOk_iff.mpr ⟨by bv_omega, by
      rwa [BitVec.toNat_setWidth_of_le (by decide)]⟩
    refine ⟨s.setTxControl s.c.tdt (txControl len), ?_, ?_, fun x hx => ?_, rfl⟩
    · simp only [exec, execTxdescLegacy, hok, if_true]
    · rw [← txControl_eq]
      exact Mem.read32_write32 hw _ _
    · exact Mem.read8_write32_outside hw _ _ _ hx
  · have hok : ¬ txLengthOk s.c.cfg (len.setWidth 32) = true := fun k => by
      obtain ⟨h0, hl⟩ := txLengthOk_iff.mp k
      rcases h with rfl | h
      · exact h0 rfl
      · simp at hl; omega
    simp only [exec, execTxdescLegacy, if_neg hok]
    rfl
  · simp only [txKind, extractLsb'_one_eq_zero]

theorem txAllowed_iff {g : NicRegs} : txAllowed g = true ↔
    (g.tctl &&& 0x00000002#32 ≠ 0#32 ∧ g.ctrl &&& 0x04000000#32 = 0#32) ∧ g.hwTdh ≠ g.tdt := by
  simp [txAllowed, resetPending, hasBits, tctlEn, ctrlRst]

/-- Settles O34: the status word is the only memory written, and only under RS. -/
theorem txDescriptorIsCompleted : Obligations.TxDescriptorIsCompleted := by
  intro s ec lc tu rsv i ctl hw hen hrst hown hi hctl hleg
  subst hi
  obtain rfl : ctl = s.txControl s.c.regs.hwTdh := hctl
  have hgo : (txAllowed s.c.regs && txKind (s.txControl s.c.regs.hwTdh) == .legacy) = true := by
    rw [txAllowed_iff.mpr ⟨⟨hen, hrst⟩, hown⟩, txKind_eq_legacy_of_bit hleg]
    rfl
  refine ⟨nicTx s ec lc tu rsv, rfl, ?_⟩
  simp only [nicTx, hgo, if_true, txCtlRs_eq]
  cases (s.txControl s.c.regs.hwTdh).getLsbD 27
  · refine ⟨nofun, fun _ => rfl, fun _ _ => rfl, rfl⟩
  · refine ⟨fun _ => ⟨_, Mem.read32_write32 hw _ _, fun j => getLsbD_txWriteBackStatus _ _ _ _ _⟩, nofun,
      fun x hx => Mem.read8_write32_outside hw _ _ _ hx, rfl⟩

end Sys2Proof.Machine
end

section
/-!
SUPPORT. Receive completion (R424): the frame's bytes and the write-back in memory.
-/

namespace Sys2Proof.Machine

variable {m : List Host.Cell} {s : State}

/-! ## Bytes in a row -/

theorem Mem.read8_writeBytes_outside (hw : Mem.wf m = true) {a x : DWord} {bs : List Byte}
    (hx : bs.length ≤ (x - a).toNat) : Mem.read8 (Mem.writeBytes m a bs) x = Mem.read8 m x := by
  induction bs generalizing m a with
  | nil => rfl
  | cons b bs ih =>
    rw [List.length_cons] at hx
    have hne : x ≠ a := by bv_omega
    rw [Mem.writeBytes, ih (Mem.write8_wf _ _ hw) (by bv_omega), Mem.read8_write8 hw, if_neg hne]

theorem Mem.read8_writeBytes (hw : Mem.wf m = true) {a : DWord} {bs : List Byte} (hl : bs.length < 2 ^ 64) {k : Nat}
    (hk : k < bs.length) : Mem.read8 (Mem.writeBytes m a bs) (a + BitVec.ofNat 64 k) = bs[k] := by
  induction bs generalizing m a k with
  | nil => cases hk
  | cons b bs ih =>
    rw [List.length_cons] at hl hk
    rw [Mem.writeBytes]
    cases k with
    | zero =>
      rw [Mem.read8_writeBytes_outside (Mem.write8_wf _ _ hw) (by bv_omega), Mem.read8_write8 hw, if_pos (by simp)]
      rfl
    | succ k =>
      rw [show a + BitVec.ofNat 64 (k + 1) = a + 1#64 + BitVec.ofNat 64 k by rw [BitVec.ofNat_add]; bv_omega]
      exact ih (Mem.write8_wf _ _ hw) (by omega) (by omega)

/-! ## Accesses that do not meet -/

theorem Mem.read8_write8_of_ne (hw : Mem.wf m = true) {a x : DWord} (v : Byte) (h : x ≠ a) :
    Mem.read8 (Mem.write8 m a v) x = Mem.read8 m x := by rw [Mem.read8_write8 hw, if_neg h]

theorem Mem.read16_write8_disjoint (hw : Mem.wf m = true) {a x : DWord} (v : Byte) (h : x ≠ a) (h' : x + 1#64 ≠ a) :
    Mem.read16 (Mem.write8 m a v) x = Mem.read16 m x := by
  simp only [Mem.read16, Mem.read8_write8_of_ne hw v h, Mem.read8_write8_of_ne hw v h']

theorem Mem.read16_write16_disjoint (hw : Mem.wf m = true) {a x : DWord} (v : Half) (h : 2 ≤ (x - a).toNat)
    (h' : (x - a).toNat ≤ 2 ^ 64 - 2) : Mem.read16 (Mem.write16 m a v) x = Mem.read16 m x := by
  simp only [Mem.read16, Mem.read8_write16_outside hw _ _ v h,
    Mem.read8_write16_outside hw a (x + 1#64) v (by bv_omega)]

/-! ## The write-back of a receive descriptor -/

/-- Memory with bytes 8-15 of the receive descriptor at `i` written back. -/
def Mem.writeRd (m : List Host.Cell) (c : Ctlr) (i : Half) (len cs sp : Half) (er st : Byte) : List Host.Cell :=
  Mem.write8 (Mem.write8 (Mem.write16 (Mem.write16 (Mem.write16 m (rdAddr c i 8) len) (rdAddr c i 10) cs)
    (rdAddr c i 14) sp) (rdAddr c i 13) er) (rdAddr c i 12) st

/-- The fields of a receive descriptor behind its base address. -/
theorem rdAddr_fields (c : Ctlr) (i : Half) : rdAddr c i 10 = rdAddr c i 8 + 2#64 ∧ rdAddr c i 12 = rdAddr c i 8 + 4#64
    ∧ rdAddr c i 13 = rdAddr c i 8 + 5#64 ∧ rdAddr c i 14 = rdAddr c i 8 + 6#64 := by
  refine ⟨?_, ?_, ?_, ?_⟩ <;> rw [rdAddr_eq_add c i 8, rdAddr_eq_add] <;> bv_omega

section
variable (hw : Mem.wf m = true) (c : Ctlr) (i : Half) (len cs sp : Half) (er st : Byte)
include hw

theorem Mem.read_writeRd : Mem.read16 (Mem.writeRd m c i len cs sp er st) (rdAddr c i 8) = len
    ∧ Mem.read16 (Mem.writeRd m c i len cs sp er st) (rdAddr c i 10) = cs
    ∧ Mem.read8 (Mem.writeRd m c i len cs sp er st) (rdAddr c i 12) = st
    ∧ Mem.read8 (Mem.writeRd m c i len cs sp er st) (rdAddr c i 13) = er
    ∧ Mem.read16 (Mem.writeRd m c i len cs sp er st) (rdAddr c i 14) = sp := by
  obtain ⟨h10, h12, h13, h14⟩ := rdAddr_fields c i
  have w1 := Mem.write16_wf (rdAddr c i 8) len hw
  have w2 := Mem.write16_wf (rdAddr c i 8 + 2#64) cs w1
  have w3 := Mem.write16_wf (rdAddr c i 8 + 6#64) sp w2
  have w4 := Mem.write8_wf (rdAddr c i 8 + 5#64) er w3
  rw [Mem.writeRd, h10, h12, h13, h14]
  refine ⟨?_, ?_, ?_, ?_, ?_⟩
  · rw [Mem.read16_write8_disjoint w4, Mem.read16_write8_disjoint w3, Mem.read16_write16_disjoint w2,
      Mem.read16_write16_disjoint w1, Mem.read16_write16 hw] <;> bv_omega
  · rw [Mem.read16_write8_disjoint w4, Mem.read16_write8_disjoint w3, Mem.read16_write16_disjoint w2,
      Mem.read16_write16 w1] <;> bv_omega
  · rw [Mem.read8_write8 w4, if_pos rfl]
  · rw [Mem.read8_write8_of_ne w4 _ (by bv_omega), Mem.read8_write8 w3, if_pos rfl]
  · rw [Mem.read16_write8_disjoint w4, Mem.read16_write8_disjoint w3, Mem.read16_write16 w2] <;> bv_omega

theorem Mem.read8_writeRd_outside {x : DWord} (hx : 8 ≤ (x - rdAddr c i 8).toNat) :
    Mem.read8 (Mem.writeRd m c i len cs sp er st) x = Mem.read8 m x := by
  obtain ⟨h10, h12, h13, h14⟩ := rdAddr_fields c i
  have w1 := Mem.write16_wf (rdAddr c i 8) len hw
  have w2 := Mem.write16_wf (rdAddr c i 8 + 2#64) cs w1
  have w3 := Mem.write16_wf (rdAddr c i 8 + 6#64) sp w2
  have w4 := Mem.write8_wf (rdAddr c i 8 + 5#64) er w3
  rw [Mem.writeRd, h10, h12, h13, h14, Mem.read8_write8_of_ne w4, Mem.read8_write8_of_ne w3,
    Mem.read8_write16_outside w2, Mem.read8_write16_outside w1, Mem.read8_write16_outside hw] <;> bv_omega
end

/-! ## Completion -/

theorem rxAllowed_iff {g : NicRegs} : rxAllowed g = true ↔
    (g.rctl &&& 0x00000002#32 ≠ 0#32 ∧ g.ctrl &&& 0x04000000#32 = 0#32) ∧ g.hwRdh ≠ g.rdt := by
  simp [rxAllowed, resetPending, hasBits, rctlEn, ctrlRst]

/-- The memory a completion at `i` leaves. -/
def nicRxMem (s : State) (i : Half) (d : RxDesc) (data : List Byte) : List Host.Cell :=
  Mem.writeRd (Mem.writeBytes s.mem (rxBufAddr s i) (frameBytes s.tick data (rxByteCount s.pool d))) s.c i d.length
    d.checksum (s.c.cfg.regMap.toChip16 .rxSpecial d.special) (s.c.cfg.regMap.toChip8 .rxErrors d.errors)
    (s.c.cfg.regMap.toChip8 .rxStatus (rxWriteBackStatus d.status))

/-- The machine behind a completion (R424). -/
def nicRxDone (s : State) (d : RxDesc) (data : List Byte) : State :=
  { s with c := { s.c with regs := { s.c.regs with hwRdh := ringNext s.c.regs.hwRdh s.c.cfg.nrd } }
           mem := nicRxMem s s.c.regs.hwRdh d data, tick := s.tick + 1 }

theorem nicRxDone_mem (s : State) (d : RxDesc) (data : List Byte) :
    (nicRxDone s d data).mem = nicRxMem s s.c.regs.hwRdh d data := rfl

theorem nicRx_of_allowed (h : rxAllowed s.c.regs = true) (d : RxDesc) (data : List Byte) :
    nicRx s d data = nicRxDone s d data := by
  simp only [nicRx, h, if_true, nicRxDone, nicRxMem, Mem.writeRd, rxWriteBack, State.setRxStatus, State.setRxErrors,
    State.setRxSpecial, State.setRd8, State.setRd16, State.setMem, State.modRegs]
  rfl

theorem nicRx_of_not_allowed (h : ¬ rxAllowed s.c.regs = true) (d : RxDesc) (data : List Byte) :
    nicRx s d data = s := by
  simp only [nicRx, if_neg h]

theorem length_frameBytes (k : Nat) (data : List Byte) (n : Nat) : (frameBytes k data n).length = n := by
  simp [frameBytes]

theorem rxByteCount_lt (q : PoolParams) (d : RxDesc) : rxByteCount q d < 2 ^ 64 :=
  Nat.lt_of_le_of_lt (Nat.min_le_left _ _) (Nat.lt_trans d.length.isLt (by decide))

section
variable (hw : Mem.wf s.mem = true) (i : Half) (d : RxDesc) (data : List Byte)
include hw

theorem read_nicRxMem : Mem.read16 (nicRxMem s i d data) (rdAddr s.c i 8) = d.length
    ∧ Mem.read16 (nicRxMem s i d data) (rdAddr s.c i 10) = d.checksum
    ∧ Mem.read8 (nicRxMem s i d data) (rdAddr s.c i 12) = s.c.cfg.regMap.toChip8 .rxStatus (rxWriteBackStatus d.status)
    ∧ Mem.read8 (nicRxMem s i d data) (rdAddr s.c i 13) = s.c.cfg.regMap.toChip8 .rxErrors d.errors
    ∧ Mem.read16 (nicRxMem s i d data) (rdAddr s.c i 14) = s.c.cfg.regMap.toChip16 .rxSpecial d.special :=
  Mem.read_writeRd (Mem.writeBytes_wf _ _ hw) _ _ _ _ _ _ _

theorem read8_nicRxMem_outside {x : DWord} (hd : 8 ≤ (x - rdAddr s.c i 8).toNat)
    (hb : rxByteCount s.pool d ≤ (x - rxBufAddr s i).toNat) :
    Mem.read8 (nicRxMem s i d data) x = Mem.read8 s.mem x := by
  rw [nicRxMem, Mem.read8_writeRd_outside (Mem.writeBytes_wf _ _ hw) _ _ _ _ _ _ _ hd,
    Mem.read8_writeBytes_outside hw (by rwa [length_frameBytes])]

/-- The frame's bytes stand in the buffer where the descriptor does not lie. -/
theorem read8_nicRxMem_frame {k : Nat} (hk : k < data.length) (hn : k < rxByteCount s.pool d)
    (hd : 8 ≤ (rxBufAddr s i + BitVec.ofNat 64 k - rdAddr s.c i 8).toNat) :
    Mem.read8 (nicRxMem s i d data) (rxBufAddr s i + BitVec.ofNat 64 k) = data[k] := by
  rw [nicRxMem, Mem.read8_writeRd_outside (Mem.writeBytes_wf _ _ hw) _ _ _ _ _ _ _ hd,
    Mem.read8_writeBytes hw (by rw [length_frameBytes]; exact rxByteCount_lt _ _) (by rwa [length_frameBytes])]
  simp [frameBytes, hk]
end

/-- A status byte with DD set is written back as it is, but for its reserved bit (R142). -/
theorem rxWriteBackStatus_of_dd {st : Byte} (h : st &&& 0x01#8 ≠ 0#8) : rxWriteBackStatus st = st &&& 0xEF#8 := by
  have h0 : st.getLsbD 0 = true := by
    rw [show (0x01#8 : Byte) = BitVec.twoPow 8 0 from rfl, BitVec.and_twoPow] at h
    by_contra hc
    exact h (if_neg hc)
  have hst : st ||| 0x01#8 = st := by
    ext j hj
    cases j with
    | zero => simpa using h0
    | succ j => simp
  rw [rxWriteBackStatus, hst]

theorem rxDD_iff {st : Byte} : rxDD st = true ↔ st &&& 0x01#8 ≠ 0#8 := bne_iff_ne

theorem exec_rxdesc (d : RxDesc) (s : State) :
    exec (.rxdesc d) s = .next (if rxDD d.status then nicRx s d [] else s) := rfl

/-- Settles O32: both forms of a completion leave the memory `nicRxMem`; the rest is its reads. -/
theorem rxDescriptorIsWrittenBack : Obligations.RxDescriptorIsWrittenBack := by
  refine ⟨fun s d i buf hw hen hrst hown hdd hi hbuf => ?_, fun s d data i buf hw hen hrst hown hi hbuf => ?_,
    fun s d h => ?_⟩
  · subst hi hbuf
    have ht := exec_rxdesc d s
    rw [if_pos (rxDD_iff.mpr hdd), nicRx_of_allowed (rxAllowed_iff.mpr ⟨⟨hen, hrst⟩, hown⟩)] at ht
    obtain ⟨hlen, hcs, hst, her, hsp⟩ := read_nicRxMem hw s.c.regs.hwRdh d []
    rw [rxWriteBackStatus_of_dd hdd] at hst
    refine ⟨_, ht, ?_⟩
    simp only [nicRxDone_mem]
    exact ⟨hlen, hcs, hst, her, hsp, fun _ => read8_nicRxMem_outside hw _ d [], rfl⟩
  · subst hi hbuf
    obtain ⟨hlen, hcs, hst, her, hsp⟩ := read_nicRxMem hw s.c.regs.hwRdh d data
    refine ⟨_, nicRx_of_allowed (rxAllowed_iff.mpr ⟨⟨hen, hrst⟩, hown⟩) d data, ?_⟩
    simp only [nicRxDone_mem]
    exact ⟨fun k hk hn hd => read8_nicRxMem_frame hw _ d data hk hn hd, hlen, hcs, hst, her, hsp,
      fun _ => read8_nicRxMem_outside hw _ d data, rfl⟩
  · rw [exec_rxdesc]
    by_cases hdd : d.status &&& 0x01#8 = 0#8
    · rw [if_neg fun k => rxDD_iff.mp k hdd]
    · rw [if_pos (rxDD_iff.mpr hdd), nicRx_of_not_allowed]
      rw [rxAllowed_iff]
      rintro ⟨⟨hen, hrst⟩, hown⟩
      rcases h with h | h | h | h
      · exact hdd h
      · exact hen h
      · exact h hrst
      · exact hown h

end Sys2Proof.Machine
end

section
/-!
SUPPORT. The place of every buffer (R47): `placesOk` in the words of owners, and the one law of a buffer's move from its
owner's place to another's.
-/

namespace Sys2Proof.Machine

variable {s t u : State} {c : Ctlr} {b x : BufId} {o o' p : Owner}

/-! ## Owners and places -/

/-- The owner of a buffer, and its origin (R47, R300). -/
def State.owner? (s : State) (b : BufId) : Option Owner := (s.buf? b).map Buf.owner
def State.origin? (s : State) (b : BufId) : Option Origin := (s.buf? b).map Buf.origin

/-- The owner is a slot of the controller with identifier `k`. -/
def Owner.slotOf (k : Nat) : Owner → Prop
  | .rxSlot j _ | .txSlot j _ => j = k
  | .pool | .host => False

/-- What the slot that an owner names holds. -/
def Ctlr.slot (c : Ctlr) : Owner → Option BufId
  | .rxSlot _ i => c.rb.getD i.toNat none
  | .txSlot _ i => c.tb.getD i.toNat none
  | .pool | .host => none

theorem owner?_eq_some : s.owner? b = some o ↔ ∃ r, s.buf? b = some r ∧ r.owner = o := by
  simp [State.owner?, Option.map_eq_some_iff]

theorem origin?_eq_some {g : Origin} : s.origin? b = some g ↔ ∃ r, s.buf? b = some r ∧ r.origin = g := by
  simp [State.origin?, Option.map_eq_some_iff]

theorem buf?_of_owner? (h : s.owner? b = some o) : ∃ r, s.buf? b = some r ∧ r.owner = o := owner?_eq_some.mp h

/-- `placesOk` (R47), one clause a field. -/
structure Places (s : State) : Prop where
  nodup : s.free.Nodup
  pool : ∀ b, b ∈ s.free ↔ s.owner? b = some .pool
  slots : ∀ c ∈ s.ctlrs, ∀ p : Owner, p.slotOf c.id → ∀ b, c.slot p = some b ↔ s.owner? b = some p
  ctlr : ∀ b k p, s.owner? b = some p → p.slotOf k → ∃ c ∈ s.ctlrs, c.id = k
  queues : (s.ctlrs.flatMap Ctlr.oq).Nodup
  queued : ∀ c ∈ s.ctlrs, ∀ b ∈ c.oq, s.owner? b = some .host
  origins : ∀ b g, s.origin? b = some g → (g = .pool ↔ b < s.pool.npool)
  poolOnly : ∀ b o, s.owner? b = some o → (o = .pool ∨ ∃ k i, o = .rxSlot k i) → s.origin? b = some .pool
  known : ∀ b, b < s.pool.npool → (s.owner? b).isSome = true

theorem placesOk_iff : placesOk s ↔ Places s := by
  constructor
  · rintro ⟨hn, hp, hs, hc, hq, hh, ho, hr, hk⟩
    refine ⟨hn, fun b => (hp b).trans owner?_eq_some.symm, fun c hm p hpk b => ?_, fun b k p hb hpk => ?_, hq,
      fun c hm b hb => owner?_eq_some.mpr (hh c hm b hb), fun b g hg => ?_, fun b o hb hro => ?_, fun b hb => ?_⟩
    · cases p with
      | rxSlot j i => obtain rfl : j = c.id := hpk; exact (hs c hm i b).1.trans owner?_eq_some.symm
      | txSlot j i => obtain rfl : j = c.id := hpk; exact (hs c hm i b).2.trans owner?_eq_some.symm
      | pool | host => cases hpk
    · obtain ⟨r, hr, rfl⟩ := owner?_eq_some.mp hb
      cases ho' : r.owner with
      | rxSlot j i => rw [ho'] at hpk; obtain rfl : j = k := hpk; exact hc b r j i hr (.inl ho')
      | txSlot j i => rw [ho'] at hpk; obtain rfl : j = k := hpk; exact hc b r j i hr (.inr ho')
      | pool | host => rw [ho'] at hpk; cases hpk
    · obtain ⟨r, hr, rfl⟩ := origin?_eq_some.mp hg
      exact ho b r hr
    · obtain ⟨r, hbr, rfl⟩ := owner?_eq_some.mp hb
      exact origin?_eq_some.mpr ⟨r, hbr, hr b r hbr hro⟩
    · obtain ⟨r, hb⟩ := hk b hb
      rw [State.owner?, hb]; rfl
  · intro h
    refine ⟨h.nodup, fun b => (h.pool b).trans owner?_eq_some, fun c hm i b => ⟨?_, ?_⟩, fun b r k i hb ho => ?_, h.queues,
      fun c hm b hb => owner?_eq_some.mp (h.queued c hm b hb), fun b r hb => h.origins b _ (origin?_eq_some.mpr ⟨r, hb, rfl⟩),
      fun b r hb ho => ?_, fun b hb => ?_⟩
    · exact (h.slots c hm (.rxSlot c.id i) rfl b).trans owner?_eq_some
    · exact (h.slots c hm (.txSlot c.id i) rfl b).trans owner?_eq_some
    · rcases ho with ho | ho
      · exact h.ctlr b k _ (owner?_eq_some.mpr ⟨r, hb, ho⟩) rfl
      · exact h.ctlr b k _ (owner?_eq_some.mpr ⟨r, hb, ho⟩) rfl
    · obtain ⟨r', hb', e⟩ := origin?_eq_some.mp (h.poolOnly b _ (owner?_eq_some.mpr ⟨r, hb, rfl⟩) ho)
      rw [hb] at hb'; cases hb'; exact e
    · obtain ⟨o, ho⟩ := Option.isSome_iff_exists.mp (h.known b hb)
      exact (owner?_eq_some.mp ho).imp fun _ => And.left

/-! ## Updates of a record -/

theorem owner?_modBuf_setOwner (h : s.owner? b = some o) (x : BufId) :
    (s.modBuf b (Buf.setOwner o')).owner? x = if x = b then some o' else s.owner? x := by
  obtain ⟨r, hr, -⟩ := owner?_eq_some.mp h
  by_cases hx : x = b
  · subst hx
    rw [if_pos rfl, State.owner?, buf?_modBuf_same hr]; rfl
  · rw [if_neg hx, State.owner?, buf?_modBuf_of_ne hx]; rfl

/-- An update of a record that leaves a field alone leaves it alone everywhere. -/
theorem map_buf?_modBuf {α : Type} {f : Buf → Buf} (g : Buf → α) (hf : ∀ r, g (f r) = g r) (x : BufId) :
    ((s.modBuf b f).buf? x).map g = (s.buf? x).map g := by
  simp only [State.buf?, State.modBuf_bufs, bufGet_bufMod]
  split
  · rw [Option.map_map]; exact congrArg (Option.map · _) (funext hf)
  · rfl

/-! ## What leaves the rings and the buffers alone -/

/-- No slot and no index of a ring changes. -/
structure SameRings (c d : Ctlr) : Prop where
  cfg : d.cfg = c.cfg := by rfl
  rb : d.rb = c.rb := by rfl
  rdh : d.rdh = c.rdh := by rfl
  rdt : d.rdt = c.rdt := by rfl
  tb : d.tb = c.tb := by rfl
  tdh : d.tdh = c.tdh := by rfl
  tdt : d.tdt = c.tdt := by rfl

/-- No buffer changes its place: no slot, no outbound queue and no owner changes. -/
structure Still (s t : State) : Prop where
  others : t.others = s.others := by rfl
  pool : t.pool = s.pool := by rfl
  free : t.free = s.free := by rfl
  owner : ∀ x, t.owner? x = s.owner? x := by exact fun _ => rfl
  origin : ∀ x, t.origin? x = s.origin? x := by exact fun _ => rfl
  ident : t.c.id = s.c.id := by rfl
  rb : t.c.rb = s.c.rb := by rfl
  tb : t.c.tb = s.c.tb := by rfl
  oq : t.c.oq = s.c.oq := by rfl

namespace Still

theorem refl (s : State) : Still s s := {}

theorem trans (h : Still s t) (k : Still t u) : Still s u :=
  ⟨k.others.trans h.others, k.pool.trans h.pool, k.free.trans h.free, fun x => (k.owner x).trans (h.owner x),
    fun x => (k.origin x).trans (h.origin x), k.ident.trans h.ident, k.rb.trans h.rb, k.tb.trans h.tb, k.oq.trans h.oq⟩

/-- An update of a record that keeps owner and origin. -/
theorem modBuf {f : Buf → Buf} (ho : ∀ r, (f r).owner = r.owner) (hg : ∀ r, (f r).origin = r.origin) :
    Still s (s.modBuf b f) where
  owner := map_buf?_modBuf Buf.owner ho
  origin := map_buf?_modBuf Buf.origin hg

theorem slot (h : Still s t) (p : Owner) : t.c.slot p = s.c.slot p := by
  cases p <;> simp only [Ctlr.slot, h.rb, h.tb]

end Still

/-! ## The controllers beside the selected one -/

theorem mem_ctlrs : c ∈ s.ctlrs ↔ c = s.c ∨ c ∈ s.others := List.mem_cons

theorem selected_mem (s : State) : s.c ∈ s.ctlrs := List.mem_cons_self

theorem other_mem (h : c ∈ s.others) : c ∈ s.ctlrs := List.mem_cons_of_mem _ h

theorem idsOk.other_ne (h : idsOk s) (hc : c ∈ s.others) : c.id ≠ s.c.id := fun e =>
  (List.nodup_cons.mp h.1).1 (e ▸ List.mem_map_of_mem hc)

theorem slotOf_unique {k j : Nat} (h : p.slotOf k) (h' : p.slotOf j) : k = j := by
  cases p with
  | rxSlot | txSlot => exact h.symm.trans h'
  | pool | host => cases h

/-! ## A move -/

/-- Buffer `b` moves from the place of owner `o` to that of `o'`: the pool, a slot of the selected controller, or the
host's hands; it leaves every outbound queue it stood in. -/
structure Moved (b : BufId) (o o' : Owner) (s t : State) : Prop where
  others : t.others = s.others := by rfl
  params : t.pool = s.pool := by rfl
  ident : t.c.id = s.c.id := by rfl
  owner : ∀ x, t.owner? x = if x = b then some o' else s.owner? x
  origin : ∀ x, t.origin? x = s.origin? x
  nodup : t.free.Nodup
  free : ∀ x, x ∈ t.free ↔ if x = b then o' = .pool else x ∈ s.free
  slot : ∀ p, p.slotOf s.c.id → t.c.slot p = if p = o' then some b else if p = o then none else s.c.slot p
  oq : t.c.oq.Sublist s.c.oq

/-- A place the selected controller's agents may use. -/
def Owner.near (k : Nat) (o : Owner) : Prop := ∀ j, o.slotOf j → j = k

namespace Places

/-- A buffer in a slot or in the pool stands in no outbound queue (R47). -/
theorem not_queued (h : Places s) (hb : s.owner? b = some o) (ho : o ≠ .host) (hc : c ∈ s.ctlrs) : b ∉ c.oq :=
  fun k => ho (Option.some.inj (hb.symm.trans (h.queued c hc b k)))

theorem still (k : Still s t) (h : Places s) : Places t := by
  have hslot : ∀ c ∈ t.ctlrs, ∃ d ∈ s.ctlrs, d.id = c.id ∧ d.oq = c.oq ∧ ∀ p, c.slot p = d.slot p := by
    intro c hc
    rcases mem_ctlrs.mp hc with rfl | hc
    · exact ⟨s.c, selected_mem s, k.ident.symm, k.oq.symm, k.slot⟩
    · exact ⟨c, other_mem (k.others ▸ hc), rfl, rfl, fun _ => rfl⟩
  have hoq : t.ctlrs.flatMap Ctlr.oq = s.ctlrs.flatMap Ctlr.oq := by
    simp only [State.ctlrs, List.flatMap_cons, k.oq, k.others]
  refine ⟨k.free ▸ h.nodup, fun b => ?_, fun c hc p hp b => ?_, fun b j p hb hp => ?_, hoq ▸ h.queues,
    fun c hc b hb => ?_, fun b g hg => ?_, fun b o hb ho => ?_, fun b hb => ?_⟩
  · rw [k.free, k.owner]; exact h.pool b
  · obtain ⟨d, hd, hid, -, hs⟩ := hslot c hc
    rw [hs, k.owner]
    exact h.slots d hd p (hid ▸ hp) b
  · rw [k.owner] at hb
    obtain ⟨c, hc, hid⟩ := h.ctlr b j p hb hp
    rcases mem_ctlrs.mp hc with rfl | hc
    · exact ⟨t.c, selected_mem t, k.ident.trans hid⟩
    · exact ⟨c, other_mem (k.others.symm ▸ hc), hid⟩
  · obtain ⟨d, hd, -, hq, -⟩ := hslot c hc
    rw [k.owner]; exact h.queued d hd b (hq ▸ hb)
  · rw [k.origin] at hg; rw [k.pool]; exact h.origins b g hg
  · rw [k.owner] at hb; rw [k.origin]; exact h.poolOnly b o hb ho
  · rw [k.owner]; exact h.known b (k.pool ▸ hb)

/-- The law of a move (R47, R66, R67): it keeps every buffer in its one place when the buffer stood in no outbound queue
it does not leave, the slot it comes to is empty, and only pool buffers come to the pool or to a receive slot. -/
theorem moved (m : Moved b o o' s t) (h : Places s) (hid : idsOk s) (hb : s.owner? b = some o)
    (hfrom : o.near s.c.id) (hto : o'.near s.c.id) (hempty : s.c.slot o' = none)
    (hq : o = .host → b ∉ t.c.oq ∧ ∀ c ∈ s.others, b ∉ c.oq)
    (hg : (o' = .pool ∨ ∃ k i, o' = .rxSlot k i) → s.origin? b = some .pool) : Places t := by
  have hout : ∀ c ∈ t.ctlrs, b ∉ c.oq := by
    intro c hc hbc
    by_cases ho : o = .host
    · rcases mem_ctlrs.mp hc with rfl | hc
      · exact (hq ho).1 hbc
      · exact (hq ho).2 c (m.others ▸ hc) hbc
    · rcases mem_ctlrs.mp hc with rfl | hc
      · exact h.not_queued hb ho (selected_mem s) (m.oq.subset hbc)
      · exact h.not_queued hb ho (other_mem (m.others ▸ hc)) hbc
  refine ⟨m.nodup, fun x => ?_, fun c hc p hp x => ?_, fun x k p hx hp => ?_, ?_, fun c hc x hx => ?_, fun x g hx => ?_,
    fun x q hx ho => ?_, fun x hx => ?_⟩
  · rw [m.free, m.owner]
    split
    · exact Option.some_inj.symm
    · exact h.pool x
  · rw [m.owner]
    rcases mem_ctlrs.mp hc with rfl | hc
    · rw [m.ident] at hp
      have hold := h.slots s.c (selected_mem s) p hp
      rw [m.slot p hp]
      by_cases h1 : p = o'
      · subst h1
        by_cases hx : x = b
        · simp [hx]
        · rw [if_pos rfl, if_neg hx, ← hold x, hempty]
          simp [Ne.symm hx]
      · rw [if_neg h1]
        by_cases hx : x = b
        · subst hx
          rw [if_pos rfl]
          have : s.c.slot p = some x → p = o := fun k => (Option.some.inj (hb.symm.trans ((hold x).mp k))).symm
          split
          · simp [Ne.symm h1]
          · simp [Ne.symm h1, mt this ‹_›]
        · rw [if_neg hx]
          split
          · rename_i h2
            subst h2
            rw [← hold x, (hold b).mpr hb]
            simp [Ne.symm hx]
          · exact hold x
    · rw [m.others] at hc
      have hfar : ∀ q : Owner, q.near s.c.id → q ≠ p := by
        rintro q hq rfl
        exact hid.other_ne hc (hq c.id hp)
      rw [h.slots c (other_mem hc) p hp x]
      split
      · rename_i hx
        subst hx
        rw [hb]; simp [hfar o hfrom, hfar o' hto]
      · exact Iff.rfl
  · rw [m.owner] at hx
    split at hx
    · cases hx
      exact ⟨t.c, selected_mem t, m.ident.trans (hto k hp).symm⟩
    · obtain ⟨c, hc, hk⟩ := h.ctlr x k p hx hp
      rcases mem_ctlrs.mp hc with rfl | hc
      · exact ⟨t.c, selected_mem t, m.ident.trans hk⟩
      · exact ⟨c, other_mem (m.others ▸ hc), hk⟩
  · have hsub : (t.ctlrs.flatMap Ctlr.oq).Sublist (s.ctlrs.flatMap Ctlr.oq) := by
      simp only [State.ctlrs, List.flatMap_cons, m.others]
      exact m.oq.append (List.Sublist.refl _)
    exact h.queues.sublist hsub
  · rw [m.owner, if_neg (ne_of_mem_of_not_mem hx (hout c hc))]
    rcases mem_ctlrs.mp hc with rfl | hc
    · exact h.queued s.c (selected_mem s) x (m.oq.subset hx)
    · exact h.queued c (other_mem (m.others ▸ hc)) x hx
  · rw [m.origin] at hx; rw [m.params]; exact h.origins x g hx
  · rw [m.owner] at hx; rw [m.origin]
    split at hx
    · rename_i e
      cases hx
      exact e ▸ hg ho
    · exact h.poolOnly x q hx ho
  · rw [m.owner]
    split
    · rfl
    · exact h.known x (m.params ▸ hx)

end Places

end Sys2Proof.Machine
end

section
/-!
SUPPORT. The six ways a buffer moves (R222, R211, R214, R246, R251, R306), each by the law of a move.
-/

namespace Sys2Proof.Machine

variable {s t u : State} {c : Ctlr} {b : BufId} {p : Owner} {i : Half}

/-! ## One slot changed -/

theorem getD_set (xs : List (Option BufId)) (k j : Nat) (v : Option BufId) (h : v = none ∨ k < xs.length) :
    (xs.set k v).getD j none = if j = k then v else xs.getD j none := by
  rw [List.getD_eq_getElem?_getD, List.getD_eq_getElem?_getD, List.getElem?_set]
  by_cases hj : j = k
  · subst hj
    by_cases hl : j < xs.length
    · simp [hl]
    · rcases h with rfl | h
      · simp [hl]
      · exact absurd h hl
  · rw [if_neg (Ne.symm hj), if_neg hj]

theorem slot_set_rb {v : Option BufId} (h : v = none ∨ i.toNat < c.rb.length) (hp : p.slotOf c.id) :
    Ctlr.slot { c with rb := c.rb.set i.toNat v } p = if p = .rxSlot c.id i then v else c.slot p := by
  cases p with
  | rxSlot k j =>
    obtain rfl : k = c.id := hp
    simp only [Ctlr.slot, getD_set _ _ _ _ h, BitVec.toNat_inj, Owner.rxSlot.injEq, true_and]
  | txSlot | pool | host => rfl

theorem slot_set_tb {v : Option BufId} (h : v = none ∨ i.toNat < c.tb.length) (hp : p.slotOf c.id) :
    Ctlr.slot { c with tb := c.tb.set i.toNat v } p = if p = .txSlot c.id i then v else c.slot p := by
  cases p with
  | txSlot k j =>
    obtain rfl : k = c.id := hp
    simp only [Ctlr.slot, getD_set _ _ _ _ h, BitVec.toNat_inj, Owner.txSlot.injEq, true_and]
  | rxSlot | pool | host => rfl

/-! ## Places the selected controller may use -/

theorem near_pool (k : Nat) : Owner.pool.near k := nofun
theorem near_host (k : Nat) : Owner.host.near k := nofun
theorem near_rxSlot (k : Nat) (i : Half) : (Owner.rxSlot k i).near k := fun _ h => h.symm
theorem near_txSlot (k : Nat) (i : Half) : (Owner.txSlot k i).near k := fun _ h => h.symm

theorem slot_ne_of_slotOf {k : Nat} (hp : p.slotOf k) : p ≠ .pool ∧ p ≠ .host := by
  cases p with
  | rxSlot | txSlot => exact ⟨nofun, nofun⟩
  | pool | host => cases hp

namespace Places

variable (h : Places s) (hid : idsOk s)
include h

/-- The buffer in a slot of the selected controller has the slot as its owner. -/
theorem owner_of_rb (hb : s.c.rb.getD i.toNat none = some b) : s.owner? b = some (.rxSlot s.c.id i) :=
  (h.slots s.c (selected_mem s) (.rxSlot s.c.id i) rfl b).mp hb

theorem owner_of_tb (hb : s.c.tb.getD i.toNat none = some b) : s.owner? b = some (.txSlot s.c.id i) :=
  (h.slots s.c (selected_mem s) (.txSlot s.c.id i) rfl b).mp hb

theorem not_mem_free {o : Owner} (hb : s.owner? b = some o) (ho : o ≠ .pool) : b ∉ s.free := fun k =>
  ho (Option.some.inj (hb.symm.trans ((h.pool b).mp k)))

include hid

/-- A pop into a receive slot that holds none (line R3, R222). -/
theorem popInto {d : Nat} (hp : poolPop s d (.rxSlot s.c.id i) = some (b, u)) (hi : i.toNat < s.c.rb.length)
    (he : s.c.rb.getD i.toNat none = none) :
    Places (u.modC fun c => { c with rb := c.rb.set i.toNat (some b) }) := by
  have hget : s.free[d % s.free.length]? = some b := by
    unfold poolPop at hp
    split at hp
    · cases hp
    · rename_i x hx; cases hp; exact hx
  obtain ⟨hmem, rfl⟩ := poolPop_some hp
  have hb : s.owner? b = some .pool := (h.pool b).mp hmem
  obtain ⟨hlt, hgetE⟩ := List.getElem?_eq_some_iff.mp hget
  refine h.moved (b := b) (o := .pool) (o' := .rxSlot s.c.id i) ?_ hid hb (near_pool _) (near_rxSlot _ _) he nofun
    fun _ => h.poolOnly b _ hb (.inl rfl)
  exact {
    owner := owner?_modBuf_setOwner (s := s) hb
    origin := map_buf?_modBuf (s := s) Buf.origin fun _ => rfl
    nodup := h.nodup.sublist (List.eraseIdx_sublist _ _)
    free := fun x => by
      change x ∈ s.free.eraseIdx _ ↔ _
      rw [← h.nodup.erase_getElem _ hlt, hgetE, h.nodup.mem_erase_iff]
      by_cases hx : x = b <;> simp [hx]
    slot := fun p hp => by
      rw [if_neg (slot_ne_of_slotOf hp).1]
      exact slot_set_rb (.inr hi) hp
    oq := .refl _ }

/-- A slot of the selected controller is emptied, `u` being the state with it cleared, and its buffer goes to the host
(R211, R305). -/
theorem handOver {o : Owner} (ho : s.owner? b = some o) (hpo : o ≠ .pool) (hho : o ≠ .host) (hnear : o.near s.c.id)
    (hu : u = { s with c := { s.c with rb := u.c.rb, tb := u.c.tb } })
    (hs : ∀ p, p.slotOf s.c.id → u.c.slot p = if p = o then none else s.c.slot p) :
    Places (u.modBuf b (Buf.setOwner .host)) := by
  have hown : ∀ x, u.owner? x = s.owner? x := fun x => by rw [hu]; rfl
  refine h.moved (b := b) (o' := .host) ?_ hid ho hnear (near_host _) rfl (absurd · hho)
    (by rintro (e | ⟨k, j, e⟩) <;> cases e)
  exact {
    others := by rw [State.modBuf_others, hu]
    params := by rw [State.modBuf_pool, hu]
    ident := by rw [State.modBuf_c, hu]
    owner := fun x => (owner?_modBuf_setOwner (s := u) ((hown b).trans ho) x).trans (by rw [hown])
    origin := fun x => (map_buf?_modBuf (f := Buf.setOwner .host) Buf.origin (fun _ => rfl) x).trans (by rw [hu]; rfl)
    nodup := by rw [State.modBuf_free, hu]; exact h.nodup
    free := fun x => by
      rw [State.modBuf_free, hu]
      by_cases hx : x = b
      · simp [hx, h.not_mem_free ho hpo]
      · simp [hx]
    slot := fun p hp => by
      rw [if_neg (slot_ne_of_slotOf hp).2]
      exact hs p hp
    oq := by rw [State.modBuf_c, hu] }

/-- A buffer of a receive slot goes to the host (line D5, R211). -/
theorem deliver (hb : s.c.rb.getD i.toNat none = some b) :
    Places ((s.modC fun c => { c with rb := c.rb.set i.toNat none }).modBuf b (Buf.setOwner .host)) :=
  h.handOver hid (h.owner_of_rb hb) nofun nofun (near_rxSlot _ _) rfl fun _ hp => slot_set_rb (.inl rfl) hp

/-- A push to the pool, `u` being the state with the buffer's slot cleared: from a slot of the selected controller, or
from the host's hands (R302, R305, R306). -/
theorem push {o : Owner} (ho : s.owner? b = some o) (hpo : o ≠ .pool) (hnear : o.near s.c.id)
    (hg : s.origin? b = some .pool) (hu : u = { s with c := { s.c with rb := u.c.rb, tb := u.c.tb } })
    (hs : ∀ p, p.slotOf s.c.id → u.c.slot p = if p = o then none else s.c.slot p)
    (hq : o = .host → ∀ c ∈ s.ctlrs, b ∉ c.oq) : Places (poolPush u b) := by
  have hown : ∀ x, u.owner? x = s.owner? x := fun x => by rw [hu]; rfl
  have hfree : u.free = s.free := by rw [hu]
  have hnot := h.not_mem_free ho hpo
  refine h.moved (b := b) (o' := .pool) ?_ hid ho hnear (near_pool _) rfl ?_ fun _ => hg
  · exact {
      others := by rw [poolPush_others, hu]
      params := by rw [poolPush_pool, hu]
      ident := by rw [poolPush_c, hu]
      owner := fun x => (owner?_modBuf_setOwner (s := u) ((hown b).trans ho) x).trans (by rw [hown])
      origin := fun x => (map_buf?_modBuf (s := u) (f := Buf.setOwner .pool) Buf.origin (fun _ => rfl) x).trans
        (by rw [hu]; rfl)
      nodup := by rw [poolPush_free, hfree]; exact List.nodup_cons.mpr ⟨hnot, h.nodup⟩
      free := fun x => by
        rw [poolPush_free, hfree]
        by_cases hx : x = b <;> simp [hx]
      slot := fun p hp => by
        rw [if_neg (slot_ne_of_slotOf hp).1]
        exact hs p hp
      oq := by rw [poolPush_c, hu] }
  · intro e
    refine ⟨?_, fun c hc => hq e c (other_mem hc)⟩
    rw [poolPush_c, hu]
    exact hq e s.c (selected_mem s)

/-- A buffer of a receive slot goes back to the pool (line D8 and line I6; R214, R200). -/
theorem discard (hb : s.c.rb.getD i.toNat none = some b) :
    Places (poolPush (s.modC fun c => { c with rb := c.rb.set i.toNat none }) b) :=
  have ho := h.owner_of_rb hb
  h.push hid ho nofun (near_rxSlot _ _) (h.poolOnly b _ ho (.inr ⟨_, _, rfl⟩)) rfl
    (fun _ hp => slot_set_rb (.inl rfl) hp) nofun

/-- A buffer the host holds and has not queued goes back to the pool (BUF_FREE, R306). -/
theorem giveBack (ho : s.owner? b = some .host) (hn : b < s.pool.npool) (hq : ∀ c ∈ s.ctlrs, b ∉ c.oq) :
    Places (poolPush s b) := by
  obtain ⟨r, hr, -⟩ := owner?_eq_some.mp ho
  have hg : s.origin? b = some r.origin := origin?_eq_some.mpr ⟨r, hr, rfl⟩
  rw [(h.origins b _ hg).mpr hn] at hg
  refine h.push hid ho nofun (near_host _) hg rfl (fun p hp => ?_) fun _ => hq
  rw [if_neg (slot_ne_of_slotOf hp).2]

/-- A transmit slot's buffer is released to its origin (line A3, R246, R305). -/
theorem release (hb : s.c.tb.getD i.toNat none = some b) :
    Places (releaseBuf (s.modC fun c => { c with tb := c.tb.set i.toNat none }) b) := by
  have ho := h.owner_of_tb hb
  obtain ⟨r, hr, -⟩ := owner?_eq_some.mp ho
  have hr' : (s.modC fun c => { c with tb := c.tb.set i.toNat none }).buf? b = some r := hr
  cases hg : r.origin with
  | pool =>
    simp only [releaseBuf, hr', hg]
    exact h.push hid ho nofun (near_txSlot _ _) (origin?_eq_some.mpr ⟨r, hr, hg⟩) rfl
      (fun _ hp => slot_set_tb (.inl rfl) hp) nofun
  | host =>
    simp only [releaseBuf, hr', hg]
    exact h.handOver hid ho nofun nofun (near_txSlot _ _) rfl fun _ hp => slot_set_tb (.inl rfl) hp

/-- The packet at the queue's front goes into a transmit slot that holds none (line B2, R251). -/
theorem refill {q : List BufId} (hq : s.c.oq = b :: q) (hi : i.toNat < s.c.tb.length)
    (he : s.c.tb.getD i.toNat none = none) :
    Places ((s.modC fun c => { c with oq := q, tb := c.tb.set i.toNat (some b) }).modBuf b
      (Buf.setOwner (.txSlot s.c.id i))) := by
  have ho : s.owner? b = some .host := h.queued s.c (selected_mem s) b (hq ▸ List.mem_cons_self)
  have hn : (b :: (q ++ s.others.flatMap Ctlr.oq)).Nodup := by
    have := h.queues
    rwa [State.ctlrs, List.flatMap_cons, hq, List.cons_append] at this
  have hout := (List.nodup_cons.mp hn).1
  refine h.moved (b := b) (o' := .txSlot s.c.id i) ?_ hid ho (near_host _) (near_txSlot _ _) he
    (fun _ => ⟨fun k => hout (List.mem_append_left _ k), fun c hc k => hout ?_⟩)
    (by rintro (e | ⟨k, j, e⟩) <;> cases e)
  · exact {
      owner := owner?_modBuf_setOwner (s := s) ho
      origin := map_buf?_modBuf (s := s) Buf.origin fun _ => rfl
      nodup := h.nodup
      free := fun x => by
        by_cases hx : x = b
        · simp [hx, h.not_mem_free ho nofun]
        · simp [hx]
      slot := fun p hp => by
        rw [if_neg (slot_ne_of_slotOf hp).2]
        exact slot_set_tb (.inr hi) hp
      oq := by rw [hq]; exact List.sublist_cons_self _ _ }
  · exact List.mem_append_right _ (List.mem_flatMap.mpr ⟨c, hc, k⟩)

end Places

end Sys2Proof.Machine
end

section
/-!
SUPPORT. The slot invariant in its two halves, the receive ring's and the transmit ring's, and what of it an agent inside
TX_ROUTINE has at its line (R12, R66, R67, R246-R251).
-/

namespace Sys2Proof.Machine

variable {s t : State} {c d : Ctlr} {a : AgentId} {b : BufId} {q r : TxRun} {p : TxPc}

/-! ## Distances on a ring (R12) -/

theorem ringSizeOk_pow {n : Nat} (h : ringSizeOk n = true) : ∃ k, k ≤ 16 ∧ n = 2 ^ k := by
  simp only [ringSizeOk, List.contains_iff_mem, List.mem_cons, List.not_mem_nil, or_false] at h
  rcases h with rfl | rfl | rfl | rfl | rfl | rfl | rfl | rfl | rfl | rfl | rfl | rfl | rfl | rfl
  exacts [⟨3, by decide⟩, ⟨4, by decide⟩, ⟨5, by decide⟩, ⟨6, by decide⟩, ⟨7, by decide⟩, ⟨8, by decide⟩,
    ⟨9, by decide⟩, ⟨10, by decide⟩, ⟨11, by decide⟩, ⟨12, by decide⟩, ⟨13, by decide⟩, ⟨14, by decide⟩,
    ⟨15, by decide⟩, ⟨16, by decide⟩]

theorem ringSizeOk_le {n : Nat} (h : ringSizeOk n = true) : n ≤ 65536 := by
  obtain ⟨k, hk, rfl⟩ := ringSizeOk_pow h
  exact Nat.pow_le_pow_right (by decide) hk

/-- The mask of a ring is the remainder by its size. -/
theorem toNat_and_ringMask {n : Nat} (h : ringSizeOk n = true) (x : Half) :
    (x &&& BitVec.ofNat 16 (n - 1)).toNat = x.toNat % n := by
  have hle := ringSizeOk_le h
  obtain ⟨k, -, rfl⟩ := ringSizeOk_pow h
  rw [BitVec.toNat_and, BitVec.toNat_ofNat, Nat.mod_eq_of_lt (by have := Nat.two_pow_pos k; omega),
    Nat.and_two_pow_sub_one_eq_mod]

theorem toNat_ringNext {n : Nat} (h : ringSizeOk n = true) {i : Half} (hi : i.toNat < n) :
    (ringNext i n).toNat = if i.toNat + 1 = n then 0 else i.toNat + 1 := by
  have hle := ringSizeOk_le h
  have hdvd : n ∣ 65536 := by obtain ⟨k, hk, rfl⟩ := ringSizeOk_pow h; exact Nat.pow_dvd_pow 2 hk
  rw [ringNext, toNat_and_ringMask h, BitVec.toNat_add, BitVec.toNat_ofNat, Nat.mod_mod_of_dvd _ hdvd]
  split
  · rename_i e; rw [e]; exact Nat.mod_self n
  · exact Nat.mod_eq_of_lt (by omega)

theorem toNat_ringDist {n : Nat} (h : ringSizeOk n = true) {i j : Half} (hi : i.toNat < n) (hj : j.toNat < n) :
    (ringDist i j n).toNat = if i.toNat ≤ j.toNat then j.toNat - i.toNat else j.toNat + n - i.toNat := by
  have hdvd : n ∣ 65536 := by obtain ⟨k, hk, rfl⟩ := ringSizeOk_pow h; exact Nat.pow_dvd_pow 2 hk
  rw [ringDist, toNat_and_ringMask h, BitVec.toNat_sub, Nat.mod_mod_of_dvd _ hdvd]
  obtain ⟨m, hm⟩ := hdvd
  obtain ⟨m, rfl⟩ : ∃ k, m = k + 1 := ⟨m - 1, by cases m <;> omega⟩
  rw [Nat.mul_add, Nat.mul_one] at hm
  split
  · rw [show 2 ^ 16 - i.toNat + j.toNat = (j.toNat - i.toNat + n) + n * m by omega, Nat.add_mul_mod_self_left,
      Nat.add_mod_right, Nat.mod_eq_of_lt (by omega)]
  · rw [show 2 ^ 16 - i.toNat + j.toNat = (j.toNat + n - i.toNat) + n * m by omega, Nat.add_mul_mod_self_left,
      Nat.mod_eq_of_lt (by omega)]

section
variable {n : Nat} {i h e : Half} (hn : ringSizeOk n = true) (hi : i.toNat < n) (hh : h.toNat < n) (he : e.toNat < n)
include hn hi hh he

/-- A slot in hardware's range but the first stays in it when the head advances. -/
theorem inRange_ringNext_head (hne : i ≠ h) (hlt : ringDist h i n < ringDist h e n) :
    ringDist (ringNext h n) i n < ringDist (ringNext h n) e n := by
  have hne' : i.toNat ≠ h.toNat := fun k => hne (BitVec.eq_of_toNat_eq k)
  have hpos := ringNext_lt hn h
  rw [BitVec.lt_def, toNat_ringDist hn hh hi, toNat_ringDist hn hh he] at hlt
  rw [BitVec.lt_def, toNat_ringDist hn hpos hi, toNat_ringDist hn hpos he, toNat_ringNext hn hh]
  split at hlt <;> split at hlt <;> split <;> split <;> split <;> omega

/-- The range up to the tail, and the tail's slot, lie before the next tail where that is not the head. -/
theorem inRange_ringNext_tail (hne : ringNext e n ≠ h) (hlt : ringDist h i n < ringDist h e n ∨ i = e) :
    ringDist h i n < ringDist h (ringNext e n) n := by
  have hne' : (ringNext e n).toNat ≠ h.toNat := fun k => hne (BitVec.eq_of_toNat_eq k)
  have hle : (ringDist h i n).toNat ≤ (ringDist h e n).toNat := by
    rcases hlt with k | rfl
    · exact Nat.le_of_lt (BitVec.lt_def.mp k)
    · exact Nat.le_refl _
  have hpos := ringNext_lt hn e
  rw [toNat_ringNext hn he] at hne'
  rw [toNat_ringDist hn hh hi, toNat_ringDist hn hh he] at hle
  rw [BitVec.lt_def, toNat_ringDist hn hh hi, toNat_ringDist hn hh hpos, toNat_ringNext hn he]
  split at hle <;> split at hle <;> split at hne' <;> split <;> split <;> omega

end

/-! ## The two halves -/

/-- The receive ring's half of `slotsOk`. -/
def rxSlotsOk (c : Ctlr) : Prop :=
  (c.rxw.ctl.holdsHead = true → c.rb.getD c.rdh.toNat none = some c.rxw.b)
    ∧ ∀ x : RepCaller, x.line c = some .r3 → c.rb.getD c.rdt.toNat none = none

/-- The transmit ring's half. -/
def txSlotsOk (c : Ctlr) : Prop :=
  (c.lc = .poweredUnknown ∨ c.lcCtl.attachLine = true → ∀ i : Half, c.tb.getD i.toNat none = none)
    ∧ (∀ a q, txRunOf c a = some q → q.pc = .a4 → c.tb.getD c.tdh.toNat none = none)
    ∧ (∀ a q, txRunOf c a = some q → q.pc.fills = true → ringNext c.tdt c.cfg.ntd ≠ c.tdh)
    ∧ ∀ (i : Half) (b : BufId), c.tb.getD i.toNat none = some b →
        ringDist c.tdh i c.cfg.ntd < ringDist c.tdh c.tdt c.cfg.ntd
          ∨ (i = c.tdt ∧ ∃ a q, txRunOf c a = some q ∧ q.pc.filled = true)

theorem slotsOk_iff : slotsOk c ↔ rxSlotsOk c ∧ txSlotsOk c := by
  simp only [slotsOk, rxSlotsOk, txSlotsOk, and_assoc]

theorem slotsOk.rx (h : slotsOk c) : rxSlotsOk c := (slotsOk_iff.mp h).1
theorem slotsOk.tx (h : slotsOk c) : txSlotsOk c := (slotsOk_iff.mp h).2

/-- Before the transmit ring is initialised no slot of it holds a buffer. -/
theorem txSlotsOk.empty (h : txSlotsOk c) (hl : c.lc = .poweredUnknown ∨ c.lcCtl.attachLine = true) (i : Half) :
    c.tb.getD i.toNat none = none := h.1 hl i

/-- Nobody takes a buffer in hand, comes to a fill or gets to a line that says more of its slot. -/
theorem rxSlotsOk.mono (h : rxSlotsOk c) (k : SameRings c d)
    (hh : d.rxw.ctl.holdsHead = true → c.rxw.ctl.holdsHead = true ∧ d.rxw.b = c.rxw.b)
    (hl : ∀ x : RepCaller, x.line d = some .r3 → x.line c = some .r3) : rxSlotsOk d := by
  refine ⟨fun e => ?_, fun x e => ?_⟩
  · obtain ⟨e, hb⟩ := hh e
    rw [k.rb, k.rdh, hb]; exact h.1 e
  · rw [k.rb, k.rdt]; exact h.2 x (hl x e)

/-- A run of TX_ROUTINE may begin, and one that fills no slot may end. -/
theorem txSlotsOk.mono (h : txSlotsOk c) (k : SameRings c d)
    (hl : d.lc = .poweredUnknown ∨ d.lcCtl.attachLine = true → c.lc = .poweredUnknown ∨ c.lcCtl.attachLine = true)
    (hr : ∀ a q, txRunOf d a = some q → txRunOf c a = some q ∨ q.pc = .x0)
    (hf : ∀ a q, txRunOf c a = some q → q.pc.filled = true → txRunOf d a = some q) : txSlotsOk d := by
  obtain ⟨h3, h4, h5, h6⟩ := h
  refine ⟨fun e => ?_, fun a q e hq => ?_, fun a q e hq => ?_, fun i b e => ?_⟩
  · rw [k.tb]; exact h3 (hl e)
  · rw [k.tb, k.tdh]
    rcases hr a q e with e | e
    · exact h4 a q e hq
    · rw [e] at hq; cases hq
  · rw [k.tdt, k.tdh, k.cfg]
    rcases hr a q e with e | e
    · exact h5 a q e hq
    · rw [e] at hq; cases hq
  · rw [k.tb] at e
    rw [k.tdt, k.tdh, k.cfg]
    exact (h6 i b e).imp_right fun ⟨hi, a, q, hq, hp⟩ => ⟨hi, a, q, hf a q hq hp, hp⟩

/-- The agents that move buffers stand where they stood, and the worker's locals stay. -/
structure SameLines (c d : Ctlr) : Prop where
  lc : d.lc = c.lc := by rfl
  lcCtl : d.lcCtl = c.lcCtl := by rfl
  rxw : d.rxw = c.rxw := by rfl
  txw : d.txw = c.txw := by rfl
  txcs : d.txcs = c.txcs := by rfl

theorem SameLines.txRunOf (l : SameLines c d) (a : AgentId) : txRunOf d a = txRunOf c a := by
  cases a <;> simp only [Machine.txRunOf, l.txw, l.txcs]

theorem SameLines.line (l : SameLines c d) (x : RepCaller) : x.line d = x.line c := by
  cases x <;> simp only [RepCaller.line, l.rxw, l.lcCtl]

theorem slotsOk.same (h : slotsOk c) (k : SameRings c d) (l : SameLines c d) : slotsOk d :=
  slotsOk_iff.mpr ⟨h.rx.mono k (fun e => ⟨l.rxw ▸ e, by rw [l.rxw]⟩) fun x e => l.line x ▸ e,
    h.tx.mono k (fun e => by rwa [l.lc, l.lcCtl] at e) (fun a q e => .inl (l.txRunOf a ▸ e))
      fun a q e _ => (l.txRunOf a).trans e⟩

/-- With no run and no buffer the transmit half holds. -/
theorem txSlotsOk.of_empty (hb : ∀ i : Half, c.tb.getD i.toNat none = none) (hr : ∀ a, txRunOf c a = none) :
    txSlotsOk c := by
  refine ⟨fun _ => hb, fun a q e => ?_, fun a q e => ?_, fun i b e => ?_⟩
  · rw [hr] at e; cases e
  · rw [hr] at e; cases e
  · rw [hb] at e; cases e

theorem txRunOf_of_notStarted (h : notStarted c) (a : AgentId) : txRunOf c a = none := by
  obtain ⟨-, hw, -, ht⟩ := h
  cases a with
  | txw => simp only [txRunOf, hw]
  | txc k => simp only [txRunOf, ht, txcFind]
  | disp | rxw | lnk | lc => rfl

/-! ## One agent inside the routine -/

/-- What the transmit half says to the agent inside TX_ROUTINE at line `p`, no other being past line X0. -/
structure TxLine (c : Ctlr) (p : TxPc) : Prop where
  head : p = .a4 → c.tb.getD c.tdh.toNat none = none
  room : p.fills = true → ringNext c.tdt c.cfg.ntd ≠ c.tdh
  held : ∀ (i : Half) (b : BufId), c.tb.getD i.toNat none = some b →
    ringDist c.tdh i c.cfg.ntd < ringDist c.tdh c.tdt c.cfg.ntd ∨ (i = c.tdt ∧ p.filled = true)

theorem inTlock_of_run (h : txRunOf c a = some q) : inTlock c a = q.pc.holdsT := by
  cases a with
  | txw => cases hc : c.txw <;> simp only [txRunOf, hc] at h <;> cases h; simp only [inTlock, hc]
  | txc k => exact inTlock_txc h
  | disp | rxw | lnk | lc => cases h

/-- `tlock` keeps all but one agent at line X0 (R96, R256). -/
theorem locksOk.alone (h : locksOk c) (hr : txRunOf c a = some r) (hx : r.pc = .x0 → c.tlock = none) {e : AgentId}
    (he : e ≠ a) (hq : txRunOf c e = some q) : q.pc = .x0 := by
  by_contra hne
  have hin : ∀ {g : AgentId} {y : TxRun}, txRunOf c g = some y → y.pc ≠ .x0 → c.tlock = some g := by
    intro g y hy hp
    refine h.2 g ?_
    rw [inTlock_of_run hy]
    cases hc : y.pc with
    | x0 => exact absurd hc hp
    | _ => rfl
  have hl := hin hq hne
  by_cases h0 : r.pc = .x0
  · rw [hx h0] at hl; cases hl
  · rw [hin hr h0] at hl; exact he (Option.some.inj hl).symm

theorem txSlotsOk.line (h : txSlotsOk c) (hl : locksOk c) (hr : txRunOf c a = some r) (hx : r.pc = .x0 → c.tlock = none) :
    TxLine c r.pc := by
  obtain ⟨-, h4, h5, h6⟩ := h
  refine ⟨h4 a r hr, h5 a r hr, fun i b e => (h6 i b e).imp_right fun ⟨hi, g, y, hg, hy⟩ => ⟨hi, ?_⟩⟩
  by_cases hga : g = a
  · subst hga; rw [hr] at hg; cases hg; exact hy
  · rw [hl.alone hr hx hga hg] at hy; cases hy

/-- The converse: agent `a` at line `p`, or behind the routine, and all others at line X0. -/
theorem TxLine.slots (h : TxLine c p) (hx : ∀ e q, e ≠ a → txRunOf c e = some q → q.pc = .x0)
    (ha : ∀ q, txRunOf c a = some q → q.pc = p) (hf : p.filled = true → (txRunOf c a).isSome = true)
    (hl : ¬ (c.lc = .poweredUnknown ∨ c.lcCtl.attachLine = true)) : txSlotsOk c := by
  have hat : ∀ e q, txRunOf c e = some q → q.pc = .x0 ∨ q.pc = p := fun e q k => by
    by_cases he : e = a
    · subst he; exact .inr (ha q k)
    · exact .inl (hx e q he k)
  refine ⟨fun e => absurd e hl, fun e q k hq => ?_, fun e q k hq => ?_, fun i b e => ?_⟩
  · rcases hat e q k with e | e <;> rw [e] at hq
    · cases hq
    · exact h.head hq
  · rcases hat e q k with e | e <;> rw [e] at hq
    · cases hq
    · exact h.room hq
  · refine (h.held i b e).imp_right fun ⟨hi, hp⟩ => ⟨hi, a, ?_⟩
    obtain ⟨q, hq⟩ := Option.isSome_iff_exists.mp (hf hp)
    exact ⟨q, hq, by rw [ha q hq]; exact hp⟩

namespace TxLine

variable {p' : TxPc}

/-- From a line that fills no slot to one that relies on none. -/
theorem out (h : TxLine c p) (hp : p.filled = false) (h4 : p' ≠ .a4) (hf : p'.fills = false) : TxLine c p' := by
  refine ⟨fun e => absurd e h4, fun e => ?_, fun i b e => ?_⟩
  · rw [hf] at e; cases e
  · exact (h.held i b e).imp_right fun ⟨_, k⟩ => by rw [hp] at k; cases k

/-- Line B1's free test: the slot at the tail is filled only if the next is not the head. -/
theorem next (h : TxLine c p) (hp : p.filled = false) : TxLine c (txNext c) := by
  unfold txNext
  split
  · exact h.out hp nofun rfl
  · rename_i hne
    exact ⟨nofun, fun _ => hne, fun i b e => (h.held i b e).imp_right fun ⟨_, k⟩ => by rw [hp] at k; cases k⟩

/-- From line to line while the slot at the tail is filled. -/
theorem filling (h : TxLine c p) (hp : p.fills = true) (hf : p'.filled = true) : TxLine c p' :=
  ⟨fun e => (by rw [e] at hf; cases hf), fun _ => h.room hp,
    fun i b e => (h.held i b e).imp_right fun ⟨i, _⟩ => ⟨i, hf⟩⟩

/-- Line A3: the slot at the head holds no buffer any more. -/
theorem cleared (h : TxLine c .a3) : TxLine { c with tb := c.tb.set c.tdh.toNat none } .a4 := by
  refine ⟨fun _ => ?_, nofun, fun i b e => ?_⟩
  · rw [getD_set _ _ _ _ (.inl rfl), if_pos rfl]
  · rw [getD_set _ _ _ _ (.inl rfl)] at e
    split at e
    · cases e
    · exact (h.held i b e).imp_right fun ⟨_, k⟩ => by cases k

theorem underrun (h : TxLine c .a3) (he : c.tb.getD c.tdh.toNat none = none) : TxLine c .a4 :=
  ⟨fun _ => he, nofun, fun i b e => (h.held i b e).imp_right fun ⟨_, k⟩ => by cases k⟩

theorem lt_of_held (hi : indexOk c) {i : Half} (e : c.tb.getD i.toNat none = some b) : i.toNat < c.cfg.ntd := by
  obtain ⟨-, -, -, -, -, -, -, hl⟩ := hi
  by_contra hge
  rw [List.getD_eq_default _ _ (by omega)] at e
  cases e

/-- Line A4: the head advances. -/
theorem advanceHead (h : TxLine c .a4) (hi : indexOk c) : TxLine { c with tdh := ringNext c.tdh c.cfg.ntd } .a1 := by
  obtain ⟨-, hn, -, -, hh, ht, -, -⟩ := id hi
  refine ⟨nofun, nofun, fun i b e => .inl ?_⟩
  have hne : i ≠ c.tdh := by rintro rfl; rw [h.head rfl] at e; cases e
  have hlt := (h.held i b e).resolve_right fun ⟨_, k⟩ => by cases k
  exact inRange_ringNext_head hn (lt_of_held hi e) hh ht hne hlt

/-- At line B2 the slot at the tail holds no buffer. -/
theorem tail_empty (h : TxLine c p) (hp : p.filled = false) : c.tb.getD c.tdt.toNat none = none := by
  cases e : c.tb.getD c.tdt.toNat none with
  | none => rfl
  | some b =>
    rcases h.held c.tdt b e with k | ⟨-, k⟩
    · exact absurd k (BitVec.lt_irrefl _)
    · rw [hp] at k; cases k

/-- Line B2: the packet is recorded in the slot at the tail. -/
theorem fill (h : TxLine c .b2) (hi : indexOk c) : TxLine { c with tb := c.tb.set c.tdt.toNat (some b) } .b4 := by
  obtain ⟨-, -, -, -, -, ht, -, hl⟩ := hi
  refine ⟨nofun, fun _ => h.room rfl, fun i x e => ?_⟩
  by_cases hit : i = c.tdt
  · exact .inr ⟨hit, rfl⟩
  · rw [getD_set _ _ _ _ (.inr (by omega)), if_neg (mt BitVec.eq_of_toNat_eq hit)] at e
    exact .inl ((h.held i x e).resolve_right fun ⟨k, _⟩ => hit k)

/-- Line B7: the tail advances. -/
theorem advanceTail (h : TxLine c .b7) (hi : indexOk c) :
    TxLine { c with tdt := ringNext c.tdt c.cfg.ntd } .a1 := by
  obtain ⟨-, hn, -, -, hh, ht, -, -⟩ := id hi
  refine ⟨nofun, nofun, fun i b e => .inl ?_⟩
  exact inRange_ringNext_tail hn (lt_of_held hi e) hh ht (h.room rfl) ((h.held i b e).imp_right And.left)

end TxLine

end Sys2Proof.Machine
end

section
/-!
SUPPORT. Places and slots over the steps of the agents (R47, R66, R67): most lines leave rings and buffers alone, the
others are the moves of a buffer and of an index.
-/

namespace Sys2Proof.Machine

variable {s t u v : State} {a : AgentId}

/-! ## Lines beside the rings -/

/-- Rings, buffers and the lines of the agents that move them stay; the mask, the flags, `mlock`, the registers, the
trace, the causes the worker took and the link monitor's state may change. -/
structure Beside (s u : State) : Prop where
  c : u.c = { s.c with
    im := u.c.im, rim := u.c.rim, lim := u.c.lim, tsig := u.c.tsig, mlock := u.c.mlock, regs := u.c.regs
    dev := u.c.dev, trace := u.c.trace, lnk := u.c.lnk, linkUp := u.c.linkUp, speedIdx := u.c.speedIdx
    speedHist := u.c.speedHist, rxw := { s.c.rxw with cause := u.c.rxw.cause } } := by rfl
  others : u.others = s.others := by rfl
  pool : u.pool = s.pool := by rfl
  bufs : u.bufs = s.bufs := by rfl
  free : u.free = s.free := by rfl

namespace Beside

theorem refl (s : State) : Beside s s := {}

theorem trans (h : Beside s u) (k : Beside u v) : Beside s v where
  c := by rw [k.c, h.c]
  others := k.others.trans h.others
  pool := k.pool.trans h.pool
  bufs := k.bufs.trans h.bufs
  free := k.free.trans h.free

theorem lnkJump (s : State) (x : LnkCtl) : Beside s (Machine.lnkJump x s) := {}

theorem still (h : Beside s u) : Still s u where
  others := h.others
  pool := h.pool
  free := h.free
  owner x := by rw [State.owner?, State.buf?, h.bufs]; rfl
  origin x := by rw [State.origin?, State.buf?, h.bufs]; rfl
  ident := by rw [h.c]
  rb := by rw [h.c]
  tb := by rw [h.c]
  oq := by rw [h.c]

theorem slots (h : Beside s u) (hs : slotsOk s.c) : slotsOk u.c := by
  rw [h.c]
  exact hs

end Beside

theorem armStep_beside {cls : Word} {p : ArmPc} {jump : ArmPc → State → State} {done : State → State}
    (h : armStep s a cls p jump done = .go t) : ∃ u, Beside s u ∧ (t = done u ∨ ∃ q, t = jump q u) := by
  rcases armStep_go h with ⟨-, -, rfl⟩ | ⟨-, rfl⟩ | ⟨-, rfl⟩ | ⟨-, rfl⟩
  · exact ⟨_, {}, .inr ⟨_, rfl⟩⟩
  · exact ⟨_, {}, .inr ⟨_, rfl⟩⟩
  · exact ⟨_, {}, .inr ⟨_, rfl⟩⟩
  · exact ⟨_, {}, .inl rfl⟩

theorem wakeStep_beside {p : WakePc} {take : State → State} {jump : WakePc → State → State} {done : State → State}
    (ht : Beside s (take s)) (h : wakeStep s a p take jump done = .go t) :
    ∃ u, Beside s u ∧ (t = done u ∨ ∃ q, t = jump q u) := by
  rcases wakeStep_go h with ⟨-, -, rfl⟩ | ⟨-, rfl⟩ | ⟨-, rfl⟩
  · exact ⟨_, {}, .inr ⟨_, rfl⟩⟩
  · exact ⟨_, ht, .inr ⟨_, rfl⟩⟩
  · exact ⟨_, {}, .inl rfl⟩

theorem hsStep_beside {r : Reg} {req : Word} {err cpl : Word → Bool} {p : HsPc} {jump : HsPc → State → State}
    {done : Bool → Word → State → State} (h : hsStep s r req err cpl p jump done = .go t) :
    ∃ u, Beside s u ∧ ((∃ ok w, t = done ok w u) ∨ ∃ q, t = jump q u) := by
  rcases hsStep_go h with ⟨-, rfl⟩ | ⟨i, -, rfl | ⟨-, -, rfl⟩ | rfl⟩ | ⟨i, -, rfl⟩
  · exact ⟨_, {}, .inr ⟨_, rfl⟩⟩
  · exact ⟨_, {}, .inl ⟨_, _, rfl⟩⟩
  · exact ⟨_, {}, .inl ⟨_, _, rfl⟩⟩
  · exact ⟨_, {}, .inr ⟨_, rfl⟩⟩
  · exact ⟨s, {}, .inr ⟨_, rfl⟩⟩

/-- Every buffer is in its place, and the selected controller's slots are as its agents rely on. -/
structure BufOk (s : State) : Prop where
  places : Places s
  slots : slotsOk s.c

theorem BufOk.beside (h : BufOk s) (k : Beside s u) : BufOk u := ⟨h.places.still k.still, k.slots h.slots⟩

/-! ## The dispatcher and the link monitor -/

theorem Still.mmioRead (s : State) (r : Reg) : Still s (Machine.mmioRead s r).2 := {}

theorem Still.mmioWrite (s : State) (r : Reg) (x : Word) : Still s (Machine.mmioWrite s r x) := {}

theorem Still.setDisp (s : State) (f : Disp → Disp) : Still s (Machine.setDisp s f) := {}

theorem dispRead_still (s : State) : Still s (dispRead s) := by
  unfold dispRead
  exact (Still.mmioRead s .icr).trans (.setDisp _ _)

theorem dispStep_still (h : dispStep s = .go t) : Still s t := by
  cases hc : s.c.disp.ctl <;> simp only [dispStep, hc] at h
  case idle =>
    split at h <;> cases h
    unfold takeInterrupt
    split <;> exact {}
  case q1 => obtain ⟨-, rfl⟩ := acquireM_go h; exact {}
  all_goals obtain rfl := StepRes.go.inj h
  case q3 => exact (Still.setDisp _ _).trans (dispRead_still _)
  case l1 => exact dispRead_still s
  case q2 | x2 => exact (Still.mmioWrite _ _ _).trans (.setDisp _ _)
  all_goals exact {}

theorem dispStep_bufOk (h : dispStep s = .go t) (hs : BufOk s) : BufOk t :=
  ⟨hs.places.still (dispStep_still h), by rw [(dispStep_frame h).1]; exact hs.slots⟩

theorem lnkStep_beside (h : lnkStep s = .go t) : Beside s t := by
  have jumped : ∀ {u : State}, Beside s u → ∀ x, Beside s (lnkJump x u) := fun k x => k.trans (.lnkJump _ x)
  cases hc : s.c.lnk <;> simp only [lnkStep, hc] at h
  case notStarted => cases h
  case l1 p => obtain ⟨u, k, ⟨_, _, rfl⟩ | ⟨_, rfl⟩⟩ := hsStep_beside h <;> exact jumped k _
  case l5a => obtain ⟨-, rfl⟩ := acquireM_go h; exact jumped {} _
  case l6 p => obtain ⟨u, k, rfl | ⟨_, rfl⟩⟩ := armStep_beside h <;> exact jumped k _
  case l7 => split at h <;> cases h; exact jumped {} _
  case l8 p => obtain ⟨u, k, rfl | ⟨_, rfl⟩⟩ := wakeStep_beside {} h <;> exact jumped k _
  all_goals obtain rfl := StepRes.go.inj h
  case l3 => exact {}
  all_goals
    refine jumped ?_ _
    exact {}

/-! ## REPLENISH -/

theorem repNext_eq_r9 (c : Ctlr) : repNext c = .r9 ↔ ringNext c.rdt c.cfg.nrd = c.rdh := by
  unfold repNext
  by_cases h : ringNext c.rdt c.cfg.nrd = c.rdh
  · simp [h]
  · rw [if_neg h]
    split <;> simp [h]

/-- Where the loop goes on, the slot at `rdt` decides. -/
theorem repNext_of_ne {c : Ctlr} (h : ringNext c.rdt c.cfg.nrd ≠ c.rdh) :
    repNext c = if (c.rb.getD c.rdt.toNat none).isSome then .r2 else .r3 := if_neg h

theorem repNext_eq_r2 (c : Ctlr) :
    repNext c = .r2 ↔ ringNext c.rdt c.cfg.nrd ≠ c.rdh ∧ ∃ b, c.rb.getD c.rdt.toNat none = some b := by
  by_cases h : ringNext c.rdt c.cfg.nrd = c.rdh
  · simp [(repNext_eq_r9 c).mpr h, h]
  · rw [repNext_of_ne h]
    cases c.rb.getD c.rdt.toNat none <;> simp [h]

theorem repNext_eq_r3 (c : Ctlr) :
    repNext c = .r3 ↔ ringNext c.rdt c.cfg.nrd ≠ c.rdh ∧ c.rb.getD c.rdt.toNat none = none := by
  by_cases h : ringNext c.rdt c.cfg.nrd = c.rdh
  · simp [(repNext_eq_r9 c).mpr h, h]
  · rw [repNext_of_ne h]
    cases c.rb.getD c.rdt.toNat none <;> simp [h]

theorem repNext_r3 {c : Ctlr} (h : repNext c = .r3) : c.rb.getD c.rdt.toNat none = none := ((repNext_eq_r3 c).mp h).2

/-- A line of the receive ring but for the agent's jump: every buffer is in its place, and of the controller the receive
ring's slots and indices change, the fault record and what `Beside` lets change. -/
structure RxWork (s u : State) : Prop where
  places : Places u
  c : u.c = { s.c with
    rb := u.c.rb, rdh := u.c.rdh, rdt := u.c.rdt, rdfree := u.c.rdfree, fault := u.c.fault
    im := u.c.im, rim := u.c.rim, lim := u.c.lim, tsig := u.c.tsig, mlock := u.c.mlock, regs := u.c.regs
    dev := u.c.dev, trace := u.c.trace, lnk := u.c.lnk, linkUp := u.c.linkUp, speedIdx := u.c.speedIdx
    speedHist := u.c.speedHist, rxw := { s.c.rxw with cause := u.c.rxw.cause } } := by rfl

theorem RxWork.beside (hp : Places s) (k : Beside s u) : RxWork s u := ⟨hp.still k.still, by rw [k.c]⟩

/-- A step of REPLENISH leads to a line that finds the slot at the tail as it relies on it, or behind the routine. -/
theorem repStep_work {p : RepPc} {draw : Nat} {jump : RepPc → State → State} {done : State → State}
    (h : repStep s p draw jump done = .go t) (hp : Places s) (hid : idsOk s) (hi : indexOk s.c)
    (he : p = .r3 → s.c.rb.getD s.c.rdt.toNat none = none) :
    ∃ u, RxWork s u ∧ (t = done u ∨ ∃ q, t = jump q u ∧ (q = .r3 → u.c.rb.getD u.c.rdt.toNat none = none)) := by
  obtain ⟨-, -, -, ht, -, -, hl, -⟩ := hi
  have at_line : ∀ {u : State} {q : RepPc}, RxWork s u → (q = .r3 → u.c.rb.getD u.c.rdt.toNat none = none) →
      ∃ v, RxWork s v ∧ (jump q u = done v ∨ ∃ q', jump q u = jump q' v
        ∧ (q' = .r3 → v.c.rb.getD v.c.rdt.toNat none = none)) := fun k hq => ⟨_, k, .inr ⟨_, rfl, hq⟩⟩
  rcases repStep_go h with ⟨-, rfl⟩ | ⟨-, -, rfl⟩ | ⟨rfl, b, u, hpop, rfl⟩ | ⟨-, rfl⟩ | ⟨b, -, rfl⟩ | ⟨b, r, -, -, rfl⟩ |
    ⟨b, r, -, -, rfl⟩ | ⟨b, u, -, rfl, rfl⟩ | ⟨-, rfl⟩
  · exact at_line ⟨hp.still {}, rfl⟩ nofun
  · exact at_line ⟨hp.still {}, rfl⟩ nofun
  · have hput := hp.popInto hid hpop (hl ▸ ht) (he rfl)
    obtain ⟨-, rfl⟩ := poolPop_some hpop
    exact at_line ⟨hput, rfl⟩ nofun
  · exact at_line ⟨hp.still {}, rfl⟩ nofun
  · exact at_line ⟨hp.still (.modBuf (fun _ => rfl) fun _ => rfl), rfl⟩ nofun
  · exact at_line ⟨hp.still {}, rfl⟩ nofun
  · exact at_line ⟨hp.still {}, rfl⟩ nofun
  · exact at_line ⟨hp.still {}, rfl⟩ repNext_r3
  · exact ⟨mmioWrite s _ _, ⟨hp.still {}, rfl⟩, .inl rfl⟩

/-! ## The receive worker -/

/-- What the receive half says to the worker alone, `RX_INIT` not being at line R3. -/
theorem rxSlotsOk_of_worker {c : Ctlr} (hi : c.lcCtl ≠ .i10 .r3)
    (hh : c.rxw.ctl.holdsHead = true → c.rb.getD c.rdh.toNat none = some c.rxw.b)
    (hl : c.rxw.ctl = .s8 .r3 ∨ c.rxw.ctl = .p1 .r3 → c.rb.getD c.rdt.toNat none = none) : rxSlotsOk c := by
  refine ⟨hh, fun x e => ?_⟩
  cases x with
  | harvest => cases hc : c.rxw.ctl <;> simp only [RepCaller.line, hc] at e <;> cases e; exact hl (.inl hc)
  | retry => cases hc : c.rxw.ctl <;> simp only [RepCaller.line, hc] at e <;> cases e; exact hl (.inr hc)
  | init => cases hc : c.lcCtl <;> simp only [RepCaller.line, hc] at e <;> cases e; exact absurd hc hi

/-- After the scan, and after a harvest, the worker holds no buffer, and at line R3 it finds the slot at the tail empty. -/
theorem rxwAfterScan_line (c : Ctlr) : (rxwAfterScan c).holdsHead = false
    ∧ (rxwAfterScan c = .s8 .r3 ∨ rxwAfterScan c = .p1 .r3 → c.rb.getD c.rdt.toNat none = none) := by
  unfold rxwAfterScan
  split
  · exact ⟨rfl, fun e => repNext_r3 (by simpa using e)⟩
  · exact ⟨rfl, nofun⟩

theorem rxwAfterHarvest_line (c : Ctlr) : (rxwAfterHarvest c).holdsHead = false
    ∧ (rxwAfterHarvest c = .s8 .r3 ∨ rxwAfterHarvest c = .p1 .r3 → c.rb.getD c.rdt.toNat none = none) := by
  unfold rxwAfterHarvest
  split
  · exact ⟨rfl, fun e => repNext_r3 (by simpa using e)⟩
  · exact ⟨rfl, nofun⟩

/-- The worker jumps: at a line of DELIVER or DISCARD it has the buffer of the slot at the head in hand, at line R3 it
finds the slot at the tail empty. -/
theorem RxWork.jump {f : RxWorker → RxWorker} (k : RxWork s u) (ht : txSlotsOk s.c) (hi : s.c.lcCtl ≠ .i10 .r3)
    (hh : (f u.c.rxw).ctl.holdsHead = true → u.c.rb.getD u.c.rdh.toNat none = some (f u.c.rxw).b)
    (hl : (f u.c.rxw).ctl = .s8 .r3 ∨ (f u.c.rxw).ctl = .p1 .r3 → u.c.rb.getD u.c.rdt.toNat none = none) :
    BufOk (setRxw u f) := by
  refine ⟨k.places.still {}, slotsOk_iff.mpr ⟨rxSlotsOk_of_worker ?_ hh hl, ?_⟩⟩
  · rw [setRxw_c, k.c]; exact hi
  · rw [setRxw_c, k.c]; exact ht

/-- The lines of DELIVER and DISCARD keep the slot at the head (R211, R214) until its buffer leaves it. -/
theorem rxwStep_bufOk {d : Nat} (h : rxwStep s d = .go t) (hid : idsOk s) (hx : indexOk s.c)
    (hi : s.c.lcCtl ≠ .i10 .r3) (hs : BufOk s) : BufOk t := by
  obtain ⟨hp, hslots⟩ := hs
  obtain ⟨⟨hhead, hfill⟩, ht⟩ := slotsOk_iff.mp hslots
  have beside : ∀ {u : State} {x : RxCtl}, Beside s u → x.holdsHead = false → x ≠ .s8 .r3 → x ≠ .p1 .r3 →
      BufOk (rxwJump x u) := fun k h0 h1 h2 =>
    (RxWork.beside hp k).jump ht hi (fun e => by rw [h0] at e; cases e) fun e => (e.elim h1 h2).elim
  cases hc : s.c.rxw.ctl <;> simp only [rxwStep, hc] at h
  case w1 p => obtain ⟨u, k, rfl | ⟨q, rfl⟩⟩ := armStep_beside h <;> exact beside k rfl nofun nofun
  case w2 => split at h <;> cases h; exact beside (.refl s) rfl nofun nofun
  case w3 p =>
    obtain ⟨u, k, rfl | ⟨q, rfl⟩⟩ := wakeStep_beside {} h
    · exact (RxWork.beside hp k).jump ht hi nofun nofun
    · exact beside k rfl nofun nofun
  case s1 =>
    split at h <;> cases h
    · exact (RxWork.beside hp (.refl s)).jump ht hi nofun nofun
    · obtain ⟨hout, hrep⟩ := rxwAfterScan_line s.c
      exact (RxWork.beside hp (.refl s)).jump ht hi (fun e => by rw [hout] at e; cases e) hrep
  case s3 =>
    split at h <;> cases h
    · unfold rxwRaise
      exact RxWork.jump (s := s) ⟨hp.still {}, rfl⟩ ht hi nofun nofun
    · rename_i b hb
      exact (RxWork.beside hp (.refl s)).jump ht hi (fun _ => hb) (by split <;> nofun)
  case d1 => cases h; exact (RxWork.beside hp (.refl s)).jump ht hi (fun _ => hhead (by rw [hc]; rfl)) nofun
  case d2 =>
    split at h
    · cases h
    · split at h <;> cases h
      · unfold rxwRaise
        exact RxWork.jump (s := s) ⟨hp.still {}, rfl⟩ ht hi (fun _ => hhead (by rw [hc]; rfl)) nofun
      · exact RxWork.jump (s := s) ⟨hp.still (.modBuf (fun _ => rfl) fun _ => rfl), rfl⟩ ht hi
          (fun _ => hhead (by rw [hc]; rfl)) (by split <;> nofun)
  case d4 =>
    cases h
    exact RxWork.jump (s := s) ⟨hp.still (.modBuf (fun _ => rfl) fun _ => rfl), rfl⟩ ht hi
      (fun _ => hhead (by rw [hc]; rfl)) nofun
  case d5 =>
    cases h
    exact RxWork.jump (s := s) ⟨(hp.deliver hid (hhead (by rw [hc]; rfl))).still {}, rfl⟩ ht hi nofun nofun
  case discard =>
    cases h
    exact RxWork.jump (s := s) ⟨(hp.discard hid (hhead (by rw [hc]; rfl))).still {}, rfl⟩ ht hi nofun nofun
  case s6 => cases h; exact RxWork.jump (s := s) ⟨hp.still {}, rfl⟩ ht hi nofun nofun
  case s7 =>
    obtain rfl := StepRes.go.inj h
    obtain ⟨hout, hrep⟩ := rxwAfterHarvest_line ((s.setRd8 s.c.rdh offErrors 0#8).modC fun c =>
      { c with rdfree := c.rdfree - 1#16, rdh := ringNext c.rdh c.cfg.nrd }).c
    exact RxWork.jump (s := s) ⟨hp.still {}, rfl⟩ ht hi (fun e => by rw [hout] at e; cases e) hrep
  case s8 p =>
    obtain ⟨u, k, rfl | ⟨q, rfl, hq⟩⟩ := repStep_work h hp hid hx fun e => hfill .harvest (by simp [RepCaller.line, hc, e])
    · exact k.jump ht hi nofun nofun
    · exact k.jump ht hi nofun fun e => hq (by rcases e with e | e <;> cases e; rfl)
  case p1 p =>
    obtain ⟨u, k, rfl | ⟨q, rfl, hq⟩⟩ := repStep_work h hp hid hx fun e => hfill .retry (by simp [RepCaller.line, hc, e])
    · exact k.jump ht hi nofun nofun
    · exact k.jump ht hi nofun fun e => hq (by rcases e with e | e <;> cases e; rfl)
  all_goals cases h

end Sys2Proof.Machine
end

section
/-!
SUPPORT. Places and slots over the steps of the agents inside TX_ROUTINE (R241-R256).
-/

namespace Sys2Proof.Machine

variable {s t u : State} {a e : AgentId} {q r : TxRun}

/-- A line of TX_ROUTINE but for the agent's jump: every buffer is in its place, and of the controller the transmit ring's
slots and indices, the outbound queue and `tlock` change, the fault record and what `Beside` lets change. -/
structure TxWork (s u : State) : Prop where
  places : Places u
  c : u.c = { s.c with
    tb := u.c.tb, tdh := u.c.tdh, tdt := u.c.tdt, oq := u.c.oq, tlock := u.c.tlock, fault := u.c.fault
    im := u.c.im, rim := u.c.rim, lim := u.c.lim, tsig := u.c.tsig, mlock := u.c.mlock, regs := u.c.regs
    dev := u.c.dev, trace := u.c.trace, lnk := u.c.lnk, linkUp := u.c.linkUp, speedIdx := u.c.speedIdx
    speedHist := u.c.speedHist, rxw := { s.c.rxw with cause := u.c.rxw.cause } } := by rfl

theorem TxWork.beside (hp : Places s) (k : Beside s u) : TxWork s u := ⟨hp.still k.still, by rw [k.c]⟩

/-- A line of the transmit half is not touched beside the ring. -/
theorem TxLine.beside {p : TxPc} (h : TxLine s.c p) (k : Beside s u) : TxLine u.c p := by
  rw [k.c]
  exact ⟨h.head, h.room, h.held⟩

theorem txTail_out (c : Ctlr) (r : TxRun) : txTail c r ≠ .a4 ∧ (txTail c r).fills = false := by
  unfold txTail
  split <;> exact ⟨nofun, rfl⟩

/-- Line A3 (R246): the slot at the head holds no buffer any more. -/
theorem txReclaim_work (hp : Places s) (hid : idsOk s) (hl : TxLine s.c .a3) :
    TxWork s (txReclaim s) ∧ TxLine (txReclaim s).c .a4 := by
  unfold txReclaim
  split
  · rename_i b hb
    have hrel := hp.release hid hb
    have hc : (releaseBuf (s.modC fun c => { c with tb := c.tb.set c.tdh.toNat none }) b).c
        = { s.c with tb := s.c.tb.set s.c.tdh.toNat none } := by
      rcases releaseBuf_cases (s.modC fun c => { c with tb := c.tb.set c.tdh.toNat none }) b with k | k | k <;> rw [k] <;>
        rfl
    have hcl := hl.cleared
    refine ⟨⟨hrel.still {}, ?_⟩, ?_⟩
    · rw [releaseTx, State.emit_c, hc]
    · rw [releaseTx, State.emit_c, hc]
      exact ⟨hcl.head, hcl.room, hcl.held⟩
  · rename_i hn
    have hu := hl.underrun hn
    exact ⟨⟨hp.still {}, rfl⟩, hu.head, hu.room, hu.held⟩

/-- A step of TX_ROUTINE leads to a line with what the transmit half says there, or behind the routine. -/
theorem txStep_work {jump : TxRun → State → State} {done : State → State} (h : txStep s a r jump done = .go t)
    (hp : Places s) (hid : idsOk s) (hx : indexOk s.c) (hl : TxLine s.c r.pc) :
    ∃ u, TxWork s u ∧ ((t = done u ∧ TxLine u.c .x0) ∨ ∃ q, t = jump q u ∧ TxLine u.c q.pc) := by
  have at_line : ∀ {u : State} {q : TxRun}, TxWork s u → TxLine u.c q.pc →
      ∃ v, TxWork s v ∧ ((jump q u = done v ∧ TxLine v.c .x0) ∨ ∃ q', jump q u = jump q' v ∧ TxLine v.c q'.pc) :=
    fun k hq => ⟨_, k, .inr ⟨_, rfl, hq⟩⟩
  have stay : ∀ {q : TxRun}, TxLine s.c q.pc →
      ∃ v, TxWork s v ∧ ((jump q s = done v ∧ TxLine v.c .x0) ∨ ∃ q', jump q s = jump q' v ∧ TxLine v.c q'.pc) :=
    at_line ⟨hp, rfl⟩
  obtain ⟨-, -, -, -, -, htdt, -, hlen⟩ := id hx
  cases hc : r.pc <;> simp only [txStep, hc] at h <;> rw [hc] at hl
  case x0 =>
    obtain ⟨-, rfl⟩ := acquireT_go h
    have := hl.out (p' := .a1) rfl nofun rfl
    exact at_line ⟨hp.still {}, rfl⟩ ⟨this.head, this.room, this.held⟩
  case a1 =>
    split at h <;> cases h
    · exact stay (hl.out rfl nofun rfl)
    · exact stay (hl.next rfl)
  case a3 =>
    cases h
    obtain ⟨hw, hq⟩ := txReclaim_work hp hid hl
    exact at_line hw hq
  case a4 =>
    cases h
    have := hl.advanceHead hx
    exact at_line ⟨hp.still {}, rfl⟩ ⟨this.head, this.room, this.held⟩
  case b2 =>
    split at h
    · cases h; exact stay (hl.out rfl (txTail_out s.c r).1 (txTail_out s.c r).2)
    · rename_i b q hq
      cases h
      have := hl.fill (b := b) hx
      exact at_line ⟨hp.refill hid hq (hlen ▸ htdt) (hl.tail_empty rfl), rfl⟩ ⟨this.head, this.room, this.held⟩
  case b4 =>
    have k := hl.filling (p' := .b5) rfl rfl
    have k' := hl.filling (p' := .haltB3) rfl rfl
    split at h
    · cases h
    · split at h <;> cases h
      · exact at_line ⟨hp.still {}, rfl⟩ ⟨k.head, k.room, k.held⟩
      · exact at_line ⟨hp.still {}, rfl⟩ ⟨k'.head, k'.room, k'.held⟩
  case b5 =>
    have k := hl.filling (p' := .b6) rfl rfl
    split at h <;> cases h
    exact at_line ⟨hp.still {}, rfl⟩ ⟨k.head, k.room, k.held⟩
  case b6 =>
    have k := hl.filling (p' := .b7) rfl rfl
    split at h <;> cases h
    exact at_line ⟨hp.still {}, rfl⟩ ⟨k.head, k.room, k.held⟩
  case b7 =>
    cases h
    exact at_line ⟨hp.still {}, rfl⟩ ((hl.advanceTail hx).next rfl)
  case c1 =>
    split at h <;> cases h
    · exact stay (hl.out rfl (txTail_out s.c r).1 (txTail_out s.c r).2)
    · exact stay (hl.out rfl nofun rfl)
  case c1Arm p =>
    have harm : ∀ q, TxLine s.c (.c1Arm q) := fun _ => hl.out rfl nofun rfl
    have hemit : TxLine s.c .c1Emit := hl.out rfl nofun rfl
    obtain ⟨u, k, rfl | ⟨q, rfl⟩⟩ := armStep_beside h
    · exact at_line (.beside hp k) (hemit.beside k)
    · exact at_line (.beside hp k) ((harm q).beside k)
  case c1Emit =>
    cases h
    have k := hl.out rfl (txTail_out s.c r).1 (txTail_out s.c r).2
    exact at_line ⟨hp.still {}, rfl⟩ ⟨k.head, k.room, k.held⟩
  case e1 =>
    cases h
    have k := hl.out (p' := .e2) rfl nofun rfl
    exact at_line ⟨hp.still {}, rfl⟩ ⟨k.head, k.room, k.held⟩
  case e2 =>
    cases h
    have k := hl.out (p' := .x0) rfl nofun rfl
    exact ⟨releaseT s, ⟨hp.still {}, rfl⟩, .inl ⟨rfl, k.head, k.room, k.held⟩⟩
  case haltB3 => cases h

/-! ## The agents' places in the routine -/

theorem tlock_free_of_x0 {jump : TxRun → State → State} {done : State → State} (h : txStep s a r jump done = .go t)
    (hr : r.pc = .x0) : s.c.tlock = none := by
  simp only [txStep, hr] at h
  exact (acquireT_go h).1

theorem txRunOf_atTx_of_ne (he : e ≠ a) (q : TxRun) (s : State) : txRunOf (atTx a q s).c e = txRunOf s.c e := by
  cases a with
  | disp | rxw | lnk | lc => rfl
  | txw =>
    cases e with
    | txw => exact absurd rfl he
    | _ => rfl
  | txc k =>
    cases e with
    | txc j => simp only [atTx, txRunOf, txcJump_c, txcFind_txcSet, if_neg fun h : j = k => he (h ▸ rfl)]
    | _ => rfl

theorem txRunOf_endTx_of_ne (he : e ≠ a) (s : State) : txRunOf (endTx a s).c e = txRunOf s.c e := by
  cases a with
  | disp | rxw | lnk | lc => rfl
  | txw =>
    cases e with
    | txw => exact absurd rfl he
    | _ => rfl
  | txc k =>
    cases e with
    | txc j =>
      simp only [endTx, txcEnd, State.emit_c, State.modC_c, txRunOf, txcFind_filter, if_neg fun h : j = k => he (h ▸ rfl)]
    | _ => rfl

theorem txRunOf_endTx (h : (txRunOf s.c a).isSome = true) : txRunOf (endTx a s).c a = none := by
  cases a with
  | disp | rxw | lnk | lc => cases h
  | txw => rfl
  | txc k => simp only [endTx, txcEnd, State.emit_c, State.modC_c, txRunOf, txcFind_filter, if_pos]

/-- The agent's place in the routine is no ring, no buffer and no line of the other agents. -/
structure Placed (a : AgentId) (u v : State) : Prop where
  still : Still u v
  c : v.c = { u.c with txw := v.c.txw, txcs := v.c.txcs, trace := v.c.trace }
  others : ∀ e, e ≠ a → txRunOf v.c e = txRunOf u.c e

theorem atTx_placed (a : AgentId) (q : TxRun) (s : State) : Placed a s (atTx a q s) :=
  ⟨by cases a <;> exact {}, by cases a <;> rfl, fun _ he => txRunOf_atTx_of_ne he q s⟩

theorem endTx_placed (a : AgentId) (s : State) : Placed a s (endTx a s) :=
  ⟨by cases a <;> exact {}, by cases a <;> rfl, fun _ he => txRunOf_endTx_of_ne he s⟩

/-- After its line's work the agent stands at a line with what the transmit half says there, or behind the routine. -/
theorem TxWork.placed {v : State} {p : TxPc} (k : TxWork s u) (m : Placed a u v) (hs : rxSlotsOk s.c)
    (hn : ¬ (s.c.lc = .poweredUnknown ∨ s.c.lcCtl.attachLine = true))
    (hothers : ∀ e q, e ≠ a → txRunOf s.c e = some q → q.pc = .x0) (hq : TxLine u.c p)
    (ha : ∀ q, txRunOf v.c a = some q → q.pc = p) (hf : p.filled = true → (txRunOf v.c a).isSome = true) : BufOk v := by
  have hrun : ∀ e, txRunOf u.c e = txRunOf s.c e := fun e => by rw [k.c]; cases e <;> rfl
  refine ⟨k.places.still m.still, slotsOk_iff.mpr ⟨?_, TxLine.slots (a := a) ?_ (fun e q he hq => ?_) ha hf ?_⟩⟩
  · rw [m.c, k.c]; exact hs
  · rw [m.c]; exact ⟨hq.head, hq.room, hq.held⟩
  · rw [m.others e he, hrun] at hq; exact hothers e q he hq
  · rw [m.c, k.c]; exact hn

/-- A step inside TX_ROUTINE, whoever runs it: `tlock` keeps all others at line X0. -/
theorem txRun_bufOk (hr : txRunOf s.c a = some r) (h : txStep s a r (atTx a) (endTx a) = .go t) (hid : idsOk s)
    (hx : indexOk s.c) (hl : locksOk s.c) (hn : ¬ (s.c.lc = .poweredUnknown ∨ s.c.lcCtl.attachLine = true))
    (hs : BufOk s) : BufOk t := by
  have hfree := tlock_free_of_x0 h
  have hothers : ∀ e q, e ≠ a → txRunOf s.c e = some q → q.pc = .x0 := fun e q he => hl.alone hr hfree he
  obtain ⟨u, k, hu⟩ := txStep_work h hs.places hid hx (hs.slots.tx.line hl hr hfree)
  have hsome : (txRunOf u.c a).isSome = true := by
    rw [show txRunOf u.c a = txRunOf s.c a by rw [k.c]; cases a <;> rfl, hr]; rfl
  rcases hu with ⟨rfl, hq⟩ | ⟨q, rfl, hq⟩
  · exact k.placed (endTx_placed a u) hs.slots.rx hn hothers hq (by rw [txRunOf_endTx hsome]; nofun) nofun
  · have hat := txRunOf_atTx (q := q) hsome
    exact k.placed (atTx_placed a q u) hs.slots.rx hn hothers hq (fun p hp => by rw [hat] at hp; cases hp; rfl)
      fun _ => by rw [hat]; rfl

/-! ## The TX worker and the callers -/

/-- The TX worker moves outside the routine, or enters it at line X0. -/
theorem BufOk.txwJump {x : TxwCtl} (h : BufOk s) (ho : txRunOf s.c .txw = none)
    (hn : ∀ q, txRunOf (Machine.txwJump x s).c .txw = some q → q.pc = .x0) : BufOk (Machine.txwJump x s) := by
  refine ⟨h.places.still {}, slotsOk_iff.mpr ⟨h.slots.rx, h.slots.tx.mono {} id (fun a q k => ?_) fun a q k _ => ?_⟩⟩
  · cases a with
    | txw => exact .inr (hn q k)
    | _ => exact .inl k
  · cases a with
    | txw => rw [ho] at k; cases k
    | _ => exact k

theorem txwStep_bufOk {d : Nat} (h : agentStep .txw d s = .go t) (hid : idsOk s) (hx : indexOk s.c) (hl : locksOk s.c)
    (hn : ¬ (s.c.lc = .poweredUnknown ∨ s.c.lcCtl.attachLine = true)) (hs : BufOk s) : BufOk t := by
  cases hr : txRunOf s.c .txw with
  | some r => exact txRun_bufOk hr ((agentStep_tx hr).symm.trans h) hid hx hl hn hs
  | none =>
    have outside : ∀ {u : State} {x : TxwCtl}, Beside s u → (∀ q, txRunOf (txwJump x u).c .txw = some q → q.pc = .x0) →
        BufOk (txwJump x u) := fun k hq =>
      (hs.beside k).txwJump (by rw [k.c]; exact hr) hq
    cases hc : s.c.txw <;> simp only [agentStep, txwStep, hc] at h
    case notStarted => cases h
    case t1 p => obtain ⟨u, k, rfl | ⟨q, rfl⟩⟩ := armStep_beside h <;> exact outside k nofun
    case t2 => split at h <;> cases h; exact outside (.refl s) nofun
    case t3 p =>
      obtain ⟨u, k, rfl | ⟨q, rfl⟩⟩ := wakeStep_beside {} h
      · exact outside k fun q hq => by cases hq; rfl
      · exact outside k nofun
    case t4 r => simp only [txRunOf, hc] at hr; cases hr

theorem txcStep_bufOk {k d : Nat} (h : agentStep (.txc k) d s = .go t) (hid : idsOk s) (hx : indexOk s.c)
    (hl : locksOk s.c) (hn : ¬ (s.c.lc = .poweredUnknown ∨ s.c.lcCtl.attachLine = true)) (hs : BufOk s) : BufOk t := by
  cases hr : txRunOf s.c (.txc k) with
  | some r => exact txRun_bufOk hr ((agentStep_tx hr).symm.trans h) hid hx hl hn hs
  | none =>
    simp only [txRunOf] at hr
    simp only [agentStep, txcStep, hr] at h
    cases h

end Sys2Proof.Machine
end

section
/-!
SUPPORT. Places and slots over the steps of `LC` (R200, R240, R321): before the workers start only lines I6, I10 and T6
touch buffers; afterwards no line does.
-/

namespace Sys2Proof.Machine

variable {s t u : State} {x : LcCtl}

/-- No buffer, no ring and no local of the receive worker changes. -/
structure LcBeside (s t : State) : Prop where
  still : Still s t
  rings : SameRings s.c t.c
  rxw : t.c.rxw = s.c.rxw

namespace LcBeside

theorem refl (s : State) : LcBeside s s := ⟨{}, {}, rfl⟩

theorem trans (h : LcBeside s t) (k : LcBeside t u) : LcBeside s u :=
  ⟨h.still.trans k.still, ⟨k.rings.cfg.trans h.rings.cfg, k.rings.rb.trans h.rings.rb, k.rings.rdh.trans h.rings.rdh,
    k.rings.rdt.trans h.rings.rdt, k.rings.tb.trans h.rings.tb, k.rings.tdh.trans h.rings.tdh,
    k.rings.tdt.trans h.rings.tdt⟩, k.rxw.trans h.rxw⟩

theorem mmioWrite (s : State) (r : Reg) (v : Word) : LcBeside s (Machine.mmioWrite s r v) := ⟨{}, {}, rfl⟩
theorem mmioRead (s : State) (r : Reg) : LcBeside s (Machine.mmioRead s r).2 := ⟨{}, {}, rfl⟩
theorem emit (s : State) (e : TraceEv) : LcBeside s (s.emit e) := ⟨{}, {}, rfl⟩
theorem finishLc (s : State) (st : Status) : LcBeside s (Machine.finishLc s st) := ⟨{}, {}, rfl⟩
theorem fatal (s : State) (r : FaultRec) : LcBeside s (Machine.fatal s r) := ⟨{}, {}, rfl⟩
theorem lcJump (s : State) (x : LcCtl) : LcBeside s (Machine.lcJump x s) := ⟨{}, {}, rfl⟩

end LcBeside

/-- The lines of `LC` that touch a buffer, a ring or a worker. -/
def LcCtl.handlesRings : LcCtl → Bool
  | .i4 | .i6 _ | .i10 _ | .t4 | .t6 _ | .d3 => true
  | _ => false

theorem LcCtl.attachLine_of_handlesRings {x : LcCtl} (h : x.handlesRings = true) : x.attachLine = true := by
  cases x
  case i4 | i6 | i10 | t4 | t6 | d3 => rfl
  all_goals cases h

theorem LcCtl.handlesRings_of_not_attach {x : LcCtl} (h : x.attachLine = false) : x.handlesRings = false :=
  Bool.eq_false_iff.mpr fun k => by rw [attachLine_of_handlesRings k] at h; cases h

/-- `LC` comes to REPLENISH (R200) at the line its free test names. -/
def entersReplenish (s t : State) : Prop := ∀ p, t.c.lcCtl = .i10 p → p = repNext s.c

theorem entersReplenish_lcJump (h : ∀ p, x ≠ .i10 p) : entersReplenish s (lcJump x u) := fun p e => absurd e (h p)

theorem ne_i10_of_ite {q : Prop} [Decidable q] {x y : LcCtl} (hx : ∀ p, x ≠ .i10 p) (hy : ∀ p, y ≠ .i10 p) (p : RepPc) :
    (if q then x else y) ≠ .i10 p := by
  split
  · exact hx p
  · exact hy p

/-- Every line of `LC` but those six leaves the rings alone, and only line I9 leads into REPLENISH. -/
theorem lcStep_beside {d : Nat} (h : lcStep s d = .go t) (hm : s.c.lcCtl.handlesRings = false) :
    LcBeside s t ∧ entersReplenish s t := by
  have jumped : ∀ {u : State} {x : LcCtl}, LcBeside s u → (∀ p, x ≠ .i10 p) →
      LcBeside s (lcJump x u) ∧ entersReplenish s (lcJump x u) := fun k hx =>
    ⟨k.trans (.lcJump _ _), entersReplenish_lcJump hx⟩
  have ended : ∀ {u : State} {st : Status}, LcBeside s u →
      LcBeside s (finishLc u st) ∧ entersReplenish s (finishLc u st) := fun k => ⟨k.trans (.finishLc _ _), nofun⟩
  cases hc : s.c.lcCtl <;> simp only [lcStep, hc] at h <;> rw [hc] at hm
  case i4 | i6 | i10 | t4 | t6 | d3 => cases hm
  case idle => cases h
  case a1 =>
    split at h <;> cases h
    · exact jumped (.mmioWrite _ _ _) nofun
    · exact jumped (.refl _) nofun
  case b1 w q =>
    unfold eeReadStep at h
    rcases hsStep_go h with ⟨-, rfl⟩ | ⟨i, -, rfl | ⟨-, -, rfl⟩ | rfl⟩ | ⟨i, -, rfl⟩
    · exact jumped (.mmioWrite _ _ _) nofun
    · exact jumped (.mmioRead _ _) nofun
    · have hne : ∀ p, lcAfterWord w ≠ .i10 p := by unfold lcAfterWord; exact ne_i10_of_ite nofun nofun
      exact ⟨(LcBeside.mmioRead s .eerd).trans ⟨{}, {}, rfl⟩, fun p e => absurd e (hne p)⟩
    · exact jumped (.mmioRead _ _) nofun
    · exact jumped (.refl _) nofun
  case z1 => obtain ⟨-, rfl⟩ := acquireM_go h; exact jumped ⟨{}, {}, rfl⟩ nofun
  case u1 => obtain ⟨-, rfl⟩ := acquireS_go h; exact ⟨⟨{}, {}, rfl⟩, nofun⟩
  case z8 b =>
    cases b <;> obtain rfl := StepRes.go.inj h
    · exact ⟨.fatal _ _, nofun⟩
    · exact ended ⟨{}, {}, rfl⟩
  case c1 n hi =>
    cases hi <;> obtain rfl := StepRes.go.inj h
    · exact jumped (.mmioWrite _ _ _) nofun
    · exact jumped (.mmioWrite _ _ _) (ne_i10_of_ite nofun nofun)
  case c2 b | i8 b | t8 b =>
    cases b <;> obtain rfl := StepRes.go.inj h <;> exact jumped (.mmioWrite _ _ _) nofun
  all_goals obtain rfl := StepRes.go.inj h
  case rmwR w => exact jumped (.mmioRead _ _) nofun
  case rmwW w v => exact jumped (.mmioWrite _ _ _) (by cases w <;> nofun)
  case pollR p i =>
    exact jumped (.mmioRead _ _) (ne_i10_of_ite (by cases p <;> nofun) (ne_i10_of_ite (by cases p <;> nofun) nofun))
  case pollD p i => exact jumped (.refl _) nofun
  case fatal r => exact ⟨.fatal _ _, nofun⟩
  case b0 | c5 => exact ⟨⟨{}, {}, rfl⟩, nofun⟩
  case b2 =>
    unfold lcChecksum
    simp only
    split
    · have hne : ∀ p, (if s.c.cfg.variant.lanidAdjust then LcCtl.b3 else .c1 0 false) ≠ .i10 p :=
        ne_i10_of_ite nofun nofun
      exact ⟨⟨{}, {}, rfl⟩, fun p e => absurd e (hne p)⟩
    · exact ⟨.fatal _ _, nofun⟩
  case b3 => exact ⟨(LcBeside.mmioRead s .status).trans ⟨{}, {}, rfl⟩, nofun⟩
  case c3 k | c4 k => exact jumped (.mmioWrite _ _ _) (ne_i10_of_ite nofun nofun)
  case i5 => exact jumped (.mmioWrite _ _ _) (by intro p; unfold i6From; split <;> nofun)
  case t5 => exact jumped (.mmioWrite _ _ _) (by intro p; unfold t6From; split <;> nofun)
  case i7 i f =>
    have hz : LcBeside s (zeroRd s (BitVec.ofNat 16 i) f) := by unfold zeroRd; split <;> exact ⟨{}, {}, rfl⟩
    exact jumped hz (ne_i10_of_ite nofun (ne_i10_of_ite nofun nofun))
  case t7 i f =>
    have hz : LcBeside s (zeroTd s (BitVec.ofNat 16 i) f) := by unfold zeroTd; split <;> exact ⟨{}, {}, rfl⟩
    exact jumped hz (ne_i10_of_ite nofun (ne_i10_of_ite nofun nofun))
  case i9 => exact ⟨(LcBeside.mmioWrite _ _ _).trans (.lcJump _ _), fun p e => (LcCtl.i10.inj e).symm⟩
  case d4 => exact ended ⟨{}, {}, rfl⟩
  case z2 => exact jumped (.trans (t := s.modC _) ⟨{}, {}, rfl⟩ (.mmioWrite _ _ _)) nofun
  case z7 b => exact jumped ⟨{}, {}, rfl⟩ nofun
  case promiscR | u3 => exact jumped (.mmioRead _ _) nofun
  case promiscW | mcastW | tunableW => exact ended (.mmioWrite _ _ _)
  case u2 k =>
    have hne : ∀ p, (if k + 1 < nstats then LcCtl.u2 (k + 1) else .u3 0) ≠ .i10 p := ne_i10_of_ite nofun nofun
    exact ⟨(LcBeside.mmioRead s (.stat (Fin.ofNat 73 k))).trans ⟨{}, {}, rfl⟩, fun p e => absurd e (hne p)⟩
  case u3e j v => exact jumped (.emit _ _) (ne_i10_of_ite nofun nofun)
  case u4 => exact jumped (.emit _ _) nofun
  case u5 => exact ended ⟨{}, {}, rfl⟩
  all_goals exact jumped (.mmioWrite _ _ _) nofun

/-! ## Before the workers start -/

/-- With no worker and no caller started and no buffer in the transmit ring, only RX_INIT's REPLENISH relies on a slot. -/
theorem slotsOk_of_notStarted {c : Ctlr} (hn : notStarted c) (hb : ∀ i : Half, c.tb.getD i.toNat none = none)
    (hi : c.lcCtl = .i10 .r3 → c.rb.getD c.rdt.toNat none = none) : slotsOk c := by
  have hctl := hn.1
  refine slotsOk_iff.mpr ⟨⟨fun e => (by rw [hctl] at e; cases e), fun x e => ?_⟩, .of_empty hb (txRunOf_of_notStarted hn)⟩
  cases x with
  | harvest | retry => simp only [RepCaller.line, hctl] at e; cases e
  | init => cases hc : c.lcCtl <;> simp only [RepCaller.line, hc] at e <;> cases e; exact hi hc

/-- An index below a ring's size is the number of its index. -/
theorem exists_half_of_held {xs : List (Option BufId)} (hl : xs.length ≤ 65536) {i : Nat} {b : BufId}
    (h : xs.getD i none = some b) : ∃ j : Half, j.toNat = i := by
  refine ⟨BitVec.ofNat 16 i, ?_⟩
  rw [BitVec.toNat_ofNat]
  refine Nat.mod_eq_of_lt ?_
  by_contra hge
  rw [List.getD_eq_default _ _ (by omega)] at h
  cases h

/-- Line I6 (R200): the leftover of a receive slot goes back to the pool. -/
theorem lcFreeRx_places (hp : Places s) (hid : idsOk s) (hx : indexOk s.c) (i : Nat) : Places (lcFreeRx s i) := by
  obtain ⟨hn, -, -, -, -, -, hl, -⟩ := hx
  unfold lcFreeRx
  split
  · rename_i b hb
    obtain ⟨j, rfl⟩ := exists_half_of_held (hl ▸ ringSizeOk_le hn) hb
    exact hp.discard hid hb
  · exact hp

/-- Line T6 finds no leftover, the transmit ring being empty. -/
theorem lcFreeTx_of_empty (hx : indexOk s.c) (hb : ∀ i : Half, s.c.tb.getD i.toNat none = none) (i : Nat) :
    lcFreeTx s i = s := by
  obtain ⟨-, hn, -, -, -, -, -, hl⟩ := hx
  unfold lcFreeTx
  split
  · rename_i b hi
    obtain ⟨j, rfl⟩ := exists_half_of_held (hl ▸ ringSizeOk_le hn) hi
    rw [hb j] at hi; cases hi
  · rfl

/-- A line of ATTACH: every buffer is in its place, no transmit slot changes, and line R3 finds its slot empty. -/
theorem lcStep_attach {d : Nat} (h : lcStep s d = .go t) (hid : idsOk s) (hx : indexOk s.c) (hs : BufOk s)
    (ha : s.c.lcCtl.attachLine = true) :
    Places t ∧ t.c.tb = s.c.tb ∧ (t.c.lcCtl = .i10 .r3 → t.c.rb.getD t.c.rdt.toNat none = none) := by
  obtain ⟨hp, hslots⟩ := hs
  cases hm : s.c.lcCtl.handlesRings with
  | false =>
    obtain ⟨k, hi⟩ := lcStep_beside h hm
    refine ⟨hp.still k.still, k.rings.tb, fun e => ?_⟩
    rw [k.rings.rb, k.rings.rdt]
    exact repNext_r3 (hi _ e).symm
  | true =>
    cases hc : s.c.lcCtl <;> rw [hc] at hm <;> simp only [lcStep, hc] at h
    case i4 | t4 =>
      cases h
      have k : ∀ f : Ctlr → Ctlr, Still s (s.modC f) → ∀ r v x, Still s (lcJump x (mmioWrite (s.modC f) r v)) :=
        fun _ k _ _ _ => k.trans ((Still.mmioWrite _ _ _).trans (LcBeside.lcJump _ _).still)
      exact ⟨hp.still (k _ {} _ _ _), rfl, nofun⟩
    case d3 => cases h; exact ⟨hp.still {}, rfl, nofun⟩
    case i6 i =>
      cases h
      have htb : (lcFreeRx s i).c.tb = s.c.tb := by unfold lcFreeRx; split <;> rfl
      have hne : i6From (lcFreeRx s i).c (i + 1) ≠ .i10 .r3 := by unfold i6From; split <;> nofun
      exact ⟨(lcFreeRx_places hp hid hx i).still (LcBeside.lcJump _ _).still, htb, fun e => absurd e hne⟩
    case t6 i =>
      cases h
      rw [lcFreeTx_of_empty hx (hslots.tx.empty (.inr ha))]
      have hne : t6From s.c (i + 1) ≠ .i10 .r3 := by unfold t6From; split <;> nofun
      exact ⟨hp.still (LcBeside.lcJump _ _).still, rfl, fun e => absurd e hne⟩
    case i10 p =>
      obtain ⟨u, k, rfl | ⟨q, rfl, hq⟩⟩ := repStep_work h hp hid hx fun e =>
        hslots.rx.2 .init (by simp [RepCaller.line, hc, e])
      · exact ⟨k.places.still {}, by rw [lcJump_c, k.c], nofun⟩
      · exact ⟨k.places.still {}, by rw [lcJump_c, k.c], fun e => hq (LcCtl.i10.inj e)⟩
    all_goals cases hm

/-- Behind ATTACH no line of `LC` touches a ring, so what the agents rely on stays. -/
theorem slotsOk.lcAlone (hs : slotsOk s.c) (k : LcBeside s t) (ha : LcAlone s.c t.c)
    (hx : t.c.lcCtl.attachLine = false) (hl : t.c.lc ≠ .poweredUnknown) : slotsOk t.c := by
  have hrun : ∀ a, txRunOf t.c a = txRunOf s.c a := fun a => by
    cases a <;> simp only [txRunOf, ha.txw, ha.txcs]
  refine slotsOk_iff.mpr ⟨hs.rx.mono k.rings (fun e => ⟨by rwa [k.rxw] at e, by rw [k.rxw]⟩) fun x e => ?_,
    hs.tx.mono k.rings (fun e => ?_) (fun a q e => .inl (hrun a ▸ e)) fun a q e _ => (hrun a).trans e⟩
  · cases x with
    | harvest | retry => simpa only [RepCaller.line, k.rxw] using e
    | init =>
      cases hc : t.c.lcCtl <;> simp only [RepCaller.line, hc] at e <;> cases e
      rw [hc] at hx; cases hx
  · rw [hx] at e
    rcases e with e | e
    · exact absurd e hl
    · cases e

theorem lcStep_bufOk {d : Nat} (h : lcStep s d = .go t) (hid : idsOk s) (hx : indexOk s.c) (hst : startOk s.c)
    (hs : BufOk s) : BufOk t := by
  have unstarted : s.c.lcCtl.attachLine = true → LcAlone s.c t.c → BufOk t := fun hc ha => by
    obtain ⟨hp, htb, hi⟩ := lcStep_attach h hid hx hs hc
    obtain ⟨-, hr, hw, hk, ht⟩ := hst.attach hc
    exact ⟨hp, slotsOk_of_notStarted ⟨ha.rxw.trans hr, ha.txw.trans hw, ha.lnk.trans hk, ha.txcs.trans ht⟩
      (htb ▸ hs.slots.tx.empty (.inr hc)) hi⟩
  have alone : s.c.lcCtl.attachLine = false → LcAlone s.c t.c → t.c.lcCtl.attachLine = false →
      t.c.lc ≠ .poweredUnknown → BufOk t := fun hc ha hx hl => by
    have k := (lcStep_beside h (LcCtl.handlesRings_of_not_attach hc)).1
    exact ⟨hs.places.still k.still, hs.slots.lcAlone k ha hx hl⟩
  cases lcStep_flow h with
  | attach hc hd hl hm ha => exact unstarted hc ha
  | failed hc hd hl hm ha => exact unstarted hc ha
  | start hc hd hl hm ht hi hx' hr hw hk =>
    obtain ⟨hp, htb, -⟩ := lcStep_attach h hid hx hs (by rw [hc]; rfl)
    obtain ⟨-, -, -, -, htx⟩ := hst.attach (by rw [hc]; rfl)
    refine ⟨hp, slotsOk_iff.mpr ⟨rxSlotsOk_of_worker (by rw [hd]; nofun) (by rw [hr]; nofun) (by rw [hr]; nofun),
      .of_empty (htb ▸ hs.slots.tx.empty (.inr (by rw [hc]; rfl))) fun a => ?_⟩⟩
    cases a <;> simp only [txRunOf, hw, hx', htx, txcFind]
  | ready hc hd hl hm ha => exact alone (by rw [hc]; rfl) ha (by rw [hd]; rfl) (by rw [hl]; nofun)
  | lock hc hd hl hfree hm ha =>
    exact alone (by rw [hc]; rfl) ha (by rw [hd]; rfl) (by rw [hl, hst.shutdown (by rw [hc]; rfl)]; nofun)
  | shut hc hd hl hm ha =>
    exact alone (LcCtl.attachLine_of_holdsM hc) ha (LcCtl.attachLine_of_holdsM hd)
      (by rw [hl, hst.shutdown (LcCtl.shutdownLine_of_holdsM hc)]; nofun)
  | unlock b hc hd hl hm ha =>
    exact alone (by rw [hc]; rfl) ha (by rw [hd]; rfl) (by rw [hl, hst.shutdown (by rw [hc]; rfl)]; nofun)
  | ended b hc hd hl hm ha =>
    exact alone (by rw [hc]; rfl) ha (by rw [hd]; rfl) (by rcases hl with e | e <;> rw [e] <;> nofun)
  | control hc hd hl hm ha =>
    refine alone (LcCtl.of_controlLine hc).1 ha ?_ ?_
    · rcases hd with e | e
      · exact (LcCtl.of_controlLine e).1
      · rw [e]; rfl
    · rw [hl]
      rcases hst.control hc with e | e | e <;> rw [e] <;> nofun

end Sys2Proof.Machine
end

section
/-!
SUPPORT. Places and slots over the operations, the host's actions, selection and discovery (R375, R383, R306, R473, R510).
-/

namespace Sys2Proof.Machine

variable {s t u : State} {c : Ctlr} {b x : BufId}

/-! ## The records of buffers under an insertion -/

theorem bufGet_bufInsert (bs : List (BufId × Buf)) (b x : BufId) (r : Buf) (h : bufGet bs b = none) :
    bufGet (bufInsert bs b r) x = if x = b then some r else bufGet bs x := by
  induction bs with
  | nil =>
    by_cases hx : x = b
    · simp [bufInsert, bufGet, hx]
    · simp [bufInsert, bufGet, hx, Ne.symm hx]
  | cons e bs ih =>
    obtain ⟨y, q⟩ := e
    simp only [bufGet] at h
    split at h
    · cases h
    · rename_i hy
      simp only [bufInsert]
      split
      · by_cases hx : x = b
        · simp [bufGet, hx]
        · simp [bufGet, hx, Ne.symm hx]
      · simp only [bufGet, ih h]
        by_cases hx : x = b
        · subst hx; simp [hy]
        · simp [hx]

/-! ## What the host owns (R47, R375) -/

theorem queued_eq_false : queued s b = false ↔ ∀ c ∈ s.ctlrs, b ∉ c.oq := by
  simp [queued, State.ctlrs]

theorem hostOwns_iff : hostOwns s b = true ↔ s.owner? b = some .host ∧ ∀ c ∈ s.ctlrs, b ∉ c.oq := by
  rw [hostOwns, State.owner?]
  cases s.buf? b with
  | none => simp
  | some r => simp [queued_eq_false]

/-! ## The moves of the host and of the schedule -/

namespace Places

/-- The host appends a buffer of its own that no queue holds (R375). -/
theorem enqueue (h : Places s) (hb : hostOwns s b = true) : Places (s.modC fun c => { c with oq := c.oq ++ [b] }) := by
  obtain ⟨ho, hq⟩ := hostOwns_iff.mp hb
  have hout : ∀ l, l = s.others.flatMap Ctlr.oq → b ∉ l := by
    rintro _ rfl k
    obtain ⟨c, hc, hbc⟩ := List.mem_flatMap.mp k
    exact hq c (other_mem hc) hbc
  refine ⟨h.nodup, h.pool, fun c hc p hp x => ?_, fun x k p hx hp => ?_, ?_, fun c hc x hx => ?_, h.origins, h.poolOnly,
    h.known⟩
  · rcases mem_ctlrs.mp hc with rfl | hc
    · have := h.slots s.c (selected_mem s) p hp x
      cases p <;> exact this
    · exact h.slots c (other_mem hc) p hp x
  · obtain ⟨c, hc, hid⟩ := h.ctlr x k p hx hp
    rcases mem_ctlrs.mp hc with rfl | hc
    · exact ⟨_, selected_mem _, hid⟩
    · exact ⟨c, other_mem hc, hid⟩
  · have hn := h.queues
    have hb' : b ∉ s.c.oq := hq s.c (selected_mem s)
    simp only [State.ctlrs, List.flatMap_cons, State.modC_c, State.modC_others, List.append_assoc, List.singleton_append]
      at hn ⊢
    exact List.nodup_middle.mpr (List.nodup_cons.mpr
      ⟨fun k => (List.mem_append.mp k).elim hb' (hout _ rfl), hn⟩)
  · rcases mem_ctlrs.mp hc with rfl | hc
    · rcases List.mem_append.mp hx with hx | hx
      · exact h.queued s.c (selected_mem s) x hx
      · rw [List.mem_singleton.mp hx]; exact ho
    · exact h.queued c (other_mem hc) x hx

/-- The host supplies a buffer of its own under an unused identifier from NPOOL on (R300, R512 (a)). -/
theorem supply (h : Places s) {base : DWord} {cap : Word} (hn : s.pool.npool ≤ b) (hb : s.buf? b = none) :
    Places (supplyBuf s b base cap) := by
  have hget : ∀ x, (supplyBuf s b base cap).buf? x = if x = b then some (.supplied base cap) else s.buf? x :=
    fun x => bufGet_bufInsert s.bufs b x _ hb
  have howner : ∀ x, (supplyBuf s b base cap).owner? x = if x = b then some .host else s.owner? x := fun x => by
    rw [State.owner?, hget]; split <;> rfl
  have horigin : ∀ x, (supplyBuf s b base cap).origin? x = if x = b then some .host else s.origin? x := fun x => by
    rw [State.origin?, hget]; split <;> rfl
  have hold : s.owner? b = none := by rw [State.owner?, hb]; rfl
  have keep : ∀ {p : Owner}, p ≠ .host → ∀ x, (supplyBuf s b base cap).owner? x = some p ↔ s.owner? x = some p := by
    intro p hp x
    rw [howner]
    split
    · rename_i e; subst e; rw [hold]; simp [Ne.symm hp]
    · exact Iff.rfl
  refine ⟨h.nodup, fun x => (h.pool x).trans (keep (p := .pool) nofun x).symm, fun c hc p hp x => ?_,
    fun x k p hx hp => ?_, h.queues,
    fun c hc x hx => ?_, fun x g hg => ?_, fun x o hx ho => ?_, fun x hx => ?_⟩
  · exact (h.slots c hc p hp x).trans (keep (slot_ne_of_slotOf hp).2 x).symm
  · exact h.ctlr x k p ((keep (slot_ne_of_slotOf hp).2 x).mp hx) hp
  · rw [howner]; split
    · rfl
    · exact h.queued c hc x hx
  · rw [horigin] at hg
    split at hg
    · rename_i e; subst e; cases hg
      exact ⟨nofun, fun k => absurd (show x < s.pool.npool from k) (Nat.not_lt.mpr hn)⟩
    · exact h.origins x g hg
  · have hne : o ≠ .host := by rintro rfl; rcases ho with e | ⟨_, _, e⟩ <;> cases e
    have hxo := (keep hne x).mp hx
    rw [horigin, if_neg (by rintro rfl; rw [hold] at hxo; cases hxo)]
    exact h.poolOnly x o hxo ho
  · rw [howner]; split
    · rfl
    · exact h.known x hx

/-- Selection only permutes the controllers (R473). -/
theorem select (h : Places s) (hid : idsOk s) (k : Nat) : Places (selectCtlr s k) := by
  have hperm := selectCtlr_perm hid.1 k
  have hmem : ∀ c, c ∈ (selectCtlr s k).ctlrs ↔ c ∈ s.ctlrs := fun c => hperm.mem_iff
  have hrest : (selectCtlr s k).free = s.free ∧ (selectCtlr s k).pool = s.pool ∧ (selectCtlr s k).bufs = s.bufs := by
    unfold selectCtlr; split <;> exact ⟨rfl, rfl, rfl⟩
  obtain ⟨hf, hpool, hb⟩ := hrest
  have ho : ∀ x, (selectCtlr s k).owner? x = s.owner? x := fun x => by rw [State.owner?, State.buf?, hb]; rfl
  have hg : ∀ x, (selectCtlr s k).origin? x = s.origin? x := fun x => by rw [State.origin?, State.buf?, hb]; rfl
  refine ⟨hf ▸ h.nodup, fun x => by rw [hf, ho]; exact h.pool x, fun c hc p hp x => ?_, fun x j p hx hp => ?_,
    (hperm.flatMap_right _).nodup_iff.mpr h.queues, fun c hc x hx => ?_, fun x g hx => ?_, fun x o hx hro => ?_,
    fun x hx => ?_⟩
  · rw [ho]; exact h.slots c ((hmem c).mp hc) p hp x
  · rw [ho] at hx
    exact (h.ctlr x j p hx hp).imp fun c hc => ⟨(hmem c).mpr hc.1, hc.2⟩
  · rw [ho]; exact h.queued c ((hmem c).mp hc) x hx
  · rw [hg] at hx; rw [hpool]; exact h.origins x g hx
  · rw [ho] at hx; rw [hg]; exact h.poolOnly x o hx hro
  · rw [ho]; exact h.known x (hpool ▸ hx)

theorem slot_discovery (k : Nat) (p : Params) (y z : DWord) (o : Owner) : (Ctlr.discovery k p y z).slot o = none := by
  have hrep : ∀ n j, (List.replicate n (none : Option BufId)).getD j none = none := fun n j => by
    rw [List.getD_eq_getElem?_getD, List.getElem?_replicate]; split <;> rfl
  cases o with
  | rxSlot _ i => exact hrep _ _
  | txSlot _ i => exact hrep _ _
  | pool | host => rfl

/-- A discovered controller holds nothing, and no buffer's owner names it (R500). -/
theorem discover (h : Places s) (hid : idsOk s) (p : Params) (y z : DWord) : Places (discoverCtlr s p y z) := by
  have hmem : ∀ c, c ∈ s.ctlrs → c ∈ (discoverCtlr s p y z).ctlrs := fun c hc => by
    rcases mem_ctlrs.mp hc with rfl | hc
    · exact selected_mem _
    · exact other_mem (List.mem_append_left _ hc)
  have hq : (discoverCtlr s p y z).ctlrs.flatMap Ctlr.oq = s.ctlrs.flatMap Ctlr.oq := by
    simp [State.ctlrs, discoverCtlr, Ctlr.discovery]
  refine ⟨h.nodup, h.pool, fun c hc o ho x => ?_, fun x k o hx ho => ?_, hq ▸ h.queues, fun c hc x hx => ?_, h.origins,
    h.poolOnly, h.known⟩
  · rcases mem_discoverCtlr hc with hc | rfl
    · exact h.slots c hc o ho x
    · rw [slot_discovery]
      refine ⟨nofun, fun hx => ?_⟩
      obtain ⟨c, hc, e⟩ := h.ctlr x _ o hx ho
      have hle := hid.2 c hc
      rw [e] at hle
      exact absurd hle (Nat.not_succ_le_self _)
  · exact (h.ctlr x k o hx ho).imp fun c hc => ⟨hmem c hc.1, hc.2⟩
  · rcases mem_discoverCtlr hc with hc | rfl
    · exact h.queued c hc x hx
    · cases hx

end Places

/-! ## Operations -/

theorem NicFrame.still (h : NicFrame s t) : Still s t where
  others := h.others
  pool := h.pool
  free := h.free
  owner x := by rw [State.owner?, State.buf?, h.bufs]; rfl
  origin x := by rw [State.origin?, State.buf?, h.bufs]; rfl
  ident := by rw [h.c]
  rb := by rw [h.c]
  tb := by rw [h.c]
  oq := by rw [h.c]

theorem Still.startLc (s : State) (i : Instr) (x : LcCtl) : Still s (Machine.startLc s i x) := {}

theorem mmioOp_still {r : Reg} {a : Access} (h : mmioOp r a s = .next t) : Still s t := by
  rcases mmioOp_next h with ⟨-, rfl⟩ | ⟨v, -, rfl⟩
  · exact .mmioRead s r
  · exact .mmioWrite s r v

theorem causeOp_still {w : Word} (h : causeOp w s = .next t) : Still s t := by
  cases h
  unfold takeInterrupt
  split <;> exact {}

theorem rxdesc_still {d : RxDesc} (h : execRxdesc d s = .next t) : Still s t := by
  obtain rfl := Host.Outcome.next.inj h
  split
  · exact (nicRx_frame s d []).still
  · exact .refl s

theorem txdescLegacy_still {len : Half} (h : execTxdescLegacy len s = .next t) : Still s t := by
  unfold execTxdescLegacy at h
  split at h <;> cases h <;> exact {}

/-- No operation but a host command moves a buffer. -/
theorem exec_still {i : Instr} (hf : i.format ≠ .hostCmd) (h : exec i s = .next t) : Still s t := by
  cases i <;> first
    | exact absurd rfl hf
    | exact mmioOp_still h
    | exact causeOp_still h
    | exact rxdesc_still h
    | exact txdescLegacy_still h
    | cases h

/-- Of the host commands BUF_FREE alone moves a buffer in its first step (R306, R382). -/
theorem exec_cmd_places {i : Instr} (hf : i.format = .hostCmd) (h : exec i s = .next t) (hp : Places s) (hid : idsOk s) :
    Places t := by
  cases i <;> cases hf <;> simp only [exec] at h
  case attach =>
    unfold execAttach at h
    split at h
    · split at h <;> cases h; exact hp.still {}
    · cases h; exact hp.still {}
  case txRequest => unfold execTxRequest at h; split at h <;> cases h <;> exact hp.still {}
  case shutdown =>
    unfold execShutdown at h
    split at h
    · split at h <;> cases h <;> exact hp.still {}
    · cases h; exact hp.still {}
  case setPromisc on => unfold execSetPromisc at h; split at h <;> cases h <;> exact hp.still {}
  case setMcast m a =>
    unfold execSetMcast at h
    split at h <;> cases h
    · exact hp.still ((Still.mmioRead s _).trans (.startLc _ _ _))
    · exact hp.still {}
  case setRdtr v =>
    unfold execSetRdtr at h
    split at h
    · split at h <;> cases h <;> exact hp.still {}
    · cases h; exact hp.still {}
  case setRadv v =>
    unfold execSetRadv at h
    split at h
    · split at h <;> cases h <;> exact hp.still {}
    · cases h; exact hp.still {}
  case dump =>
    unfold execDump at h
    split at h
    · split at h <;> cases h <;> exact hp.still {}
    · cases h; exact hp.still {}
  case bufFree n =>
    unfold execBufFree at h
    split at h
    · rename_i hok
      cases h
      simp only [bufFreeOk, Bool.and_eq_true, decide_eq_true_eq] at hok
      obtain ⟨ho, hq⟩ := hostOwns_iff.mp hok.2
      exact (hp.giveBack hid ho hok.1 hq).still {}
    · cases h; exact hp.still {}
  case reservedOp w => cases h; exact hp.still {}

theorem txRunOf_newCaller (c : Ctlr) (n m : Nat) (a : AgentId) :
    (∀ q, txRunOf { c with txcs := c.txcs ++ [⟨n, .start⟩], txcNext := m } a = some q → txRunOf c a = some q ∨ q.pc = .x0)
      ∧ ∀ q, txRunOf c a = some q → txRunOf { c with txcs := c.txcs ++ [⟨n, .start⟩], txcNext := m } a = some q := by
  cases a with
  | txc k =>
    refine ⟨fun q h => ?_, fun q h => ?_⟩ <;> simp only [txRunOf] at h ⊢
    · rcases txcFind_newCaller c.txcs n k with e | e <;> rw [e] at h
      · exact .inl h
      · cases h; exact .inr rfl
    · rw [txcFind_append, h]; rfl
  | _ => exact ⟨fun _ => .inl, fun _ => id⟩

/-- A host command's first step moves no agent that relies on a slot; a new caller stands at line X0. -/
theorem exec_cmd_slots {i : Instr} (hf : i.format = .hostCmd) (h : exec i s = .next t) (hs : slotsOk s.c) :
    slotsOk t.c := by
  have lc : ∀ {d : Ctlr}, SameRings s.c d → d.rxw = s.c.rxw → d.txw = s.c.txw → d.txcs = s.c.txcs →
      (∀ p, d.lcCtl ≠ .i10 p) → (d.lc = .poweredUnknown → s.c.lc = .poweredUnknown) →
      (d.lcCtl.attachLine = true → s.c.lc = .poweredUnknown) → slotsOk d := by
    intro d k hr hw hx hi hl ha
    have hrun : ∀ a, txRunOf d a = txRunOf s.c a := fun a => by cases a <;> simp only [txRunOf, hw, hx]
    refine slotsOk_iff.mpr ⟨hs.rx.mono k (fun e => ⟨hr ▸ e, by rw [hr]⟩) fun x e => ?_,
      hs.tx.mono k (fun e => .inl (e.elim hl ha)) (fun a q e => .inl (hrun a ▸ e)) fun a q e _ => (hrun a).trans e⟩
    cases x with
    | harvest | retry => simpa only [RepCaller.line, hr] using e
    | init => cases hc : d.lcCtl <;> simp only [RepCaller.line, hc] at e <;> cases e; exact absurd hc (hi _)
  cases exec_cmd_case hf h with
  | reply es h => rw [h]; exact hs.same {} {}
  | attach hl _ h =>
    rw [h]
    exact lc {} rfl rfl rfl (by unfold lcAfterA0; exact ne_i10_of_ite nofun nofun) (fun _ => hl) fun _ => hl
  | tx hl h =>
    rw [h]
    exact slotsOk_iff.mpr ⟨hs.rx.mono {} (fun e => ⟨e, rfl⟩) fun x e => by cases x <;> exact e,
      hs.tx.mono {} id (fun a => (txRunOf_newCaller s.c _ _ a).1) fun a q e _ => (txRunOf_newCaller s.c _ _ a).2 q e⟩
  | shutdown hl _ h =>
    rcases h with ⟨-, h⟩ | h <;> rw [h] <;> exact lc {} rfl rfl rfl nofun id nofun
  | control x es hx hl _ h =>
    obtain ⟨ha, -, -, -⟩ := LcCtl.of_controlLine (LcCtl.controlLine_of_start hx)
    rw [h]
    exact lc {} rfl rfl rfl (fun p e => by cases e; cases hx) id fun e => absurd e (by simp [ha])

theorem OpFrame.slots (hf : OpFrame s t) (hs : slotsOk s.c) : slotsOk t.c := by
  rw [hf.c]
  exact hs.same {} {}

theorem discovery_slotsOk (k : Nat) (p : Params) (y z : DWord) : slotsOk (Ctlr.discovery k p y z) :=
  slotsOk_of_notStarted ⟨rfl, rfl, rfl, rfl⟩ (fun i => Places.slot_discovery k p y z (.txSlot k i)) nofun

/-- An agent's step (R47, R66, R67). -/
theorem agentStep_bufOk {a : AgentId} {d : Nat} (h : agentStep a d s = .go t) (hid : idsOk s) (hx : indexOk s.c)
    (hst : startOk s.c) (hl : locksOk s.c) (hs : BufOk s) : BufOk t := by
  have early : (s.c.lc = .poweredUnknown ∨ s.c.lcCtl.attachLine = true) → notStarted s.c := fun e =>
    e.elim (fun e => (hst.unknown e).2) fun e => (hst.attach e).2
  cases a with
  | disp => exact ⟨hs.places.still (dispStep_still h), by rw [(dispStep_frame h).1]; exact hs.slots.same {} {}⟩
  | rxw =>
    refine rxwStep_bufOk h hid hx (fun e => ?_) hs
    have hn := (early (.inr (by rw [e]; rfl))).1
    simp [agentStep, rxwStep, hn] at h
  | txw =>
    refine txwStep_bufOk h hid hx hl (fun e => ?_) hs
    have hn := (early e).2.1
    simp [agentStep, txwStep, hn] at h
  | lnk => exact hs.beside (lnkStep_beside h)
  | lc => exact lcStep_bufOk h hid hx hst hs
  | txc k =>
    refine txcStep_bufOk h hid hx hl (fun e => ?_) hs
    have hn := (early e).2.2.2
    simp [agentStep, txcStep, hn, txcFind] at h

theorem hostAct_places {x : HostAct} (h : hostAct s x = .next t) (hp : Places s) : Places t := by
  cases x <;> simp only [hostAct] at h
  case issue w => cases h; exact hp.still {}
  case enqueue b =>
    split at h <;> cases h
    rename_i hok
    simp only [enqueueOk, Bool.and_eq_true] at hok
    exact hp.enqueue hok.1
  case supply b base cap =>
    split at h <;> cases h
    rename_i hok
    simp only [supplyOk, Bool.and_eq_true, decide_eq_true_eq, Option.isNone_iff_eq_none] at hok
    exact hp.supply hok.1.1 hok.1.2
  case cursors b rp wp lim =>
    split at h <;> cases h
    exact hp.still (.modBuf (fun _ => rfl) fun _ => rfl)
  case data b off v =>
    split at h <;> cases h
    unfold writeData
    split <;> exact hp.still {}

end Sys2Proof.Machine
end

section
/-!
SUPPORT. Buffer ownership over a step, and the conservation of the pool (R47, R308).
-/

namespace Sys2Proof.Machine

variable {s t : State} {c d : Ctlr} {b x : BufId}

/-! ## A step -/

/-- Ownership and the slots over one step: an agent's, an operation's, the host's, or one that selects or discovers. -/
theorem step_keeps_places (h : step s = .next t) (hid : idsOk s)
    (hc : ∀ c ∈ s.ctlrs, indexOk c ∧ startOk c ∧ locksOk c ∧ slotsOk c) (hp : Places s) :
    Places t ∧ ∀ c ∈ t.ctlrs, slotsOk c := by
  have hslots : ∀ c ∈ s.ctlrs, slotsOk c := fun c hm => (hc c hm).2.2.2
  obtain ⟨hx, hst, hl, hs⟩ := hc s.c (selected_mem s)
  have all : ∀ {v : State}, v.others = s.others → slotsOk v.c → ∀ c ∈ v.ctlrs, slotsOk c := fun ho hv c hm =>
    (mem_ctlrs.mp hm).elim (fun e => e ▸ hv) fun hm => hslots c (other_mem (ho ▸ hm))
  rcases step_next h with ⟨w, ws, i, -, -, he⟩ | ⟨e, u, -, he, hu⟩
  · have hp' : Places { s with port := ws } := hp.still {}
    have ho : t.others = s.others := exec_others (s := { s with port := ws }) he
    by_cases hf : i.format = .hostCmd
    · exact ⟨exec_cmd_places hf he hp' hid, all ho (exec_cmd_slots hf he hs)⟩
    · exact ⟨hp'.still (exec_still hf he), all ho ((exec_frame hf he).slots hs)⟩
  · obtain ⟨hcu, hou, hpu, hidu⟩ : u.c = s.c ∧ u.others = s.others ∧ Places u ∧ idsOk u := by
      rcases hu with ⟨es, -, rfl⟩ | ⟨-, -, rfl⟩ <;> exact ⟨rfl, rfl, hp.still {}, hid⟩
    rw [← hcu] at hx hst hl hs
    have hall : ∀ c ∈ u.ctlrs, slotsOk c := all hou hs
    rcases eventAct_next he with ⟨a, d, -, hg | rfl⟩ | ⟨x, -, rfl⟩ | ⟨x, -, hx'⟩ | ⟨k, -, rfl⟩ | ⟨p, y, z, -, hd⟩
    · have ht := agentStep_bufOk hg hidu hx hst hl ⟨hpu, hs⟩
      exact ⟨ht.places, all ((agentStep_kept hg).others.trans hou) ht.slots⟩
    · exact ⟨hpu, hall⟩
    · have hf := nicAct_frame u x
      exact ⟨hpu.still hf.still, all (hf.others.trans hou) ((OpFrame.of_nic hf).slots hs)⟩
    · obtain ⟨ho, -, hc'⟩ := hostAct_next hx'
      refine ⟨hostAct_places hx' hpu, all (ho.trans hou) ?_⟩
      rcases hc' with e | ⟨b, e⟩ <;> rw [e]
      · exact hs
      · exact hs.same {} {}
    · exact ⟨hpu.select hidu k, fun c hm => hall c (mem_selectCtlr hm)⟩
    · obtain ⟨-, rfl⟩ := launch_next hd
      refine ⟨hpu.discover hidu p y z, fun c hm => ?_⟩
      rcases mem_discoverCtlr hm with hm | rfl
      · exact hall c hm
      · exact discovery_slotsOk _ p y z

/-! ## Conservation -/

/-- The pool's buffers in the slots of a controller. -/
def Ctlr.heldPool (n : Nat) (c : Ctlr) : List BufId := (c.rb ++ c.tb).filterMap (Option.filter fun b => decide (b < n))

theorem poolSlots_eq_length (s : State) (c : Ctlr) : poolSlots s c = (c.heldPool s.pool.npool).length := by
  rw [poolSlots, Ctlr.heldPool, List.length_filterMap_eq_countP, List.countP_eq_length_filter]
  refine congrArg List.length (List.filter_congr fun y _ => ?_)
  cases y with
  | none => rfl
  | some b => by_cases hb : b < s.pool.npool <;> simp [hb]

theorem exists_half {xs : List (Option BufId)} (hl : xs.length ≤ 65536) {j : Nat} (hj : j < xs.length) :
    ∃ i : Half, i.toNat = j ∧ xs.getD i.toNat none = xs[j] :=
  have hi : (BitVec.ofNat 16 j).toNat = j := by rw [BitVec.toNat_ofNat]; omega
  ⟨BitVec.ofNat 16 j, hi, by rw [hi, List.getD_eq_getElem _ _ hj]⟩

/-- The slots of an array, each owning the buffer it holds, hold no buffer twice. -/
theorem pairwise_held {xs : List (Option BufId)} (hl : xs.length ≤ 65536) (g : Half → Owner) (hg : g.Injective)
    (ho : ∀ i b, xs.getD i.toNat none = some b → s.owner? b = some (g i)) :
    xs.Pairwise fun y z => ∀ b, y = some b → z ≠ some b := by
  rw [List.pairwise_iff_getElem]
  intro i j hi hj hij b hb hb'
  obtain ⟨k, rfl, hk⟩ := exists_half hl hi
  obtain ⟨m, rfl, hm⟩ := exists_half hl hj
  have : k = m := hg (Option.some.inj ((ho k b (hk.trans hb)).symm.trans (ho m b (hm.trans hb'))))
  exact absurd hij (this ▸ Nat.lt_irrefl _)

namespace Places

variable (h : Places s)
include h

variable (hx : indexOk c) (hc : c ∈ s.ctlrs)
include hx hc

/-- A pool buffer is in an array of the controller exactly if one of its slots is the owner. -/
theorem mem_heldPool {n : Nat} :
    b ∈ c.heldPool n ↔ b < n ∧ ∃ p : Owner, p.slotOf c.id ∧ s.owner? b = some p := by
  obtain ⟨hn, hm, -, -, -, -, hr, ht⟩ := hx
  have hb : b ∈ c.heldPool n ↔ b < n ∧ (some b ∈ c.rb ∨ some b ∈ c.tb) := by
    simp only [Ctlr.heldPool, List.mem_filterMap, List.mem_append, Option.filter_eq_some_iff, decide_eq_true_eq]
    constructor
    · rintro ⟨y, hy, rfl, hlt⟩; exact ⟨hlt, hy⟩
    · rintro ⟨hlt, hy⟩; exact ⟨_, hy, rfl, hlt⟩
  rw [hb]
  refine and_congr_right fun _ => ⟨fun hm' => ?_, fun ⟨p, hp, ho⟩ => ?_⟩
  · rcases hm' with hm' | hm'
    · obtain ⟨j, hj, e⟩ := List.getElem_of_mem hm'
      obtain ⟨i, -, hi⟩ := exists_half (hr ▸ ringSizeOk_le hn) hj
      exact ⟨.rxSlot c.id i, rfl, (h.slots c hc (.rxSlot c.id i) rfl b).mp (hi.trans e)⟩
    · obtain ⟨j, hj, e⟩ := List.getElem_of_mem hm'
      obtain ⟨i, -, hi⟩ := exists_half (ht ▸ ringSizeOk_le hm) hj
      exact ⟨.txSlot c.id i, rfl, (h.slots c hc (.txSlot c.id i) rfl b).mp (hi.trans e)⟩
  · have mem : ∀ {xs : List (Option BufId)} {j : Nat}, xs.getD j none = some b → some b ∈ xs := fun {xs j} e => by
      rw [List.getD_eq_getElem?_getD] at e
      cases hj : xs[j]? with
      | none => rw [hj] at e; cases e
      | some y => rw [hj] at e; exact e ▸ List.mem_of_getElem? hj
    have hs := (h.slots c hc p hp b).mpr ho
    cases p with
    | rxSlot k i => exact .inl (mem hs)
    | txSlot k i => exact .inr (mem hs)
    | pool | host => cases hp

theorem nodup_heldPool (n : Nat) : (c.heldPool n).Nodup := by
  obtain ⟨hn, hm, -, -, -, -, hr, ht⟩ := hx
  have horx : ∀ i b, c.rb.getD i.toNat none = some b → s.owner? b = some (.rxSlot c.id i) := fun i b =>
    (h.slots c hc (.rxSlot c.id i) rfl b).mp
  have hotx : ∀ i b, c.tb.getD i.toNat none = some b → s.owner? b = some (.txSlot c.id i) := fun i b =>
    (h.slots c hc (.txSlot c.id i) rfl b).mp
  have hpair : (c.rb ++ c.tb).Pairwise fun y z => ∀ b, y = some b → z ≠ some b := by
    refine List.pairwise_append.mpr ⟨pairwise_held (hr ▸ ringSizeOk_le hn) (.rxSlot c.id) (fun _ _ e => by cases e; rfl) horx,
      pairwise_held (ht ▸ ringSizeOk_le hm) (.txSlot c.id) (fun _ _ e => by cases e; rfl) hotx, fun y hy z hz b e e' => ?_⟩
    subst e e'
    obtain ⟨j, hj, ej⟩ := List.getElem_of_mem hy
    obtain ⟨k, hk, ek⟩ := List.getElem_of_mem hz
    obtain ⟨i, -, hi⟩ := exists_half (hr ▸ ringSizeOk_le hn) hj
    obtain ⟨l, -, hl⟩ := exists_half (ht ▸ ringSizeOk_le hm) hk
    cases (horx i b (hi.trans ej)).symm.trans (hotx l b (hl.trans ek))
  refine List.pairwise_filterMap.mpr (hpair.imp fun {y z} hyz b hb b' hb' e => ?_)
  subst e
  exact hyz b (Option.filter_eq_some_iff.mp hb).1 (Option.filter_eq_some_iff.mp hb').1

end Places

theorem mem_hostBufs {n : Nat} :
    b ∈ (List.range n).filter (fun b => (s.buf? b).any fun r => r.owner == .host) ↔ b < n ∧ s.owner? b = some .host := by
  rw [List.mem_filter, List.mem_range, State.owner?]
  cases s.buf? b <;> simp

/-- The free buffers, those in slots and those with the host are the pool's, each once (R308). -/
theorem Places.perm_range (h : Places s) (hid : idsOk s) (hx : ∀ c ∈ s.ctlrs, indexOk c) :
    (s.free ++ (s.ctlrs.flatMap (Ctlr.heldPool s.pool.npool)
      ++ (List.range s.pool.npool).filter fun b => (s.buf? b).any fun r => r.owner == .host)).Perm
      (List.range s.pool.npool) := by
  have hheld : ∀ b, b ∈ s.ctlrs.flatMap (Ctlr.heldPool s.pool.npool) ↔
      b < s.pool.npool ∧ ∃ c ∈ s.ctlrs, ∃ p : Owner, p.slotOf c.id ∧ s.owner? b = some p := fun b => by
    rw [List.mem_flatMap]
    constructor
    · rintro ⟨c, hc, hb⟩
      obtain ⟨hlt, hp⟩ := (h.mem_heldPool (hx c hc) hc).mp hb
      exact ⟨hlt, c, hc, hp⟩
    · rintro ⟨hlt, c, hc, hp⟩
      exact ⟨c, hc, (h.mem_heldPool (hx c hc) hc).mpr ⟨hlt, hp⟩⟩
  have hlt : ∀ b ∈ s.free, b < s.pool.npool := fun b hb =>
    (h.origins b _ (h.poolOnly b _ ((h.pool b).mp hb) (.inl rfl))).mp rfl
  have hheldNodup : (s.ctlrs.flatMap (Ctlr.heldPool s.pool.npool)).Nodup := by
    refine List.nodup_flatMap.mpr ⟨fun c hc => h.nodup_heldPool (hx c hc) hc _, ?_⟩
    refine (List.pairwise_map.mp hid.1).imp_of_mem fun {c d} hc hd hne => ?_
    intro b hb hb'
    obtain ⟨-, p, hp, ho⟩ := (h.mem_heldPool (hx c hc) hc).mp hb
    obtain ⟨-, q, hq, ho'⟩ := (h.mem_heldPool (hx d hd) hd).mp hb'
    cases ho.symm.trans ho'
    exact hne (slotOf_unique hp hq)
  refine (List.perm_ext_iff_of_nodup ?_ List.nodup_range).mpr fun b => ?_
  · refine List.nodup_append'.mpr ⟨h.nodup, List.nodup_append'.mpr ⟨hheldNodup, List.nodup_range.filter _, ?_⟩, ?_⟩
    · intro b hb hb'
      obtain ⟨-, c, -, p, hp, ho⟩ := (hheld b).mp hb
      cases ho.symm.trans (mem_hostBufs.mp hb').2
      exact (slot_ne_of_slotOf hp).2 rfl
    · intro b hb hb'
      have hpool := (h.pool b).mp hb
      rcases List.mem_append.mp hb' with hb' | hb'
      · obtain ⟨-, c, -, p, hp, ho⟩ := (hheld b).mp hb'
        cases ho.symm.trans hpool
        exact (slot_ne_of_slotOf hp).1 rfl
      · cases hpool.symm.trans (mem_hostBufs.mp hb').2
  · rw [List.mem_append, List.mem_append, List.mem_range, hheld, mem_hostBufs]
    refine ⟨fun hb => hb.elim (hlt b) fun hb => hb.elim And.left And.left, fun hb => ?_⟩
    obtain ⟨o, ho⟩ := Option.isSome_iff_exists.mp (h.known b hb)
    have slot : ∀ k, o.slotOf k → ∃ c ∈ s.ctlrs, ∃ p : Owner, p.slotOf c.id ∧ s.owner? b = some p := fun k hk => by
      obtain ⟨c, hc, rfl⟩ := h.ctlr b k o ho hk
      exact ⟨c, hc, o, hk, ho⟩
    cases o with
    | pool => exact .inl ((h.pool b).mpr ho)
    | rxSlot k i => exact .inr (.inl ⟨hb, slot k rfl⟩)
    | txSlot k i => exact .inr (.inl ⟨hb, slot k rfl⟩)
    | host => exact .inr (.inr ⟨hb, ho⟩)

theorem Places.conserved (h : Places s) (hid : idsOk s) (hx : ∀ c ∈ s.ctlrs, indexOk c) : conserved s := by
  have hlen := (h.perm_range hid hx).length_eq
  have hsum : (s.ctlrs.flatMap (Ctlr.heldPool s.pool.npool)).length = (s.ctlrs.map (poolSlots s)).sum := by
    rw [List.length_flatMap]
    exact congrArg List.sum (List.map_congr_left fun c _ => (poolSlots_eq_length s c).symm)
  rw [List.length_append, List.length_append, List.length_range, hsum, ← Nat.add_assoc] at hlen
  exact hlen

/-- Settles O14: a buffer moves only by the law of a move, from its owner's place to an empty one (R47, R66, R67); the
pool's buffers are then the free ones, those in slots and those with the host, each once (R308). -/
theorem stepKeepsBufferPlaces : Obligations.StepKeepsBufferPlaces := by
  refine ⟨fun s t h hid hc hp => ?_, fun s hid hx hp => (placesOk_iff.mp hp).conserved hid hx⟩
  exact (step_keeps_places h hid hc (placesOk_iff.mp hp)).imp_left placesOk_iff.mpr

end Sys2Proof.Machine
end

section
/-!
SUPPORT. What only grows and what lasts over a step: fault records and traces (R60, R62, R455), identifiers (R473), and the
states Faulted and Halted (R320).
-/

namespace Sys2Proof.Machine

variable {s t u : State} {c d : Ctlr} {a : AgentId}

/-! ## The fault record and the trace -/

/-- The fault record and the trace of the selected controller only grow. -/
structure RecordsGrow (s t : State) : Prop where
  fault : s.c.fault <+: t.c.fault
  trace : s.c.trace <+: t.c.trace

namespace RecordsGrow

theorem trans (h : RecordsGrow s t) (k : RecordsGrow t u) : RecordsGrow s u :=
  ⟨h.fault.trans k.fault, h.trace.trans k.trace⟩

theorem of_eq (hf : t.c.fault = s.c.fault := by rfl) (ht : t.c.trace = s.c.trace := by rfl) : RecordsGrow s t :=
  ⟨hf ▸ List.prefix_rfl, ht ▸ List.prefix_rfl⟩

theorem refl (s : State) : RecordsGrow s s := of_eq

theorem emit (s : State) (e : TraceEv) : RecordsGrow s (s.emit e) := ⟨List.prefix_rfl, List.prefix_append _ _⟩
theorem mmioWrite (s : State) (r : Reg) (v : Word) : RecordsGrow s (Machine.mmioWrite s r v) :=
  ⟨List.prefix_rfl, List.prefix_append _ _⟩
theorem mmioRead (s : State) (r : Reg) : RecordsGrow s (Machine.mmioRead s r).2 :=
  ⟨List.prefix_rfl, List.prefix_append _ _⟩
theorem finishLc (s : State) (st : Status) : RecordsGrow s (Machine.finishLc s st) :=
  ⟨List.prefix_rfl, List.prefix_append _ _⟩
theorem fatal (s : State) (r : FaultRec) : RecordsGrow s (Machine.fatal s r) :=
  ⟨List.prefix_append _ _, List.prefix_append _ _⟩
theorem lcJump (s : State) (x : LcCtl) : RecordsGrow s (Machine.lcJump x s) := of_eq

theorem workerFrame {cls : Word} (h : WorkerFrame cls s t) : RecordsGrow s t := ⟨h.fault, h.trace⟩

end RecordsGrow

theorem lcFreeTx_grows (s : State) (i : Nat) : RecordsGrow s (lcFreeTx s i) := by
  unfold lcFreeTx releaseTx
  split
  · rename_i b _
    refine RecordsGrow.trans ?_ (.emit _ _)
    rcases releaseBuf_cases (s.modC fun c => { c with tb := c.tb.set i none }) b with e | e | e <;> rw [e] <;> exact .of_eq
  · exact .refl s

theorem repStep_grows {p : RepPc} {draw : Nat} {jump : RepPc → State → State} {done : State → State}
    (hj : ∀ q v, RecordsGrow v (jump q v)) (hd : ∀ v, RecordsGrow v (done v))
    (h : repStep s p draw jump done = .go t) : RecordsGrow s t := by
  rcases repStep_go h with ⟨-, rfl⟩ | ⟨-, -, rfl⟩ | ⟨-, b, u, hp, rfl⟩ | ⟨-, rfl⟩ | ⟨b, -, rfl⟩ | ⟨b, r, -, -, rfl⟩ |
    ⟨b, r, -, -, rfl⟩ | ⟨b, u, -, rfl, rfl⟩ | ⟨-, rfl⟩
  · exact (RecordsGrow.emit _ _).trans (hj _ _)
  · exact RecordsGrow.trans (t := { s with plock := none }) .of_eq (hj _ _)
  · obtain ⟨-, rfl⟩ := poolPop_some hp
    exact RecordsGrow.trans .of_eq (hj _ _)
  · exact (RecordsGrow.emit _ _).trans (hj _ _)
  · exact RecordsGrow.trans .of_eq (hj _ _)
  · exact RecordsGrow.trans .of_eq (hj _ _)
  · exact RecordsGrow.trans .of_eq (hj _ _)
  · exact RecordsGrow.trans .of_eq (hj _ _)
  · exact (RecordsGrow.mmioWrite _ _ _).trans (hd _)

theorem hsStep_grows {r : Reg} {req : Word} {err cpl : Word → Bool} {p : HsPc} {jump : HsPc → State → State}
    {done : Bool → Word → State → State} (hj : ∀ q v, RecordsGrow v (jump q v))
    (hd : ∀ ok w v, RecordsGrow v (done ok w v)) (h : hsStep s r req err cpl p jump done = .go t) :
    RecordsGrow s t := by
  rcases hsStep_go h with ⟨-, rfl⟩ | ⟨i, -, rfl | ⟨-, -, rfl⟩ | rfl⟩ | ⟨i, -, rfl⟩
  · exact (RecordsGrow.mmioWrite _ _ _).trans (hj _ _)
  · exact (RecordsGrow.mmioRead _ _).trans (hd _ _ _)
  · exact (RecordsGrow.mmioRead _ _).trans (hd _ _ _)
  · exact (RecordsGrow.mmioRead _ _).trans (hj _ _)
  · exact hj _ _

/-- `LC` adds to the record in `fatal` alone, and to the trace with every transaction, event and status. -/
theorem lcStep_grows {n : Nat} (h : lcStep s n = .go t) : RecordsGrow s t := by
  have jumped : ∀ {u : State} {x : LcCtl}, RecordsGrow s u → RecordsGrow s (lcJump x u) := fun k => k.trans (.lcJump _ _)
  cases hc : s.c.lcCtl <;> simp only [lcStep, hc] at h
  case idle => cases h
  case a1 =>
    split at h <;> cases h
    · exact jumped (.mmioWrite _ _ _)
    · exact jumped (.refl s)
  case b1 w q =>
    unfold eeReadStep at h
    refine hsStep_grows (fun _ v => .lcJump v _) (fun ok w v => ?_) h
    unfold lcEeDone
    split <;> exact .of_eq
  case c1 b | c2 b | i8 b | t8 b =>
    cases b <;> obtain rfl := StepRes.go.inj h <;> exact jumped (.mmioWrite _ _ _)
  case i10 p => exact repStep_grows (fun _ v => .lcJump v _) (fun v => .lcJump v _) h
  case z1 => obtain ⟨-, rfl⟩ := acquireM_go h; exact jumped .of_eq
  case u1 => obtain ⟨-, rfl⟩ := acquireS_go h; exact .of_eq
  case z8 b =>
    cases b <;> obtain rfl := StepRes.go.inj h
    · exact .fatal _ _
    · exact RecordsGrow.trans (t := s.modC _) .of_eq (.finishLc _ _)
  all_goals obtain rfl := StepRes.go.inj h
  case rmwR | pollR | promiscR | u3 => exact jumped (.mmioRead _ _)
  case pollD => exact .lcJump s _
  case fatal r => exact .fatal s r
  case b0 | c5 | d3 => exact .of_eq
  case b2 =>
    unfold lcChecksum
    simp only
    split
    · exact .of_eq
    · exact .fatal _ _
  case b3 => exact (RecordsGrow.mmioRead s .status).trans .of_eq
  case u2 k => exact (RecordsGrow.mmioRead s (.stat (Fin.ofNat 73 k))).trans .of_eq
  case i4 | t4 | z2 => exact jumped (.trans (t := s.modC _) .of_eq (.mmioWrite _ _ _))
  case i6 i =>
    refine jumped ?_
    unfold lcFreeRx
    split <;> exact .of_eq
  case t6 i => exact jumped (lcFreeTx_grows s i)
  case i7 i f =>
    refine jumped ?_
    unfold zeroRd
    split <;> exact .of_eq
  case t7 i f =>
    refine jumped ?_
    unfold zeroTd
    split <;> exact .of_eq
  case d4 | u5 => exact RecordsGrow.trans (t := s.modC _) .of_eq (.finishLc _ _)
  case z7 => exact jumped .of_eq
  case promiscW | mcastW | tunableW => exact (RecordsGrow.mmioWrite _ _ _).trans (.finishLc _ _)
  case u3e | u4 => exact jumped (.emit _ _)
  all_goals exact jumped (.mmioWrite _ _ _)

theorem agentStep_grows {n : Nat} (h : agentStep a n s = .go t) : RecordsGrow s t := by
  cases a with
  | disp =>
    obtain ⟨hc, ht⟩ := dispStep_frame h
    exact ⟨by rw [hc], ht⟩
  | rxw => exact .workerFrame (rxwStep_frame h)
  | txw => exact .workerFrame (txwStep_frame h)
  | lnk => exact .workerFrame (lnkStep_frame h)
  | lc => exact lcStep_grows h
  | txc k => exact .workerFrame (txcStep_frame h)

theorem mmioOp_grows {r : Reg} {x : Access} (h : mmioOp r x s = .next t) : RecordsGrow s t := by
  rcases mmioOp_next h with ⟨-, rfl⟩ | ⟨v, -, rfl⟩
  · exact .mmioRead s r
  · exact .mmioWrite s r v

theorem causeOp_grows {w : Word} (h : causeOp w s = .next t) : RecordsGrow s t := by
  cases h
  unfold takeInterrupt
  split <;> exact .of_eq

theorem NicFrame.grows (h : NicFrame s t) : RecordsGrow s t := .of_eq (by rw [h.c]) (by rw [h.c])

theorem rxdesc_grows {x : RxDesc} (h : execRxdesc x s = .next t) : RecordsGrow s t := by
  obtain rfl := Host.Outcome.next.inj h
  split
  · exact (nicRx_frame s x []).grows
  · exact .refl s

theorem txdescLegacy_grows {len : Half} (h : execTxdescLegacy len s = .next t) : RecordsGrow s t := by
  unfold execTxdescLegacy at h
  split at h <;> cases h
  · exact .of_eq
  · exact ⟨List.prefix_append _ _, List.prefix_rfl⟩

theorem exec_grows {i : Instr} (hf : i.format ≠ .hostCmd) (h : exec i s = .next t) : RecordsGrow s t := by
  cases i <;> first
    | exact absurd rfl hf
    | exact mmioOp_grows h
    | exact causeOp_grows h
    | exact rxdesc_grows h
    | exact txdescLegacy_grows h
    | cases h

/-! ## A controller over a step -/

/-- The controller keeps its identifier, its records grow, and it stays Faulted or Halted. -/
structure Lasts (c d : Ctlr) : Prop where
  ident : d.id = c.id
  fault : c.fault <+: d.fault
  trace : c.trace <+: d.trace
  faulted : c.lc = .faulted → d.lc = .faulted
  halted : c.lc = .halted → d.lc = .halted

theorem Lasts.refl (c : Ctlr) : Lasts c c := ⟨rfl, List.prefix_rfl, List.prefix_rfl, id, id⟩

theorem Lasts.of_grow (h : RecordsGrow s t) (hi : t.c.id = s.c.id) (hl : t.c.lc = s.c.lc) : Lasts s.c t.c :=
  ⟨hi, h.fault, h.trace, fun e => hl.trans e, fun e => hl.trans e⟩

/-- `LC` changes the lifecycle state only in ATTACH, at line D4 and in SHUTDOWN, in none of which it is Faulted or
Halted. -/
theorem LcFlow.lasts (m : LcFlow c d) (h : startOk c) :
    d.lc = c.lc ∨ (c.lc ≠ .faulted ∧ c.lc ≠ .halted) := by
  have attaching : c.lc.attaching = true → c.lc ≠ .faulted ∧ c.lc ≠ .halted := fun e => by
    constructor <;> intro k <;> rw [k] at e <;> cases e
  cases m with
  | attach hc _ _ _ _ => exact .inr (attaching (h.attach hc).1)
  | failed hc _ _ _ _ => exact .inr (attaching (h.attach hc).1)
  | ready hc _ _ _ _ => exact .inr (attaching (h.d4 hc).1.1)
  | ended b hc _ _ _ _ =>
    rw [h.shutdown (by rw [hc]; rfl)]
    exact .inr ⟨nofun, nofun⟩
  | start _ _ hl _ _ _ _ _ _ _ | lock _ _ hl _ _ _ | shut _ _ hl _ _ | unlock _ _ _ hl _ _ | control _ _ hl _ _ =>
    exact .inl hl

theorem agentStep_lasts {n : Nat} (h : agentStep a n s = .go t) (hs : startOk s.c) : Lasts s.c t.c := by
  have hg := agentStep_grows h
  have hi := (agentStep_kept h).ident
  cases a with
  | disp => exact .of_grow hg hi (by rw [(dispStep_frame h).1])
  | rxw => exact .of_grow hg hi (rxwStep_move h).others.lc
  | txw => exact .of_grow hg hi (txwStep_move h).others.lc
  | lnk => exact .of_grow hg hi (lnkStep_move h).others.lc
  | txc k => exact .of_grow hg hi (txcStep_move h).others.lc
  | lc =>
    rcases (lcStep_flow h).lasts hs with hl | ⟨hf, hh⟩
    · exact .of_grow hg hi hl
    · exact ⟨hi, hg.fault, hg.trace, (absurd · hf), (absurd · hh)⟩

theorem exec_lasts {i : Instr} (h : exec i s = .next t) : Lasts s.c t.c := by
  by_cases hf : i.format = .hostCmd
  · cases exec_cmd_case hf h with
    | reply es h => rw [h]; exact ⟨rfl, List.prefix_rfl, List.prefix_append _ _, id, id⟩
    | attach hl _ h =>
      rw [h]
      exact ⟨rfl, List.prefix_rfl, List.prefix_rfl, (fun e => nomatch hl.symm.trans e),
        fun e => nomatch hl.symm.trans e⟩
    | tx _ h => rw [h]; exact ⟨rfl, List.prefix_rfl, List.prefix_rfl, id, id⟩
    | shutdown _ _ h =>
      rcases h with ⟨-, h⟩ | h <;> rw [h] <;> exact ⟨rfl, List.prefix_rfl, List.prefix_rfl, id, id⟩
    | control x es _ _ _ h => rw [h]; exact ⟨rfl, List.prefix_rfl, List.prefix_append _ _, id, id⟩
  · have hc := (exec_frame hf h).c
    exact .of_grow (exec_grows hf h) (by rw [hc]) (by rw [hc])

/-! ## Identifiers -/

theorem idsOk.of_selected (h : idsOk s) (ho : t.others = s.others) (hi : t.c.id = s.c.id) : idsOk t := by
  obtain ⟨hn, hle⟩ := h
  refine ⟨?_, fun c hc => ?_⟩
  · simpa only [State.ctlrs, List.map_cons, ho, hi] using hn
  · rw [ho]
    rcases mem_ctlrs.mp hc with rfl | hc
    · rw [hi]; exact hle s.c (selected_mem s)
    · exact hle c (other_mem (ho ▸ hc))

theorem idsOk.select (h : idsOk s) (k : Nat) : idsOk (selectCtlr s k) := by
  have hp := selectCtlr_perm h.1 k
  have hl : (selectCtlr s k).others.length = s.others.length := Nat.succ.inj hp.length_eq
  exact ⟨(hp.map _).nodup_iff.mpr h.1, fun c hc => hl ▸ h.2 c (hp.mem_iff.mp hc)⟩

/-- A discovered controller takes the next number. -/
theorem idsOk.discover (h : idsOk s) (p : Params) (y z : DWord) : idsOk (discoverCtlr s p y z) := by
  obtain ⟨hn, hle⟩ := h
  have hl : (discoverCtlr s p y z).others.length = s.others.length + 1 := List.length_append
  have hctlrs : (discoverCtlr s p y z).ctlrs = s.ctlrs ++ [Ctlr.discovery (s.others.length + 1) p y z] := rfl
  refine ⟨?_, fun c hc => ?_⟩
  · rw [hctlrs, List.map_append, List.nodup_append']
    refine ⟨hn, List.nodup_singleton _, fun k hk hk' => ?_⟩
    obtain ⟨c, hc, rfl⟩ := List.mem_map.mp hk
    have hid : c.id = s.others.length + 1 := List.mem_singleton.mp hk'
    have := hle c hc
    omega
  · rw [hl]
    rcases mem_discoverCtlr hc with hc | rfl
    · exact Nat.le_succ_of_le (hle c hc)
    · exact Nat.le_refl _

/-- A step of the selected controller alone. -/
theorem lasts_of_selected (h : idsOk s) (ho : t.others = s.others) (hc : Lasts s.c t.c) :
    idsOk t ∧ ∀ c ∈ s.ctlrs, ∃ d ∈ t.ctlrs, Lasts c d := by
  refine ⟨h.of_selected ho hc.ident, fun c hm => ?_⟩
  rcases mem_ctlrs.mp hm with rfl | hm
  · exact ⟨t.c, selected_mem t, hc⟩
  · exact ⟨c, other_mem (ho.symm ▸ hm), .refl c⟩

theorem step_lasts (h : step s = .next t) (hid : idsOk s) (hs : ∀ c ∈ s.ctlrs, startOk c) :
    idsOk t ∧ ∀ c ∈ s.ctlrs, ∃ d ∈ t.ctlrs, Lasts c d := by
  rcases step_next h with ⟨w, ws, i, -, -, he⟩ | ⟨e, u, -, he, hu⟩
  · exact lasts_of_selected (s := { s with port := ws }) hid (exec_others he) (exec_lasts he)
  · obtain ⟨hcs, hidu⟩ : u.ctlrs = s.ctlrs ∧ idsOk u := by
      rcases hu with ⟨es, -, rfl⟩ | ⟨-, -, rfl⟩ <;> exact ⟨rfl, hid⟩
    rw [← hcs] at hs ⊢
    rcases eventAct_next he with ⟨a, n, -, hg | rfl⟩ | ⟨x, -, rfl⟩ | ⟨x, -, hx⟩ | ⟨k, -, rfl⟩ | ⟨p, y, z, -, hd⟩
    · exact lasts_of_selected hidu (agentStep_kept hg).others (agentStep_lasts hg (hs u.c (selected_mem u)))
    · exact ⟨hidu, fun c hc => ⟨c, hc, .refl c⟩⟩
    · have hf := nicAct_frame u x
      exact lasts_of_selected hidu hf.others (.of_grow hf.grows (by rw [hf.c]) (by rw [hf.c]))
    · obtain ⟨ho, -, hc⟩ := hostAct_next hx
      refine lasts_of_selected hidu ho ?_
      rcases hc with e | ⟨b, e⟩ <;> rw [e]
      · exact .refl _
      · exact ⟨rfl, List.prefix_rfl, List.prefix_rfl, id, id⟩
    · have hp := selectCtlr_perm hidu.1 k
      exact ⟨hidu.select k, fun c hc => ⟨c, hp.mem_iff.mpr hc, .refl c⟩⟩
    · obtain ⟨-, rfl⟩ := launch_next hd
      exact ⟨hidu.discover p y z, fun c hc => ⟨c, List.mem_append_left _ hc, .refl c⟩⟩

/-- Settles O15: records and traces are only appended to, and `LC` leaves neither Faulted nor Halted (R320, R455). -/
theorem recordsGrowAndEndStatesLast : Obligations.RecordsGrowAndEndStatesLast := by
  intro s t h hid hs
  refine (step_lasts h hid hs).imp_right fun k c hc => ?_
  obtain ⟨d, hd, m⟩ := k c hc
  exact ⟨d, hd, m.ident, m.fault, m.trace, m.faulted, m.halted⟩

end Sys2Proof.Machine
end

section
/-! SUPPORT. What the `HOST` may do (O60): when each action of its is accepted, and the byte a data write changes. -/

namespace Sys2Proof.Machine

variable {s : State} {b : BufId} {r : Buf}

/-! ## A write to memory in any form, the canonical one or not -/

theorem Mem.get_put_of_ne (m : List Host.Cell) {a x : Nat} (v : Byte) (h : x ≠ a) :
    Mem.get (Mem.put m a v) x = Mem.get m x := by
  induction m with
  | nil =>
    simp only [Mem.put]
    split
    · rfl
    · exact if_neg h.symm
  | cons p m ih =>
    obtain ⟨y, c⟩ := p
    simp only [Mem.put]
    split
    · split
      · rfl
      · exact if_neg h.symm
    · split
      · rename_i hay
        have hy : (if y = x then c else Mem.get m x) = Mem.get m x := if_neg (hay ▸ h.symm)
        split
        · exact hy.symm
        · exact (if_neg (hay ▸ h.symm)).trans hy.symm
      · simp only [Mem.get, ih]

theorem Mem.read8_write8_ne (m : List Host.Cell) {a x : DWord} (v : Byte) (h : x ≠ a) :
    Mem.read8 (Mem.write8 m a v) x = Mem.read8 m x :=
  Mem.get_put_of_ne m v fun e => h (BitVec.eq_of_toNat_eq e)

/-! ## What the tests of the actions say -/

theorem hostOwns_of_owner (hr : s.buf? b = some r) (ho : r.owner = .host) (hq : ∀ c ∈ s.ctlrs, b ∉ c.oq) :
    hostOwns s b = true :=
  hostOwns_iff.mpr ⟨owner?_eq_some.mpr ⟨r, hr, ho⟩, hq⟩

theorem hostOwns_eq_false (h : (∀ r, s.buf? b = some r → r.owner ≠ .host) ∨ ∃ c ∈ s.ctlrs, b ∈ c.oq) :
    hostOwns s b = false := by
  refine Bool.eq_false_iff.mpr fun k => ?_
  obtain ⟨ho, hq⟩ := hostOwns_iff.mp k
  rcases h with h | ⟨c, hc, hb⟩
  · obtain ⟨r, hr, hr'⟩ := owner?_eq_some.mp ho
    exact h r hr hr'
  · exact hq c hc hb

theorem enqueueOk_eq (h : hostOwns s b = true) (hr : s.buf? b = some r) : enqueueOk s b = (r.wp - r.rp != 0#32) := by
  simp only [enqueueOk, h, hr, Bool.true_and, Buf.len]

theorem cursorsOk_iff (h : hostOwns s b = true) (hr : s.buf? b = some r) {rp wp lim : Word} :
    cursorsOk s b rp wp lim = true ↔ rp ≤ wp ∧ wp ≤ lim ∧ lim ≤ r.cap := by
  simp [cursorsOk, h, hr, and_assoc]

theorem dataOk_iff (h : hostOwns s b = true) (hr : s.buf? b = some r) {off : Word} :
    dataOk s b off = true ↔ off < r.cap := by
  simp [dataOk, h, hr]

theorem supplyOk_iff {base : DWord} {cap : Word} : supplyOk s b base cap = true ↔
    s.pool.npool ≤ b ∧ s.buf? b = none ∧ disjointOk (supplyBuf s b base cap) = true := by
  simp [supplyOk, and_assoc]

/-! ## The actions -/

/-- A buffer the host owns and no queue holds (R375). -/
structure AtHost (s : State) (b : BufId) (r : Buf) : Prop where
  owns : hostOwns s b = true
  found : s.buf? b = some r

namespace AtHost

variable (h : AtHost s b r)
include h

theorem enqueue_next (hl : r.wp - r.rp ≠ 0#32) :
    hostAct s (.enqueue b) = .next { s with c := { s.c with oq := s.c.oq ++ [b] } } :=
  if_pos ((enqueueOk_eq h.owns h.found).trans (bne_iff_ne.mpr hl))

theorem enqueue_refused (hl : r.wp - r.rp = 0#32) : hostAct s (.enqueue b) = .refused .hostDuty :=
  if_neg fun k => bne_iff_ne.mp ((enqueueOk_eq h.owns h.found).symm.trans k) hl

theorem cursors_next {rp wp lim : Word} (h1 : rp ≤ wp) (h2 : wp ≤ lim) (h3 : lim ≤ r.cap) :
    ∃ t, hostAct s (.cursors b rp wp lim) = .next t ∧ t.buf? b = some { r with rp := rp, wp := wp, lim := lim }
      ∧ (∀ x, x ≠ b → t.buf? x = s.buf? x) ∧ t = { s with bufs := t.bufs } :=
  ⟨_, if_pos ((cursorsOk_iff h.owns h.found).mpr ⟨h1, h2, h3⟩), buf?_modBuf_same h.found,
    fun _ hx => buf?_modBuf_of_ne hx, rfl⟩

theorem cursors_refused {rp wp lim : Word} (hd : wp < rp ∨ lim < wp ∨ r.cap < lim) :
    hostAct s (.cursors b rp wp lim) = .refused .hostDuty := by
  refine if_neg fun k => ?_
  obtain ⟨h1, h2, h3⟩ := (cursorsOk_iff h.owns h.found).mp k
  rcases hd with hd | hd | hd
  · exact BitVec.not_le.mpr hd h1
  · exact BitVec.not_le.mpr hd h2
  · exact BitVec.not_le.mpr hd h3

theorem data_next {off : Word} {v : Byte} (ho : off < r.cap) :
    hostAct s (.data b off v) = .next (s.setMem (Mem.write8 s.mem (r.base + off.setWidth 64) v)) := by
  have e : writeData s b off v = s.setMem (Mem.write8 s.mem (r.base + off.setWidth 64) v) := by
    simp only [writeData, h.found, Buf.pa]
  rw [← e]
  exact if_pos ((dataOk_iff h.owns h.found).mpr ho)

theorem data_refused {off : Word} {v : Byte} (ho : r.cap ≤ off) : hostAct s (.data b off v) = .refused .hostDuty :=
  if_neg fun k => BitVec.not_le.mpr ((dataOk_iff h.owns h.found).mp k) ho

end AtHost

/-- Without the buffer, none of the three actions on it (R375, U16). -/
theorem refused_of_hostOwns_false (h : hostOwns s b = false) :
    hostAct s (.enqueue b) = .refused .hostDuty
      ∧ (∀ rp wp lim : Word, hostAct s (.cursors b rp wp lim) = .refused .hostDuty)
      ∧ ∀ (off : Word) (v : Byte), hostAct s (.data b off v) = .refused .hostDuty := by
  refine ⟨if_neg ?_, fun rp wp lim => if_neg ?_, fun off v => if_neg ?_⟩ <;>
    simp [enqueueOk, cursorsOk, dataOk, h]

theorem supply_next {base : DWord} {cap : Word} (hn : s.pool.npool ≤ b) (hb : s.buf? b = none)
    (hd : disjointOk (supplyBuf s b base cap) = true) :
    ∃ t, hostAct s (.supply b base cap) = .next t
      ∧ (∃ r, t.buf? b = some r ∧ r.base = base ∧ r.cap = cap ∧ r.origin = .host ∧ r.owner = .host ∧ r.rp = 0#32)
      ∧ (∀ x, x ≠ b → t.buf? x = s.buf? x) ∧ t = { s with bufs := t.bufs } :=
  ⟨supplyBuf s b base cap, if_pos (supplyOk_iff.mpr ⟨hn, hb, hd⟩),
    ⟨Buf.supplied base cap, (bufGet_bufInsert s.bufs b b _ hb).trans (if_pos rfl), rfl, rfl, rfl, rfl, rfl⟩,
    fun x hx => (bufGet_bufInsert s.bufs b x _ hb).trans (if_neg hx), rfl⟩

theorem supply_refused {base : DWord} {cap : Word}
    (h : b < s.pool.npool ∨ (∃ r, s.buf? b = some r) ∨ disjointOk (supplyBuf s b base cap) = false) :
    hostAct s (.supply b base cap) = .refused .hostDuty := by
  refine if_neg fun k => ?_
  obtain ⟨hn, hb, hd⟩ := supplyOk_iff.mp k
  rcases h with h | ⟨r, hr⟩ | h
  · exact Nat.not_le.mpr h hn
  · exact Option.some_ne_none r (hr.symm.trans hb)
  · exact Bool.false_ne_true (h.symm.trans hd)

/-- Settles O60: each action is its test, and each test is what the lemmas above say it is. -/
theorem hostActionsAreDuties : Obligations.HostActionsAreDuties := by
  unfold Obligations.HostActionsAreDuties
  refine fun s b => ⟨fun w => rfl, fun r hr ho hq => ?_, fun h => refused_of_hostOwns_false (hostOwns_eq_false h),
    fun base cap => ⟨supply_next, supply_refused⟩⟩
  have h : AtHost s b r := ⟨hostOwns_of_owner hr ho hq, hr⟩
  exact ⟨h.enqueue_next, h.enqueue_refused, fun _ _ _ => h.cursors_next, fun _ _ _ => h.cursors_refused,
    fun off v hoff => ⟨_, h.data_next hoff, fun hw => (Mem.read8_write8 hw _ _ _).trans (if_pos rfl),
      fun x hx => Mem.read8_write8_ne _ _ hx, rfl⟩,
    fun _ _ => h.data_refused⟩

end Sys2Proof.Machine
end

section
/-! SUPPORT. REPLENISH step by step, whichever caller runs it (O40). -/

namespace Sys2Proof.Machine

variable {s u : State} {x : RepCaller} {d n : Nat} {p q : RepPc}

/-! ## The caller's place -/

/-- A step of a caller at a line of REPLENISH is the routine's. -/
theorem agentStep_rep (h : x.line s.c = some p) :
    agentStep x.agent d s = repStep s p d (fun q t => x.goto q t) fun t => x.leave t := by
  cases x with
  | harvest =>
    cases hc : s.c.rxw.ctl <;> simp only [RepCaller.line, hc] at h <;> cases h
    simp only [agentStep, RepCaller.agent, rxwStep, hc]
    rfl
  | retry =>
    cases hc : s.c.rxw.ctl <;> simp only [RepCaller.line, hc] at h <;> cases h
    simp only [agentStep, RepCaller.agent, rxwStep, hc]
    rfl
  | init =>
    cases hc : s.c.lcCtl <;> simp only [RepCaller.line, hc] at h <;> cases h
    simp only [agentStep, RepCaller.agent, lcStep, hc]
    rfl

/-- A caller that is moved stands where it was moved. -/
theorem line_goto : x.line (x.goto q u).c = some q := by cases x <;> rfl

/-- What a caller leaves behind does not depend on the line it came from. -/
theorem leave_goto : x.leave (x.goto q u) = x.leave u := by cases x <;> rfl

theorem mmioWrite_goto (r : Reg) (v : Word) : mmioWrite (x.goto q u) r v = x.goto q (mmioWrite u r v) := by
  cases x <;> rfl

theorem goto_rdt : (x.goto q u).c.rdt = u.c.rdt := by cases x <;> rfl

theorem goto_emit (e : TraceEv) : (x.goto q u).emit e = x.goto q (u.emit e) := by cases x <;> rfl

theorem goto_goto : x.goto p (x.goto q u) = x.goto p u := by cases x <;> rfl

/-! ## The lines that end the filling -/

/-- Line R9 writes the soft tail as it stands. -/
theorem mmioWrite_rdt (s : State) : mmioWrite s .rdt (s.c.rdt.setWidth 32) = { s with c := { s.c with
    regs := { s.c.regs with rdt := s.c.rdt }
    trace := s.c.trace ++ [.mmioW .rdt (s.c.rdt.setWidth 32)] } } := by
  have e : ringIndex (s.c.rdt.setWidth 32) = s.c.rdt := by simp [ringIndex]
  simp only [mmioWrite, regWrite, devAfterWrite, e]
  rfl

theorem turn_r9 (h : x.line s.c = some .r9) :
    turn x.agent d (n + 1) s = turn x.agent d n (x.leave (mmioWrite s .rdt (s.c.rdt.setWidth 32))) :=
  turn_go (agentStep_rep h)

theorem turn_goto_r9 : turn x.agent d (n + 1) (x.goto .r9 u) =
    turn x.agent d n (x.leave (mmioWrite u .rdt (u.c.rdt.setWidth 32))) := by
  rw [turn_r9 line_goto, goto_rdt, mmioWrite_goto, leave_goto]

theorem turn_r2 (h : x.line s.c = some .r2) :
    turn x.agent d (n + 1) s = turn x.agent d n (x.goto .r9 (s.emit (.rxSlotBusy s.c.rdt))) :=
  turn_go (agentStep_rep h)

theorem turn_r3_empty (h : x.line s.c = some .r3) (hf : s.free = []) :
    turn x.agent d (n + 1) s = turn x.agent d n (x.goto .r4 { s with plock := none }) :=
  turn_go ((agentStep_rep h).trans (by simp only [repStep, poolPop_none.mpr hf]))

theorem turn_goto_r4 : turn x.agent d (n + 1) (x.goto .r4 u) =
    turn x.agent d n (x.goto .r9 (u.emit .rxPoolEmpty)) := by
  rw [turn_go (agentStep_rep line_goto), goto_emit]
  simp only [goto_goto]

/-- Settles O40: every end of the filling goes to line R9, and line R9 writes the tail and leaves. -/
theorem replenishStopsAndWritesTail : Obligations.ReplenishStopsAndWritesTail := by
  unfold Obligations.ReplenishStopsAndWritesTail
  refine ⟨fun c => ⟨repNext_eq_r9 c, repNext_eq_r2 c, repNext_eq_r3 c⟩,
    fun s d x => ⟨fun h => ?_, fun h hf => ?_, fun h => ?_⟩⟩
  · rw [turn_r2 h, turn_goto_r9, mmioWrite_rdt, turn]
    simp only [State.emit, List.append_assoc, List.cons_append, List.nil_append]
  · rw [turn_r3_empty h hf, turn_goto_r4, turn_goto_r9, mmioWrite_rdt, turn]
    simp only [State.emit, List.append_assoc, List.cons_append, List.nil_append]
  · rw [turn_r9 h, mmioWrite_rdt, turn]

end Sys2Proof.Machine
end

section
/-! SUPPORT. The state after reset (O7): discovery, the pool's buffers and ranges, and the invariants there. -/

namespace Sys2Proof.Machine

/-! ## Discovery meets what the launch and the invariants ask of a controller (R500) -/

theorem discovery_clean (k : Nat) (p : Params) (x y : DWord) : ctlrClean (Ctlr.discovery k p x y) = true :=
  decide_eq_true rfl

theorem discovery_maskOk (k : Nat) (p : Params) (x y : DWord) : maskOk (Ctlr.discovery k p x y) := by
  have h : wholeClasses 0#32 = true := by decide
  exact ⟨h, h, h, BitVec.zero_and⟩

theorem discovery_syncOk (k : Nat) (p : Params) (x y : DWord) : syncOk (Ctlr.discovery k p x y) :=
  .inr ⟨nofun, fun _ => rfl, nofun, nofun, fun _ => .inl rfl, nofun, nofun⟩

/-! ## Ranges in order -/

theorem insertRange_of_apart {x : Nat × Nat} {xs : List (Nat × Nat)} (h : rangesApart (x :: xs) = true) :
    insertRange x xs = x :: xs := by
  cases xs with
  | nil => rfl
  | cons y ys =>
    simp only [rangesApart, Bool.and_eq_true, decide_eq_true_eq] at h
    exact if_pos (Nat.le_of_add_right_le h.1)

theorem rangesApart_tail {x : Nat × Nat} {xs : List (Nat × Nat)} (h : rangesApart (x :: xs) = true) :
    rangesApart xs = true := by
  cases xs with
  | nil => rfl
  | cons y ys => exact (Bool.and_eq_true_iff.mp h).2

/-- Ranges listed in order need no sorting. -/
theorem foldr_insertRange_of_apart {xs : List (Nat × Nat)} (h : rangesApart xs = true) :
    xs.foldr insertRange [] = xs := by
  induction xs with
  | nil => rfl
  | cons x xs ih => rw [List.foldr_cons, ih (rangesApart_tail h), insertRange_of_apart h]

theorem disjointOk_of_apart {s : State} (h : rangesApart (dmaRanges s) = true) : disjointOk s = true := by
  rw [disjointOk, foldr_insertRange_of_apart h, h]

/-- Ranges that each end where the next may begin. -/
theorem rangesApart_range' (f : Nat → Nat × Nat) (n k : Nat)
    (h : ∀ b, b < k + n → (f b).1 + (f b).2 ≤ (f (b + 1)).1 ∧ (f (b + 1)).1 ≤ 2 ^ 64) :
    rangesApart ((List.range' k n).map f) = true := by
  induction n generalizing k with
  | zero => rfl
  | succ n ih =>
    have hk := h k (by omega)
    have ht := ih (k + 1) fun b hb => h b (by omega)
    cases n with
    | zero => exact decide_eq_true (hk.1.trans hk.2)
    | succ n => exact Bool.and_eq_true_iff.mpr ⟨decide_eq_true hk.1, ht⟩

/-! ## The pool's buffers (R300, log 5) -/

theorem bufGet_map (g : BufId → Buf) (l : List BufId) (x : BufId) :
    bufGet (l.map fun b => (b, g b)) x = if x ∈ l then some (g x) else none := by
  induction l with
  | nil => rfl
  | cons b l ih =>
    by_cases h : b = x
    · simp [bufGet, h]
    · simp [bufGet, h, Ne.symm h, ih]

theorem reset_bufs : State.reset.bufs = (List.range 512).map fun b => (b, Buf.pool 2048 b) := by
  simp only [State.reset, PoolParams.reference]

theorem reset_free : State.reset.free = List.range 512 := by simp only [State.reset, PoolParams.reference]

theorem reset_buf? (x : BufId) : State.reset.buf? x = if x < 512 then some (Buf.pool 2048 x) else none := by
  rw [State.buf?, reset_bufs, bufGet_map]
  simp only [List.mem_range]

theorem reset_buf?_of_lt {x : BufId} (h : x < 512) : State.reset.buf? x = some (Buf.pool 2048 x) :=
  (reset_buf? x).trans (if_pos h)

theorem reset_owner? {x : BufId} {o : Owner} : State.reset.owner? x = some o ↔ x < 512 ∧ o = .pool := by
  rw [State.owner?, reset_buf?]
  split <;> simp [*, Buf.pool, eq_comm]

theorem reset_origin? {x : BufId} {g : Origin} : State.reset.origin? x = some g ↔ x < 512 ∧ g = .pool := by
  rw [State.origin?, reset_buf?]
  split <;> simp [*, Buf.pool, eq_comm]

theorem mem_reset_free {x : BufId} : x ∈ State.reset.free ↔ x < 512 := by
  rw [reset_free, List.mem_range]

theorem mem_reset_ctlrs {c : Ctlr} : c ∈ State.reset.ctlrs ↔ c = State.reset.c := List.mem_singleton

theorem pool_base (n : Nat) {b : Nat} (h : b ≤ 512) : (Buf.pool n b).base.toNat = 0x10000000 + 4096 * b := by
  simp only [Buf.pool, BitVec.toNat_add, BitVec.toNat_shiftLeft, BitVec.toNat_ofNat, Nat.shiftLeft_eq]
  omega

/-! ## The launch premises (R512) -/

/-- What the pool buffers of the reference configuration occupy. -/
def poolRange (b : Nat) : Nat × Nat := ((Buf.pool 2048 b).base.toNat, 2048)

theorem poolRange_fst {b : Nat} (h : b ≤ 512) : (poolRange b).1 = 0x10000000 + 4096 * b := pool_base 2048 h

theorem reset_ranges :
    dmaRanges State.reset = (0x100000, 4096) :: (0x200000, 4096) :: (List.range' 0 512).map poolRange := by
  rw [← List.range_eq_range', dmaRanges, reset_bufs, List.map_map]
  rfl

theorem reset_disjoint : disjointOk State.reset = true := by
  refine disjointOk_of_apart ?_
  rw [reset_ranges]
  have hp : rangesApart ((List.range' 0 512).map poolRange) = true := rangesApart_range' _ _ _ fun b hb => by
    rw [poolRange_fst (by omega), poolRange_fst (by omega), poolRange]
    omega
  have h0 : (poolRange 0).1 = 0x10000000 := poolRange_fst (by omega)
  rw [List.range'_succ, List.map_cons] at hp ⊢
  simp only [rangesApart, hp, h0, Bool.and_true]
  decide

theorem reset_launchShape : launchShapeOk Params.reference PoolParams.reference 0x100000#64 0x200000#64 = true := by
  decide

theorem reset_shapes : shapesOk State.reset = true := by
  refine List.all_eq_true.mpr fun c hc => ?_
  obtain rfl := mem_reset_ctlrs.mp hc
  exact Bool.and_eq_true_iff.mpr ⟨reset_launchShape, RegMap.ok_iff_wf.mpr RegMap.pro1000_wf⟩

theorem reset_poolClean : poolClean State.reset = true := by
  have hnodup : State.reset.free.Nodup := reset_free ▸ List.nodup_range
  have hlength : State.reset.free.length = 512 := by rw [reset_free, List.length_range]
  simp only [poolClean, Bool.and_eq_true]
  refine ⟨⟨⟨rfl, decide_eq_true hnodup⟩, beq_iff_eq.mpr hlength⟩, List.all_eq_true.mpr fun b hb => ?_⟩
  have hlt := mem_reset_free.mp hb
  rw [reset_buf?_of_lt hlt, decide_eq_true (show b < State.reset.pool.npool from hlt)]
  rfl

theorem reset_clean : cleanEntry State.reset = true :=
  Bool.and_eq_true_iff.mpr ⟨Bool.and_eq_true_iff.mpr ⟨discovery_clean _ _ _ _, rfl⟩, reset_poolClean⟩

theorem reset_launchable : launchable State.reset = true :=
  launchable_iff.mpr ⟨reset_disjoint, reset_shapes, reset_clean, rfl⟩

/-! ## The invariants -/

theorem reset_places : Places State.reset where
  nodup := reset_free ▸ List.nodup_range
  pool b := by simp [mem_reset_free, reset_owner?]
  slots c hc p hp b := by
    obtain rfl := mem_reset_ctlrs.mp hc
    have hs : State.reset.c.slot p = none := Places.slot_discovery ..
    rw [hs, reset_owner?]
    cases p with
    | rxSlot | txSlot => simp
    | pool | host => cases hp
  ctlr b k p ho hp := by
    obtain ⟨-, rfl⟩ := reset_owner?.mp ho
    cases hp
  queues := List.nodup_nil
  queued c hc b hb := by
    obtain rfl := mem_reset_ctlrs.mp hc
    cases hb
  origins b g hg := by
    obtain ⟨hlt, rfl⟩ := reset_origin?.mp hg
    exact iff_of_true rfl hlt
  poolOnly b o ho _ := reset_origin?.mpr ⟨(reset_owner?.mp ho).1, rfl⟩
  known b hb := by rw [reset_owner?.mpr ⟨hb, rfl⟩]; rfl

theorem reset_ids : idsOk State.reset :=
  ⟨List.nodup_singleton _, fun c hc => by obtain rfl := mem_reset_ctlrs.mp hc; exact Nat.le_refl 0⟩

/-- The discovery column of R500, entry by entry. -/
theorem discovery_column (k : Nat) (p : Params) (a b : DWord) (c : Ctlr) (h : c = Ctlr.discovery k p a b) :
    c.lc = .poweredUnknown ∧ c.im = 0#32 ∧ c.rim = 0#32 ∧ c.lim = 0#32 ∧ c.tsig = false
      ∧ c.mlock = none ∧ c.tlock = none ∧ c.slock = none ∧ c.rdba = a ∧ c.tdba = b
      ∧ c.rdh = 0#16 ∧ c.rdt = 0#16 ∧ c.rdfree = 0#16 ∧ c.tdh = 0#16 ∧ c.tdt = 0#16
      ∧ c.rb.length = p.nrd ∧ (∀ x ∈ c.rb, x = none) ∧ c.tb.length = p.ntd ∧ (∀ x ∈ c.tb, x = none)
      ∧ c.rxw.ctl = .notStarted ∧ c.txw = .notStarted ∧ c.lnk = .notStarted ∧ c.txcs = []
      ∧ c.lcCtl = .idle ∧ c.disp.ctl = .idle ∧ c.rdtr = p.rdtrInit ∧ c.radv = p.radvInit ∧ c.promisc = false
      ∧ (∀ j : Fin 73, c.swStats[j] = 0#64) ∧ (∀ j : Fin 4, c.speedHist[j] = 0#32)
      ∧ c.linkUp = false ∧ c.speedIdx = 3 ∧ c.fault = [] ∧ c.lastError = none ∧ c.trace = [] ∧ c.oq = [] := by
  subst h
  exact ⟨rfl, rfl, rfl, rfl, rfl, rfl, rfl, rfl, rfl, rfl, rfl, rfl, rfl, rfl, rfl,
    List.length_replicate, fun _ => List.eq_of_mem_replicate, List.length_replicate, fun _ => List.eq_of_mem_replicate,
    rfl, rfl, rfl, rfl, rfl, rfl, rfl, rfl, rfl, fun j => Vector.getElem_replicate j.isLt,
    fun j => Vector.getElem_replicate j.isLt, rfl, rfl, rfl, rfl, rfl, rfl⟩

/-- Settles O7: each invariant holds of a controller at discovery, and the pool after reset is the reference one. -/
theorem resetIsDiscoveryAndMeetsInvariants : Obligations.ResetIsDiscoveryAndMeetsInvariants := by
  unfold Obligations.ResetIsDiscoveryAndMeetsInvariants
  refine ⟨discovery_column, ⟨_, _, _, rfl⟩, rfl, reset_places.nodup, fun b => ⟨mem_reset_free, fun h => ?_⟩, rfl,
    reset_ids, placesOk_iff.mpr reset_places, reset_launchable, fun c hc => ?_⟩
  · exact ⟨_, reset_buf?_of_lt h, rfl, rfl, rfl⟩
  · obtain rfl := mem_reset_ctlrs.mp hc
    exact ⟨discovery_index reset_launchShape, discovery_maskOk .., discovery_startOk .., discovery_locksOk ..,
      discovery_slotsOk .., discovery_syncOk ..⟩

end Sys2Proof.Machine
end

section
/-!
SUPPORT. DMA memory over one step (R80, R84): whatever acts, the canonical form is kept; and the bytes of a word in their
order. Last, the mask registers (R436).
-/

namespace Sys2Proof.Machine

variable {s t : State}

/-! ## The canonical form over a step (log 6) -/

theorem rxWriteBack_kept (s : State) (i : Half) (d : RxDesc) : Kept s (rxWriteBack s i d) :=
  ((((Kept.setRd16 i _ _).trans (Kept.setRd16 i _ _)).trans (Kept.setRd16 i _ _)).trans (Kept.setRd8 i _ _)).trans
    (Kept.setRd8 i _ _)

theorem nicRx_mem_wf (d : RxDesc) (data : List Byte) (h : Mem.wf s.mem = true) : Mem.wf (nicRx s d data).mem = true := by
  unfold nicRx
  split
  · exact (rxWriteBack_kept _ _ _).mem (Mem.writeBytes_wf _ _ h)
  · exact h

/-- A transmit completion writes the status word at most. -/
theorem nicTx_mem_wf (ec lc tu : Bool) (rsv : BitVec 4) (h : Mem.wf s.mem = true) :
    Mem.wf (nicTx s ec lc tu rsv).mem = true := by
  simp only [nicTx]
  split
  · rw [State.modRegs_mem, State.modDev_mem]
    split
    · exact Mem.write32_wf _ _ h
    · exact h
  · exact h

/-- Of the NIC's actions the two completions write memory. -/
theorem nicAct_mem_wf (x : NicAct) (h : Mem.wf s.mem = true) : Mem.wf (nicAct s x).mem = true := by
  cases x with
  | rx d data => exact nicRx_mem_wf d data h
  | tx ec lc tu rsv => exact nicTx_mem_wf ec lc tu rsv h
  | latch | statSet | phySet | statusSet => exact h
  | resetDone => simp only [nicAct, nicResetDone]; split <;> exact h
  | eeRstDone => simp only [nicAct, nicEeRstDone]; split <;> exact h
  | eerdDone => simp only [nicAct, nicEerdDone]; split <;> exact h
  | mdicDone => simp only [nicAct, nicMdicDone]; split <;> exact h
  | stuck b => cases b <;> exact h

theorem writeData_mem_wf (b : BufId) (off : Word) (v : Byte) (h : Mem.wf s.mem = true) :
    Mem.wf (writeData s b off v).mem = true := by
  unfold writeData
  split
  · exact Mem.write8_wf _ _ h
  · exact h

/-- Of the host's actions the write of a data byte alone writes memory. -/
theorem hostAct_mem_wf {x : HostAct} (hx : hostAct s x = .next t) (h : Mem.wf s.mem = true) : Mem.wf t.mem = true := by
  cases x <;> simp only [hostAct] at hx
  case issue => cases hx; exact h
  case data b off v => split at hx <;> cases hx; exact writeData_mem_wf b off v h
  all_goals split at hx <;> cases hx; exact h

theorem selectCtlr_mem (s : State) (k : Nat) : (selectCtlr s k).mem = s.mem := by unfold selectCtlr; split <;> rfl

theorem mmioOp_mem {r : Reg} {a : Access} (h : mmioOp r a s = .next t) : t.mem = s.mem := by
  rcases mmioOp_next h with ⟨-, rfl⟩ | ⟨v, -, rfl⟩ <;> rfl

theorem takeInterrupt_mem (s : State) : (takeInterrupt s).mem = s.mem := by unfold takeInterrupt; split <;> rfl

theorem causeOp_mem {w : Word} (h : causeOp w s = .next t) : t.mem = s.mem := by
  cases h
  exact takeInterrupt_mem _

theorem rxdesc_mem_wf {d : RxDesc} (hx : execRxdesc d s = .next t) (h : Mem.wf s.mem = true) : Mem.wf t.mem = true := by
  obtain rfl := Host.Outcome.next.inj hx
  split
  · exact nicRx_mem_wf d [] h
  · exact h

theorem txdescLegacy_mem_wf {len : Half} (hx : execTxdescLegacy len s = .next t) (h : Mem.wf s.mem = true) :
    Mem.wf t.mem = true := by
  unfold execTxdescLegacy at hx
  split at hx <;> cases hx
  · exact Mem.write32_wf _ _ h
  · exact h

theorem exec_mem_wf {i : Instr} (hx : exec i s = .next t) (h : Mem.wf s.mem = true) : Mem.wf t.mem = true := by
  cases hf : i.format with
  | hostCmd => exact (exec_cmd_others hf hx).2.2 ▸ h
  | mmio =>
    obtain ⟨r, a, rfl⟩ := exists_mmioInstr hf
    rw [exec_mmioInstr] at hx
    exact mmioOp_mem hx ▸ h
  | icr =>
    obtain ⟨c, w, rfl⟩ := exists_causeInstr hf
    cases c <;> exact causeOp_mem hx ▸ h
  | rxDesc =>
    cases i <;> cases hf
    exact rxdesc_mem_wf hx h
  | txCtrl =>
    cases i <;> cases hf
    · exact txdescLegacy_mem_wf hx h
    all_goals cases hx

theorem eventAct_mem_wf {e : Event} (hx : eventAct e s = .next t) (h : Mem.wf s.mem = true) : Mem.wf t.mem = true := by
  rcases eventAct_next hx with ⟨a, d, -, ha | rfl⟩ | ⟨x, -, rfl⟩ | ⟨x, -, hx⟩ | ⟨k, -, rfl⟩ | ⟨p, x, y, -, hl⟩
  · exact (agentStep_kept ha).mem h
  · exact h
  · exact nicAct_mem_wf x h
  · exact hostAct_mem_wf hx h
  · exact (selectCtlr_mem s k).symm ▸ h
  · obtain ⟨-, rfl⟩ := launch_next hl
    exact h

/-- Settles O8: memory is written by agents, the NIC, the host and the descriptor rows, each through writes that keep the
form. -/
theorem stepKeepsMemoryCanonical : Obligations.StepKeepsMemoryCanonical := by
  unfold Obligations.StepKeepsMemoryCanonical
  intro s t hs h
  rcases step_next hs with ⟨w, ws, i, -, -, hx⟩ | ⟨e, u, -, hx, ⟨es, -, rfl⟩ | ⟨-, -, rfl⟩⟩
  · exact exec_mem_wf hx h
  · exact eventAct_mem_wf hx h
  · exact eventAct_mem_wf hx h

/-! ## Byte order -/

theorem setWidth_ushiftRight (v : Word) (n : Nat) : (v >>> n).setWidth 8 = v.extractLsb' n 8 := by
  ext i hi
  simp

/-- The four bytes of a word, lowest first (R84). -/
theorem Mem.read8_write32_byte {m : List Host.Cell} (h : Mem.wf m = true) (a : DWord) (v : Word) (k : Fin 4) :
    Mem.read8 (Mem.write32 m a v) (a + BitVec.ofNat 64 k) = v.extractLsb' (8 * k) 8 := by
  have h0 : v.setWidth 8 = v.extractLsb' 0 8 := setWidth_ushiftRight v 0
  rw [Mem.read8_write32 h, BitVec.add_assoc, ← BitVec.shiftRight_add]
  simp only [setWidth_ushiftRight, h0]
  fin_cases k <;> simp

/-- Settles O31: each byte of the word is the last write at its address. -/
theorem wordsAreStoredLittleEndian : Obligations.WordsAreStoredLittleEndian := by
  unfold Obligations.WordsAreStoredLittleEndian
  exact fun m a v h => ⟨Mem.read8_write32_byte h a v, fun x => Mem.read8_write32_outside h a x v,
    Mem.read32_write32 h a v⟩

/-! ## The mask registers (R436) -/

/-- Settles O27: the rows are the transactions of IMS and IMC, and both registers are HwIMS. -/
theorem maskRegistersSetAndClearBits : Obligations.MaskRegistersSetAndClearBits := by
  unfold Obligations.MaskRegistersSetAndClearBits
  exact fun s v => ⟨rfl, rfl, rfl⟩

end Sys2Proof.Machine
end

section
/-! SUPPORT. The launch (R510, R512): what a launchable machine has, premise by premise, and the acceptance of ATTACH. -/

namespace Sys2Proof.Machine

variable {s : State} {c : Ctlr}

/-! ## The shapes (R512 (b), (c)) -/

/-- A ring size is a power of two from 8 to 65536 (D6). -/
theorem ringSizeOk_exponent {n : Nat} (h : ringSizeOk n = true) : ∃ k, 3 ≤ k ∧ k ≤ 16 ∧ n = 2 ^ k := by
  obtain ⟨k, hk, rfl⟩ := ringSizeOk_pow h
  refine ⟨k, ?_, hk, rfl⟩
  by_contra hlt
  have : k = 0 ∨ k = 1 ∨ k = 2 := by omega
  rcases this with rfl | rfl | rfl <;> cases h

/-- An address whose seven low bits are 0 is a multiple of 128. -/
theorem toNat_mod_of_aligned {a : DWord} (h : a &&& 127#64 = 0#64) : a.toNat % 128 = 0 := by
  have h' := congrArg BitVec.toNat h
  rwa [BitVec.toNat_and, show (127#64).toNat = 2 ^ 7 - 1 from rfl, Nat.and_two_pow_sub_one_eq_mod] at h'

/-- The buffer sizes RCTL has (R127). -/
theorem mem_of_bsizeBits {n : Nat} (h : (bsizeBits n).isSome = true) :
    n ∈ [256, 512, 1024, 2048, 4096, 8192, 16384] := by
  unfold bsizeBits at h
  split at h
  case h_8 => cases h
  all_goals decide

/-- `RingShape` and `BufShape`, part by part. -/
theorem launchShapeOk_parts {p : Params} {q : PoolParams} {a b : DWord} (h : launchShapeOk p q a b = true) :
    (∃ k, 3 ≤ k ∧ k ≤ 16 ∧ p.nrd = 2 ^ k) ∧ (∃ k, 3 ≤ k ∧ k ≤ 16 ∧ p.ntd = 2 ^ k) ∧ a.toNat % 128 = 0
      ∧ b.toNat % 128 = 0 ∧ q.rbsize ∈ [256, 512, 1024, 2048, 4096, 8192, 16384] ∧ q.rbsize ≤ p.variant.rbsizeMax
      ∧ 1 ≤ p.txMaxLen ∧ p.txMaxLen ≤ 0xFFFF := by
  simp only [launchShapeOk, Bool.and_eq_true, beq_iff_eq, decide_eq_true_eq] at h
  obtain ⟨⟨⟨⟨⟨⟨⟨hnrd, hntd⟩, hrd⟩, htd⟩, hsize⟩, hmax⟩, hlo⟩, hhi⟩ := h
  exact ⟨ringSizeOk_exponent hnrd, ringSizeOk_exponent hntd, toNat_mod_of_aligned hrd, toNat_mod_of_aligned htd,
    mem_of_bsizeBits hsize, hmax, hlo, hhi⟩

/-! ## The entry state (R512 (d)) -/

/-- A controller in the discovery column: its flags are 0, its locks free, its records empty (R500). -/
theorem ctlrClean_parts (h : ctlrClean c = true) :
    c.lc = .poweredUnknown ∧ c.lcCtl = .idle ∧ c.im = 0#32 ∧ c.rim = 0#32 ∧ c.lim = 0#32 ∧ c.tsig = false
      ∧ c.mlock = none ∧ c.tlock = none ∧ c.slock = none ∧ c.fault = [] ∧ c.trace = [] ∧ c.oq = [] := by
  rw [of_decide_eq_true h]
  exact ⟨rfl, rfl, rfl, rfl, rfl, rfl, rfl, rfl, rfl, rfl, rfl, rfl⟩

theorem cleanEntry_ctlr (h : cleanEntry s = true) (hc : c ∈ s.ctlrs) : ctlrClean c = true := by
  simp only [cleanEntry, Bool.and_eq_true, List.all_eq_true] at h
  obtain ⟨⟨hself, hothers⟩, -⟩ := h
  rcases mem_ctlrs.mp hc with rfl | hc
  · exact hself
  · exact hothers c hc

/-- A list without repetition of as many numbers below `n` as there are holds them all. -/
theorem mem_of_nodup_of_length {xs : List Nat} {n b : Nat} (hd : xs.Nodup) (hl : xs.length = n) (hlt : ∀ x ∈ xs, x < n)
    (hb : b < n) : b ∈ xs := by
  have hsub : xs ⊆ List.range n := fun x hx => List.mem_range.mpr (hlt x hx)
  have hp := (List.subperm_of_subset hd hsub).perm_of_length_le (by simp [hl])
  exact hp.mem_iff.mpr (List.mem_range.mpr hb)

/-- Every pool buffer is free and the pool's. -/
theorem poolClean_buffer (h : poolClean s = true) {b : BufId} (hb : b < s.pool.npool) :
    b ∈ s.free ∧ ∃ r, s.buf? b = some r ∧ r.owner = .pool := by
  simp only [poolClean, Bool.and_eq_true, List.all_eq_true, decide_eq_true_eq, beq_iff_eq] at h
  obtain ⟨⟨⟨-, hnodup⟩, hlength⟩, hfree⟩ := h
  have hmem := mem_of_nodup_of_length hnodup hlength (fun x hx => (hfree x hx).1) hb
  refine ⟨hmem, ?_⟩
  have hrec := (hfree b hmem).2
  split at hrec
  · rename_i r hr
    simp only [Bool.and_eq_true, beq_iff_eq] at hrec
    obtain ⟨⟨howner, -⟩, -⟩ := hrec
    exact ⟨r, hr, howner⟩
  · cases hrec

theorem poolClean_plock (h : poolClean s = true) : s.plock = none := by
  simp only [poolClean, Bool.and_eq_true, beq_iff_eq] at h
  obtain ⟨⟨⟨hfree, -⟩, -⟩, -⟩ := h
  exact hfree

/-! ## The window (R512 (e)) -/

theorem ownWindow_iff : ownWindow s = true ↔ (s.ctlrs.map Ctlr.id).Nodup ∧ ∀ w ∈ s.port, w.fmt ≠ .mmio := by
  simp only [ownWindow, Bool.and_eq_true, decide_eq_true_eq, List.all_eq_true, bne_iff_ne]
  rfl

/-! ## The launch and ATTACH -/

theorem launch_cases (s : State) : launch s = .next s ∨ launch s = .refused .badLaunch := by
  unfold launch
  split
  · exact .inl rfl
  · exact .inr rfl

/-- The line after A0 (R330): A1 where the packet buffer is to be rebalanced. -/
theorem lcAfterA0_eq (p : Params) (q : PoolParams) :
    lcAfterA0 p q = if p.variant.pbaThreshold < q.rbsize ∧ p.variant.pbaRebalance.isSome then .a1 else .a2 := by
  unfold lcAfterA0 pbaValue
  by_cases h : p.variant.pbaThreshold < q.rbsize <;> simp [h]

theorem acceptAttach_run (hl : c.lc = .poweredUnknown) (hi : c.lcCtl = .idle) : acceptAttach c = .run :=
  if_pos ⟨hl, hi⟩

theorem exec_attach (hl : s.c.lc = .poweredUnknown) (hi : s.c.lcCtl = .idle) : exec .attach s =
    if launchOk s then
      .next (startLc (s.modC fun c => { c with lc := .resetting }) .attach (lcAfterA0 s.c.cfg s.pool))
    else .refused .badLaunch := by
  simp only [exec, execAttach, acceptAttach_run hl hi]

/-- Settles O17: ATTACH is line A0 behind the test `launchOk`, and `launchable` is R512 (a)-(e) with R85, part by part. -/
theorem attachIsAccepted : Obligations.AttachIsAccepted := by
  unfold Obligations.AttachIsAccepted
  refine ⟨fun s hl hi => ⟨fun hok => ?_, fun hok => ?_⟩, fun s => ⟨launch_cases s, fun t ht => ?_⟩⟩
  · rw [exec_attach hl hi, if_pos hok, lcAfterA0_eq]
    rfl
  · rw [exec_attach hl hi, hok]
    rfl
  · obtain ⟨hlaunch, rfl⟩ := launch_next ht
    obtain ⟨hdisjoint, -, hclean, hwindow⟩ := launchable_iff.mp hlaunch
    obtain ⟨hids, hport⟩ := ownWindow_iff.mp hwindow
    have hpool : poolClean t = true := (Bool.and_eq_true_iff.mp hclean).2
    have hshape (c : Ctlr) (hc : c ∈ t.ctlrs) := launchShapeOk_parts (launchable_shape hlaunch hc).1
    obtain ⟨-, -, -, -, hsize, -⟩ := hshape t.c (selected_mem t)
    refine ⟨rfl, hdisjoint, poolClean_plock hpool, fun b => poolClean_buffer hpool, hids, hport, hsize, fun c hc => ?_⟩
    obtain ⟨hnrd, hntd, hrd, htd, -, hmax, hlo, hhi⟩ := hshape c hc
    exact ⟨hnrd, hntd, hrd, htd, hmax, hlo, hhi, (launchable_shape hlaunch hc).2,
      ctlrClean_parts (cleanEntry_ctlr hclean hc)⟩

end Sys2Proof.Machine
end

section
/-! SUPPORT. DUMP (R381) line by line: the counters of line U2, the registers of line U3, the record of line U4. -/

namespace Sys2Proof.Machine

variable {s : State} {a : AgentId} {d : Nat}

/-! ## Repeated lines -/

/-- A loop of `m` steps a round, which leads from state `F k` to state `F (k + 1)`. -/
theorem turn_loop {F : Nat → State} {m K : Nat} (h : ∀ k < K, ∀ n, turn a d (n + m) (F k) = turn a d n (F (k + 1)))
    (n : Nat) : turn a d (n + m * K) (F 0) = turn a d n (F K) := by
  induction K generalizing n with
  | zero => rfl
  | succ K ih =>
    have hfirst := ih (fun k hk => h k (Nat.lt_succ_of_lt hk)) (n + m)
    rw [Nat.mul_succ, Nat.add_comm (m * K), ← Nat.add_assoc, hfirst, h K (Nat.lt_succ_self K)]

/-! ## A table of which the first entries are done -/

/-- `done` up to entry `k`, `todo` from there on. -/
def mixed {α : Type} {N : Nat} (k : Nat) (done todo : Vector α N) : Vector α N :=
  Vector.ofFn fun j => if j.val < k then done[j] else todo[j]

section

variable {α : Type} {N k : Nat} {done todo : Vector α N}

theorem getElem_mixed {j : Nat} (hj : j < N) : (mixed k done todo)[j] = if j < k then done[j] else todo[j] := by
  simp [mixed]

theorem mixed_zero : mixed 0 done todo = todo := Vector.ext fun _ hj => getElem_mixed hj

theorem mixed_all : mixed N done todo = done := Vector.ext fun j hj => by rw [getElem_mixed hj, if_pos hj]

theorem mixed_set (hk : k < N) : (mixed k done todo).set k done[k] = mixed (k + 1) done todo := by
  refine Vector.ext fun j hj => ?_
  rw [Vector.getElem_set, getElem_mixed hj, getElem_mixed hj]
  by_cases hjk : k = j
  · subst hjk; simp
  · rw [if_neg hjk]
    simp only [show j < k + 1 ↔ j < k by omega]

end

/-! ## The counters (line U2, R438) -/

/-- The software counters with the hardware's added. -/
def statSums (sw : Vector DWord 73) (st : Vector Word 73) : Vector DWord 73 :=
  Vector.ofFn fun j => sw[j] + (st[j]).setWidth 64

/-- The read of counter `k`. -/
def statEvent (st : Vector Word 73) (k : Fin 73) : TraceEv := .mmioR (.stat k) st[k]

/-- `DUMP` with `k` counters read: each of them added to its software counter, and so cleared. -/
def counted (s : State) (k : Nat) : State :=
  { s with c := { s.c with
      lcCtl := if k < 73 then .u2 k else .u3 0
      swStats := mixed k (statSums s.c.swStats s.c.regs.stat) s.c.swStats
      regs := { s.c.regs with stat := mixed k (Vector.replicate 73 0#32) s.c.regs.stat }
      trace := s.c.trace ++ ((List.finRange 73).take k).map (statEvent s.c.regs.stat) } }

theorem counted_zero (h : s.c.lcCtl = .u2 0) : counted s 0 = s := by
  simp [counted, mixed_zero, ← h]

/-- Line U2. -/
theorem lcCounter_eq (s : State) (k : Fin 73) : lcCounter s k = { s with c := { s.c with
    lcCtl := if k.val + 1 < 73 then .u2 (k + 1) else .u3 0
    swStats := s.c.swStats.set k (s.c.swStats[k] + (s.c.regs.stat[k]).setWidth 64)
    regs := { s.c.regs with stat := s.c.regs.stat.set k 0#32 }
    trace := s.c.trace ++ [statEvent s.c.regs.stat k] } } := by
  have hset (x : DWord) : s.c.swStats.set! k x = s.c.swStats.set k x := by
    simp [Vector.set!, Vector.set, Array.setIfInBounds]
  have hget : s.c.swStats.getD k 0#64 = s.c.swStats[k] := by simp [Vector.getD]
  simp only [lcCounter, Fin.ofNat_val_eq_self, State.modC, mmioRead_c, mmioRead_value, hset, hget]
  rfl

theorem lcCounter_counted (k : Fin 73) : lcCounter (counted s k) k = counted s (k + 1) := by
  have htake : (List.finRange 73).take (k + 1) = (List.finRange 73).take k ++ [k] := by
    simp [List.take_succ_eq_append_getElem]
  rw [lcCounter_eq]
  simp [counted, statEvent, getElem_mixed, ← mixed_set k.isLt, statSums, htake]

theorem turn_counted {k : Nat} (hk : k < 73) (n : Nat) :
    turn .lc d (n + 1) (counted s k) = turn .lc d n (counted s (k + 1)) := by
  have hc : (counted s k).c.lcCtl = .u2 k := if_pos hk
  exact turn_go (by simp only [agentStep, lcStep, hc, lcCounter_counted ⟨k, hk⟩])

/-! ## The registers (line U3) -/

/-- What line U3 records of a register. -/
def snapEvents (g : NicRegs) (r : Reg) : List TraceEv := [.mmioR r (regRead g r), .snapshot r (regRead g r)]

/-- `DUMP` with `j` registers recorded. -/
def snapped (s : State) (j : Nat) : State :=
  { s with c := { s.c with
      lcCtl := if j < 8 then .u3 j else .u4
      trace := s.c.trace ++ (List.range j).flatMap fun i => snapEvents s.c.regs (snapReg i) } }

theorem snapped_zero (h : s.c.lcCtl = .u3 0) : snapped s 0 = s := by simp [snapped, ← h]

/-- The registers of line U3 have no read side effect. -/
theorem regAfterRead_snapReg (g : NicRegs) (j : Nat) : regAfterRead g (snapReg j) = g := by
  unfold snapReg
  split <;> rfl

theorem agentStep_u3 {j : Nat} (hc : s.c.lcCtl = .u3 j) : agentStep .lc d s =
    .go (lcJump (.u3e j (regRead s.c.regs (snapReg j))) (s.emit (.mmioR (snapReg j) (regRead s.c.regs (snapReg j))))) := by
  have hread : mmioRead s (snapReg j) =
      (regRead s.c.regs (snapReg j), s.emit (.mmioR (snapReg j) (regRead s.c.regs (snapReg j)))) := by
    rw [mmioRead, State.modRegs, regAfterRead_snapReg]
  simp only [agentStep, lcStep, hc, hread]

theorem agentStep_u3e {j : Nat} {v : Word} (hc : s.c.lcCtl = .u3e j v) : agentStep .lc d s =
    .go (lcJump (if j < 7 then .u3 (j + 1) else .u4) (s.emit (.snapshot (snapReg j) v))) := by
  simp only [agentStep, lcStep, hc]

theorem turn_snapped {j : Nat} (hj : j < 8) (n : Nat) :
    turn .lc d (n + 2) (snapped s j) = turn .lc d n (snapped s (j + 1)) := by
  have hc : (snapped s j).c.lcCtl = .u3 j := if_pos hj
  have hlast : j + 1 < 8 ↔ j < 7 := by omega
  rw [turn_go (agentStep_u3 hc), turn_go (agentStep_u3e rfl)]
  simp only [snapped, lcJump, State.modC, State.emit, List.range_succ, List.flatMap_append, List.flatMap_singleton,
    snapEvents, List.append_assoc, List.cons_append, List.nil_append, hlast]

/-! ## The whole command -/

theorem acceptDump_run {c : Ctlr} (hi : c.lcCtl = .idle) (hl : c.lc = .running ∨ c.lc = .halted) : acceptDump c = .run :=
  if_pos ⟨hl, hi⟩

theorem exec_dump (hi : s.c.lcCtl = .idle) (hl : s.c.lc = .running ∨ s.c.lc = .halted) (hs : s.c.slock = none) :
    exec .dump s = .next (startLc (s.modC fun c => { c with slock := some .lc }) .dump (.u2 0)) := by
  simp only [exec, execDump, acceptDump_run hi hl, hs]

/-- The two last lines. -/
theorem turn_u4 (hc : s.c.lcCtl = .u4) : turn .lc d 2 s = { s with c := { s.c with
    lcCtl := .idle
    slock := none
    trace := s.c.trace ++ [.counters s.c.swStats s.c.speedHist s.c.linkUp s.c.speedIdx, .cmd s.c.lcCmd .ok] } } := by
  have h4 : agentStep .lc d s =
      .go (lcJump .u5 (s.emit (.counters s.c.swStats s.c.speedHist s.c.linkUp s.c.speedIdx))) := by
    simp only [agentStep, lcStep, hc]
  rw [turn_go h4, turn_go rfl, turn]
  simp only [finishLc, State.modC, State.emit, lcJump, List.append_assoc, List.cons_append, List.nil_append]

/-- A turn of `LC` from line U2 on: 73 counters, 8 registers, and the end. -/
theorem turn_dump (h : s.c.lcCtl = .u2 0) : turn .lc d 91 s = { s with c := { s.c with
    lcCtl := .idle
    slock := none
    swStats := statSums s.c.swStats s.c.regs.stat
    regs := { s.c.regs with stat := Vector.replicate 73 0#32 }
    trace := s.c.trace ++ (List.finRange 73).map (statEvent s.c.regs.stat)
      ++ [Reg.ctrl, .status, .rctl, .tctl, .rdh, .rdt, .tdh, .tdt].flatMap (snapEvents s.c.regs)
      ++ [.counters (statSums s.c.swStats s.c.regs.stat) s.c.speedHist s.c.linkUp s.c.speedIdx,
          .cmd s.c.lcCmd .ok] } } := by
  have hcount : turn .lc d 91 s = turn .lc d 18 (counted s 73) := by
    conv_lhs => rw [← counted_zero h]
    exact turn_loop (m := 1) (fun k hk n => turn_counted hk n) 18
  have hsnap : turn .lc d 18 (counted s 73) = turn .lc d 2 (snapped (counted s 73) 8) := by
    conv_lhs => rw [← snapped_zero (s := counted s 73) rfl]
    exact turn_loop (m := 2) (fun j hj n => turn_snapped hj n) 2
  have hall : (List.finRange 73).take 73 = List.finRange 73 := List.take_of_length_le (by simp)
  rw [hcount, hsnap, turn_u4 rfl]
  simp only [snapped, counted, mixed_all, hall]
  rfl

/-- Settles O22: the first step takes `slock`, the 91 lines after it run in order. -/
theorem dumpAddsAndClearsCounters : Obligations.DumpAddsAndClearsCounters := by
  unfold Obligations.DumpAddsAndClearsCounters
  intro s d hi hl hs
  refine ⟨_, exec_dump hi hl hs, statSums s.c.swStats s.c.regs.stat, fun k => Vector.getElem_ofFn _, ?_⟩
  rw [turn_dump rfl]
  simp only [startLc, State.modC, ← hi, ← hs]
  rfl

end Sys2Proof.Machine
end

section
/-! SUPPORT. Words of the spec's encodings (O3), the words that spell no command (O16), and the tunables (O19). -/

namespace Sys2Proof

open Machine

/-! ## The words of the spec's encodings -/

/-- Settles O3: each word is decoded as it stands; the default register map moves no bit. -/
theorem specWordsDecode : Obligations.SpecWordsDecode :=
  ⟨rfl, rfl, rfl, rfl, rfl, rfl, rfl, rfl⟩

/-! ## Words that spell no command (R160-R162, R371 (1)) -/

theorem decodeWith_hostCmd (m : RegMap) (w : DWord) :
    decodeWith m .hostCmd (leBytes 8 w.toNat) = .ok (decodeCmd w) := by
  have hmod : w.toNat % 256 ^ 8 = w.toNat := Nat.mod_eq_of_lt w.isLt
  simp only [decodeWith, length_leBytes, Format.size, ne_eq, not_true_eq_false, if_false, leNat_leBytes, hmod,
    BitVec.ofNat_toNat, BitVec.setWidth_eq]

theorem decodeCmd_eq_reservedOp_iff (w : DWord) : decodeCmd w = .reservedOp w ↔ spellsCommand w = false := by
  refine ⟨fun h => ?_, fun h => by simp only [decodeCmd, h, Bool.false_eq_true, if_false]⟩
  obtain ⟨-, hw, -⟩ := decodeCmd_spec RegMap.pro1000 w
  simpa only [h, Instr.wellFormed, Bool.not_eq_true'] using hw

/-- A command's op code is one of the nine, and its reserved bits are zero (R160, R161). -/
theorem fields_of_spellsCommand {w : DWord} (h : spellsCommand w = true) :
    cmdReserved w = 0#7 ∧ 1 ≤ (cmdOp w).toNat ∧ (cmdOp w).toNat ≤ 9 := by
  simp only [spellsCommand, Bool.and_eq_true, Bool.or_eq_true, beq_iff_eq, or_assoc, and_assoc] at h
  obtain ⟨hr, h⟩ := h
  refine ⟨hr, ?_⟩
  rcases h with ⟨ho, -⟩ | ⟨ho, -⟩ | ⟨ho, -⟩ | ⟨ho, -⟩ | ho | ⟨ho, -⟩ | ⟨ho, -⟩ | ⟨ho, -⟩ | ⟨ho, -⟩ <;> rw [ho] <;> decide

theorem spellsCommand_eq_false {w : DWord} (h : cmdOp w = 0#8 ∨ 10 ≤ (cmdOp w).toNat ∨ cmdReserved w ≠ 0#7) :
    spellsCommand w = false := by
  refine Bool.eq_false_iff.mpr fun hs => ?_
  obtain ⟨hr, hlo, hhi⟩ := fields_of_spellsCommand hs
  rcases h with ho | ho | hne
  · rw [ho] at hlo
    exact absurd hlo (by decide)
  · omega
  · exact hne hr

/-- Settles O16: a word that spells no command decodes to RESERVED_OP, whose row is the answer alone. -/
theorem reservedCommandsAreBadArgument : Obligations.ReservedCommandsAreBadArgument := by
  refine ⟨fun s w ws hp hw => ?_, fun w => ?_, fun s w => rfl⟩
  · have hd := decodeWith_hostCmd s.c.cfg.regMap w
    rw [(decodeCmd_eq_reservedOp_iff w).mpr (spellsCommand_eq_false hw)] at hd
    exact step_of_decode_ok hp hd
  · rw [decode, decodeWith_hostCmd, Except.ok.injEq, decodeCmd_eq_reservedOp_iff]

namespace Machine

variable {s : State} {v : BitVec 48}

/-! ## The tunables (R378) -/

theorem acceptSet_eq_store {c : Ctlr} (hi : c.lcCtl = .idle) (hl : c.lc = .poweredUnknown) : acceptSet c = .store := by
  simp only [acceptSet, hi, hl, if_true]

theorem acceptSet_eq_run {c : Ctlr} (hi : c.lcCtl = .idle) (hl : c.lc = .running) : acceptSet c = .run := by
  simp only [acceptSet, hi, hl, if_true]

theorem tunableOk_eq_true (hv : v.toNat ≤ 0xFFFF) : tunableOk v = true := decide_eq_true hv

theorem tunableOk_eq_false (hv : 0xFFFF < v.toNat) : tunableOk v = false := decide_eq_false (by omega)

/-- A value that passes line T1 is written whole. -/
theorem setWidth_tunable (hv : v.toNat ≤ 0xFFFF) : (v.setWidth 16).setWidth 32 = v.setWidth 32 := by
  apply BitVec.eq_of_toNat_eq
  simp only [BitVec.toNat_setWidth]
  omega

/-- Line T3: the register of the command `LC` executes is written, and OK is answered. -/
theorem agentStep_tunableW {d : Nat} (hc : s.c.lcCtl = .tunableW) :
    agentStep .lc d s = .go (finishLc (mmioWrite s (lcTunable s.c).1 (lcTunable s.c).2) .ok) := by
  simp only [agentStep, lcStep, hc]

/-- SET_RDTR in Running: lines T1 and T2, then T3. -/
theorem setRdtr_running {d : Nat} (hv : v.toNat ≤ 0xFFFF) (hi : s.c.lcCtl = .idle) (hl : s.c.lc = .running) :
    ∃ t, exec (.setRdtr v) s = .next t ∧ agentStep .lc d t = .go { s with c := { s.c with
      rdtr := v.setWidth 16
      lcCmd := .setRdtr v
      regs := { s.c.regs with rdtr := v.setWidth 32 }
      trace := s.c.trace ++ [.mmioW .rdtr (v.setWidth 32), .cmd (.setRdtr v) .ok] } } := by
  refine ⟨startLc (s.modC fun c => { c with rdtr := v.setWidth 16 }) (.setRdtr v) .tunableW,
    by simp only [exec, execSetRdtr, tunableOk_eq_true hv, acceptSet_eq_run hi hl, if_true], ?_⟩
  rw [agentStep_tunableW rfl]
  simp [finishLc, State.modC, State.emit, startLc, mmioWrite, lcTunable, regWrite, devAfterWrite,
    setWidth_tunable hv, hi]

/-- SET_RADV in Running. -/
theorem setRadv_running {d : Nat} (hv : v.toNat ≤ 0xFFFF) (hi : s.c.lcCtl = .idle) (hl : s.c.lc = .running) :
    ∃ t, exec (.setRadv v) s = .next t ∧ agentStep .lc d t = .go { s with c := { s.c with
      radv := v.setWidth 16
      lcCmd := .setRadv v
      regs := { s.c.regs with radv := v.setWidth 32 }
      trace := s.c.trace ++ [.mmioW .radv (v.setWidth 32), .cmd (.setRadv v) .ok] } } := by
  refine ⟨startLc (s.modC fun c => { c with radv := v.setWidth 16 }) (.setRadv v) .tunableW,
    by simp only [exec, execSetRadv, tunableOk_eq_true hv, acceptSet_eq_run hi hl, if_true], ?_⟩
  rw [agentStep_tunableW rfl]
  simp [finishLc, State.modC, State.emit, startLc, mmioWrite, lcTunable, regWrite, devAfterWrite,
    setWidth_tunable hv, hi]

/-- Settles O19: the value is tested first, then the row of R372 selects the answer, the store, or the store
and line T3. -/
theorem tunablesAreValidatedAndStored : Obligations.TunablesAreValidatedAndStored := by
  refine fun s v => ⟨fun hv => ?_, fun hv hi hl => ?_,
    fun hv hi hl d => ⟨setRdtr_running hv hi hl, setRadv_running hv hi hl⟩⟩
  · simp only [exec, execSetRdtr, execSetRadv, tunableOk_eq_false hv]
    exact ⟨rfl, rfl⟩
  · simp only [exec, execSetRdtr, execSetRadv, tunableOk_eq_true hv, acceptSet_eq_store hi hl]
    exact ⟨rfl, rfl⟩

end Machine
end Sys2Proof
end

section
/-! SUPPORT. The handshake registers EERD and MDIC (R123, R125, R434): the request's write and its completion (O30). -/

namespace Sys2Proof.Machine

variable {s : State} {v : Word} {w : Fin 64}

/-! ## EERD -/

/-- START, bit 0 of the request. -/
theorem hasBits_eerdStart (v : Word) : hasBits v eerdStart = v.getLsbD 0 := by
  rw [hasBits, eerdStart, ← BitVec.twoPow_zero, BitVec.and_twoPow]
  cases v.getLsbD 0 <;> decide

/-- The address of a request for word `w` is `w`, in both layouts. -/
theorem eerdAddr_eerdRequest (l : EerdLayout) (w : Fin 64) : eerdAddr l (eerdRequest l w) = w := by
  revert w
  cases l <;> decide

theorem exec_eerd_write (s : State) (v : Word) : exec (.mmioEerd (.write v)) s = .next { s with c := { s.c with
    regs := { s.c.regs with eerd := v &&& ~~~eerdDoneBit s.c.cfg.variant.eerdLayout }
    dev := { s.c.dev with eerdPending := v.getLsbD 0 }
    trace := s.c.trace ++ [.mmioW .eerd v] } } := by
  rw [← hasBits_eerdStart]
  rfl

/-- The completion of a request for word `w`: its data and DONE at once. -/
theorem nicEerdDone_eq (o : Half) (hp : s.c.dev.eerdPending = true)
    (hr : s.c.regs.eerd = eerdRequest s.c.cfg.variant.eerdLayout w) : nicEerdDone s o = { s with c := { s.c with
      regs := { s.c.regs with eerd := eerdCompleted s.c.cfg.variant.eerdLayout s.c.regs.eerd s.c.dev.eeprom[w] }
      dev := { s.c.dev with eerdPending := false } } } := by
  have hd : s.c.dev.eeprom.getD (eerdAddr s.c.cfg.variant.eerdLayout s.c.regs.eerd) o = s.c.dev.eeprom[w] := by
    simp [hr, eerdAddr_eerdRequest, Vector.getD]
  simp only [nicEerdDone, hp, if_true, hd]
  rfl

/-! ## MDIC -/

/-- A request is a write or a read (R125). -/
theorem exec_mdic_write (h : mdicOp v = 1#2 ∨ mdicOp v = 2#2) :
    exec (.mmioMdic (.write v)) s = .next { s with c := { s.c with
      regs := { s.c.regs with mdic := v &&& 0xAFFFFFFF#32 }
      dev := { s.c.dev with mdicPending := true }
      trace := s.c.trace ++ [.mmioW .mdic v] } } := by
  have hop : (mdicIsRead v || mdicIsWrite v) = true := by rcases h with h | h <;> simp [mdicIsRead, mdicIsWrite, h]
  have hw : exec (.mmioMdic (.write v)) s = .next (mmioWrite s .mdic v) := if_pos hop
  rw [hw, mmioWrite]
  simp only [devAfterWrite, hop]
  rfl

/-- The other two values of OP have no step (V6). -/
theorem exec_mdic_refused (h : mdicOp v = 0#2 ∨ mdicOp v = 3#2) :
    exec (.mmioMdic (.write v)) s = .refused (.deviceInterface .mdic) := by
  have hop : (mdicIsRead v || mdicIsWrite v) = false := by rcases h with h | h <;> simp [mdicIsRead, mdicIsWrite, h]
  exact if_neg (by rw [regWritable, hop]; exact Bool.false_ne_true)

theorem nicMdicDone_eq (err : Bool) (hp : s.c.dev.mdicPending = true) : nicMdicDone s err = { s with c := { s.c with
    regs := { s.c.regs with mdic := mdicAnswer s.c.cfg s.c.dev s.c.regs.mdic err }
    dev := { s.c.dev with phy := mdicStore s.c.cfg s.c.dev s.c.regs.mdic err, mdicPending := false } } } :=
  if_pos hp

/-- The register's low half replaced. -/
theorem and_hi_or_setWidth (v : Word) (d : Half) :
    (v &&& 0xFFFF0000#32) ||| d.setWidth 32 = v.extractLsb' 16 16 ++ d := by
  have hv : v = v.extractLsb' 16 16 ++ v.extractLsb' 0 16 := by
    rw [BitVec.extractLsb'_append_extractLsb'_eq_extractLsb' (show 16 = 0 + 16 from rfl)]
    exact BitVec.extractLsb'_eq_self.symm
  have hd : d.setWidth 32 = 0#16 ++ d := BitVec.setWidth_eq_append (show 16 ≤ 32 by decide)
  have hm : 0xFFFF0000#32 = BitVec.allOnes 16 ++ 0#16 := by decide
  conv_lhs => rw [hv, hd, hm, BitVec.and_append, BitVec.or_append]
  rw [BitVec.and_allOnes, BitVec.and_zero, BitVec.or_zero, BitVec.zero_or]

section
variable {p : Params} {d : Device} {err : Bool}

/-- An error, or no such PHY: E is set and the PHY is left alone. -/
theorem mdic_error (h : err = true ∨ mdicPhy v ≠ p.phyAddr) :
    mdicAnswer p d v err = v ||| 0x40000000#32 ∧ mdicStore p d v err = d.phy := by
  have hb : (err || mdicPhy v != p.phyAddr) = true := by simpa using h
  simp only [mdicAnswer, mdicStore, hb, Bool.true_or, if_true, and_true]
  rfl

theorem mdic_read (hphy : mdicPhy v = p.phyAddr) (hop : mdicOp v = 2#2) :
    mdicAnswer p d v false = (v.extractLsb' 16 16 ++ d.phy[(mdicReg v).toFin] : Word) ||| 0x10000000#32
      ∧ mdicStore p d v false = d.phy := by
  simp [mdicAnswer, mdicStore, mdicIsRead, hphy, hop, and_hi_or_setWidth, mdicR]

theorem mdic_write (hphy : mdicPhy v = p.phyAddr) (hop : mdicOp v = 1#2) :
    mdicAnswer p d v false = v ||| 0x10000000#32
      ∧ mdicStore p d v false = d.phy.set (mdicReg v).toFin (mdicData v) := by
  simp [mdicAnswer, mdicStore, mdicIsRead, hphy, hop, mdicR]

end

/-- Settles O30: a request's write and its completion, for each of the two registers. -/
theorem handshakeRegistersAnswerRequests : Obligations.HandshakeRegistersAnswerRequests := by
  refine ⟨fun s v done hd => ?_, fun s w o lo done hp hl hr => ?_, fun s v => ⟨exec_mdic_write, exec_mdic_refused⟩,
    fun s err v r hp hv hr => ⟨_, nicMdicDone_eq err hp, fun he => ?_, fun he hphy hop => ?_, fun he hphy hop => ?_⟩⟩
  · rw [exec_eerd_write, hd]
    rfl
  · rcases hl with ⟨hl, rfl, rfl⟩ | ⟨hl, rfl, rfl⟩
    · exact (nicEerdDone_eq o hp (by rw [hr, hl]; rfl)).trans (by rw [hl]; rfl)
    · exact (nicEerdDone_eq o hp (by rw [hr, hl]; rfl)).trans (by rw [hl]; rfl)
  all_goals subst hv
  · obtain ⟨ha, hs⟩ := mdic_error (d := s.c.dev) he
    rw [ha, hs]
  all_goals
    obtain rfl : r = (mdicReg s.c.regs.mdic).toFin := Fin.ext hr
    subst he
  · obtain ⟨ha, hs⟩ := mdic_read (d := s.c.dev) hphy hop
    rw [ha, hs]
  · obtain ⟨ha, hs⟩ := mdic_write (d := s.c.dev) hphy hop
    rw [ha, hs]
    rfl

end Sys2Proof.Machine
end

section
/-! SUPPORT. RX_INIT (R200-R205) line by line (O55). -/

namespace Sys2Proof.Machine

variable {s : State} {d n : Nat}

/-! ## A run of bytes written, and the zeroing of a descriptor array -/

theorem Mem.writeBytes_append (m : List Host.Cell) (a : DWord) (xs ys : List Byte) :
    Mem.writeBytes m a (xs ++ ys) = Mem.writeBytes (Mem.writeBytes m a xs) (a + BitVec.ofNat 64 xs.length) ys := by
  induction xs generalizing m a with
  | nil => simp [Mem.writeBytes]
  | cons x xs ih =>
    have ha : a + 1#64 + BitVec.ofNat 64 xs.length = a + BitVec.ofNat 64 (x :: xs).length := by
      rw [List.length_cons, BitVec.add_assoc, ← BitVec.ofNat_add, Nat.add_comm]
    simp only [List.cons_append, Mem.writeBytes, ih, ha]

/-- Memory with the `k` bytes from `a` on made 0. -/
def Mem.clear (m : List Host.Cell) (a : DWord) (k : Nat) : List Host.Cell := Mem.writeBytes m a (List.replicate k 0#8)

section
variable {m : List Host.Cell} {a x : DWord} {k : Nat}

theorem Mem.clear_clear (m : List Host.Cell) (a : DWord) (j k : Nat) :
    Mem.clear (Mem.clear m a j) (a + BitVec.ofNat 64 j) k = Mem.clear m a (j + k) := by
  have h := Mem.writeBytes_append m a (List.replicate j 0#8) (List.replicate k 0#8)
  rw [List.length_replicate, List.replicate_append_replicate] at h
  exact h.symm

/-- Every byte cleared reads 0. -/
theorem Mem.read8_clear (hw : Mem.wf m = true) (hk : k < 2 ^ 64) (hx : (x - a).toNat < k) :
    Mem.read8 (Mem.clear m a k) x = 0#8 := by
  have h := Mem.read8_writeBytes hw (a := a) (bs := List.replicate k 0#8) (by rwa [List.length_replicate])
    (by rwa [List.length_replicate])
  rwa [BitVec.ofNat_toNat, BitVec.setWidth_eq, BitVec.add_comm, BitVec.sub_add_cancel, List.getElem_replicate] at h

/-- The others read as before. -/
theorem Mem.read8_clear_outside (hw : Mem.wf m = true) (hx : k ≤ (x - a).toNat) :
    Mem.read8 (Mem.clear m a k) x = Mem.read8 m x :=
  Mem.read8_writeBytes_outside hw (by rwa [List.length_replicate])

theorem Mem.write16_zero (m : List Host.Cell) (a : DWord) : Mem.write16 m a 0#16 = Mem.clear m a 2 := rfl

theorem Mem.write32_zero (m : List Host.Cell) (a : DWord) : Mem.write32 m a 0#32 = Mem.clear m a 4 :=
  Mem.clear_clear m a 2 2

end

/-! ## Line I7 (R202) -/

/-- The byte of a receive descriptor at which field `f` starts (R140); past the last field, the descriptor's end. -/
def rdFieldOffset : Nat → Nat
  | 0 => offAddrLo
  | 1 => offAddrHi
  | 2 => offLength
  | 3 => offChecksum
  | 4 => offStatus
  | 5 => offErrors
  | 6 => offSpecial
  | _ => 16

/-- Line I7 clears the bytes up to the next field. -/
theorem zeroRd_eq (s : State) (i : Half) {f : Nat} (hf : f < 7) : ∃ k, rdFieldOffset f + k = rdFieldOffset (f + 1)
    ∧ zeroRd s i f = s.setMem (Mem.clear s.mem (rdAddr s.c i (rdFieldOffset f)) k) := by
  match f with
  | 0 => exact ⟨4, rfl, congrArg s.setMem (Mem.write32_zero _ _)⟩
  | 1 => exact ⟨4, rfl, congrArg s.setMem (Mem.write32_zero _ _)⟩
  | 2 | 3 | 6 => exact ⟨2, rfl, congrArg s.setMem (Mem.write16_zero _ _)⟩
  | 4 | 5 => exact ⟨1, rfl, rfl⟩

theorem rdAddr_ofNat (c : Ctlr) {i : Nat} (hi : i < 65536) (off : Nat) :
    rdAddr c (BitVec.ofNat 16 i) off = c.rdba + BitVec.ofNat 64 (16 * i + off) := by
  apply BitVec.eq_of_toNat_eq
  simp only [rdAddr, descAddr, BitVec.toNat_add, BitVec.toNat_mul, BitVec.toNat_setWidth, BitVec.toNat_ofNat]
  omega

/-- RX_INIT at line `x` with the first `p` bytes of the descriptor array cleared. -/
def rxCleared (s : State) (p : Nat) (x : LcCtl) : State :=
  { s with mem := Mem.clear s.mem s.c.rdba p, c := { s.c with lcCtl := x } }

/-- The line at descriptor `k` of `n`, or the end of line I7. -/
def i7Row (n k : Nat) : LcCtl := if k < n then .i7 k 0 else .i8 false

/-- The line at field `f` of descriptor `i`, or at the next descriptor. -/
def i7Line (n i f : Nat) : LcCtl := if f < 7 then .i7 i f else i7Row n (i + 1)

theorem i7Next_eq (n i : Nat) {f : Nat} (hf : f < 7) : i7Next n i f = i7Line n i (f + 1) := by
  simp only [i7Next, i7Line, i7Row, show f + 1 < 7 ↔ f < 6 by omega]

theorem agentStep_i7 {i f : Nat} (hc : s.c.lcCtl = .i7 i f) :
    agentStep .lc d s = .go (lcJump (i7Next s.c.cfg.nrd i f) (zeroRd s (BitVec.ofNat 16 i) f)) := by
  simp only [agentStep, lcStep, hc]

theorem turn_i7_field {i f : Nat} (hi : i < 65536) (hf : f < 7) (n : Nat) :
    turn .lc d (n + 1) (rxCleared s (16 * i + rdFieldOffset f) (i7Line s.c.cfg.nrd i f)) =
      turn .lc d n (rxCleared s (16 * i + rdFieldOffset (f + 1)) (i7Line s.c.cfg.nrd i (f + 1))) := by
  obtain ⟨k, hk, hz⟩ :=
    zeroRd_eq (rxCleared s (16 * i + rdFieldOffset f) (i7Line s.c.cfg.nrd i f)) (BitVec.ofNat 16 i) hf
  have hc : (rxCleared s (16 * i + rdFieldOffset f) (i7Line s.c.cfg.nrd i f)).c.lcCtl = .i7 i f := if_pos hf
  rw [turn_go (agentStep_i7 hc), hz, rdAddr_ofNat _ hi, ← hk, ← Nat.add_assoc]
  simp only [rxCleared, lcJump, State.modC, State.setMem, Mem.clear_clear, i7Next_eq _ _ hf]

theorem turn_i7_descriptor {i : Nat} (hi : i < s.c.cfg.nrd) (hn : s.c.cfg.nrd ≤ 65536) (n : Nat) :
    turn .lc d (n + 7) (rxCleared s (16 * i) (i7Row s.c.cfg.nrd i)) =
      turn .lc d n (rxCleared s (16 * (i + 1)) (i7Row s.c.cfg.nrd (i + 1))) := by
  have h := turn_loop (F := fun f => rxCleared s (16 * i + rdFieldOffset f) (i7Line s.c.cfg.nrd i f))
    (fun f hf => turn_i7_field (d := d) (Nat.lt_of_lt_of_le hi hn) hf) n
  rwa [i7Row, if_pos hi]

/-- Line I7 as a whole: the array is cleared. -/
theorem turn_i7 (hc : s.c.lcCtl = .i7 0 0) (hn : ringSizeOk s.c.cfg.nrd = true) :
    turn .lc d (7 * s.c.cfg.nrd) s = rxCleared s (16 * s.c.cfg.nrd) (.i8 false) := by
  have h := turn_loop (F := fun k => rxCleared s (16 * k) (i7Row s.c.cfg.nrd k))
    (fun k hk => turn_i7_descriptor (d := d) hk (ringSizeOk_le hn)) 0
  have hfirst : rxCleared s (16 * 0) (i7Row s.c.cfg.nrd 0) = s := by
    rw [i7Row, if_pos (ringSizeOk_pos hn), ← hc]
    rfl
  rw [hfirst, Nat.zero_add] at h
  rw [h, i7Row, if_neg (Nat.lt_irrefl _)]
  rfl

/-! ## The leftovers (line I6) -/

theorem nextHeld_eq_some {xs : List (Option BufId)} {i j : Nat} : nextHeld xs i = some j ↔
    i ≤ j ∧ (xs.getD j none).isSome = true ∧ ∀ k, i ≤ k → k < j → xs.getD k none = none := by
  have hlt : (xs.getD j none).isSome = true → j < xs.length := fun h => by
    by_contra hj
    rw [List.getD_eq_default _ _ (by omega)] at h
    cases h
  simp only [nextHeld, List.find?_range_eq_some, Bool.and_eq_true, decide_eq_true_eq, List.mem_range, Bool.not_eq_true',
    Bool.and_eq_false_iff, decide_eq_false_iff_not, Option.isSome_eq_false_iff, Option.isNone_iff_eq_none]
  constructor
  · rintro ⟨⟨hij, hs⟩, -, hbefore⟩
    exact ⟨hij, hs, fun k hik hkj => (hbefore k hkj).resolve_left (not_not_intro hik)⟩
  · rintro ⟨hij, hs, hbefore⟩
    exact ⟨⟨hij, hs⟩, hlt hs, fun k hkj => or_iff_not_imp_left.mpr fun hik => hbefore k (not_not.mp hik) hkj⟩

theorem nextHeld_eq_none {xs : List (Option BufId)} {i : Nat} (h : ∀ k, i ≤ k → xs.getD k none = none) :
    nextHeld xs i = none := by
  refine Option.eq_none_iff_forall_ne_some.mpr fun j hj => ?_
  obtain ⟨hij, hs, -⟩ := nextHeld_eq_some.mp hj
  rw [h j hij] at hs
  cases hs

theorem i6From_eq_i6 {c : Ctlr} {i j : Nat} : i6From c i = .i6 j ↔
    i ≤ j ∧ (c.rb.getD j none).isSome = true ∧ ∀ k, i ≤ k → k < j → c.rb.getD k none = none := by
  rw [← nextHeld_eq_some, i6From]
  cases nextHeld c.rb i with
  | none => simp
  | some k => simp

theorem i6From_eq_i7 {c : Ctlr} {i : Nat} (h : ∀ k, i ≤ k → c.rb.getD k none = none) : i6From c i = .i7 0 0 := by
  rw [i6From, nextHeld_eq_none h]

theorem lcFreeRx_eq {i : Nat} {b : BufId} (hb : s.c.rb.getD i none = some b) :
    lcFreeRx s i = poolPush (s.modC fun c => { c with rb := c.rb.set i none }) b := by
  simp only [lcFreeRx, hb]

theorem agentStep_i6 {i : Nat} (hc : s.c.lcCtl = .i6 i) :
    agentStep .lc d s = .go (lcJump (i6From (lcFreeRx s i).c (i + 1)) (lcFreeRx s i)) := by
  simp only [agentStep, lcStep, hc]

/-- The slots above the one that was cleared are as they were. -/
theorem getD_set_of_lt (xs : List (Option BufId)) {i k : Nat} (h : i < k) :
    (xs.set i none).getD k none = xs.getD k none := by
  rw [getD_set _ _ _ _ (.inl rfl), if_neg (by omega)]

/-- After slot `i` is cleared, the next leftover is the first above it. -/
theorem i6From_eq_i6_of_set {c e : Ctlr} {i j : Nat} (h : e.rb = c.rb.set i none) : i6From e (i + 1) = .i6 j ↔
    i < j ∧ (c.rb.getD j none).isSome = true ∧ ∀ k, i < k → k < j → c.rb.getD k none = none := by
  rw [i6From_eq_i6, h]
  refine and_congr_right fun hij => and_congr (by rw [getD_set_of_lt _ hij]) (forall_congr' fun k => ?_)
  exact imp_congr_right fun hik => by rw [getD_set_of_lt _ hik]

/-! ## The register lines -/

/-- Lines I1-I5 (R201). -/
theorem turn_i1 (hc : s.c.lcCtl = .i1) : turn .lc d 5 s = { s with c := { s.c with
    rdh := 0#16, rdt := 0#16, rdfree := 0#16
    lcCtl := i6From s.c 0
    regs := { s.c.regs with
      rdbal := addrLoWord s.c.rdba, rdbah := addrHiWord s.c.rdba, rdlen := ringLen s.c.cfg.nrd
      hwRdh := 0#16, rdt := 0#16 }
    trace := s.c.trace ++ [.mmioW .rdbal (addrLoWord s.c.rdba), .mmioW .rdbah (addrHiWord s.c.rdba),
      .mmioW .rdlen (ringLen s.c.cfg.nrd), .mmioW .rdh 0#32, .mmioW .rdt 0#32] } } := by
  have h1 : agentStep .lc d s = .go (lcJump .i2 (mmioWrite s .rdbal (addrLoWord s.c.rdba))) := by
    simp only [agentStep, lcStep, hc]
  rw [turn_go h1, turn_go rfl, turn_go rfl, turn_go rfl, turn_go rfl, turn]
  simp only [lcJump, mmioWrite, State.modC, State.emit, regWrite, devAfterWrite, i6From, ringIndex,
    BitVec.setWidth_zero, BitVec.ofNat_eq_ofNat, List.append_assoc, List.cons_append, List.nil_append]

/-- Lines I8 and I9 (R203). -/
theorem turn_i8 (hc : s.c.lcCtl = .i8 false) : turn .lc d 3 s = { s with c := { s.c with
    lcCtl := .i10 (repNext s.c)
    regs := { s.c.regs with rdtr := s.c.rdtr.setWidth 32, radv := s.c.radv.setWidth 32, rxcsum := rxcsumInit }
    trace := s.c.trace ++ [.mmioW .rdtr (s.c.rdtr.setWidth 32), .mmioW .radv (s.c.radv.setWidth 32),
      .mmioW .rxcsum rxcsumInit] } } := by
  have h8 : agentStep .lc d s = .go (lcJump (.i8 true) (mmioWrite s .rdtr (s.c.rdtr.setWidth 32))) := by
    simp only [agentStep, lcStep, hc, Bool.false_eq_true, if_false]
  rw [turn_go h8, turn_go rfl, turn_go rfl, turn]
  simp only [lcJump, mmioWrite, State.modC, State.emit, regWrite, devAfterWrite, repNext, List.append_assoc,
    List.cons_append, List.nil_append]

/-- Line I11 (R205). -/
theorem agentStep_i11 (hc : s.c.lcCtl = .i11) : agentStep .lc d s = .go { s with c := { s.c with
    lcCtl := .t1
    regs := { s.c.regs with rctl := rctlStart s.c s.pool }
    trace := s.c.trace ++ [.mmioW .rctl (rctlStart s.c s.pool)] } } := by
  simp only [agentStep, lcStep, hc, lcJump, mmioWrite, State.modC, State.emit, regWrite, devAfterWrite]

/-- The buffer sizes of R127 and their bits. -/
theorem bsizeBits_of_mem {n : Nat} {size : Word} (h : (n, size) ∈ [(2048, 0x00000000#32), (1024, 0x00010000#32),
    (512, 0x00020000#32), (256, 0x00030000#32), (16384, 0x02010000#32), (8192, 0x02020000#32), (4096, 0x02030000#32)]) :
    bsizeBits n = some size := by
  simp only [List.mem_cons, Prod.mk.injEq, List.not_mem_nil, or_false] at h
  rcases h with ⟨rfl, rfl⟩ | ⟨rfl, rfl⟩ | ⟨rfl, rfl⟩ | ⟨rfl, rfl⟩ | ⟨rfl, rfl⟩ | ⟨rfl, rfl⟩ | ⟨rfl, rfl⟩ <;> rfl

theorem rctlStart_eq (c : Ctlr) {q : PoolParams} {size : Word} (h : bsizeBits q.rbsize = some size) :
    rctlStart c q = 0x00008002#32 ||| rdmtsBits c.cfg.rdmts ||| size ||| if c.promisc then 0x00000018#32 else 0#32 := by
  simp only [rctlStart, rctlInit, h, Option.getD_some]
  rfl

/-- Settles O55: lines I1-I5, I8, I9 and I11 write registers, line I6 frees the next leftover, and line I7 clears the
array field by field. -/
theorem rxInitPreparesTheRing : Obligations.RxInitPreparesTheRing := by
  refine fun s d => ⟨fun hc => ⟨_, turn_i1 hc, fun j => ?_, fun h => ?_, rfl⟩,
    fun i b r hc hb hr => ⟨_, agentStep_i6 hc, ?_⟩,
    fun hc hn hw => ⟨_, turn_i7 hc hn, fun x hx => ?_, fun x hx => ?_, rfl⟩,
    turn_i8, fun size v hc hsize hv => ?_⟩
  · simp [i6From_eq_i6]
  · exact i6From_eq_i7 fun k _ => h k
  · rw [lcFreeRx_eq hb]
    refine ⟨rfl, rfl, buf?_modBuf_same hr, fun x hx => buf?_modBuf_of_ne hx, fun j => ?_, fun h => ?_, rfl⟩
    · exact i6From_eq_i6_of_set rfl
    · exact i6From_eq_i7 fun k hk => (getD_set_of_lt _ hk).trans (h k hk)
  · have := ringSizeOk_le hn
    exact Mem.read8_clear hw (by omega) hx
  · exact Mem.read8_clear_outside hw hx
  · rw [agentStep_i11 hc, rctlStart_eq s.c (bsizeBits_of_mem hsize), hv]
    rfl

end Sys2Proof.Machine
end

section
/-! SUPPORT. REPLENISH's fill of one slot (R222), line by line, whichever caller runs it (O39). -/

namespace Sys2Proof.Machine

variable {m : List Host.Cell} {s u : State} {x : RepCaller} {b : BufId} {r : Buf} {d n : Nat}

/-! ## The bytes of a receive descriptor that a fill writes -/

theorem Mem.read32_write8_disjoint (hw : Mem.wf m = true) {a z : DWord} (v : Byte) (h : 4 ≤ (a - z).toNat) :
    Mem.read32 (Mem.write8 m a v) z = Mem.read32 m z := by
  rw [Mem.read32, Mem.read16_write8_disjoint hw, Mem.read16_write8_disjoint hw, Mem.read32] <;> bv_omega

/-- Memory with the address words of the receive descriptor at `i` written and its status cleared (lines R6-R8). -/
def Mem.fillRd (m : List Host.Cell) (c : Ctlr) (i : Half) (lo hi : Word) : List Host.Cell :=
  Mem.write8 (Mem.write32 (Mem.write32 m (rdAddr c i 0) lo) (rdAddr c i 4) hi) (rdAddr c i 12) 0#8

section
variable (hw : Mem.wf m = true) (c : Ctlr) (i : Half) (lo hi : Word)
include hw

theorem Mem.read32_fillRd_lo : Mem.read32 (Mem.fillRd m c i lo hi) (rdAddr c i 0) = lo := by
  rw [Mem.fillRd, rdAddr_eq_add c i 4, rdAddr_eq_add c i 12, Mem.read32_write8_disjoint (by simp [hw]),
    Mem.read32_write32_disjoint (by simp [hw]), Mem.read32_write32 hw] <;> bv_omega

theorem Mem.read32_fillRd_hi : Mem.read32 (Mem.fillRd m c i lo hi) (rdAddr c i 4) = hi := by
  rw [Mem.fillRd, rdAddr_eq_add c i 4, rdAddr_eq_add c i 12, Mem.read32_write8_disjoint (by simp [hw]),
    Mem.read32_write32 (by simp [hw])]
  bv_omega

theorem Mem.read8_fillRd_status : Mem.read8 (Mem.fillRd m c i lo hi) (rdAddr c i 12) = 0#8 := by
  rw [Mem.fillRd, Mem.read8_write8 (by simp [hw]), if_pos rfl]

theorem Mem.read8_fillRd_outside {z : DWord} (h : 8 ≤ (z - rdAddr c i 0).toNat) (h' : z ≠ rdAddr c i 12) :
    Mem.read8 (Mem.fillRd m c i lo hi) z = Mem.read8 m z := by
  rw [Mem.fillRd, Mem.read8_write8_of_ne (by simp [hw]) _ h', rdAddr_eq_add c i 4,
    Mem.read8_write32_outside (by simp [hw]), Mem.read8_write32_outside hw] <;> bv_omega
end

/-! ## The lines of the fill -/

/-- The popped buffer `b`, changed by `f`, recorded in the slot at the tail; memory is `m`. -/
def slotFilled (s : State) (d : Nat) (b : BufId) (f : Buf → Buf) (m : List Host.Cell) : State :=
  { s with
    mem := m, bufs := bufMod s.bufs b f, free := s.free.eraseIdx (d % s.free.length), plock := none
    c := { s.c with rb := s.c.rb.set s.c.rdt.toNat (some b) } }

/-- The buffer in the slot: the slot owns it (line R3), its cursors and annotations are reset (line R5). -/
def slotBuf (c : Ctlr) : Buf → Buf := Buf.resetCursors ∘ Buf.setOwner (.rxSlot c.id c.rdt)

/-- Line R8's advance of the tail. -/
def tailAdvanced (u : State) : State :=
  { u with c := { u.c with rdfree := u.c.rdfree + 1#16, rdt := ringNext u.c.rdt u.c.cfg.nrd } }

section
variable (q : RepPc)

theorem goto_buf? : (x.goto q u).buf? b = u.buf? b := by cases x <;> rfl
theorem goto_modBuf (f : Buf → Buf) : (x.goto q u).modBuf b f = x.goto q (u.modBuf b f) := by cases x <;> rfl
theorem goto_setRd32 (i : Half) (o : Nat) (v : Word) : (x.goto q u).setRd32 i o v = x.goto q (u.setRd32 i o v) := by
  cases x <;> rfl
theorem goto_mem : (x.goto q u).mem = u.mem := by cases x <;> rfl
theorem goto_free : (x.goto q u).free = u.free := by cases x <;> rfl
theorem goto_bufs : (x.goto q u).bufs = u.bufs := by cases x <;> rfl
theorem goto_rb : (x.goto q u).c.rb = u.c.rb := by cases x <;> rfl
theorem goto_rdfree : (x.goto q u).c.rdfree = u.c.rdfree := by cases x <;> rfl
theorem goto_repNext : repNext (x.goto q u).c = repNext u.c := by cases x <;> rfl
end

/-- Line R3 with a free buffer: it is popped into the slot. -/
theorem turn_r3 (h : x.line s.c = some .r3) (hb : s.free[d % s.free.length]? = some b) :
    turn x.agent d (n + 1) s =
      turn x.agent d n (x.goto (.r5 b) (slotFilled s d b (Buf.setOwner (.rxSlot s.c.id s.c.rdt)) s.mem)) := by
  refine turn_go ((agentStep_rep h).trans ?_)
  simp only [repStep, poolPop, hb]
  rfl

theorem turn_goto_r5 : turn x.agent d (n + 1) (x.goto (.r5 b) u) =
    turn x.agent d n (x.goto (.r6 b) (u.modBuf b Buf.resetCursors)) := by
  rw [turn_go (agentStep_rep line_goto), goto_modBuf]
  simp only [goto_goto]

theorem turn_goto_r6 (hb : u.buf? b = some r) : turn x.agent d (n + 1) (x.goto (.r6 b) u) =
    turn x.agent d n (x.goto (.r7 b) (u.setRd32 u.c.rdt offAddrLo (addrLoWord (r.pa 0#32)))) := by
  rw [turn_go ((agentStep_rep line_goto).trans ?_)]
  simp only [repStep, goto_buf?, hb, goto_rdt, goto_setRd32, goto_goto]

theorem turn_goto_r7 (hb : u.buf? b = some r) : turn x.agent d (n + 1) (x.goto (.r7 b) u) =
    turn x.agent d n (x.goto (.r8 b) (u.setRd32 u.c.rdt offAddrHi (addrHiWord (r.pa 0#32)))) := by
  rw [turn_go ((agentStep_rep line_goto).trans ?_)]
  simp only [repStep, goto_buf?, hb, goto_rdt, goto_setRd32, goto_goto]

/-- Line R8 with the loop test of the next slot. -/
theorem turn_goto_r8 : turn x.agent d (n + 1) (x.goto (.r8 b) u) =
    turn x.agent d n (x.goto (repNext (tailAdvanced u).c) (tailAdvanced (u.setRd8 u.c.rdt offStatus 0#8))) := by
  rw [turn_go (agentStep_rep line_goto)]
  cases x <;> rfl

/-- Lines R3 to R8: the slot at the tail is filled. -/
theorem turn_rep_fill (h : x.line s.c = some .r3) (hf : s.free[d % s.free.length]? = some b) (hb : s.buf? b = some r)
    (t : State) (ht : t = tailAdvanced (slotFilled s d b (slotBuf s.c)
      (Mem.fillRd s.mem s.c s.c.rdt (addrLoWord (r.pa 0#32)) (addrHiWord (r.pa 0#32))))) :
    turn x.agent d 5 s = x.goto (repNext t.c) t := by
  have hb' (m) : (slotFilled s d b (slotBuf s.c) m).buf? b = some (slotBuf s.c r) := buf?_modBuf_same hb
  have h5 : (slotFilled s d b (Buf.setOwner (.rxSlot s.c.id s.c.rdt)) s.mem).modBuf b Buf.resetCursors =
      slotFilled s d b (slotBuf s.c) s.mem := by
    simp only [State.modBuf, slotFilled, bufMod_bufMod, slotBuf]
  rw [turn_r3 h hf, turn_goto_r5, h5, turn_goto_r6 (hb' _)]
  refine (turn_goto_r7 (u := slotFilled s d b (slotBuf s.c) _) (hb' _)).trans (turn_goto_r8.trans ?_)
  subst ht
  rfl

/-- Settles O39: lines R3, R5, R6, R7 and R8, whichever caller runs them. -/
theorem replenishFillsTheTailSlot : Obligations.ReplenishFillsTheTailSlot := by
  intro s d x b r i hw hx hi hf hb
  subst hi
  have hpa : r.pa 0#32 = r.base := BitVec.add_zero _
  refine ⟨_, turn_rep_fill hx hf hb _ rfl, ?_⟩
  simp only [goto_rb, goto_free, goto_buf?, goto_mem, goto_bufs, goto_rdfree, goto_rdt, goto_repNext, hpa]
  exact ⟨rfl, rfl, buf?_modBuf_same hb, fun y hy => buf?_modBuf_of_ne hy, Mem.read32_fillRd_lo hw _ _ _ _,
    Mem.read32_fillRd_hi hw _ _ _ _, Mem.read8_fillRd_status hw _ _ _ _,
    fun y h h' => Mem.read8_fillRd_outside hw _ _ _ _ h h', rfl, rfl, rfl⟩

end Sys2Proof.Machine
end

section
/-! SUPPORT. The receive worker's own lines: harvest (R213, O43) and the model faults of the worker and of TX_ROUTINE
(R456, O45). -/

namespace Sys2Proof.Machine

variable {m : List Host.Cell} {s u : State} {r : Buf} {c : Ctlr} {d : Nat}

/-! ## Harvest -/

/-- Memory with the status and errors bytes of the receive descriptor at `i` cleared (lines S6, S7). -/
def Mem.clearRd (m : List Host.Cell) (c : Ctlr) (i : Half) : List Host.Cell :=
  Mem.write8 (Mem.write8 m (rdAddr c i 12) 0#8) (rdAddr c i 13) 0#8

theorem Mem.read8_clearRd (hw : Mem.wf m = true) (c : Ctlr) (i : Half) (z : DWord) :
    Mem.read8 (Mem.clearRd m c i) z = if z = rdAddr c i 12 ∨ z = rdAddr c i 13 then 0#8 else Mem.read8 m z := by
  rw [Mem.clearRd, Mem.read8_write8 (by simp [hw]), Mem.read8_write8 hw]
  by_cases h13 : z = rdAddr c i 13 <;> simp [h13]

/-- The state behind line S7: the descriptor at the head is cleared and the head advances. -/
def headAdvanced (s : State) : State :=
  { s with mem := Mem.clearRd s.mem s.c s.c.rdh, c := { s.c with
      rdfree := s.c.rdfree - 1#16, rdh := ringNext s.c.rdh s.c.cfg.nrd } }

theorem agentStep_s6 (hc : s.c.rxw.ctl = .s6) :
    agentStep .rxw d s = .go (rxwJump .s7 (s.setRd8 s.c.rdh offStatus 0#8)) := by
  simp only [agentStep, rxwStep, hc]

/-- Lines S6 and S7 with line S8's free test. -/
theorem turn_harvest (hc : s.c.rxw.ctl = .s6) :
    turn .rxw d 2 s = rxwJump (rxwAfterHarvest (headAdvanced s).c) (headAdvanced s) :=
  (turn_go (agentStep_s6 hc)).trans (turn_go rfl)

theorem rxwAfterHarvest_eq (c : Ctlr) : rxwAfterHarvest c =
    if 32 ≤ c.cfg.nrd - c.rdfree.toNat ∨ c.rxw.cause &&& 0x00000010#32 ≠ 0#32 then .s8 (repNext c) else .s1 := by
  simp only [rxwAfterHarvest, rxTrigger_iff]

/-- Settles O43: lines S6 and S7 with the free test of line S8. -/
theorem harvestAdvancesHeadAndTriggersReplenish : Obligations.HarvestAdvancesHeadAndTriggersReplenish := by
  intro s d i hw hc hi
  subst hi
  refine ⟨_, turn_harvest hc, ?_, ?_, fun z h12 h13 => ?_, rfl, rfl, rxwAfterHarvest_eq _, rfl⟩
  · exact (Mem.read8_clearRd hw _ _ _).trans (if_pos (.inl rfl))
  · exact (Mem.read8_clearRd hw _ _ _).trans (if_pos (.inr rfl))
  · exact (Mem.read8_clearRd hw _ _ _).trans (if_neg (by simp only [h12, h13, or_self, not_false_iff]))

/-! ## Model faults -/

/-- Line S3 at a slot that holds no buffer. -/
theorem agentStep_s3_empty (hc : s.c.rxw.ctl = .s3) (hb : s.c.rb.getD s.c.rdh.toNat none = none) :
    agentStep .rxw d s = .go (rxwRaise s .haltS3 (.rxNoBuffer s.c.rdh)) := by
  simp only [agentStep, rxwStep, hc, hb]

/-- Line D2 with a length past the buffer's capacity. -/
theorem agentStep_d2_long (hc : s.c.rxw.ctl = .d2) (hb : s.buf? s.c.rxw.b = some r) (hl : r.cap < r.wp + s.c.rxw.len) :
    agentStep .rxw d s = .go (rxwRaise s .haltD2 (.rxLength s.c.rdh s.c.rxw.len)) := by
  simp only [agentStep, rxwStep, hc, hb, gt_iff_lt, hl, if_true]

/-- Line B4 with a length R252 does not allow. -/
theorem agentStep_b4_badLength {a : AgentId} {q : TxRun} (hr : txRunOf s.c a = some { q with pc := .b4 })
    (hb : s.buf? q.p = some r) (hl : txLengthOk s.c.cfg r.len = false) :
    agentStep a d s = .go (atTx a { q with pc := .haltB3 }
      (raiseFault s { kind := .upstreamContract, info := .txLength s.c.tdt r.len })) := by
  rw [agentStep_tx hr]
  simp only [txStep, hb, hl, Bool.false_eq_true, if_false]

theorem agentStep_rxw_halted (h : s.c.rxw.ctl = .haltS3 ∨ s.c.rxw.ctl = .haltD2) : agentStep .rxw d s = .blocked := by
  obtain hc | hc := h <;> simp only [agentStep, rxwStep, hc]

theorem agentStep_tx_halted {a : AgentId} {q : TxRun} (hr : txRunOf s.c a = some { q with pc := .haltB3 }) :
    agentStep a d s = .blocked :=
  agentStep_tx hr

/-- A recorded model fault is none of the records `noModelFault` allows. -/
theorem noModelFault_eq_false {e : FaultRec} (he : e ∈ c.fault)
    (hk : e.kind = .deviceContract ∨ e.kind = .upstreamContract) : noModelFault c = false := by
  refine List.all_eq_false.mpr ⟨e, he, ?_⟩
  obtain hk | hk := hk <;> rw [hk] <;> decide

theorem runEnds_eq_false (hc : c ∈ u.ctlrs) (h : noModelFault c = false) : runEnds u = false := by
  have hall : (u.ctlrs.all fun c => quiescent c && !lineAsserted c.regs && noModelFault c) = false :=
    List.all_eq_false.mpr ⟨c, hc, by rw [h, Bool.and_false]; exact Bool.false_ne_true⟩
  rw [runEnds, hall, Bool.and_false]

/-- Settles O45: the three raising lines, the lines they stop at, and the end of a run. -/
theorem contractBreachStopsTheAgent : Obligations.ContractBreachStopsTheAgent := by
  refine ⟨fun s d hc hb => agentStep_s3_empty hc hb, fun s d r hc hb hl => agentStep_d2_long hc hb hl,
    fun s d a q r hr hb hl => agentStep_b4_badLength hr hb ?_,
    fun s d a q => ⟨agentStep_rxw_halted, agentStep_tx_halted⟩,
    fun u c e hc he hk => runEnds_eq_false hc (noModelFault_eq_false he hk)⟩
  rw [Bool.eq_false_iff, Ne, txLengthOk_iff]
  rintro ⟨h0, hmax⟩
  exact hl.elim h0 (Nat.not_lt.mpr hmax)

end Sys2Proof.Machine
end

section
/-! SUPPORT. ARM and WAKE as a whole, run without a wait (R280, R281), and the workers that call them (O38). -/

namespace Sys2Proof.Machine

variable {s : State} {a : AgentId} {cls : Word} {d n : Nat}

/-! ## ARM and WAKE with `mlock` free -/

theorem acquireM_of_free (hl : s.c.mlock = none) (a : AgentId) (k : State → State) :
    acquireM s a k = .go (k (s.modC fun c => { c with mlock := some a })) := by
  simp only [acquireM, hl]

/-- ARM, by an agent whose lines inside it are `j` and whose line behind it is `k`. -/
theorem turn_arm {j : ArmPc → State → State} {k : State → State} (hl : s.c.mlock = none)
    (h : agentStep a d s = armStep s a cls .m1 j k)
    (hj : ∀ p u, agentStep a d (j p u) = armStep (j p u) a cls p j k) (t : State)
    (ht : t = j .m3 ((j .m2 (s.modC fun c => { c with mlock := some a })).modC fun c => { c with im := c.im ||| cls })) :
    turn a d (n + 4) s = turn a d n (k (releaseM (j .m4 (mmioWrite t .ims t.c.im)))) := by
  subst ht
  rw [turn_go (h.trans (acquireM_of_free hl _ _)), turn_go (hj _ _), turn_go (hj _ _), turn_go (hj _ _)]

/-- A park whose flag is up and WAKE behind it, likewise; `take` is the snapshot. -/
theorem turn_wake {take : State → State} {j : WakePc → State → State} {k : State → State}
    (h : agentStep a d s = .go (j .k1 s)) (hl : (j .k1 s).c.mlock = none)
    (hj : ∀ p u, agentStep a d (j p u) = wakeStep (j p u) a p take j k) :
    turn a d (n + 4) s =
      turn a d n (k (releaseM (j .k3 (take (j .k2 ((j .k1 s).modC fun c => { c with mlock := some a })))))) := by
  rw [turn_go h, turn_go ((hj .k1 s).trans (acquireM_of_free hl _ _)), turn_go (hj _ _), turn_go (hj _ _)]

/-! ## The workers' lines: ARM, the park, WAKE -/

section
variable {p : ArmPc}

theorem agentStep_w1 (hc : s.c.rxw.ctl = .w1 p) : agentStep .rxw d s =
    armStep s .rxw rxClass p (fun q => rxwJump (.w1 q)) (rxwJump .w2) := by simp only [agentStep, rxwStep, hc]

theorem agentStep_t1 (hc : s.c.txw = .t1 p) : agentStep .txw d s =
    armStep s .txw txClass p (fun q => txwJump (.t1 q)) (txwJump .t2) := by simp only [agentStep, txwStep, hc]

theorem agentStep_l6 (hc : s.c.lnk = .l6 p) : agentStep .lnk d s =
    armStep s .lnk linkClass p (fun q => lnkJump (.l6 q)) (lnkJump .l7) := by simp only [agentStep, lnkStep, hc]
end

theorem agentStep_w2 (hc : s.c.rxw.ctl = .w2) : agentStep .rxw d s =
    if s.c.rim = 0#32 then .blocked else .go (rxwJump (.w3 .k1) s) := by simp only [agentStep, rxwStep, hc]

theorem agentStep_t2 (hc : s.c.txw = .t2) : agentStep .txw d s =
    if s.c.tsig then .go (txwJump (.t3 .k1) s) else .blocked := by simp only [agentStep, txwStep, hc]

theorem agentStep_l7 (hc : s.c.lnk = .l7) : agentStep .lnk d s =
    if s.c.lim = 0#32 then .blocked else .go (lnkJump (.l8 .k1) s) := by simp only [agentStep, lnkStep, hc]

section
variable {p : WakePc}

theorem agentStep_w3 (hc : s.c.rxw.ctl = .w3 p) : agentStep .rxw d s = wakeStep s .rxw p
    (fun t => t.modC fun c => { c with rxw := { c.rxw with cause := c.rim }, rim := 0#32 })
    (fun q => rxwJump (.w3 q)) (fun t => setRxw t fun x => { x with ctl := .s1, nrep := 0 }) := by
  simp only [agentStep, rxwStep, hc]

theorem agentStep_t3 (hc : s.c.txw = .t3 p) : agentStep .txw d s = wakeStep s .txw p
    (fun t => t.modC fun c => { c with tsig := false }) (fun q => txwJump (.t3 q)) (txwJump (.t4 TxRun.start)) := by
  simp only [agentStep, txwStep, hc]

theorem agentStep_l8 (hc : s.c.lnk = .l8 p) : agentStep .lnk d s = wakeStep s .lnk p
    (fun t => t.modC fun c => { c with lim := 0#32 }) (fun q => lnkJump (.l8 q)) (lnkJump (.l1 .h1)) := by
  simp only [agentStep, lnkStep, hc]
end

/-- Settles O38: ARM's lines M1-M4 at lines W1, T1 and L6; the parks W2, T2 and L7 with WAKE's lines K1-K3 behind them. -/
theorem armAddsOwnClassAndWakeTakesFlag : Obligations.ArmAddsOwnClassAndWakeTakesFlag := by
  refine ⟨fun s d hl => ⟨
      fun hc => (turn_arm hl (agentStep_w1 hc) (fun _ _ => agentStep_w1 rfl) _ rfl).trans ?_,
      fun hc => (turn_arm hl (agentStep_t1 hc) (fun _ _ => agentStep_t1 rfl) _ rfl).trans ?_,
      fun hc => (turn_arm hl (agentStep_l6 hc) (fun _ _ => agentStep_l6 rfl) _ rfl).trans ?_⟩,
    fun s d => ⟨fun hc hf => (agentStep_w2 hc).trans (if_pos hf),
      fun hc hf => (agentStep_t2 hc).trans (if_neg (Bool.eq_false_iff.mp hf)),
      fun hc hf => (agentStep_l7 hc).trans (if_pos hf),
      fun hl hc hf => (turn_wake (j := fun q => rxwJump (.w3 q)) ((agentStep_w2 hc).trans (if_neg hf)) hl
        fun _ _ => agentStep_w3 rfl).trans ?_,
      fun hl hc hf => (turn_wake (j := fun q => txwJump (.t3 q)) ((agentStep_t2 hc).trans (if_pos hf)) hl
        fun _ _ => agentStep_t3 rfl).trans ?_,
      fun hl hc hf => (turn_wake (j := fun q => lnkJump (.l8 q)) ((agentStep_l7 hc).trans (if_neg hf)) hl
        fun _ _ => agentStep_l8 rfl).trans ?_⟩⟩
  all_goals
    -- the lock is free again, as it was
    simp only [turn, rxwJump, setRxw, txwJump, lnkJump, releaseM, mmioWrite, State.modC, State.emit, regWrite,
      devAfterWrite, rxClass, txClass, linkClass, TxRun.start, ← hl]

end Sys2Proof.Machine
end


section
/-!
SUPPORT. RELEASE (R305), and the lines of TX_ROUTINE outside the fill: reclaim (R245-R247, O46), the full ring
(R254, O49) and the tail (R255, O48).
-/

namespace Sys2Proof.Machine

variable {s u v : State} {a : AgentId} {b x : BufId} {r : Buf} {p q : TxRun} {d n : Nat}

/-! ## RELEASE: the event, the origin, and what is left unchanged (R305) -/

theorem releaseTx_frame (s : State) (b : BufId) : releaseTx s b = { s with
    bufs := (releaseTx s b).bufs, free := (releaseTx s b).free, plock := (releaseTx s b).plock
    c := { s.c with trace := s.c.trace ++ [.txRelease b] } } := by
  unfold releaseTx
  obtain h | h | h := releaseBuf_cases s b <;> rw [h] <;> rfl

theorem releaseTx_of_pool (hb : s.buf? b = some r) (ho : r.origin = .pool) :
    releaseTx s b = (poolPush s b).emit (.txRelease b) := by
  simp only [releaseTx, releaseBuf, hb, ho]

theorem releaseTx_of_host (hb : s.buf? b = some r) (ho : r.origin = .host) :
    releaseTx s b = (s.modBuf b (Buf.setOwner .host)).emit (.txRelease b) := by
  simp only [releaseTx, releaseBuf, hb, ho]

theorem releaseTx_buf?_of_ne (h : x ≠ b) : (releaseTx s b).buf? x = s.buf? x := by
  unfold releaseTx
  obtain e | e | e := releaseBuf_cases s b <;> rw [e]
  · exact buf?_modBuf_of_ne h
  · exact buf?_modBuf_of_ne h
  · rfl

/-- A pool buffer goes on top of the pool, a supplied one back to the host. -/
theorem releaseTx_origin (hb : s.buf? b = some r) :
    (r.origin = .pool → (releaseTx s b).free = b :: s.free
        ∧ (releaseTx s b).buf? b = some { r with owner := .pool })
      ∧ (r.origin = .host → (releaseTx s b).free = s.free
        ∧ (releaseTx s b).buf? b = some { r with owner := .host }) := by
  refine ⟨fun ho => ?_, fun ho => ?_⟩
  · rw [releaseTx_of_pool hb ho]
    exact ⟨rfl, buf?_modBuf_same hb⟩
  · rw [releaseTx_of_host hb ho]
    exact ⟨rfl, buf?_modBuf_same hb⟩

/-! ## A line of the routine, run from where the agent was moved -/

section
variable (a : AgentId) (q : TxRun) (s : State)

theorem atTx_free : (atTx a q s).free = s.free := by cases a <;> rfl
theorem atTx_plock : (atTx a q s).plock = s.plock := by cases a <;> rfl
theorem atTx_tdh : (atTx a q s).c.tdh = s.c.tdh := by cases a <;> rfl
theorem atTx_trace : (atTx a q s).c.trace = s.c.trace := by cases a <;> rfl
end

/-- A line that moves the agent and does not end its run. -/
theorem turn_atTx (hr : (txRunOf u.c a).isSome = true)
    (h : txStep (atTx a q u) a q (atTx a) (endTx a) = .go (atTx a p (atTx a q v))) :
    turn a d (n + 1) (atTx a q u) = turn a d n (atTx a p v) := by
  rw [turn_go ((agentStep_tx (txRunOf_atTx hr)).trans h), atTx_atTx]

/-! ## Reclaim (R245-R247) -/

/-- Line A1: the status word at the head, and behind DD = 0 line B1's free test. -/
theorem agentStep_tx_a1 (hr : txRunOf s.c a = some { q with pc := .a1 }) : agentStep a d s = .go (atTx a
    (if txDD (s.txStatus s.c.tdh) then { q with pc := .a3 } else { q with pc := txNext s.c, t0 := s.c.tdt }) s) := by
  rw [agentStep_tx hr]
  simp only [txStep]
  split <;> rfl

theorem txDD_iff {w : Word} : txDD w = true ↔ w &&& 1#32 ≠ 0#32 := bne_iff_ne

theorem txReclaim_of_empty (h : s.c.tb.getD s.c.tdh.toNat none = none) :
    txReclaim s = s.emit (.txUnderrun s.c.tdh) := by
  simp only [txReclaim, h]

theorem txReclaim_of_held (h : s.c.tb.getD s.c.tdh.toNat none = some b) :
    txReclaim s = releaseTx (s.modC fun c => { c with tb := c.tb.set c.tdh.toNat none }) b := by
  simp only [txReclaim, h]

theorem txReclaim_frame_eq (s : State) : txReclaim s = { s with
    bufs := (txReclaim s).bufs, free := (txReclaim s).free, plock := (txReclaim s).plock
    c := { s.c with tb := (txReclaim s).c.tb, trace := (txReclaim s).c.trace } } := by
  cases h : s.c.tb.getD s.c.tdh.toNat none with
  | none => rw [txReclaim_of_empty h]; rfl
  | some b => rw [txReclaim_of_held h, releaseTx_frame]; rfl

/-- The slot at the head is reclaimed: its buffer is released or the underrun logged (line A3), its status word made 0
and the head advanced (line A4). -/
def reclaimed (s : State) : State :=
  { s with
    mem := Mem.write32 s.mem (tdAddr s.c s.c.tdh 12) 0#32
    bufs := (txReclaim s).bufs, free := (txReclaim s).free, plock := (txReclaim s).plock
    c := { s.c with
      tdh := ringNext s.c.tdh s.c.cfg.ntd, tb := (txReclaim s).c.tb, trace := (txReclaim s).c.trace } }

/-- Lines A3 and A4. -/
theorem turn_tx_reclaim (hr : txRunOf s.c a = some { q with pc := .a3 }) :
    turn a d 2 s = atTx a { q with pc := .a1 } (reclaimed s) := by
  have ha3 : agentStep a d s = .go (atTx a { q with pc := .a4 } (txReclaim s)) := agentStep_tx hr
  rw [turn_go ha3, txReclaim_frame_eq]
  exact turn_atTx (congrArg Option.isSome hr) (by cases a <;> rfl)

/-- Settles O46: line A1's test, and lines A3 and A4 at a slot that is empty or held. -/
theorem reclaimReleasesToOrigin : Obligations.ReclaimReleasesToOrigin := by
  refine ⟨fun s d a q hr => ?_, fun s d a q i hw hr hi => ⟨_, turn_tx_reclaim hr, ?_⟩⟩
  · simp only [agentStep_tx_a1 hr, txDD_iff]
    rfl
  subst hi
  simp only [atTx_tdh, atTx_mem, atTx_trace, atTx_bufs, atTx_free, atTx_plock, atTx_tb, atTx_buf?]
  refine ⟨rfl, Mem.read32_write32 hw _ _, fun x hx => Mem.read8_write32_outside hw _ _ _ hx, fun he => ?_,
    fun b r hb hbuf => ?_, rfl⟩
  · rw [reclaimed, txReclaim_of_empty he]
    exact ⟨rfl, rfl, rfl, rfl⟩
  · rw [reclaimed, txReclaim_of_held hb]
    have hbuf' : (s.modC fun c => { c with tb := c.tb.set c.tdh.toNat none }).buf? b = some r := hbuf
    obtain ⟨hpool, hhost⟩ := releaseTx_origin hbuf'
    exact ⟨by rw [releaseTx_frame]; rfl, by rw [releaseTx_frame]; rfl, fun x hx => releaseTx_buf?_of_ne hx, hpool,
      hhost⟩

/-! ## The end of refill: the tail (R255, R256) and the full ring (R250, R254) -/

/-- Line B2 with an empty queue: line E1's free test. -/
theorem turn_tx_b2_empty (hr : txRunOf s.c a = some { q with pc := .b2 }) (ho : s.c.oq = []) :
    turn a d (n + 1) s = turn a d n (atTx a { q with pc := txTail s.c q } s) := by
  refine turn_go ((agentStep_tx hr).trans ?_)
  simp only [txStep, ho]
  rfl

/-- Line E1: the tail is written. -/
theorem turn_tx_e1 (hr : (txRunOf u.c a).isSome = true) : turn a d (n + 1) (atTx a { q with pc := .e1 } u) =
    turn a d n (atTx a { q with pc := .e2 } (mmioWrite u .tdt (u.c.tdt.setWidth 32))) :=
  turn_atTx hr (by cases a <;> rfl)

/-- The end of a run leaves nothing of the line it ended at. -/
theorem endTx_atTx (a : AgentId) (q : TxRun) (s : State) : endTx a (atTx a q s) = endTx a s := by
  cases a with
  | disp | rxw | lnk | lc | txw => rfl
  | txc k =>
    have h : (txcSet s.c.txcs k q).filter (fun x => x.k != k) = s.c.txcs.filter fun x => x.k != k := by
      induction s.c.txcs with
      | nil => rfl
      | cons x xs ih =>
        by_cases hx : x.k = k <;> simpa [txcSet, hx] using ih
    simp only [endTx, txcEnd, atTx, txcJump, State.modC, h]

/-- Line E2: `tlock` is freed and the run ends. -/
theorem turn_tx_e2 (hr : (txRunOf u.c a).isSome = true) :
    turn a d (n + 1) (atTx a { q with pc := .e2 } u) = turn a d n (endTx a (releaseT u)) := by
  have h : releaseT (atTx a { q with pc := .e2 } u) = atTx a { q with pc := .e2 } (releaseT u) := by cases a <;> rfl
  rw [turn_go (agentStep_tx (txRunOf_atTx hr)), h, endTx_atTx]

theorem mmioWrite_tdt (s : State) : mmioWrite s .tdt (s.c.tdt.setWidth 32) = { s with c := { s.c with
    regs := { s.c.regs with tdt := s.c.tdt }, trace := s.c.trace ++ [.mmioW .tdt (s.c.tdt.setWidth 32)] } } := by
  simp only [mmioWrite, State.modC, State.emit, regWrite, devAfterWrite, ringIndex,
    BitVec.setWidth_setWidth_of_le, Nat.reduceLeDiff, BitVec.setWidth_eq]

/-- Settles O48: line B2 with an empty queue, line E1 where the tail moved, and line E2. -/
theorem txTailIsWrittenOnlyIfChanged : Obligations.TxTailIsWrittenOnlyIfChanged := by
  intro s d a q hr ho
  have hin : (txRunOf s.c a).isSome = true := congrArg Option.isSome hr
  refine ⟨fun ht => ?_, fun ht => ?_⟩
  · rw [turn_tx_b2_empty hr ho, txTail, if_pos ht, turn_tx_e2 hin]
    rfl
  · rw [turn_tx_b2_empty hr ho, txTail, if_neg ht, turn_tx_e1 hin, mmioWrite_tdt]
    exact turn_tx_e2 hin

/-- The machine while `a` is between lines M2 and M4 of ARM of the TX class. -/
def armingTx (s : State) (a : AgentId) : State := { s with c := { s.c with mlock := some a, im := s.c.im ||| txClass } }

/-- Line C1 with packets left: ARM of the TX class (R280), with `mlock` free, and the event. -/
theorem turn_tx_ringFull (hr : txRunOf s.c a = some { q with pc := .c1 }) (ho : s.c.oq ≠ []) (hl : s.c.mlock = none) :
    turn a d (n + 6) s = turn a d n (atTx a { q with pc := txTail s.c q } { s with c := { s.c with
      im := s.c.im ||| txClass
      regs := { s.c.regs with hwIms := s.c.regs.hwIms ||| (s.c.im ||| txClass) }
      trace := s.c.trace ++ [.mmioW .ims (s.c.im ||| txClass), .txRingFull] } }) := by
  have hin : (txRunOf s.c a).isSome = true := congrArg Option.isSome hr
  have hc1 : agentStep a d s = .go (atTx a { q with pc := .c1Arm .m1 } s) := by
    rw [agentStep_tx hr]
    simp only [txStep, List.isEmpty_iff, ho, if_false]
  calc turn a d (n + 6) s
    _ = turn a d (n + 5) (atTx a { q with pc := .c1Arm .m1 } s) := turn_go hc1
    _ = turn a d (n + 4) (atTx a { q with pc := .c1Arm .m2 } { s with c := { s.c with mlock := some a } }) :=
      turn_atTx hin ((acquireM_of_free (by cases a <;> exact hl) _ _).trans (by cases a <;> rfl))
    _ = turn a d (n + 3) (atTx a { q with pc := .c1Arm .m3 } (armingTx s a)) := turn_atTx hin (by cases a <;> rfl)
    _ = turn a d (n + 2) (atTx a { q with pc := .c1Arm .m4 } (mmioWrite (armingTx s a) .ims (s.c.im ||| txClass))) :=
      turn_atTx hin (by cases a <;> rfl)
    _ = turn a d (n + 1)
        (atTx a { q with pc := .c1Emit } (releaseM (mmioWrite (armingTx s a) .ims (s.c.im ||| txClass)))) :=
      turn_atTx hin (by cases a <;> rfl)
    _ = turn a d n (atTx a { q with pc := txTail s.c q }
        ((releaseM (mmioWrite (armingTx s a) .ims (s.c.im ||| txClass))).emit .txRingFull)) :=
      turn_atTx hin (by cases a <;> rfl)
    _ = _ := by
      simp only [armingTx, releaseM, mmioWrite, State.modC, State.emit, regWrite, devAfterWrite, List.append_assoc,
        List.cons_append, List.nil_append, ← hl]

/-- Line C1 with no packet left: line E1's free test. -/
theorem turn_tx_c1_empty (hr : txRunOf s.c a = some { q with pc := .c1 }) (ho : s.c.oq = []) :
    turn a d (n + 1) s = turn a d n (atTx a { q with pc := txTail s.c q } s) := by
  refine turn_go ((agentStep_tx hr).trans ?_)
  simp only [txStep, ho, List.isEmpty_nil, if_true]
  rfl

theorem txNext_eq_c1 {c : Ctlr} : txNext c = .c1 ↔ ringNext c.tdt c.cfg.ntd = c.tdh := by
  unfold txNext
  split <;> simp [*]

theorem txNext_eq_b2 {c : Ctlr} (h : txNext c ≠ .c1) : txNext c = .b2 := if_neg (mt txNext_eq_c1.mpr h)

/-- Settles O49: the refill test, and line C1 with packets left and with none. -/
theorem fullTxRingRequestsTxdw : Obligations.FullTxRingRequestsTxdw :=
  ⟨fun _ => ⟨txNext_eq_c1, txNext_eq_b2⟩,
    fun _ _ _ _ hr => ⟨fun ho hl => turn_tx_ringFull hr ho hl, fun ho => turn_tx_c1_empty hr ho⟩⟩

end Sys2Proof.Machine
end

section
/-! SUPPORT. TX_INIT (R240) line by line (O56). -/

namespace Sys2Proof.Machine

variable {s : State} {b : BufId} {r : Buf} {d n i j : Nat}

/-! ## Line T7 -/

theorem tdAddr_ofNat (c : Ctlr) (hi : i < 65536) (off : Nat) :
    tdAddr c (BitVec.ofNat 16 i) off = c.tdba + BitVec.ofNat 64 (16 * i + off) := by
  apply BitVec.eq_of_toNat_eq
  simp only [tdAddr, descAddr, BitVec.toNat_add, BitVec.toNat_mul, BitVec.toNat_setWidth, BitVec.toNat_ofNat]
  omega

/-- Each field of a transmit descriptor is a word, and line T7 clears it. -/
theorem zeroTd_eq (s : State) (i : Half) {f : Nat} (hf : f < 4) :
    zeroTd s i f = s.setMem (Mem.clear s.mem (tdAddr s.c i (4 * f)) 4) := by
  match f with
  | 0 | 1 | 2 | 3 => exact congrArg s.setMem (Mem.write32_zero _ _)

/-- Line T7 at word `w` of an array of `n` descriptors, or the line behind it. -/
def t7Word (n w : Nat) : LcCtl := if w < 4 * n then .t7 (w / 4) (w % 4) else .t8 false

theorem t7Next_eq {w : Nat} (hw : w < 4 * n) : t7Next n (w / 4) (w % 4) = t7Word n (w + 1) := by
  unfold t7Next t7Word
  split
  · rw [if_pos (by omega), show (w + 1) / 4 = w / 4 by omega, show (w + 1) % 4 = w % 4 + 1 by omega]
  · by_cases hlast : w / 4 + 1 < n
    · rw [if_pos hlast, if_pos (by omega), show (w + 1) / 4 = w / 4 + 1 by omega, show (w + 1) % 4 = 0 by omega]
    · rw [if_neg hlast, if_neg (by omega)]

/-- TX_INIT with the first `w` words of the descriptor array cleared. -/
def txCleared (s : State) (w : Nat) : State :=
  { s with mem := Mem.clear s.mem s.c.tdba (4 * w), c := { s.c with lcCtl := t7Word s.c.cfg.ntd w } }

theorem agentStep_t7 {f : Nat} (hc : s.c.lcCtl = .t7 i f) :
    agentStep .lc d s = .go (lcJump (t7Next s.c.cfg.ntd i f) (zeroTd s (BitVec.ofNat 16 i) f)) := by
  simp only [agentStep, lcStep, hc]

theorem turn_t7_word {w : Nat} (hw : w < 4 * s.c.cfg.ntd) (hn : s.c.cfg.ntd ≤ 65536) (n : Nat) :
    turn .lc d (n + 1) (txCleared s w) = turn .lc d n (txCleared s (w + 1)) := by
  have hc : (txCleared s w).c.lcCtl = .t7 (w / 4) (w % 4) := if_pos hw
  rw [turn_go (agentStep_t7 hc), zeroTd_eq _ _ (by omega), tdAddr_ofNat _ (by omega),
    show 16 * (w / 4) + 4 * (w % 4) = 4 * w by omega]
  simp only [txCleared, lcJump, State.modC, State.setMem, Mem.clear_clear, t7Next_eq hw, Nat.mul_succ]

/-- Line T7 as a whole: the array is cleared. -/
theorem turn_t7 (hc : s.c.lcCtl = .t7 0 0) (hn : ringSizeOk s.c.cfg.ntd = true) :
    turn .lc d (4 * s.c.cfg.ntd) s =
      { s with mem := Mem.clear s.mem s.c.tdba (16 * s.c.cfg.ntd), c := { s.c with lcCtl := .t8 false } } := by
  have hpos := ringSizeOk_pos hn
  have h := turn_loop (F := txCleared s) (fun w hw => turn_t7_word (d := d) hw (ringSizeOk_le hn)) 0
  have hfirst : txCleared s 0 = s := by
    rw [txCleared, t7Word, if_pos (by omega), ← hc]
    rfl
  rw [hfirst, Nat.zero_add, Nat.one_mul] at h
  rw [h, turn, txCleared, t7Word, if_neg (Nat.lt_irrefl _), ← Nat.mul_assoc]

/-! ## The leftovers (line T6) -/

theorem t6From_eq_t6 {c : Ctlr} : t6From c i = .t6 j ↔
    i ≤ j ∧ (c.tb.getD j none).isSome = true ∧ ∀ k, i ≤ k → k < j → c.tb.getD k none = none := by
  rw [← nextHeld_eq_some, t6From]
  cases nextHeld c.tb i with
  | none => simp
  | some k => simp

theorem t6From_eq_t7 {c : Ctlr} (h : ∀ k, i ≤ k → c.tb.getD k none = none) : t6From c i = .t7 0 0 := by
  rw [t6From, nextHeld_eq_none h]

/-- After slot `i` is cleared, the next leftover is the first above it. -/
theorem t6From_eq_t6_of_set {c e : Ctlr} (h : e.tb = c.tb.set i none) : t6From e (i + 1) = .t6 j ↔
    i < j ∧ (c.tb.getD j none).isSome = true ∧ ∀ k, i < k → k < j → c.tb.getD k none = none := by
  rw [t6From_eq_t6, h]
  refine and_congr_right fun hij => and_congr (by rw [getD_set_of_lt _ hij]) (forall_congr' fun k => ?_)
  exact imp_congr_right fun hik => by rw [getD_set_of_lt _ hik]

/-- After the last leftover, line T7. -/
theorem t6From_eq_t7_of_set {c e : Ctlr} (h : e.tb = c.tb.set i none) (hk : ∀ k, i < k → c.tb.getD k none = none) :
    t6From e (i + 1) = .t7 0 0 :=
  t6From_eq_t7 fun k hik => by rw [h, getD_set_of_lt _ hik, hk k hik]

theorem agentStep_t6 (hc : s.c.lcCtl = .t6 i) (hb : s.c.tb.getD i none = some b) :
    agentStep .lc d s = .go (lcJump
      (t6From (releaseTx (s.modC fun c => { c with tb := c.tb.set i none }) b).c (i + 1))
      (releaseTx (s.modC fun c => { c with tb := c.tb.set i none }) b)) := by
  simp only [agentStep, lcStep, hc, lcFreeTx, hb]

/-! ## The register lines -/

/-- Lines T1-T5. -/
theorem turn_t1 (hc : s.c.lcCtl = .t1) : turn .lc d 5 s = { s with c := { s.c with
    tdh := 0#16, tdt := 0#16
    lcCtl := t6From s.c 0
    regs := { s.c.regs with
      tdbal := addrLoWord s.c.tdba, tdbah := addrHiWord s.c.tdba, tdlen := ringLen s.c.cfg.ntd
      hwTdh := 0#16, tdt := 0#16 }
    trace := s.c.trace ++ [.mmioW .tdbal (addrLoWord s.c.tdba), .mmioW .tdbah (addrHiWord s.c.tdba),
      .mmioW .tdlen (ringLen s.c.cfg.ntd), .mmioW .tdh 0#32, .mmioW .tdt 0#32] } } := by
  have h1 : agentStep .lc d s = .go (lcJump .t2 (mmioWrite s .tdbal (addrLoWord s.c.tdba))) := by
    simp only [agentStep, lcStep, hc]
  rw [turn_go h1, turn_go rfl, turn_go rfl, turn_go rfl, turn_go rfl, turn]
  simp only [lcJump, mmioWrite, State.modC, State.emit, regWrite, devAfterWrite, t6From, ringIndex,
    BitVec.setWidth_zero, BitVec.ofNat_eq_ofNat, List.append_assoc, List.cons_append, List.nil_append]

/-- Lines T8 and T9. -/
theorem turn_t8 (hc : s.c.lcCtl = .t8 false) : turn .lc d 3 s = { s with c := { s.c with
    lcCtl := .d3
    regs := { s.c.regs with
      tipg := s.c.cfg.tipgInit, tidv := s.c.cfg.tidvInit.setWidth 32, tctl := tctlStart s.c.cfg }
    trace := s.c.trace ++ [.mmioW .tipg s.c.cfg.tipgInit, .mmioW .tidv (s.c.cfg.tidvInit.setWidth 32),
      .mmioW .tctl (tctlStart s.c.cfg)] } } := by
  have h8 : agentStep .lc d s = .go (lcJump (.t8 true) (mmioWrite s .tipg s.c.cfg.tipgInit)) := by
    simp only [agentStep, lcStep, hc, Bool.false_eq_true, if_false]
  rw [turn_go h8, turn_go rfl, turn_go rfl, turn]
  simp only [lcJump, mmioWrite, State.modC, State.emit, regWrite, devAfterWrite, List.append_assoc, List.cons_append,
    List.nil_append]

/-- Settles O56: lines T1-T5, T8 and T9 write registers, line T6 releases the next leftover, and line T7 clears the
array word by word. -/
theorem txInitPreparesTheRing : Obligations.TxInitPreparesTheRing := by
  refine fun s d => ⟨fun hc => ⟨_, turn_t1 hc, fun j => ?_, fun h => ?_, rfl⟩,
    fun i b r hc hb hr => ⟨_, agentStep_t6 hc hb, ?_⟩,
    fun hc hn hw => ⟨_, turn_t7 hc hn, fun x hx => ?_, fun x hx => ?_, rfl⟩,
    turn_t8⟩
  · simp [t6From_eq_t6]
  · exact t6From_eq_t7 fun k _ => h k
  · obtain ⟨hpool, hhost⟩ := releaseTx_origin
      (show (s.modC fun c => { c with tb := c.tb.set i none }).buf? b = some r from hr)
    have htb : (releaseTx (s.modC fun c => { c with tb := c.tb.set i none }) b).c.tb = s.c.tb.set i none := by
      rw [releaseTx_frame]
      rfl
    refine ⟨htb, hpool, hhost, fun x hx => releaseTx_buf?_of_ne hx, fun j => t6From_eq_t6_of_set htb,
      t6From_eq_t7_of_set htb, ?_⟩
    rw [releaseTx_frame]
    rfl
  · have := ringSizeOk_le hn
    exact Mem.read8_clear hw (by omega) hx
  · exact Mem.read8_clear_outside hw hx

end Sys2Proof.Machine
end

section
/-!
SUPPORT. The soft mask and the dispatcher's masks as sets of cause bits, unions of whole classes (42_interrupt_demux.md
R278).
-/

namespace Sys2Proof.Machine

variable {x m k : Word}

/-! ## Sets of bits -/

theorem and_not_or_eq_zero (h : x &&& ~~~m = 0#32) (k : Word) : x &&& ~~~(m ||| k) = 0#32 := by
  rw [BitVec.not_or, ← BitVec.and_assoc, h, BitVec.zero_and]

theorem and_and_not_eq_zero (h : x &&& ~~~m = 0#32) (k : Word) : x &&& k &&& ~~~m = 0#32 := by
  rw [BitVec.and_assoc, BitVec.and_comm k, ← BitVec.and_assoc, h, BitVec.zero_and]

/-- A write of all ones to IMC. -/
theorem and_not_allOnes (x : Word) : x &&& ~~~0xFFFFFFFF#32 = 0#32 := by
  rw [show ~~~0xFFFFFFFF#32 = 0#32 from rfl, BitVec.and_zero]

/-- A set of bits inside `m` adds nothing to `m`. -/
theorem or_eq_of_and_not_eq_zero (h : x &&& ~~~m = 0#32) : x ||| m = m := by
  have key : x ||| m = x &&& ~~~m ||| m := by
    ext i hi
    simp only [BitVec.getElem_or, BitVec.getElem_and, BitVec.getElem_not]
    cases x[i] <;> cases m[i] <;> rfl
  rw [key, h, BitVec.zero_or]

/-! ## Unions of whole classes -/

theorem wholeClasses_iff : wholeClasses m = true ↔
    m &&& ~~~allClass = 0#32 ∧ (m &&& rxClass = 0#32 ∨ m &&& rxClass = rxClass) := by
  simp only [wholeClasses, Bool.and_eq_true, Bool.or_eq_true, beq_iff_eq]

theorem wholeClasses_or (hm : wholeClasses m = true) (hk : wholeClasses k = true) : wholeClasses (m ||| k) = true := by
  rw [wholeClasses_iff] at *
  obtain ⟨ham, hrm⟩ := hm
  obtain ⟨hak, hrk⟩ := hk
  refine ⟨by rw [BitVec.and_or_distrib_right, ham, hak, BitVec.zero_or], ?_⟩
  rw [BitVec.and_or_distrib_right]
  rcases hrm with e | e <;> rcases hrk with e' | e' <;> simp [e, e']

/-- A union of whole classes taken from the mask leaves whole classes. -/
theorem wholeClasses_and_not (hm : wholeClasses m = true) (hk : wholeClasses k = true) :
    wholeClasses (m &&& ~~~k) = true := by
  rw [wholeClasses_iff] at *
  obtain ⟨ham, hrm⟩ := hm
  obtain ⟨-, hrk⟩ := hk
  have hrx : m &&& ~~~k &&& rxClass = m &&& rxClass &&& ~~~(k &&& rxClass) := by
    ext i hi
    simp only [BitVec.getElem_and, BitVec.getElem_not]
    cases m[i] <;> cases k[i] <;> cases rxClass[i] <;> rfl
  refine ⟨and_and_not_eq_zero ham _, ?_⟩
  rw [hrx]
  rcases hrm with e | e <;> rcases hrk with e' | e' <;> rw [e, e']
  · exact .inl BitVec.zero_and
  · exact .inl BitVec.zero_and
  · exact .inr (by decide)
  · exact .inl (BitVec.and_not_self _)

end Sys2Proof.Machine
end

section
/-!
SUPPORT. What an agent's step does to the soft mask, to HwIMS, to CTRL and to the dispatcher's locals (R272-R280, R333):
the lines of ARM and of the dispatcher change the mask, lines A2 and Z2 clear it, the others leave it alone.
-/

namespace Sys2Proof.Machine

variable {s t u : State} {c d e : Ctlr} {a b : AgentId} {cls : Word} {n : Nat}

/-! ## Updates that leave the mask alone -/

/-- The mask, HwIMS, CTRL and the dispatcher stay. -/
structure Calm (c d : Ctlr) : Prop where
  im : d.im = c.im := by rfl
  ims : d.regs.hwIms = c.regs.hwIms := by rfl
  ctrl : d.regs.ctrl = c.regs.ctrl := by rfl
  disp : d.disp = c.disp := by rfl

namespace Calm

theorem trans (h : Calm c d) (k : Calm d e) : Calm c e :=
  ⟨k.im.trans h.im, k.ims.trans h.ims, k.ctrl.trans h.ctrl, k.disp.trans h.disp⟩

theorem mmioRead (s : State) (r : Reg) : Calm s.c (Machine.mmioRead s r).2.c := by cases r <;> exact {}

theorem releaseTx (s : State) (b : BufId) : Calm s.c (Machine.releaseTx s b).c := by
  rw [Machine.releaseTx, State.emit_c]
  rcases releaseBuf_cases s b with e | e | e <;> rw [e] <;> exact {}

theorem txReclaim (s : State) : Calm s.c (Machine.txReclaim s).c := by
  unfold Machine.txReclaim
  split
  · exact trans (d := (s.modC _).c) {} (releaseTx _ _)
  · exact {}

theorem atTx (a : AgentId) (q : TxRun) (s : State) : Calm s.c (Machine.atTx a q s).c := by cases a <;> exact {}

theorem endTx (a : AgentId) (s : State) : Calm s.c (Machine.endTx a s).c := by cases a <;> exact {}

theorem wakeStep {p : WakePc} {take : State → State} {jump : WakePc → State → State} {done : State → State}
    (h : Machine.wakeStep s a p take jump done = .go t) (ht : Calm s.c (take s).c) (hj : ∀ q v, Calm v.c (jump q v).c)
    (hd : ∀ v, Calm v.c (done v).c) : Calm s.c t.c := by
  rcases wakeStep_go h with ⟨-, -, rfl⟩ | ⟨-, rfl⟩ | ⟨-, rfl⟩
  · exact trans (d := (s.modC _).c) {} (hj _ _)
  · exact ht.trans (hj _ _)
  · exact trans (d := (releaseM s).c) {} (hd _)

/-- The handshakes' registers are EERD and MDIC. -/
theorem hsStep {r : Reg} {req : Word} {err cpl : Word → Bool} {p : HsPc} {jump : HsPc → State → State}
    {done : Bool → Word → State → State} (h : Machine.hsStep s r req err cpl p jump done = .go t)
    (hr : r = .eerd ∨ r = .mdic) (hj : ∀ q v, Calm v.c (jump q v).c) (hd : ∀ ok w v, Calm v.c (done ok w v).c) :
    Calm s.c t.c := by
  have hw : Calm s.c (mmioWrite s r req).c := by rcases hr with rfl | rfl <;> exact {}
  rcases hsStep_go h with ⟨-, rfl⟩ | ⟨i, -, rfl | ⟨-, -, rfl⟩ | rfl⟩ | ⟨i, -, rfl⟩
  · exact hw.trans (hj _ _)
  · exact (mmioRead _ _).trans (hd _ _ _)
  · exact (mmioRead _ _).trans (hd _ _ _)
  · exact (mmioRead _ _).trans (hj _ _)
  · exact hj _ _

theorem repStep {p : RepPc} {draw : Nat} {jump : RepPc → State → State} {done : State → State}
    (h : Machine.repStep s p draw jump done = .go t) (hj : ∀ q v, Calm v.c (jump q v).c)
    (hd : ∀ v, Calm v.c (done v).c) : Calm s.c t.c := by
  have go : ∀ {v : State} {q : RepPc}, Calm s.c v.c → Calm s.c (jump q v).c := fun k => k.trans (hj _ _)
  rcases repStep_go h with ⟨-, rfl⟩ | ⟨-, -, rfl⟩ | ⟨-, b, v, hp, rfl⟩ | ⟨-, rfl⟩ | ⟨b, -, rfl⟩ | ⟨b, r, -, -, rfl⟩ |
    ⟨b, r, -, -, rfl⟩ | ⟨b, v, -, rfl, rfl⟩ | ⟨-, rfl⟩
  · exact go {}
  · exact go {}
  · obtain ⟨-, rfl⟩ := poolPop_some hp
    exact go {}
  · exact go {}
  · exact go {}
  · exact go {}
  · exact go {}
  · exact go {}
  · exact trans (d := (mmioWrite s .rdt _).c) {} (hd _)

end Calm

/-! ## Workers and callers (R280) -/

/-- What a step of agent `a`, neither `LC` nor `DISP`, does: ARM's line M2 adds the class `cls`, line M3 writes IMS, both
under `mlock`, and every other line leaves the mask alone. -/
inductive MaskMove (a : AgentId) (cls : Word) (c d : Ctlr) : Prop where
  | calm (m : Calm c d) (ha : arming c a = false)
  | add (hm : inMlock c a = true) (him : d.im = c.im ||| cls) (hims : d.regs.hwIms = c.regs.hwIms)
      (hctrl : d.regs.ctrl = c.regs.ctrl) (hdisp : d.disp = c.disp) (ha : arming d a = true)
  | write (hm : inMlock c a = true) (him : d.im = c.im) (hims : d.regs.hwIms = c.regs.hwIms ||| c.im)
      (hctrl : d.regs.ctrl = c.regs.ctrl) (hdisp : d.disp = c.disp)

theorem armStep_mask {p : ArmPc} {jump : ArmPc → State → State} {done : State → State}
    (h : armStep s a cls p jump done = .go t) (hm : inMlock s.c a = p.holds) (hp : arming s.c a = (p == .m3))
    (hj : ∀ q v, Calm v.c (jump q v).c) (hd : ∀ v, Calm v.c (done v).c)
    (ha : ∀ v, txRunOf v.c a = txRunOf s.c a → arming (jump .m3 v).c a = true) : MaskMove a cls s.c t.c := by
  rcases armStep_go h with ⟨rfl, -, rfl⟩ | ⟨rfl, rfl⟩ | ⟨rfl, rfl⟩ | ⟨rfl, rfl⟩
  · exact .calm (.trans (d := (s.modC _).c) {} (hj _ _)) hp
  · have k := hj .m3 (s.modC fun c => { c with im := c.im ||| cls })
    exact .add hm k.im k.ims k.ctrl k.disp (ha _ (by cases a <;> rfl))
  · have k := hj .m4 (mmioWrite s .ims s.c.im)
    exact .write hm k.im k.ims k.ctrl k.disp
  · exact .calm (.trans (d := (releaseM s).c) {} (hd _)) hp

theorem rxwStep_mask (h : rxwStep s n = .go t) : MaskMove .rxw rxClass s.c t.c := by
  cases hc : s.c.rxw.ctl <;> simp only [rxwStep, hc] at h
  case w1 p =>
    exact armStep_mask h (by rw [inMlock_rxw, hc]; rfl) (by cases p <;> simp [arming, hc]) (fun _ _ => {}) (fun _ => {})
      fun _ _ => rfl
  all_goals refine .calm ?_ (by simp [arming, hc])
  case w2 => split at h <;> cases h; exact {}
  case w3 p => exact .wakeStep h {} (fun _ _ => {}) fun _ => {}
  case s1 => split at h <;> cases h <;> exact {}
  case s3 => split at h <;> cases h <;> exact {}
  case d2 =>
    split at h
    · cases h
    · split at h <;> cases h <;> exact {}
  case s8 p => exact .repStep h (fun _ _ => {}) fun _ => {}
  case p1 p => exact .repStep h (fun _ _ => {}) fun _ => {}
  all_goals cases h
  all_goals exact {}

theorem lnkStep_mask (h : lnkStep s = .go t) : MaskMove .lnk linkClass s.c t.c := by
  cases hc : s.c.lnk <;> simp only [lnkStep, hc] at h
  case l6 p =>
    exact armStep_mask h (by rw [inMlock_lnk, hc]; rfl) (by cases p <;> simp [arming, hc]) (fun _ _ => {}) (fun _ => {})
      fun _ _ => rfl
  all_goals refine .calm ?_ (by simp [arming, hc])
  case l1 p => exact .hsStep h (.inr rfl) (fun _ _ => {}) fun _ _ _ => {}
  case l5a => obtain ⟨-, rfl⟩ := acquireM_go h; exact {}
  case l7 => split at h <;> cases h; exact {}
  case l8 p => exact .wakeStep h {} (fun _ _ => {}) fun _ => {}
  case notStarted => cases h
  all_goals obtain rfl := StepRes.go.inj h; exact {}

theorem inMlock_of_run {q : TxRun} (h : txRunOf c a = some q) : inMlock c a = q.pc.holdsM := by
  cases a with
  | txw => cases hc : c.txw <;> simp only [txRunOf, hc] at h <;> cases h; simp only [inMlock, hc]
  | txc k => exact inMlock_txc h
  | disp | rxw | lnk | lc => cases h

theorem arming_of_run {q : TxRun} (h : txRunOf c a = some q) : arming c a = (q.pc == .c1Arm .m3) := by
  cases a with
  | txw => cases hc : c.txw <;> simp only [txRunOf, hc] at h <;> cases h; simp [arming, txRunOf, hc]
  | txc k => simp only [arming, h, Option.any_some]
  | disp | rxw | lnk | lc => cases h

/-- TX_ROUTINE arms at line C1 (R254). -/
theorem txRun_mask {r : TxRun} (hr : txRunOf s.c a = some r) (h : txStep s a r (atTx a) (endTx a) = .go t) :
    MaskMove a txClass s.c t.c := by
  have go : ∀ {v : State} {q : TxRun}, Calm s.c v.c → Calm s.c (atTx a q v).c := fun k => k.trans (.atTx _ _ _)
  cases hc : r.pc <;> simp only [txStep, hc] at h
  case c1Arm p =>
    refine armStep_mask h (by rw [inMlock_of_run hr, hc]; rfl) ?_ (fun _ _ => .atTx _ _ _) (fun _ => .atTx _ _ _)
      fun v hv => ?_
    · rw [arming_of_run hr, hc]
      cases p <;> rfl
    · exact (arming_of_run (txRunOf_atTx (by rw [hv, hr]; rfl))).trans rfl
  all_goals refine .calm ?_ (by rw [arming_of_run hr, hc]; rfl)
  case x0 => obtain ⟨-, rfl⟩ := acquireT_go h; exact go {}
  case a1 => split at h <;> cases h <;> exact go {}
  case a3 => cases h; exact go (.txReclaim s)
  case b2 => split at h <;> cases h <;> exact go {}
  case b4 =>
    split at h
    · cases h
    · split at h <;> cases h <;> exact go {}
  case b5 | b6 => split at h <;> cases h; exact go {}
  case c1 => split at h <;> cases h <;> exact go {}
  case e2 => cases h; exact Calm.trans (d := (releaseT s).c) {} (.endTx _ _)
  case haltB3 => cases h
  all_goals cases h; exact go {}

theorem txwStep_mask (h : agentStep .txw n s = .go t) : MaskMove .txw txClass s.c t.c := by
  cases hc : s.c.txw with
  | t4 r =>
    have hr : txRunOf s.c .txw = some r := by simp only [txRunOf, hc]
    exact txRun_mask hr ((agentStep_tx hr).symm.trans h)
  | t1 p =>
    rw [agentStep_t1 hc] at h
    exact armStep_mask h (by rw [inMlock_txw, hc]; rfl) (by cases p <;> simp [arming, txRunOf, hc]) (fun _ _ => {})
      (fun _ => {}) fun _ _ => rfl
  | t2 =>
    rw [agentStep_t2 hc] at h
    split at h <;> cases h
    exact .calm {} (by simp [arming, txRunOf, hc])
  | t3 p =>
    rw [agentStep_t3 hc] at h
    exact .calm (.wakeStep h {} (fun _ _ => {}) fun _ => {}) (by simp [arming, txRunOf, hc])
  | notStarted => simp [agentStep, txwStep, hc] at h

theorem txcStep_mask {k : Nat} (h : agentStep (.txc k) n s = .go t) : MaskMove (.txc k) txClass s.c t.c := by
  cases hr : txRunOf s.c (.txc k) with
  | some r => exact txRun_mask hr ((agentStep_tx hr).symm.trans h)
  | none =>
    simp only [txRunOf] at hr
    simp [agentStep, txcStep, hr] at h

/-! ## The dispatcher (R272-R276) -/

/-- A step of `DISP`. -/
inductive DispMask (c d : Ctlr) : Prop where
  /-- Before line Q2's write, or after line X2's. -/
  | outside (hc : c.disp.masked = false) (hd : d.disp.masked = false) (him : d.im = c.im)
      (hims : d.regs.hwIms = c.regs.hwIms) (hl : d.disp = { c.disp with ctl := d.disp.ctl })
  /-- Line Q2: IMC is written with all bits. -/
  | mask (hc : c.disp.ctl = .q2) (hd : d.disp = { c.disp with ctl := .q3 }) (him : d.im = c.im)
      (hims : d.regs.hwIms = 0#32)
  /-- Line Q3: the mask is copied, then ICR is read. -/
  | enter (v : Word) (hc : c.disp.ctl = .q3) (him : d.im = c.im) (hims : d.regs.hwIms = c.regs.hwIms)
      (hd : d.disp = { ctl := dispFromL2 (v &&& c.im), imEntry := c.im, work := c.im, icr := v &&& c.im })
  /-- Line L1: ICR is read again. -/
  | read (v : Word) (hc : c.disp.ctl = .l1) (him : d.im = c.im) (hims : d.regs.hwIms = c.regs.hwIms)
      (hd : d.disp = { c.disp with ctl := dispFromL2 (v &&& c.disp.imEntry), icr := v &&& c.disp.imEntry })
  /-- Lines L3-L5: a class leaves the working mask. -/
  | handle (k : Word) (x : DispCtl) (hk : wholeClasses k = true)
      (hc : c.disp.ctl = .l3 ∨ c.disp.ctl = .l4 ∨ c.disp.ctl = .l5)
      (hx : x = .l1 ∨ x = .l4 ∨ x = .l5) (him : d.im = c.im) (hims : d.regs.hwIms = c.regs.hwIms)
      (hd : d.disp = { c.disp with ctl := x, work := c.disp.work &&& ~~~k })
  /-- Line X1: the working mask becomes the mask. -/
  | store (hc : c.disp.ctl = .x1) (him : d.im = c.disp.work) (hims : d.regs.hwIms = c.regs.hwIms)
      (hd : d.disp = { c.disp with ctl := .x2 })
  /-- Line X2: IMS is written with it. -/
  | unmask (hc : c.disp.ctl = .x2) (him : d.im = c.im) (hims : d.regs.hwIms = c.regs.hwIms ||| c.disp.work)
      (hd : d.disp = { c.disp with ctl := .x3 })

theorem dispFromL5_cases (v : Word) : dispFromL5 v = .l1 ∨ dispFromL5 v = .l5 := by
  unfold dispFromL5
  split
  · exact .inr rfl
  · exact .inl rfl

theorem dispFromL4_cases (v : Word) : dispFromL4 v = .l1 ∨ dispFromL4 v = .l4 ∨ dispFromL4 v = .l5 := by
  unfold dispFromL4
  split
  · exact .inr (.inl rfl)
  · exact (dispFromL5_cases v).imp_right .inr

/-- Line L2 leads to line X1 or into the loop. -/
theorem dispFromL2_cases (v : Word) : dispFromL2 v = .x1 ∨ dispFromL2 v = .l3 ∨ dispFromL2 v = .l1 ∨ dispFromL2 v = .l4
    ∨ dispFromL2 v = .l5 := by
  unfold dispFromL2
  split
  · exact .inl rfl
  · unfold dispFromL3
    split
    · exact .inr (.inl rfl)
    · exact .inr (.inr (dispFromL4_cases v))

theorem Disp.masked_eq_false {x : Disp} (h : x.ctl = .idle ∨ x.ctl = .q1 ∨ x.ctl = .q2 ∨ x.ctl = .x3) :
    x.masked = false := by
  rcases h with h | h | h | h <;> simp only [masked, h]

theorem dispRead_eq (s : State) : dispRead s = { s with c := { s.c with
    regs := { s.c.regs with icr := 0#32 }
    disp := { s.c.disp with
      icr := s.c.regs.icr &&& s.c.disp.imEntry, ctl := dispFromL2 (s.c.regs.icr &&& s.c.disp.imEntry) }
    trace := s.c.trace ++ [.mmioR .icr s.c.regs.icr] } } := by
  simp only [dispRead, mmioRead, setDisp, State.modC, State.modRegs, State.emit, regRead, regAfterRead]

theorem hwIms_mmioWrite_imc (s : State) : (mmioWrite s .imc 0xFFFFFFFF#32).c.regs.hwIms = 0#32 := by
  rw [mmioWrite_c]
  exact and_not_allOnes _

/-- A step of `DISP` is one of these, and CTRL stays. -/
theorem dispStep_mask (h : dispStep s = .go t) : DispMask s.c t.c ∧ t.c.regs.ctrl = s.c.regs.ctrl := by
  cases hc : s.c.disp.ctl <;> simp only [dispStep, hc] at h
  case idle =>
    split at h <;> cases h
    rename_i hl
    have ht : takeInterrupt s = s.modC fun c => { c with disp := { c.disp with ctl := .q1 } } := by
      simp [takeInterrupt, hl, hc]
    rw [ht]
    exact ⟨.outside (Disp.masked_eq_false (.inl hc)) rfl rfl rfl rfl, rfl⟩
  case q1 =>
    obtain ⟨-, rfl⟩ := acquireM_go h
    exact ⟨.outside (Disp.masked_eq_false (.inr (.inl hc))) rfl rfl rfl rfl, rfl⟩
  all_goals obtain rfl := StepRes.go.inj h
  case q2 => exact ⟨.mask hc (by simp) (by simp) (hwIms_mmioWrite_imc s), by simp [regWrite]⟩
  case q3 =>
    rw [dispRead_eq]
    exact ⟨.enter s.c.regs.icr hc rfl rfl rfl, rfl⟩
  case l1 =>
    rw [dispRead_eq]
    exact ⟨.read s.c.regs.icr hc rfl rfl rfl, rfl⟩
  case l3 =>
    exact ⟨.handle linkClass _ (by decide) (.inl hc) (dispFromL4_cases _) rfl rfl rfl, rfl⟩
  case l4 =>
    exact ⟨.handle rxClass _ (by decide) (.inr (.inl hc)) ((dispFromL5_cases _).imp_right .inr) rfl rfl rfl, rfl⟩
  case l5 => exact ⟨.handle txClass _ (by decide) (.inr (.inr hc)) (.inl rfl) rfl rfl rfl, rfl⟩
  case x1 => exact ⟨.store hc rfl rfl rfl, rfl⟩
  case x2 => exact ⟨.unmask hc (by simp) (by simp [regWrite]) (by simp), by simp [regWrite]⟩
  case x3 => exact ⟨.outside (Disp.masked_eq_false (.inr (.inr (.inr hc)))) rfl rfl rfl rfl, rfl⟩

/-! ## `LC` (R331, R333, R377) -/

/-- The lines at which a reset may be pending or the mask is cleared, and those that write CTRL or read it for line
A7. -/
def LcCtl.touchesMask : LcCtl → Bool
  | .z2 | .rmwR .a7 | .rmwW .a7 _ | .rmwW .z5 _ => true
  | x => x.resetMayPend

/-- What a step of `LC` does. -/
structure LcMask (c d : Ctlr) : Prop where
  disp : d.disp = c.disp
  /-- Line A2 clears HwIMS, line Z2 HwIMS and the mask, and every other line leaves both alone. -/
  mask : (d.im = c.im ∧ d.regs.hwIms = c.regs.hwIms ∧ (c.lcCtl = .a1 → d.lcCtl = .a2) ∧ c.lcCtl ≠ .a2 ∧ c.lcCtl ≠ .z2)
    ∨ (d.regs.hwIms = 0#32 ∧ (c.lcCtl = .a2 ∧ d.im = c.im ∨ c.lcCtl = .z2 ∧ d.im = 0#32))
  /-- A reset is pending behind the line only where it may be, or where it was and might not, or where line A7 writes
RST. -/
  pending : resetPending d.regs = true → d.lcCtl.resetMayPend = true ∨ d.lc = .faulted ∨ d.lcCtl = .z8 false
    ∨ (resetPending c.regs = true ∧ c.lcCtl.resetMayPend = false)
    ∨ ∃ v, c.lcCtl = .rmwW .a7 v ∧ v &&& ctrlRst ≠ 0#32
  /-- Line A7 writes what it read with SLU set. -/
  slu : ∀ v, d.lcCtl = .rmwW .a7 v → c.lcCtl = .rmwR .a7 ∧ v = c.regs.ctrl ||| ctrlSlu

theorem resetPending_congr (h : d.regs.ctrl = c.regs.ctrl) : resetPending d.regs = resetPending c.regs := by
  simp only [resetPending, h]

theorem LcCtl.touchesMask_of_resetMayPend {x : LcCtl} (h : x.resetMayPend = true) : x.touchesMask = true := by
  unfold touchesMask
  split
  · rfl
  · rfl
  · rfl
  · rfl
  · exact h

/-- A line that touches neither the mask nor CTRL. -/
theorem LcMask.of_calm (m : Calm c d) (ht : c.lcCtl.touchesMask = false) (hx : ∀ v, d.lcCtl ≠ .rmwW .a7 v) :
    LcMask c d where
  disp := m.disp
  mask := .inl ⟨m.im, m.ims, (fun e => by rw [e] at ht; cases ht), (fun e => by rw [e] at ht; cases ht),
    fun e => by rw [e] at ht; cases ht⟩
  pending h := .inr (.inr (.inr (.inl ⟨resetPending_congr m.ctrl ▸ h, Bool.eq_false_iff.mpr fun k => by
    rw [LcCtl.touchesMask_of_resetMayPend k] at ht; cases ht⟩)))
  slu v h := absurd h (hx v)

theorem ne_rmwW_of_ite {q : Prop} [Decidable q] {x y : LcCtl} (hx : ∀ v, x ≠ .rmwW .a7 v) (hy : ∀ v, y ≠ .rmwW .a7 v)
    (v : Word) : (if q then x else y) ≠ .rmwW .a7 v := by
  split
  · exact hx v
  · exact hy v

/-- Every other line of `LC` is calm, and only line A7 leads to its own write. -/
theorem lcStep_calm (h : lcStep s n = .go t) (ht : s.c.lcCtl.touchesMask = false) :
    Calm s.c t.c ∧ ∀ v, t.c.lcCtl ≠ .rmwW .a7 v := by
  have jumped : ∀ {u : State} {x : LcCtl}, Calm s.c u.c → (∀ v, x ≠ .rmwW .a7 v) →
      Calm s.c (lcJump x u).c ∧ ∀ v, (lcJump x u).c.lcCtl ≠ .rmwW .a7 v := fun k hx => ⟨k.trans {}, hx⟩
  cases hc : s.c.lcCtl <;> simp only [lcStep, hc] at h <;> rw [hc] at ht
  case idle => cases h
  case a1 | a2 | a3 | a4 | fatal | z2 => cases ht
  case b1 w q =>
    unfold eeReadStep at h
    rcases hsStep_go h with ⟨-, rfl⟩ | ⟨i, -, rfl | ⟨-, -, rfl⟩ | rfl⟩ | ⟨i, -, rfl⟩
    · exact jumped {} nofun
    · exact jumped (.mmioRead _ _) nofun
    · have hne : ∀ v, lcAfterWord w ≠ .rmwW .a7 v := by unfold lcAfterWord; exact ne_rmwW_of_ite nofun nofun
      exact ⟨.trans (.mmioRead s .eerd) {}, hne⟩
    · exact jumped (.mmioRead _ _) nofun
    · exact jumped {} nofun
  case i10 p =>
    refine ⟨.repStep h (fun _ _ => {}) fun _ => {}, ?_⟩
    rcases repStep_go h with ⟨-, rfl⟩ | ⟨-, -, rfl⟩ | ⟨-, b, v, hp, rfl⟩ | ⟨-, rfl⟩ | ⟨b, -, rfl⟩ | ⟨b, r, -, -, rfl⟩ |
      ⟨b, r, -, -, rfl⟩ | ⟨b, v, -, rfl, rfl⟩ | ⟨-, rfl⟩ <;> nofun
  case z1 => obtain ⟨-, rfl⟩ := acquireM_go h; exact jumped {} nofun
  case u1 => obtain ⟨-, rfl⟩ := acquireS_go h; exact ⟨{}, nofun⟩
  case z8 b => cases b <;> obtain rfl := StepRes.go.inj h <;> exact ⟨{}, nofun⟩
  case c1 k b =>
    cases b <;> obtain rfl := StepRes.go.inj h
    · exact jumped {} nofun
    · exact jumped {} (ne_rmwW_of_ite nofun nofun)
  case c2 b | i8 b | t8 b => cases b <;> obtain rfl := StepRes.go.inj h <;> exact jumped {} nofun
  all_goals obtain rfl := StepRes.go.inj h
  case rmwR w =>
    cases w with
    | a5 | a7 => cases ht
    | a8 | z5 => exact jumped (.mmioRead _ _) nofun
  case rmwW w v =>
    cases w with
    | a5 | a7 | z5 => cases ht
    | a8 => exact jumped {} nofun
  case pollR p i =>
    refine jumped (.mmioRead _ _) (ne_rmwW_of_ite ?_ (ne_rmwW_of_ite ?_ nofun)) <;> cases p <;> nofun
  case pollD => exact jumped {} nofun
  case b2 =>
    unfold lcChecksum
    simp only
    split
    · have hne : ∀ v, (if s.c.cfg.variant.lanidAdjust then LcCtl.b3 else .c1 0 false) ≠ .rmwW .a7 v :=
        ne_rmwW_of_ite nofun nofun
      exact ⟨{}, hne⟩
    · exact ⟨{}, nofun⟩
  case c4 j =>
    have hw : Calm s.c (mmioWrite s (fcWrite s.c.cfg j).1 (fcWrite s.c.cfg j).2).c := by
      unfold fcWrite
      split <;> exact {}
    exact jumped hw (ne_rmwW_of_ite nofun nofun)
  case c3 => exact jumped {} (ne_rmwW_of_ite nofun nofun)
  case i5 => exact jumped {} (by intro v; unfold i6From; split <;> nofun)
  case t5 => exact jumped {} (by intro v; unfold t6From; split <;> nofun)
  case i6 i =>
    have hf : Calm s.c (lcFreeRx s i).c := by unfold lcFreeRx; split <;> exact {}
    exact jumped hf (by intro v; unfold i6From; split <;> nofun)
  case t6 i =>
    have hf : Calm s.c (lcFreeTx s i).c := by
      unfold lcFreeTx
      split
      · exact .trans (d := (s.modC _).c) {} (.releaseTx _ _)
      · exact {}
    exact jumped hf (by intro v; unfold t6From; split <;> nofun)
  case i7 i f =>
    have hz : Calm s.c (zeroRd s (BitVec.ofNat 16 i) f).c := by unfold zeroRd; split <;> exact {}
    exact jumped hz (ne_rmwW_of_ite nofun (ne_rmwW_of_ite nofun nofun))
  case t7 i f =>
    have hz : Calm s.c (zeroTd s (BitVec.ofNat 16 i) f).c := by unfold zeroTd; split <;> exact {}
    exact jumped hz (ne_rmwW_of_ite nofun (ne_rmwW_of_ite nofun nofun))
  case u2 k =>
    have hne : ∀ v, (if k + 1 < nstats then LcCtl.u2 (k + 1) else .u3 0) ≠ .rmwW .a7 v := ne_rmwW_of_ite nofun nofun
    exact ⟨.trans (.mmioRead s (.stat (Fin.ofNat 73 k))) {}, hne⟩
  case u3 j => exact jumped (.mmioRead _ _) nofun
  case u3e j v => exact jumped {} (ne_rmwW_of_ite nofun nofun)
  case tunableW =>
    refine ⟨?_, nofun⟩
    have hw : Calm s.c (mmioWrite s (lcTunable s.c).1 (lcTunable s.c).2).c := by unfold lcTunable; split <;> exact {}
    exact hw.trans {}
  case b3 => exact ⟨.trans (.mmioRead s .status) {}, nofun⟩
  case promiscW v => exact ⟨.trans (d := (mmioWrite s .rctl v).c) {} {}, nofun⟩
  case mcastW v => exact ⟨.trans (d := (mmioWrite s (.mta (lcMcastEntry s.c.lcCmd)) v).c) {} {}, nofun⟩
  case b0 => exact ⟨{}, nofun⟩
  case c5 => exact ⟨{}, nofun⟩
  case d3 => exact ⟨{}, nofun⟩
  case d4 => exact ⟨{}, nofun⟩
  case u5 => exact ⟨{}, nofun⟩
  all_goals exact jumped {} nofun

end Sys2Proof.Machine
end

section
/-! SUPPORT. The lines of `LC` that touch the mask or CTRL (R330-R334, R377), and whole classes over a step (O10). -/

namespace Sys2Proof.Machine

variable {s t u : State} {c d : Ctlr} {a : AgentId} {cls : Word} {n : Nat}

theorem resetPending_iff {g : NicRegs} : resetPending g = true ↔ g.ctrl &&& ctrlRst ≠ 0#32 := bne_iff_ne

/-- A line whose reset stays pending only where it may. -/
theorem LcMask.of_pending (m : Calm c d)
    (hl : (c.lcCtl = .a1 → d.lcCtl = .a2) ∧ c.lcCtl ≠ .a2 ∧ c.lcCtl ≠ .z2)
    (hp : resetPending c.regs = true → d.lcCtl.resetMayPend = true ∨ d.lc = .faulted ∨ d.lcCtl = .z8 false)
    (hx : ∀ v, d.lcCtl ≠ .rmwW .a7 v) : LcMask c d where
  disp := m.disp
  mask := .inl ⟨m.im, m.ims, hl⟩
  pending h := (hp (resetPending_congr m.ctrl ▸ h)).imp_right fun k => k.imp_right .inl
  slu v h := absurd h (hx v)

/-- A counted read of CTRL (R323) that does not show RST clear goes on, or fails. -/
theorem pollStep_pending {p : PollId} {i : Nat} (hp : p = .a6 ∨ p = .z6) (h : resetPending s.c.regs = true) :
    (pollStep s p i).c.lcCtl = p.fail ∨ (pollStep s p i).c.lcCtl = .pollD p i := by
  have hc : p.cond (mmioRead s p.reg).1 = false := by
    rcases hp with rfl | rfl <;> exact congrArg (!·) h
  simp only [pollStep, hc, lcJump_c, Bool.false_eq_true, if_false]
  split
  · exact .inl rfl
  · exact .inr rfl

theorem pollStep_mask {p : PollId} {i : Nat} (hp : p = .a6 ∨ p = .z6) (hc : s.c.lcCtl = .pollR p i) :
    LcMask s.c (pollStep s p i).c := by
  refine .of_pending (.trans (.mmioRead s p.reg) {}) (by rw [hc]; exact ⟨nofun, nofun, nofun⟩) (fun h => .inl ?_) ?_
  · rcases pollStep_pending (i := i) hp h with e | e <;> rw [e] <;> rcases hp with rfl | rfl <;> rfl
  · obtain ⟨x, u, e, -, hx⟩ := pollStep_quiet s p i
    rw [e]
    rcases hp with rfl | rfl <;> rcases hx with rfl | rfl | rfl <;> nofun

/-- A line that writes CTRL, RST staying set while a reset is pending (R422). -/
theorem LcMask.of_ctrl {w : Rmw} {v : Word} (hw : w ≠ .a8) (hc : s.c.lcCtl = .rmwW w v) :
    LcMask s.c (lcJump w.next (mmioWrite s w.reg v)).c := by
  have hreg : w.reg = .ctrl := by
    cases w with
    | a8 => exact absurd rfl hw
    | a5 | a7 | z5 => rfl
  rw [hreg]
  refine ⟨rfl, .inl ⟨rfl, rfl, by rw [hc]; exact ⟨nofun, nofun, nofun⟩⟩, fun h => ?_, by cases w <;> nofun⟩
  cases w with
  | a8 => exact absurd rfl hw
  | a5 | z5 => exact .inl rfl
  | a7 =>
    have hp : (v ||| s.c.regs.ctrl &&& ctrlRst) &&& ctrlRst ≠ 0#32 := resetPending_iff.mp h
    by_cases hv : v &&& ctrlRst = 0#32
    · refine .inr (.inr (.inr (.inl ⟨resetPending_iff.mpr fun e => hp ?_, by rw [hc]; rfl⟩)))
      rw [e, BitVec.or_zero, hv]
    · exact .inr (.inr (.inr (.inr ⟨v, hc, hv⟩)))

/-- Every step of `LC`. -/
theorem lcStep_mask (h : lcStep s n = .go t) : LcMask s.c t.c := by
  cases ht : s.c.lcCtl.touchesMask with
  | false =>
    obtain ⟨m, hx⟩ := lcStep_calm h ht
    exact .of_calm m ht hx
  | true =>
    have line : ∀ {x y : LcCtl} {u : State}, s.c.lcCtl = x → (x = .a1 → y = .a2) ∧ x ≠ .a2 ∧ x ≠ .z2 → Calm s.c u.c →
        y.resetMayPend = true → (∀ v, y ≠ .rmwW .a7 v) → LcMask s.c (lcJump y u).c := fun hx hl m hy hv =>
      .of_pending (m.trans {}) (hx ▸ hl) (fun _ => .inl hy) hv
    cases hc : s.c.lcCtl <;> rw [hc] at ht <;> simp only [lcStep, hc] at h
    case a1 =>
      split at h <;> cases h <;> exact line hc ⟨fun _ => rfl, nofun, nofun⟩ {} rfl nofun
    case z7 b =>
      cases b with
      | true => cases ht
      | false =>
        cases h
        exact .of_pending {} (by rw [hc]; exact ⟨nofun, nofun, nofun⟩) (fun _ => .inr (.inr rfl)) nofun
    case rmwR w =>
      cases w with
      | a8 | z5 => cases ht
      | a5 => cases h; exact line hc ⟨nofun, nofun, nofun⟩ {} rfl nofun
      | a7 =>
        cases h
        refine ⟨rfl, .inl ⟨rfl, rfl, by rw [hc]; exact ⟨nofun, nofun, nofun⟩⟩,
          fun hp => .inr (.inr (.inr (.inl ⟨hp, by rw [hc]; rfl⟩))), fun v e => ⟨hc, ?_⟩⟩
        exact (LcCtl.rmwW.inj e).2.symm
    case rmwW w v =>
      cases h
      exact .of_ctrl (by rintro rfl; cases ht) hc
    case pollR p i =>
      cases h
      cases p with
      | a9 | a10 => cases ht
      | a6 => exact pollStep_mask (.inl rfl) hc
      | z6 => exact pollStep_mask (.inr rfl) hc
    case pollD p i =>
      cases h
      cases p with
      | a9 | a10 => cases ht
      | a6 | z6 => exact line hc ⟨nofun, nofun, nofun⟩ {} rfl nofun
    case a3 | a4 => cases h; exact line hc ⟨nofun, nofun, nofun⟩ {} rfl nofun
    case fatal r =>
      cases h
      exact .of_pending {} (by rw [hc]; exact ⟨nofun, nofun, nofun⟩) (fun _ => .inr (.inl rfl)) nofun
    case a2 =>
      cases h
      exact ⟨by simp, .inr ⟨by rw [lcJump_c]; exact hwIms_mmioWrite_imc s, .inl ⟨hc, by simp⟩⟩, fun _ => .inl rfl, nofun⟩
    case z2 =>
      cases h
      refine ⟨by simp, .inr ⟨by rw [lcJump_c]; exact hwIms_mmioWrite_imc _, .inr ⟨hc, by simp⟩⟩, fun hp => ?_, nofun⟩
      refine .inr (.inr (.inr (.inl ⟨?_, by rw [hc]; rfl⟩)))
      rw [← hp]
      exact (resetPending_congr (by simp [regWrite])).symm
    all_goals cases ht

/-! ## Whole classes (R278) -/

theorem wholeClasses_zero : wholeClasses 0#32 = true := by decide

theorem maskOk.mask (h : maskOk c) (hi : wholeClasses d.im = true) (hd : d.disp = c.disp) : maskOk d := by
  obtain ⟨-, he, hw, hx⟩ := h
  exact ⟨hi, hd ▸ he, hd ▸ hw, hd ▸ hx⟩

theorem maskOk.agent (m : MaskMove a cls c d) (hk : wholeClasses cls = true) (h : maskOk c) : maskOk d := by
  cases m with
  | calm m _ => exact h.mask (m.im ▸ h.1) m.disp
  | add _ him _ _ hd _ => exact h.mask (him ▸ wholeClasses_or h.1 hk) hd
  | write _ him _ _ hd => exact h.mask (him ▸ h.1) hd

theorem maskOk.disp (m : DispMask c d) (h : maskOk c) : maskOk d := by
  obtain ⟨hi, he, hw, hx⟩ := h
  have inside : ∀ {v m : Word}, wholeClasses m = true → v &&& m &&& ~~~allClass = 0#32 := fun {v m} k => by
    rw [BitVec.and_comm v]
    exact and_and_not_eq_zero (wholeClasses_iff.mp k).1 v
  cases m with
  | outside _ _ him _ hd | mask _ hd him _ | unmask _ him _ hd => rw [maskOk, him, hd]; exact ⟨hi, he, hw, hx⟩
  | enter v _ him _ hd => rw [maskOk, him, hd]; exact ⟨hi, hi, hi, inside hi⟩
  | read v _ him _ hd => rw [maskOk, him, hd]; exact ⟨hi, he, hw, inside he⟩
  | handle k x hk _ _ him _ hd => rw [maskOk, him, hd]; exact ⟨hi, he, wholeClasses_and_not hw hk, hx⟩
  | store _ him _ hd => rw [maskOk, him, hd]; exact ⟨hw, he, hw, hx⟩

theorem maskOk.lc (m : LcMask c d) (h : maskOk c) : maskOk d := by
  refine h.mask ?_ m.disp
  rcases m.mask with ⟨e, -⟩ | ⟨-, ⟨-, e⟩ | ⟨-, e⟩⟩ <;> rw [e]
  · exact h.1
  · exact h.1
  · exact wholeClasses_zero

theorem agentStep_maskOk (h : agentStep a n s = .go t) (hs : maskOk s.c) : maskOk t.c := by
  cases a with
  | disp => exact hs.disp (dispStep_mask h).1
  | rxw => exact hs.agent (rxwStep_mask h) (by decide)
  | txw => exact hs.agent (txwStep_mask h) (by decide)
  | lnk => exact hs.agent (lnkStep_mask h) (by decide)
  | lc => exact hs.lc (lcStep_mask h)
  | txc k => exact hs.agent (txcStep_mask h) (by decide)

theorem exec_cmd_maskOk {i : Instr} (hf : i.format = .hostCmd) (he : exec i s = .next t) (hs : maskOk s.c) :
    maskOk t.c := by
  cases exec_cmd_case hf he with
  | reply es h => rw [h]; exact hs
  | attach _ _ h => rw [h]; exact hs
  | tx _ h => rw [h]; exact hs
  | shutdown _ _ h => rcases h with ⟨-, h⟩ | h <;> (rw [h]; exact hs)
  | control x es _ _ _ h => rw [h]; exact hs

/-- A run that begins takes no mask yet. -/
theorem OpFrame.maskOk (hf : OpFrame s t) (hs : maskOk s.c) : maskOk t.c := by
  rw [hf.c]
  rcases hf.disp with e | ⟨-, e⟩ <;> rw [e] <;> exact hs

/-- Settles O10: ARM adds a class, the dispatcher takes classes from a copy of the mask, and SHUTDOWN leaves none. -/
theorem stepKeepsWholeClassMask : Obligations.StepKeepsWholeClassMask := fun _ _ =>
  step_keeps (fun _ _ _ hf he => exec_cmd_maskOk hf he) (fun _ _ hf => hf.maskOk) (fun _ _ _ _ => agentStep_maskOk)
    (fun _ _ h => h) (fun k p _ x y _ => discovery_maskOk k p x y)

end Sys2Proof.Machine
end

section
/-!
SUPPORT. The agreement of HwIMS with the soft mask (42_interrupt_demux.md R286) in two halves: the mask's, and where a
device reset may be pending (R333, R377, R422).
-/

namespace Sys2Proof.Machine

variable {s t u : State} {c d : Ctlr} {a b : AgentId} {cls : Word} {n : Nat} {x : LcCtl}

/-! ## The two halves -/

/-- The controller is before ATTACH's end, faulted by it, or SHUTDOWN has cleared the mask: `im` is 0. -/
def Ctlr.maskIdle (c : Ctlr) : Prop :=
  c.lc = .poweredUnknown ∨ c.lc = .faulted ∨ c.lcCtl.attachLine = true ∨ c.lcCtl.maskZero = true

/-- The mask, the dispatcher's copy of it, and HwIMS. -/
structure MaskSync (c : Ctlr) : Prop where
  zero : c.maskIdle → c.im = 0#32
  work : c.disp.masked = true → c.disp.ctl ≠ .q3 → c.disp.work &&& ~~~c.im = 0#32
  leave : c.disp.ctl = .x2 → c.disp.work = c.im
  inside : c.beforeMask = false → c.regs.hwIms &&& ~~~c.im = 0#32
  off : c.beforeMask = false → c.disp.masked = true → c.regs.hwIms = 0#32
  same : c.beforeMask = false → c.disp.masked = false → (∀ a, arming c a = false) → c.regs.hwIms = c.im

/-- Where a reset may be pending. -/
structure ResetSync (c : Ctlr) : Prop where
  faulted : c.lc = .faulted → notStarted c
  pending : resetPending c.regs = true → c.lc = .poweredUnknown ∨ c.lc = .faulted ∨ c.lcCtl.resetMayPend = true
  slu : ∀ v, c.lcCtl = .rmwW .a7 v → v &&& ctrlRst = 0#32

theorem syncOk_iff : syncOk c ↔ c.resetLate = true ∨ (ResetSync c ∧ MaskSync c) := by
  refine or_congr_right ⟨fun ⟨h1, h2, h3, h4, h5, h6, h7⟩ => ?_, fun ⟨hr, hm⟩ => ?_⟩
  · exact ⟨⟨h1, h5, h6⟩, h2, h3, h4, fun k => (h7 k).1, fun k => (h7 k).2.1, fun k => (h7 k).2.2⟩
  · exact ⟨hr.faulted, hm.zero, hm.work, hm.leave, hr.pending, hr.slu, fun k => ⟨hm.inside k, hm.off k, hm.same k⟩⟩

theorem resetLate_iff : c.resetLate = true ↔ c.lc = .faulted ∧ c.rxw.ctl ≠ .notStarted ∨ c.lcCtl = .z8 false := by
  simp [Ctlr.resetLate]

theorem beforeMask_eq_false : c.beforeMask = false ↔ c.lc ≠ .poweredUnknown ∧ c.lcCtl ≠ .a1 ∧ c.lcCtl ≠ .a2 := by
  simp [Ctlr.beforeMask, and_assoc]

theorem not_maskIdle (hl : c.lc = .running ∨ c.lc = .halted) (ha : c.lcCtl.attachLine = false)
    (hz : c.lcCtl.maskZero = false) : ¬ c.maskIdle := by
  rintro (e | e | e | e)
  · rw [e] at hl; rcases hl with h | h <;> cases h
  · rw [e] at hl; rcases hl with h | h <;> cases h
  · rw [ha] at e; cases e
  · rw [hz] at e; cases e

/-! ## Lines of `LC` -/

/-- Where a reset may be pending the mask is 0. -/
theorem LcCtl.attachLine_or_maskZero_of_resetMayPend (h : x.resetMayPend = true) :
    x.attachLine = true ∨ x.maskZero = true := by
  cases x with
  | a1 | a2 | a3 | a4 | fatal r => exact .inl rfl
  | rmwR w | rmwW w v =>
    cases w with
    | a5 | a7 | a8 => exact .inl rfl
    | z5 => exact .inr rfl
  | pollR p i | pollD p i =>
    cases p with
    | a6 | a9 | a10 => exact .inl rfl
    | z6 => exact .inr rfl
  | z7 b => exact .inr rfl
  | _ => cases h

/-- From line Z3 to its release SHUTDOWN has the mask at 0. -/
theorem LcCtl.maskZero_of_holdsM (h : x.holdsM = true) (hz : x ≠ .z2) : x.maskZero = true := by
  cases x with
  | z2 => exact absurd rfl hz
  | z3 | z4 | z7 b => rfl
  | rmwR w | rmwW w v =>
    cases w with
    | z5 => rfl
    | a5 | a7 | a8 => cases h
  | pollR p i | pollD p i =>
    cases p with
    | z6 => rfl
    | a6 | a9 | a10 => cases h
  | z8 b => cases b <;> cases h
  | _ => cases h

theorem LcCtl.holdsM_of_maskZero (h : x.maskZero = true) : x.holdsM = true := by
  cases x with
  | z3 | z4 | z7 b => rfl
  | rmwR w | rmwW w v =>
    cases w with
    | z5 => rfl
    | a5 | a7 | a8 => cases h
  | pollR p i | pollD p i =>
    cases p with
    | z6 => rfl
    | a6 | a9 | a10 => cases h
  | _ => cases h

theorem LcCtl.maskZero_of_controlLine (h : x.controlLine = true) : x.maskZero = false ∧ x.resetMayPend = false := by
  cases x with
  | promiscR | promiscW | mcastW | tunableW | u1 | u2 | u3 | u3e | u4 | u5 => exact ⟨rfl, rfl⟩
  | _ => cases h

/-! ## Who is arming, and who is inside `mlock` -/

theorem Disp.masked_of_x2 {y : Disp} (h : y.ctl = .x2) : y.masked = true := by simp only [masked, h]

theorem inMlock_of_masked (h : c.disp.masked = true) : inMlock c .disp = true := by
  rw [inMlock_disp]
  cases hc : c.disp.ctl with
  | q3 | l1 | l3 | l4 | l5 | x1 | x2 => rfl
  | idle | q1 | q2 | x3 => simp only [Disp.masked, hc, Bool.false_eq_true] at h

/-- Inside its own section an agent keeps the dispatcher out of its masked part (R97). -/
theorem locksOk.unmasked (hl : locksOk c) (hm : inMlock c a = true) (ha : a ≠ .disp) : c.disp.masked = false :=
  Bool.eq_false_iff.mpr fun k =>
    ha (Option.some.inj ((hl.1 a hm).symm.trans (hl.1 .disp (inMlock_of_masked k))))

theorem inMlock_of_arming (h : arming c a = true) : inMlock c a = true := by
  have run : ∀ {e : AgentId}, ((txRunOf c e).any fun q => q.pc == .c1Arm .m3) = true → inMlock c e = true := fun k => by
    obtain ⟨q, hq, hp⟩ := (Option.any_eq_true _ _).mp k
    rw [inMlock_of_run hq, beq_iff_eq.mp hp]
    rfl
  cases a with
  | rxw => rw [inMlock_rxw, beq_iff_eq.mp h]; rfl
  | lnk => rw [inMlock_lnk, beq_iff_eq.mp h]; rfl
  | txw =>
    rcases Bool.or_eq_true_iff.mp h with k | k
    · rw [inMlock_txw, beq_iff_eq.mp k]; rfl
    · exact run k
  | txc k => exact run h
  | disp | lc => cases h

theorem OthersKept.arming (o : OthersKept a c d) (hb : b ≠ a) : arming d b = arming c b := by
  cases b with
  | disp | lc => rfl
  | rxw => simp only [Machine.arming, o.rxw hb.symm]
  | txw => simp only [Machine.arming, txRunOf, o.txw hb.symm]
  | lnk => simp only [Machine.arming, o.lnk hb.symm]
  | txc k => simp only [Machine.arming, txRunOf, o.caller k hb.symm]

theorem LcAlone.arming (o : LcAlone c d) (b : AgentId) : arming d b = arming c b := by
  cases b <;> simp only [Machine.arming, txRunOf, o.rxw, o.txw, o.lnk, o.txcs]

theorem LcAlone.notStarted (o : LcAlone c d) (h : notStarted c) : notStarted d := by
  obtain ⟨hr, hw, hk, hx⟩ := h
  exact ⟨o.rxw.trans hr, o.txw.trans hw, o.lnk.trans hk, o.txcs.trans hx⟩

theorem arming_of_notStarted (h : notStarted c) (b : AgentId) : arming c b = false := by
  obtain ⟨hr, hw, hk, hx⟩ := h
  cases b <;> simp [arming, txRunOf, hr, hw, hk, hx, txcFind]

/-- A new caller, at line X0, arms nothing. -/
theorem arming_newCaller (h : arming { c with txcs := c.txcs ++ [⟨n, .start⟩], txcNext := m } a = false) :
    arming c a = false := by
  cases a with
  | txc k =>
    cases hr : txRunOf c (.txc k) with
    | none => simp only [arming, hr, Option.any_none]
    | some q =>
      rw [arming_of_run hr]
      rwa [arming_of_run ((txRunOf_newCaller c n m (.txc k)).2 q hr)] at h
  | _ => exact h

/-! ## The mask's half over a step -/

namespace MaskSync

/-- Neither mask changes, and the dispatcher stays, or outside its masked part. -/
theorem carry (h : MaskSync c) (him : d.im = c.im) (hims : d.regs.hwIms = c.regs.hwIms)
    (hd : d.disp = c.disp ∨ c.disp.masked = false ∧ d.disp.masked = false) (hz : d.maskIdle → c.maskIdle)
    (hb : d.beforeMask = false → c.beforeMask = false) (ha : (∀ a, arming d a = false) → ∀ a, arming c a = false) :
    MaskSync d where
  zero k := him.trans (h.zero (hz k))
  work hm hq := by
    rcases hd with e | ⟨-, e⟩
    · rw [e] at hm hq ⊢
      rw [him]
      exact h.work hm hq
    · rw [e] at hm; cases hm
  leave hx := by
    rcases hd with e | ⟨-, e⟩
    · rw [e] at hx ⊢
      rw [him]
      exact h.leave hx
    · rw [Disp.masked_of_x2 hx] at e; cases e
  inside k := by rw [hims, him]; exact h.inside (hb k)
  off k hm := by
    rcases hd with e | ⟨-, e⟩
    · rw [hims]; exact h.off (hb k) (e ▸ hm)
    · rw [e] at hm; cases hm
  same k hm hn := by
    rw [hims, him]
    refine h.same (hb k) ?_ (ha hn)
    rcases hd with e | ⟨e, -⟩
    · exact e ▸ hm
    · exact e

/-- Both masks are 0. -/
theorem of_zero (him : d.im = 0#32) (hims : d.regs.hwIms = 0#32)
    (hw : d.disp.masked = true → d.disp.ctl ≠ .q3 → d.disp.work = 0#32) : MaskSync d where
  zero _ := him
  work hm hq := by rw [hw hm hq, BitVec.zero_and]
  leave hx := by rw [him]; exact hw (Disp.masked_of_x2 hx) (by rw [hx]; nofun)
  inside _ := by rw [hims, BitVec.zero_and]
  off _ _ := hims
  same _ _ _ := hims.trans him.symm

/-- Where the mask is 0, so is the dispatcher's copy. -/
theorem work_eq_zero (h : MaskSync c) (him : c.im = 0#32) (hm : c.disp.masked = true) (hq : c.disp.ctl ≠ .q3) :
    c.disp.work = 0#32 := by
  have := h.work hm hq
  rwa [him, BitVec.not_zero, BitVec.and_allOnes] at this

/-! ### The dispatcher -/

/-- Inside its masked part. -/
theorem of_masked (hm : d.disp.masked = true) (hz : d.maskIdle → d.im = 0#32)
    (hi : d.beforeMask = false → d.regs.hwIms = 0#32)
    (hw : d.disp.ctl ≠ .q3 → d.disp.work &&& ~~~d.im = 0#32) (hx : d.disp.ctl = .x2 → d.disp.work = d.im) :
    MaskSync d where
  zero := hz
  work _ := hw
  leave := hx
  inside k := by rw [hi k, BitVec.zero_and]
  off k _ := hi k
  same _ k := by rw [hm] at k; cases k

theorem disp (m : DispMask c d) (o : OthersKept .disp c d) (h : MaskSync c) : MaskSync d := by
  have hz : d.maskIdle → c.maskIdle := fun k => by rwa [Ctlr.maskIdle, o.lc, o.lcCtl] at k
  have hb : d.beforeMask = false → c.beforeMask = false := fun k => by rwa [Ctlr.beforeMask, o.lc, o.lcCtl] at k
  -- a line of the loop: the mask stays, HwIMS stays 0, the copy is inside the mask
  have loop : ∀ {y : DispCtl}, c.disp.masked = true → d.im = c.im → d.regs.hwIms = c.regs.hwIms → d.disp.ctl = y →
      y = .x1 ∨ y = .l3 ∨ y = .l1 ∨ y = .l4 ∨ y = .l5 → d.disp.work &&& ~~~c.im = 0#32 → MaskSync d :=
    fun hm him hims hy hl hw => by
      refine .of_masked ?_ (fun k => him.trans (h.zero (hz k))) (fun k => hims.trans (h.off (hb k) hm))
        (fun _ => him ▸ hw) fun k => ?_
      · rcases hl with e | e | e | e | e <;> simp only [Disp.masked, hy, e]
      · rw [← hy, k] at hl
        rcases hl with e | e | e | e | e <;> cases e
  cases m with
  | outside hc hd him hims _ =>
    refine h.carry him hims (.inr ⟨hc, hd⟩) hz hb fun k b => ?_
    by_cases e : b = .disp
    · rw [e]; rfl
    · rw [← o.arming e]; exact k b
  | mask hc hd him hims =>
    exact .of_masked (by rw [hd]; rfl) (fun k => him.trans (h.zero (hz k))) (fun _ => hims)
      (fun k => absurd (by rw [hd]) k) (by rw [hd]; nofun)
  | enter v hc him hims hd =>
    exact loop (by simp only [Disp.masked, hc]) him hims (by rw [hd]) (dispFromL2_cases _)
      (by rw [hd]; exact BitVec.and_not_self _)
  | read v hc him hims hd =>
    have hm : c.disp.masked = true := by simp only [Disp.masked, hc]
    exact loop hm him hims (by rw [hd]) (dispFromL2_cases _) (by rw [hd]; exact h.work hm (by rw [hc]; nofun))
  | handle k y hk hc hy him hims hd =>
    obtain ⟨hm, hq⟩ : c.disp.masked = true ∧ c.disp.ctl ≠ .q3 := by
      rcases hc with e | e | e <;> simp [Disp.masked, e]
    exact loop hm him hims (by rw [hd]) (.inr (.inr hy)) (by rw [hd]; exact and_and_not_eq_zero (h.work hm hq) _)
  | store hc him hims hd =>
    obtain ⟨hm, hq⟩ : c.disp.masked = true ∧ c.disp.ctl ≠ .q3 := by simp [Disp.masked, hc]
    refine .of_masked (by rw [hd]; rfl) (fun k => ?_) (fun k => hims.trans (h.off (hb k) hm)) (fun _ => ?_) fun _ => ?_
    · rw [him]; exact h.work_eq_zero (h.zero (hz k)) hm hq
    · rw [hd, him]; exact BitVec.and_not_self _
    · rw [hd, him]
  | unmask hc him hims hd =>
    have heq : d.beforeMask = false → d.regs.hwIms = d.im := fun k => by
      rw [hims, h.off (hb k) (Disp.masked_of_x2 hc), h.leave hc, BitVec.zero_or, him]
    have hm : d.disp.masked = false := by rw [hd]; rfl
    refine ⟨fun k => him.trans (h.zero (hz k)), fun k => ?_, fun k => ?_, fun k => ?_, fun _ k => ?_, fun k _ _ => heq k⟩
    · rw [hm] at k; cases k
    · rw [hd] at k; cases k
    · rw [heq k]; exact BitVec.and_not_self _
    · rw [hm] at k; cases k

/-! ### Workers and callers -/

theorem agent (m : MaskMove a cls c d) (o : OthersKept a c d) (hd : a ≠ .disp) (ha : a ≠ .lc) (hst : startOk c)
    (hl : locksOk c) (hn : ¬ notStarted c) (hr : ResetSync c) (h : MaskSync c) : MaskSync d := by
  have hz : d.maskIdle → c.maskIdle := fun k => by rwa [Ctlr.maskIdle, o.lc, o.lcCtl] at k
  have hb : d.beforeMask = false → c.beforeMask = false := fun k => by rwa [Ctlr.beforeMask, o.lc, o.lcCtl] at k
  -- a worker that holds `mlock` runs with the mask in use
  have hidle : inMlock c a = true → ¬ c.maskIdle := by
    rintro hm (e | e | e | e)
    · exact hn (hst.unknown e).2
    · exact hn (hr.faulted e)
    · exact hn (hst.attach e).2
    · exact ha (Option.some.inj ((hl.1 a hm).symm.trans (hl.1 .lc (LcCtl.holdsM_of_maskZero e))))
  cases m with
  | calm m harm =>
    refine h.carry m.im m.ims (.inl m.disp) hz hb fun k b => ?_
    by_cases e : b = a
    · rw [e]; exact harm
    · rw [← o.arming e]; exact k b
  | add hm him hims _ hdisp harm =>
    have hu := hl.unmasked hm hd
    refine ⟨fun k => absurd (hz k) (hidle hm), fun k => ?_, fun k => ?_, fun k => ?_, fun _ k => ?_, fun _ _ k => ?_⟩
    · rw [hdisp, hu] at k; cases k
    · rw [hdisp] at k; rw [Disp.masked_of_x2 k] at hu; cases hu
    · rw [hims, him]; exact and_not_or_eq_zero (h.inside (hb k)) _
    · rw [hdisp, hu] at k; cases k
    · rw [k a] at harm; cases harm
  | write hm him hims _ hdisp =>
    have hu := hl.unmasked hm hd
    have heq : d.beforeMask = false → d.regs.hwIms = d.im := fun k => by
      rw [hims, him]; exact or_eq_of_and_not_eq_zero (h.inside (hb k))
    refine ⟨fun k => absurd (hz k) (hidle hm), fun k => ?_, fun k => ?_, fun k => ?_, fun _ k => ?_, fun k _ _ => heq k⟩
    · rw [hdisp, hu] at k; cases k
    · rw [hdisp] at k; rw [Disp.masked_of_x2 k] at hu; cases hu
    · rw [heq k]; exact BitVec.and_not_self _
    · rw [hdisp, hu] at k; cases k

end MaskSync

end Sys2Proof.Machine
end

section
/-! SUPPORT. The agreement of the two masks over a step of an agent (O13). -/

namespace Sys2Proof.Machine

variable {s t : State} {c d : Ctlr} {a b : AgentId} {cls : Word} {n : Nat}

/-! ## Where a reset may come late (R527) -/

theorem OthersKept.resetLate (o : OthersKept a c d) (h : c.resetLate = true) : d.resetLate = true := by
  rw [resetLate_iff, o.lc, o.lcCtl]
  exact (resetLate_iff.mp h).imp_left fun ⟨hl, hr⟩ => ⟨hl, hr ∘ o.started.1⟩

/-- SHUTDOWN ends Faulted after a reset that timed out (R377). -/
theorem lcStep_z8_false (h : lcStep s n = .go t) (hc : s.c.lcCtl = .z8 false) : t.c.lc = .faulted := by
  simp only [lcStep, hc] at h
  obtain rfl := StepRes.go.inj h
  rfl

theorem LcFlow.rxw_started (m : LcFlow c d) (h : c.rxw.ctl ≠ .notStarted) : d.rxw.ctl ≠ .notStarted := by
  cases m with
  | start _ _ _ _ _ _ _ hr _ _ => rw [hr]; nofun
  | attach _ _ _ _ ha | failed _ _ _ _ ha | ready _ _ _ _ ha | lock _ _ _ _ _ ha | shut _ _ _ _ ha
  | unlock _ _ _ _ _ ha | ended _ _ _ _ _ ha | control _ _ _ _ ha => rwa [ha.rxw]

theorem lcStep_resetLate (h : lcStep s n = .go t) (hs : startOk s.c) (hlate : s.c.resetLate = true) :
    t.c.resetLate = true := by
  have m := lcStep_flow h
  rw [resetLate_iff] at hlate ⊢
  rcases hlate with ⟨hl, hr⟩ | hc
  · rcases m.lasts hs with e | ⟨hf, -⟩
    · exact .inl ⟨e.trans hl, m.rxw_started hr⟩
    · exact absurd hl hf
  · obtain ⟨⟨hr, -⟩, -⟩ := hs.running (hs.shutdown (by rw [hc]; rfl))
    exact .inl ⟨lcStep_z8_false h hc, m.rxw_started hr⟩

/-! ## Steps of `LC` -/

theorem LcFlow.ne_idle (m : LcFlow c d) : c.lcCtl ≠ .idle := by
  intro e
  cases m with
  | attach hc _ _ _ _ | failed hc _ _ _ _ | shut hc _ _ _ _ | control hc _ _ _ _ => rw [e] at hc; cases hc
  | start hc _ _ _ _ _ _ _ _ _ | ready hc _ _ _ _ | lock hc _ _ _ _ _ | unlock _ hc _ _ _ _ | ended _ hc _ _ _ _ =>
    rw [e] at hc; cases hc

theorem LcFlow.arming (m : LcFlow c d) (hs : startOk c) (h : arming d b = false) : arming c b = false := by
  cases m with
  | start hc _ _ _ _ _ _ _ _ _ => exact arming_of_notStarted (hs.attach (by rw [hc]; rfl)).2 b
  | attach _ _ _ _ ha | failed _ _ _ _ ha | ready _ _ _ _ ha | lock _ _ _ _ _ ha | shut _ _ _ _ ha
  | unlock _ _ _ _ _ ha | ended _ _ _ _ _ ha | control _ _ _ _ ha => rwa [ha.arming] at h

/-- Line Z2 apart, `LC` moves to a place where the mask is 0 only from such a place. -/
theorem LcFlow.maskIdle (m : LcFlow c d) (hs : startOk c) (hlate : d.resetLate ≠ true) (hz : c.lcCtl ≠ .z2)
    (h : d.maskIdle) : c.maskIdle := by
  have att : c.lcCtl.attachLine = true → c.maskIdle := fun k => .inr (.inr (.inl k))
  have zero : c.lcCtl.maskZero = true → c.maskIdle := fun k => .inr (.inr (.inr k))
  have ready : d.lc = .running ∨ d.lc = .halted → d.lcCtl.attachLine = false → d.lcCtl.maskZero = false → c.maskIdle :=
    fun hl k k' => absurd h (not_maskIdle hl k k')
  cases m with
  | attach hc _ _ _ _ | failed hc _ _ _ _ => exact att hc
  | start hc _ _ _ _ _ _ _ _ _ => exact att (by rw [hc]; rfl)
  | ready _ hd hl _ _ => exact ready (.inl hl) (by rw [hd]; rfl) (by rw [hd]; rfl)
  | lock hc hd hl _ _ _ =>
    exact ready (.inl (hl.trans (hs.shutdown (by rw [hc]; rfl)))) (by rw [hd]; rfl) (by rw [hd]; rfl)
  | shut hc _ _ _ _ => exact zero (LcCtl.maskZero_of_holdsM hc hz)
  | unlock b hc _ _ _ _ => exact zero (by rw [hc]; rfl)
  | ended b hc hd hl _ ha =>
    rcases hl with e | e
    · exact ready (.inr e) (by rw [hd]; rfl) (by rw [hd]; rfl)
    · obtain ⟨⟨hr, -⟩, -⟩ := hs.running (hs.shutdown (by rw [hc]; rfl))
      exact absurd (resetLate_iff.mpr (.inl ⟨e, by rwa [ha.rxw]⟩)) hlate
  | control hc hd hl _ _ =>
    have hline : d.lcCtl.attachLine = false ∧ d.lcCtl.maskZero = false := by
      rcases hd with k | k
      · exact ⟨(LcCtl.of_controlLine k).1, (LcCtl.maskZero_of_controlLine k).1⟩
      · rw [k]; exact ⟨rfl, rfl⟩
    rcases h with e | e | e | e
    · exact .inl (hl ▸ e)
    · exact .inr (.inl (hl ▸ e))
    · rw [hline.1] at e; cases e
    · rw [hline.2] at e; cases e

theorem MaskSync.lc (m : LcMask c d) (f : LcFlow c d) (hs : startOk c) (hl : locksOk c) (hlate : d.resetLate ≠ true)
    (h : MaskSync c) : MaskSync d := by
  rcases m.mask with ⟨him, hims, ha1, ha2, hz2⟩ | ⟨hims, ⟨hc, him⟩ | ⟨hc, him⟩⟩
  · refine h.carry him hims (.inl m.disp) (f.maskIdle hs hlate hz2) (fun k => ?_) fun k b => f.arming hs (k b)
    obtain ⟨-, -, hd2⟩ := beforeMask_eq_false.mp k
    exact beforeMask_eq_false.mpr ⟨fun e => f.ne_idle (hs.unknown e).1, fun e => hd2 (ha1 e), ha2⟩
  · have him0 : c.im = 0#32 := h.zero (.inr (.inr (.inl (by rw [hc]; rfl))))
    exact .of_zero (him.trans him0) hims fun k k' => m.disp ▸ h.work_eq_zero him0 (m.disp ▸ k) (m.disp ▸ k')
  · refine .of_zero him hims fun k _ => ?_
    rw [m.disp, hl.unmasked (a := .lc) (by rw [inMlock_lc, hc]; rfl) nofun] at k
    cases k

theorem ctrlSlu_and_ctrlRst : ctrlSlu &&& ctrlRst = 0#32 := by decide

namespace ResetSync

/-- `LC`, the lifecycle and CTRL stay. -/
theorem kept (h : ResetSync c) (hl : d.lc = c.lc) (hx : d.lcCtl = c.lcCtl) (hr : d.regs.ctrl = c.regs.ctrl)
    (hn : notStarted c → notStarted d) : ResetSync d where
  faulted k := hn (h.faulted (hl ▸ k))
  pending k := by rw [hl, hx]; exact h.pending (resetPending_congr hr ▸ k)
  slu v k := h.slu v (hx ▸ k)

/-- At a line at which no reset may be pending, of a controller not Faulted, none is. -/
theorem not_pending (h : ResetSync c) (hp : c.lc ≠ .poweredUnknown) (hf : c.lc ≠ .faulted)
    (hx : c.lcCtl.resetMayPend = false) : ¬ resetPending c.regs = true := fun k => by
  rcases h.pending k with e | e | e
  · exact hp e
  · exact hf e
  · rw [hx] at e; cases e

theorem faulted_lc (f : LcFlow c d) (hs : startOk c) (hlate : d.resetLate ≠ true) (h : ResetSync c)
    (k : d.lc = .faulted) : notStarted d := by
  have running : c.lc = .running → LcAlone c d → notStarted d := fun hl ha =>
    absurd (resetLate_iff.mpr (.inl ⟨k, by rw [ha.rxw]; exact (hs.running hl).1.1⟩)) hlate
  have attaching : d.lc.attaching = true → notStarted d := fun e => by rw [k] at e; cases e
  cases f with
  | attach hc _ hl _ _ => exact attaching (hl.elim (fun e => e ▸ (hs.attach hc).1) id)
  | failed hc _ _ _ ha => exact ha.notStarted (hs.attach hc).2
  | start hc _ hl _ _ _ _ _ _ _ => exact attaching (hl ▸ (hs.attach (by rw [hc]; rfl)).1)
  | ready _ _ hl _ _ => rw [k] at hl; cases hl
  | lock hc _ _ _ _ ha => exact running (hs.shutdown (by rw [hc]; rfl)) ha
  | shut hc _ _ _ ha => exact running (hs.shutdown (LcCtl.shutdownLine_of_holdsM hc)) ha
  | unlock b hc _ _ _ ha | ended b hc _ _ _ ha => exact running (hs.shutdown (by rw [hc]; rfl)) ha
  | control _ _ hl _ ha => exact ha.notStarted (h.faulted (hl ▸ k))

theorem lc (m : LcMask c d) (f : LcFlow c d) (hs : startOk c) (hlate : d.resetLate ≠ true) (h : ResetSync c) :
    ResetSync d where
  faulted := h.faulted_lc f hs hlate
  pending k := by
    rcases m.pending k with e | e | e | ⟨hp, hx⟩ | ⟨v, hc, hv⟩
    · exact .inr (.inr e)
    · exact .inr (.inl e)
    · exact absurd (resetLate_iff.mpr (.inr e)) hlate
    · rcases h.pending hp with e | e | e
      · exact absurd (hs.unknown e).1 f.ne_idle
      · rcases f.lasts hs with hl | ⟨hf, -⟩
        · exact .inr (.inl (hl.trans e))
        · exact absurd e hf
      · rw [hx] at e; cases e
    · exact absurd (h.slu v hc) hv
  slu v k := by
    obtain ⟨hc, rfl⟩ := m.slu v k
    have hat : c.lc.attaching = true := (hs.attach (by rw [hc]; rfl)).1
    have hp := h.not_pending (fun e => by rw [e] at hat; cases hat) (fun e => by rw [e] at hat; cases hat)
      (by rw [hc]; rfl)
    rw [resetPending_iff, not_not] at hp
    rw [BitVec.and_or_distrib_right, hp, ctrlSlu_and_ctrlRst, BitVec.or_zero]

end ResetSync

/-! ## Steps of every agent -/

theorem MaskMove.ctrl (m : MaskMove a cls c d) : d.regs.ctrl = c.regs.ctrl := by
  cases m with
  | calm m _ => exact m.ctrl
  | add _ _ _ h _ _ | write _ _ _ h _ => exact h

theorem syncOk.worker (m : MaskMove a cls c d) (o : OthersKept a c d) (hd : a ≠ .disp) (ha : a ≠ .lc)
    (hn : ¬ notStarted c) (hs : startOk c) (hl : locksOk c) (h : syncOk c) : syncOk d := by
  rw [syncOk_iff] at h ⊢
  refine h.imp o.resetLate fun ⟨hr, hm⟩ => ⟨?_, hm.agent m o hd ha hs hl hn hr⟩
  exact hr.kept o.lc o.lcCtl m.ctrl fun k => absurd k hn

theorem agentStep_syncOk (h : agentStep a n s = .go t) (hs : startOk s.c) (hl : locksOk s.c) (hc : syncOk s.c) :
    syncOk t.c := by
  cases a with
  | disp =>
    obtain ⟨m, hctrl⟩ := dispStep_mask h
    have o := (dispStep_move h).others
    rw [syncOk_iff] at hc ⊢
    refine hc.imp o.resetLate fun ⟨hr, hm⟩ => ⟨hr.kept o.lc o.lcCtl hctrl fun ⟨kr, kw, kk, kx⟩ => ?_, hm.disp m o⟩
    exact ⟨(o.rxw nofun).trans kr, (o.txw nofun).trans kw, (o.lnk nofun).trans kk, (o.txcs nofun).trans kx⟩
  | rxw =>
    refine hc.worker (rxwStep_mask h) (rxwStep_move h).others nofun nofun (fun ⟨e, _⟩ => ?_) hs hl
    simp [agentStep, rxwStep, e] at h
  | txw =>
    refine hc.worker (txwStep_mask h) (txwStep_move h).others nofun nofun (fun ⟨_, e, _⟩ => ?_) hs hl
    simp [agentStep, txwStep, e] at h
  | lnk =>
    refine hc.worker (lnkStep_mask h) (lnkStep_move h).others nofun nofun (fun ⟨_, _, e, _⟩ => ?_) hs hl
    simp [agentStep, lnkStep, e] at h
  | txc k =>
    refine hc.worker (txcStep_mask h) (txcStep_move h).others nofun nofun (fun ⟨_, _, _, e⟩ => ?_) hs hl
    simp [agentStep, txcStep, e, txcFind] at h
  | lc =>
    rw [syncOk_iff] at hc ⊢
    by_cases hlate : t.c.resetLate = true
    · exact .inl hlate
    · have m := lcStep_mask h
      have f := lcStep_flow h
      obtain ⟨hr, hm⟩ := hc.resolve_left fun k => hlate (lcStep_resetLate h hs k)
      exact .inr ⟨hr.lc m f hs hlate, hm.lc m f hs hl hlate⟩

end Sys2Proof.Machine
end

section
/-! SUPPORT. The agreement of the two masks over an operation, an action of the NIC, and a step of the machine (O13). -/

namespace Sys2Proof.Machine

variable {s t : State} {c d : Ctlr} {a : AgentId} {n : Nat} {i : Instr}

/-! ## Host commands -/

theorem exec_cmd_calm (hf : i.format = .hostCmd) (h : exec i s = .next t) : Calm s.c t.c := by
  cases i <;> cases hf <;> simp only [exec] at h
  case attach =>
    unfold execAttach at h
    split at h
    · split at h <;> cases h; exact {}
    · cases h; exact {}
  case txRequest => unfold execTxRequest at h; split at h <;> cases h <;> exact {}
  case shutdown =>
    unfold execShutdown at h
    split at h
    · split at h <;> cases h <;> exact {}
    · cases h; exact {}
  case setPromisc on => unfold execSetPromisc at h; split at h <;> cases h <;> exact {}
  case setMcast m a => unfold execSetMcast at h; split at h <;> cases h <;> exact {}
  case setRdtr v =>
    unfold execSetRdtr at h
    split at h
    · split at h <;> cases h <;> exact {}
    · cases h; exact {}
  case setRadv v =>
    unfold execSetRadv at h
    split at h
    · split at h <;> cases h <;> exact {}
    · cases h; exact {}
  case dump =>
    unfold execDump at h
    split at h
    · split at h <;> cases h <;> exact {}
    · cases h; exact {}
  case bufFree n => unfold execBufFree at h; split at h <;> cases h <;> exact {}
  case reservedOp w => cases h; exact {}

/-- A command accepted while Running or Halted sends an idle `LC` to a line outside ATTACH with the mask in use. -/
theorem syncOk.command (m : Calm c d) (hl : c.lc = .running ∨ c.lc = .halted) (hi : c.lcCtl = .idle) (hd : d.lc = c.lc)
    (ha : d.lcCtl.attachLine = false) (hz : d.lcCtl.maskZero = false)
    (harm : (∀ a, arming d a = false) → ∀ a, arming c a = false) (h : syncOk c) : syncOk d := by
  obtain ⟨hp, hf⟩ : c.lc ≠ .poweredUnknown ∧ c.lc ≠ .faulted := by
    rcases hl with e | e <;> rw [e] <;> exact ⟨nofun, nofun⟩
  have hlate : ¬ c.resetLate = true := fun k => by
    rcases resetLate_iff.mp k with ⟨e, -⟩ | e
    · exact hf e
    · rw [hi] at e; cases e
  obtain ⟨hr, hm⟩ := (syncOk_iff.mp h).resolve_left hlate
  have idle : d.maskIdle → c.maskIdle := fun k => absurd k (not_maskIdle (hd ▸ hl) ha hz)
  refine syncOk_iff.mpr (.inr ⟨⟨fun k => absurd (hd ▸ k) hf, fun k => ?_, fun v k => ?_⟩,
    hm.carry m.im m.ims (.inl m.disp) idle (fun _ => ?_) harm⟩)
  · exact absurd (resetPending_congr m.ctrl ▸ k) (hr.not_pending hp hf (by rw [hi]; rfl))
  · rw [k] at ha; cases ha
  · exact beforeMask_eq_false.mpr ⟨hp, by rw [hi]; nofun, by rw [hi]; nofun⟩

theorem lcAfterA0_cases (p : Params) (q : PoolParams) : lcAfterA0 p q = .a1 ∨ lcAfterA0 p q = .a2 := by
  unfold lcAfterA0
  split
  · exact .inl rfl
  · exact .inr rfl

/-- ATTACH begins before line A2's write. -/
theorem syncOk.attach (m : Calm c d) (hl : c.lc = .poweredUnknown) (hi : c.lcCtl = .idle) (hd : d.lc = .resetting)
    (hx : d.lcCtl = .a1 ∨ d.lcCtl = .a2) (harm : ∀ a, arming d a = arming c a) (h : syncOk c) : syncOk d := by
  have hlate : ¬ c.resetLate = true := fun k => by
    rcases resetLate_iff.mp k with ⟨e, -⟩ | e
    · rw [hl] at e; cases e
    · rw [hi] at e; cases e
  obtain ⟨-, hm⟩ := (syncOk_iff.mp h).resolve_left hlate
  refine syncOk_iff.mpr (.inr ⟨⟨fun k => ?_, fun _ => .inr (.inr ?_), fun v k => ?_⟩,
    hm.carry m.im m.ims (.inl m.disp) (fun _ => .inl hl) (fun k => ?_) fun k b => harm b ▸ k b⟩)
  · rw [hd] at k; cases k
  · rcases hx with e | e <;> rw [e] <;> rfl
  · rw [k] at hx; rcases hx with e | e <;> cases e
  · obtain ⟨-, h1, h2⟩ := beforeMask_eq_false.mp k
    exact absurd hx (not_or.mpr ⟨h1, h2⟩)

theorem LcCtl.maskInUse_of_start {x : LcCtl} (h : x.controlStart = true) : x.attachLine = false ∧ x.maskZero = false :=
  have hx := LcCtl.controlLine_of_start h
  ⟨(LcCtl.of_controlLine hx).1, (LcCtl.maskZero_of_controlLine hx).1⟩

theorem exec_cmd_syncOk (hf : i.format = .hostCmd) (he : exec i s = .next t) (hst : startOk s.c)
    (hs : syncOk s.c) : syncOk t.c := by
  have m := exec_cmd_calm hf he
  cases exec_cmd_case hf he with
  | reply es h => rw [h]; exact hs
  | attach hl hi h =>
    exact hs.attach m hl hi (by rw [h]) (by rw [h]; exact lcAfterA0_cases _ _) (by rw [h]; exact fun _ => rfl)
  | tx hl h =>
    rw [syncOk_iff] at hs ⊢
    refine hs.imp (fun k => by rw [h]; exact k) fun ⟨hr, hm⟩ => ⟨?_, ?_⟩
    · exact hr.kept (by rw [h]) (by rw [h]) m.ctrl fun ⟨e, _⟩ => absurd e (hst.running hl).1.1
    · refine hm.carry m.im m.ims (.inl m.disp) (by rw [h]; exact id) (by rw [h]; exact id) fun k b => ?_
      rw [h] at k
      exact arming_newCaller (k b)
  | shutdown hl hi h =>
    rcases h with ⟨-, h⟩ | h
    · exact hs.command m (.inl hl) hi (by rw [h]) (by rw [h]; rfl) (by rw [h]; rfl) (by rw [h]; exact id)
    · exact hs.command m (.inl hl) hi (by rw [h]) (by rw [h]; rfl) (by rw [h]; rfl) (by rw [h]; exact id)
  | control x es hx hl hi h =>
    obtain ⟨ha, hz⟩ := LcCtl.maskInUse_of_start hx
    exact hs.command m hl hi (by rw [h]) (by rw [h]; exact ha) (by rw [h]; exact hz) (by rw [h]; exact id)

/-! ## The other operations -/

/-- HwIMS and CTRL stay. -/
structure RegsCalm (c d : Ctlr) : Prop where
  ims : d.regs.hwIms = c.regs.hwIms := by rfl
  ctrl : d.regs.ctrl = c.regs.ctrl := by rfl

theorem nicRx_regsCalm (s : State) (r : RxDesc) (data : List Byte) : RegsCalm s.c (nicRx s r data).c := by
  unfold nicRx
  split <;> exact {}

theorem nicTx_regsCalm (s : State) (ec lc tu : Bool) (rsv : BitVec 4) : RegsCalm s.c (nicTx s ec lc tu rsv).c := by
  simp only [nicTx]
  split
  · split <;> exact {}
  · exact {}

theorem causeOp_regsCalm {w : Word} (h : causeOp w s = .next t) : RegsCalm s.c t.c := by
  cases h
  unfold takeInterrupt
  split <;> exact {}

theorem rxdesc_regsCalm {r : RxDesc} (h : execRxdesc r s = .next t) : RegsCalm s.c t.c := by
  obtain rfl := Host.Outcome.next.inj h
  split
  · exact nicRx_regsCalm _ _ _
  · exact {}

theorem txdescLegacy_regsCalm {len : Half} (h : execTxdescLegacy len s = .next t) : RegsCalm s.c t.c := by
  unfold execTxdescLegacy at h
  split at h <;> cases h <;> exact {}

/-- Beside a register transaction and a host command, no operation touches HwIMS or CTRL. -/
theorem exec_regsCalm (hf : i.format ≠ .hostCmd) (hm : i.format ≠ .mmio) (h : exec i s = .next t) : RegsCalm s.c t.c := by
  cases hi : i.format with
  | hostCmd => exact absurd hi hf
  | mmio => exact absurd hi hm
  | icr =>
    obtain ⟨q, w, rfl⟩ := exists_causeInstr hi
    cases q <;> exact causeOp_regsCalm h
  | rxDesc =>
    cases i with
    | rxdesc r => exact rxdesc_regsCalm h
    | _ => cases hi
  | txCtrl =>
    cases i with
    | txdescLegacy len => exact txdescLegacy_regsCalm h
    | txdescContext w | txdescExtdata w | txdescReserved w => cases h
    | _ => cases hi

/-- An operation, or an action of the NIC, that leaves both registers alone. -/
theorem OpFrame.syncOk (f : OpFrame s t) (m : RegsCalm s.c t.c) (h : syncOk s.c) : syncOk t.c := by
  have hc := f.c
  rw [syncOk_iff] at h ⊢
  refine h.imp (fun k => by rw [hc]; exact k) fun ⟨hr, hm⟩ => ⟨?_, ?_⟩
  · exact hr.kept (by rw [hc]) (by rw [hc]) m.ctrl (by rw [hc]; exact id)
  · refine hm.carry (by rw [hc]) m.ims (f.disp.imp_right fun ⟨e, e'⟩ => ?_) (by rw [hc]; exact id) (by rw [hc]; exact id)
      (by rw [hc]; exact id)
    exact ⟨Disp.masked_eq_false (.inl e), Disp.masked_eq_false (.inr (.inl (by rw [e'])))⟩

/-! ## The NIC -/

/-- A device reset completes, the only action of the NIC to touch HwIMS or CTRL (R421). -/
theorem nicAct_masks (s : State) (x : NicAct) : RegsCalm s.c (nicAct s x).c ∨
    (resetPending s.c.regs = true ∧ (nicAct s x).c.regs.hwIms = 0#32 ∧ ¬ resetPending (nicAct s x).c.regs = true) := by
  cases x with
  | rx r data => exact .inl (nicRx_regsCalm _ _ _)
  | tx ec lc tu rsv => exact .inl (nicTx_regsCalm _ _ _ _ _)
  | resetDone img =>
    simp only [nicAct, nicResetDone]
    split
    · rename_i hp
      refine .inr ⟨(Bool.and_eq_true_iff.mp hp).1, rfl, fun k => resetPending_iff.mp k ?_⟩
      show img.ctrl &&& ~~~(ctrlRst ||| ctrlSlu) &&& ctrlRst = 0#32
      rw [BitVec.and_assoc, show ~~~(ctrlRst ||| ctrlSlu) &&& ctrlRst = 0#32 by decide, BitVec.and_zero]
    · exact .inl {}
  | eeRstDone => left; simp only [nicAct, nicEeRstDone]; split <;> exact {}
  | eerdDone o => left; simp only [nicAct, nicEerdDone]; split <;> exact {}
  | mdicDone e => left; simp only [nicAct, nicMdicDone]; split <;> exact {}
  | stuck b => cases b <;> exact .inl {}
  | latch w | statSet k v | phySet r v | statusSet v => exact .inl {}

/-- A reset completes only where the mask is 0. -/
theorem nicAct_syncOk (x : NicAct) (h : syncOk s.c) : syncOk (nicAct s x).c := by
  have f := nicAct_frame s x
  rcases nicAct_masks s x with m | ⟨hp, hims, hp'⟩
  · exact (OpFrame.of_nic f).syncOk m h
  · have hc := f.c
    generalize (nicAct s x).c = d at *
    rw [syncOk_iff] at h ⊢
    refine h.imp (fun k => by rw [hc]; exact k) fun ⟨hr, hm⟩ => ⟨?_, ?_⟩
    · exact ⟨by rw [hc]; exact hr.faulted, fun k => absurd k hp', by rw [hc]; exact hr.slu⟩
    · have him : s.c.im = 0#32 := hm.zero <| (hr.pending hp).imp_right fun k => k.imp_right
        LcCtl.attachLine_or_maskZero_of_resetMayPend
      exact .of_zero (by rw [hc]; exact him) hims (by rw [hc]; exact hm.work_eq_zero him)

/-! ## A step -/

theorem decodeTx_format {w : Word} (h : decodeTx w = .ok i) : i.format = .txCtrl := by
  unfold decodeTx at h
  split at h
  · cases h; rfl
  · cases h; rfl
  · cases h; rfl
  · split at h <;> cases h; rfl

/-- A word of another interface spells no register transaction. -/
theorem decodeWith_not_mmio {m : RegMap} {f : Format} {bs : List Byte} (h : decodeWith m f bs = .ok i) (hf : f ≠ .mmio) :
    i.format ≠ .mmio := by
  suffices hi : i.format = f from hi ▸ hf
  unfold decodeWith at h
  split at h
  · cases h
  · cases f with
    | mmio => exact absurd rfl hf
    | hostCmd => cases h; exact (decodeCmd_spec m _).1
    | rxDesc => cases h; rfl
    | txCtrl => exact decodeTx_format h
    | icr =>
      obtain ⟨q, -, rfl⟩ := decodeCause_ok_iff.mp h
      exact format_causeInstr q _

/-- Every step but a register transaction of the host's. -/
theorem step_syncOk (h : step s = .next t) (hw : ∀ (w : PortWord) (ws : List PortWord), s.port = w :: ws → w.fmt ≠ .mmio)
    (hs : ∀ c ∈ s.ctlrs, startOk c ∧ locksOk c ∧ syncOk c) : ∀ c ∈ t.ctlrs, syncOk c := by
  obtain ⟨hst, hl, hc⟩ := hs s.c (selected_mem s)
  have all : ∀ {v : State}, v.others = s.others → syncOk v.c → ∀ c ∈ v.ctlrs, syncOk c := fun ho hv c hm =>
    (mem_ctlrs.mp hm).elim (fun e => e ▸ hv) fun hm => (hs c (other_mem (ho ▸ hm))).2.2
  rcases step_next h with ⟨w, ws, i, hp, hd, he⟩ | ⟨e, u, -, he, hu⟩
  · have ho : t.others = s.others := exec_others (s := { s with port := ws }) he
    by_cases hf : i.format = .hostCmd
    · exact all ho (exec_cmd_syncOk hf he hst hc)
    · exact all ho ((exec_frame hf he).syncOk (exec_regsCalm hf (decodeWith_not_mmio hd (hw w ws hp)) he) hc)
  · obtain ⟨hcu, hou⟩ : u.c = s.c ∧ u.others = s.others := by
      rcases hu with ⟨es, -, rfl⟩ | ⟨-, -, rfl⟩ <;> exact ⟨rfl, rfl⟩
    rw [← hcu] at hst hl hc
    have hall : ∀ c ∈ u.ctlrs, syncOk c := all hou hc
    rcases eventAct_next he with ⟨a, n, -, hg | rfl⟩ | ⟨x, -, rfl⟩ | ⟨x, -, hx⟩ | ⟨k, -, rfl⟩ | ⟨p, y, z, -, hd⟩
    · exact all ((agentStep_kept hg).others.trans hou) (agentStep_syncOk hg hst hl hc)
    · exact hall
    · exact all ((nicAct_frame u x).others.trans hou) (nicAct_syncOk x hc)
    · obtain ⟨ho, -, hc'⟩ := hostAct_next hx
      refine all (ho.trans hou) ?_
      rcases hc' with e | ⟨b, e⟩ <;> rw [e] <;> exact hc
    · exact fun c hm => hall c (mem_selectCtlr hm)
    · obtain ⟨-, rfl⟩ := launch_next hd
      intro c hm
      rcases mem_discoverCtlr hm with hm | rfl
      · exact hall c hm
      · exact discovery_syncOk _ p y z

/-! ## What it says where `mlock` is free, and after a failed ATTACH -/

theorem syncOk.hwIms_eq (hl : locksOk c) (h : syncOk c) (hm : c.mlock = none) (hb : c.beforeMask = false)
    (hlate : c.resetLate = false) : c.regs.hwIms = c.im := by
  have out : ∀ a, inMlock c a = false := fun a => Bool.eq_false_iff.mpr fun k => by
    have := hl.1 a k
    rw [hm] at this; cases this
  obtain ⟨-, k⟩ := (syncOk_iff.mp h).resolve_left (by rw [hlate]; nofun)
  refine k.same hb (Bool.eq_false_iff.mpr fun e => ?_) fun a => Bool.eq_false_iff.mpr fun e => ?_
  · have := inMlock_of_masked e
    rw [out] at this; cases this
  · have := inMlock_of_arming e
    rw [out] at this; cases this

theorem syncOk.failedAttach (hs : startOk c) (h : syncOk c) (hl : c.lc = .faulted) (hr : c.rxw.ctl = .notStarted) :
    c.im = 0#32 ∧ c.regs.hwIms = 0#32 := by
  have att : c.lcCtl.attachLine ≠ true := fun e => by
    have := (hs.attach e).1
    rw [hl] at this; cases this
  have hlate : ¬ c.resetLate = true := fun k => by
    rcases resetLate_iff.mp k with ⟨-, e⟩ | e
    · exact e hr
    · have := hs.shutdown (by rw [e]; rfl)
      rw [hl] at this; cases this
  obtain ⟨-, k⟩ := (syncOk_iff.mp h).resolve_left hlate
  have him := k.zero (.inr (.inl hl))
  have hb : c.beforeMask = false :=
    beforeMask_eq_false.mpr ⟨by rw [hl]; nofun, fun e => att (by rw [e]; rfl), fun e => att (by rw [e]; rfl)⟩
  have hin := k.inside hb
  rw [him, BitVec.not_zero, BitVec.and_allOnes] at hin
  exact ⟨him, hin⟩

/-- Settles O13: the mask and HwIMS move together, line by line, and a reset completes only where both may be 0. -/
theorem stepKeepsMaskAgreement : Obligations.StepKeepsMaskAgreement :=
  ⟨fun _ _ => step_syncOk, fun _ hl h => h.hwIms_eq hl, fun _ hs h => h.failedAttach hs⟩

end Sys2Proof.Machine
end

section
/-! SUPPORT. Causes, the dispatcher's loop, and its whole run (42_interrupt_demux.md R270-R277; O35, O36, O37). -/

namespace Sys2Proof.Machine

variable {s u : State} {v m w : Word} {d n : Nat}

/-! ## Causes (R431, R270) -/

theorem hasBits_iff : hasBits v m = true ↔ v &&& m ≠ 0#32 := bne_iff_ne

theorem exec_causeInstr (s : State) (q : Cause) (w : Word) :
    exec (causeInstr q w) s = .next (takeInterrupt (latch s w)) := by
  cases q <;> rfl

theorem takeInterrupt_eq (s : State) : takeInterrupt s = { s with c := { s.c with disp := { s.c.disp with
    ctl := if s.c.regs.icr &&& s.c.regs.hwIms ≠ 0#32 ∧ s.c.disp.ctl = .idle then .q1 else s.c.disp.ctl } } } := by
  have ht : (lineAsserted s.c.regs && s.c.disp.ctl == .idle) = true ↔
      s.c.regs.icr &&& s.c.regs.hwIms ≠ 0#32 ∧ s.c.disp.ctl = .idle := by
    rw [Bool.and_eq_true, beq_iff_eq, lineAsserted, hasBits_iff]
  unfold takeInterrupt
  by_cases h : s.c.regs.icr &&& s.c.regs.hwIms ≠ 0#32 ∧ s.c.disp.ctl = .idle
  · rw [if_pos (ht.mpr h), if_pos h]
    rfl
  · rw [if_neg (mt ht.mp h), if_neg h]

/-- Settles O35: a cause row latches its word and offers the line to `DISP`. -/
theorem causesLatchAndStartDispatcher : Obligations.CausesLatchAndStartDispatcher := by
  intro s q w
  rw [exec_causeInstr, takeInterrupt_eq]
  rfl

/-! ## The lines of the loop (R273, R274) -/

theorem agentStep_l1 (hc : s.c.disp.ctl = .l1) : agentStep .disp d s = .go (dispRead s) := by
  simp only [agentStep, dispStep, hc]

theorem agentStep_l3 (hc : s.c.disp.ctl = .l3) : agentStep .disp d s = .go (handleLink s) := by
  simp only [agentStep, dispStep, hc]

theorem agentStep_l4 (hc : s.c.disp.ctl = .l4) : agentStep .disp d s = .go (handleRx s) := by
  simp only [agentStep, dispStep, hc]

theorem agentStep_l5 (hc : s.c.disp.ctl = .l5) : agentStep .disp d s = .go (handleTx s) := by
  simp only [agentStep, dispStep, hc]

/-- The loop ends exactly when nothing enabled was read. -/
theorem dispFromL2_eq_x1 : dispFromL2 v = .x1 ↔ v = 0#32 := by
  unfold dispFromL2 dispFromL3
  by_cases h : v = 0#32
  · simp only [h, if_true]
  · rw [if_neg h]
    refine iff_of_false ?_ h
    split
    · nofun
    · rcases dispFromL4_cases v with e | e | e <;> rw [e] <;> nofun

/-! ## The three classes after a read -/

/-- The bits of a class, where one of them was read. -/
def classRead (v m : Word) : Word := if hasBits v m then m else 0#32

theorem signalled_eq (v : Word) :
    signalled v = classRead v linkClass ||| classRead v rxClass ||| classRead v txClass := rfl

theorem classRead_eq : classRead v m = if v &&& m ≠ 0#32 then m else 0#32 := by
  simp only [classRead, hasBits_iff]

/-- From line L3's test to line L4's. -/
def linkTested (s : State) : State := { s with c := { s.c with
  lim := s.c.lim ||| (s.c.disp.icr &&& linkClass)
  disp := { s.c.disp with
    ctl := dispFromL4 s.c.disp.icr, work := s.c.disp.work &&& ~~~classRead s.c.disp.icr linkClass } } }

/-- From line L4's test to line L5's. -/
def rxTested (s : State) : State := { s with c := { s.c with
  rim := s.c.rim ||| (s.c.disp.icr &&& rxClass)
  disp := { s.c.disp with
    ctl := dispFromL5 s.c.disp.icr, work := s.c.disp.work &&& ~~~classRead s.c.disp.icr rxClass } } }

/-- From line L5's test to line L1. -/
def txTested (s : State) : State := { s with c := { s.c with
  tsig := s.c.tsig || hasBits s.c.disp.icr txClass
  disp := { s.c.disp with ctl := .l1, work := s.c.disp.work &&& ~~~classRead s.c.disp.icr txClass } } }

/-- A class that was not read has no bits, and nothing leaves the working mask. -/
theorem classRead_of_not (h : ¬ hasBits v m = true) (x : Word) : v &&& m = 0#32 ∧ x &&& ~~~classRead v m = x := by
  refine ⟨not_not.mp (mt hasBits_iff.mpr h), ?_⟩
  rw [classRead, if_neg h, BitVec.not_zero, BitVec.and_allOnes]

theorem turn_link (d : Nat) (h : s.c.disp.ctl = dispFromL3 s.c.disp.icr) :
    ∃ k ≤ 1, ∀ n, turn .disp d (n + k) s = turn .disp d n (linkTested s) := by
  by_cases hb : hasBits s.c.disp.icr linkClass = true
  · refine ⟨1, le_rfl, fun n => turn_go ((agentStep_l3 (h.trans (if_pos hb))).trans ?_)⟩
    simp only [handleLink, State.modC, linkTested, classRead, if_pos hb]
  · obtain ⟨hz, hw⟩ := classRead_of_not hb s.c.disp.work
    refine ⟨0, Nat.zero_le 1, fun n => congrArg (turn .disp d n) ?_⟩
    rw [linkTested, hz, hw, BitVec.or_zero, ← h.trans (if_neg hb)]

theorem turn_rx (d : Nat) (h : s.c.disp.ctl = dispFromL4 s.c.disp.icr) :
    ∃ k ≤ 1, ∀ n, turn .disp d (n + k) s = turn .disp d n (rxTested s) := by
  by_cases hb : hasBits s.c.disp.icr rxClass = true
  · refine ⟨1, le_rfl, fun n => turn_go ((agentStep_l4 (h.trans (if_pos hb))).trans ?_)⟩
    simp only [handleRx, State.modC, rxTested, classRead, if_pos hb]
  · obtain ⟨hz, hw⟩ := classRead_of_not hb s.c.disp.work
    refine ⟨0, Nat.zero_le 1, fun n => congrArg (turn .disp d n) ?_⟩
    rw [rxTested, hz, hw, BitVec.or_zero, ← h.trans (if_neg hb)]

theorem turn_tx (d : Nat) (h : s.c.disp.ctl = dispFromL5 s.c.disp.icr) :
    ∃ k ≤ 1, ∀ n, turn .disp d (n + k) s = turn .disp d n (txTested s) := by
  by_cases hb : hasBits s.c.disp.icr txClass = true
  · refine ⟨1, le_rfl, fun n => turn_go ((agentStep_l5 (h.trans (if_pos hb))).trans ?_)⟩
    simp only [handleTx, State.modC, txTested, classRead, hb, if_true, Bool.or_true]
  · obtain ⟨-, hw⟩ := classRead_of_not hb s.c.disp.work
    refine ⟨0, Nat.zero_le 1, fun n => congrArg (turn .disp d n) ?_⟩
    rw [txTested, hw, Bool.eq_false_iff.mpr hb, Bool.or_false, ← h.trans (if_neg hb)]

/-- Every class that was read handled, `DISP` back at line L1. -/
def classesHandled (s : State) : State := { s with c := { s.c with
  lim := s.c.lim ||| (s.c.disp.icr &&& linkClass)
  rim := s.c.rim ||| (s.c.disp.icr &&& rxClass)
  tsig := s.c.tsig || hasBits s.c.disp.icr txClass
  disp := { s.c.disp with ctl := .l1, work := s.c.disp.work &&& ~~~signalled s.c.disp.icr } } }

theorem txTested_rxTested_linkTested (s : State) : txTested (rxTested (linkTested s)) = classesHandled s := by
  simp only [txTested, rxTested, linkTested, classesHandled, signalled_eq, BitVec.not_or, BitVec.and_assoc]

/-- Lines L3 to L5, whichever of them the read calls for. -/
theorem turn_classes (d : Nat) (h : s.c.disp.ctl = dispFromL3 s.c.disp.icr) :
    ∃ k ≤ 3, ∀ n, turn .disp d (n + k) s = turn .disp d n (classesHandled s) := by
  obtain ⟨k₁, h₁, e₁⟩ := turn_link d h
  obtain ⟨k₂, h₂, e₂⟩ := turn_rx (s := linkTested s) d rfl
  obtain ⟨k₃, h₃, e₃⟩ := turn_tx (s := rxTested (linkTested s)) d rfl
  refine ⟨k₃ + k₂ + k₁, by omega, fun n => ?_⟩
  rw [← Nat.add_assoc, ← Nat.add_assoc, e₁, e₂, e₃, txTested_rxTested_linkTested]

/-- Settles O36: line L1's read, and the lines of the classes that were read. -/
theorem dispatcherReadsAndHandlesEachClass : Obligations.DispatcherReadsAndHandlesEachClass := by
  refine ⟨fun s d hc => ⟨dispRead s, agentStep_l1 hc, ?_⟩, fun s d icr hicr _ hne hc => ?_⟩
  · rw [dispRead_eq]
    exact ⟨rfl, rfl, dispFromL2_eq_x1, rfl⟩
  · subst hicr
    obtain ⟨k, hk, e⟩ := turn_classes d (hc.trans (if_neg hne))
    refine ⟨k, hk, ?_⟩
    rw [← Nat.zero_add k, e 0, turn, classesHandled, signalled_eq, classRead_eq, classRead_eq, classRead_eq]
    rfl

/-! ## A whole run (R271, R276, R277) -/

/-- Lines Q1 to Q3: `mlock` taken, IMC written, the mask copied and ICR read. -/
def dispEntered (s : State) : State := { s with c := { s.c with
  mlock := some .disp
  regs := { s.c.regs with icr := 0#32, hwIms := 0#32 }
  disp := { ctl := dispFromL2 (s.c.regs.icr &&& s.c.im), imEntry := s.c.im, work := s.c.im
            icr := s.c.regs.icr &&& s.c.im }
  trace := s.c.trace ++ [.mmioW .imc 0xFFFFFFFF#32, .mmioR .icr s.c.regs.icr] } }

/-- Lines X1 to X3: the working mask stored and written to IMS, `mlock` released. -/
def dispLeft (s : State) : State := { s with c := { s.c with
  mlock := none
  im := s.c.disp.work
  regs := { s.c.regs with hwIms := s.c.regs.hwIms ||| s.c.disp.work }
  disp := { s.c.disp with ctl := .idle }
  trace := s.c.trace ++ [.mmioW .ims s.c.disp.work] } }

/-- Where HwIMS is 0, the run leaves it equal to the mask. -/
theorem dispLeft_regs (h : s.c.regs.hwIms = 0#32) :
    (dispLeft s).c.regs = { s.c.regs with hwIms := (dispLeft s).c.im } := by
  simp only [dispLeft, h, BitVec.zero_or]

theorem mmioWrite_ims (s : State) (v : Word) : mmioWrite s .ims v = { s with c := { s.c with
    regs := { s.c.regs with hwIms := s.c.regs.hwIms ||| v }, trace := s.c.trace ++ [.mmioW .ims v] } } := by
  simp only [mmioWrite, State.modC, State.emit, regWrite, devAfterWrite]

theorem mmioWrite_imc_all (s : State) : mmioWrite s .imc 0xFFFFFFFF#32 = { s with c := { s.c with
    regs := { s.c.regs with hwIms := 0#32 }, trace := s.c.trace ++ [.mmioW .imc 0xFFFFFFFF#32] } } := by
  simp only [mmioWrite, State.modC, State.emit, regWrite, devAfterWrite, and_not_allOnes]

/-! ### The lines outside the loop -/

theorem agentStep_dispIdle (hc : s.c.disp.ctl = .idle) (hi : s.c.regs.icr &&& s.c.regs.hwIms ≠ 0#32) :
    agentStep .disp d s = .go (setDisp s fun x => { x with ctl := .q1 }) := by
  simp only [agentStep, dispStep, hc, lineAsserted, hasBits_iff.mpr hi, if_true, takeInterrupt_eq, setDisp, State.modC]
  rw [if_pos ⟨hi, trivial⟩]

theorem agentStep_q1 (hc : s.c.disp.ctl = .q1) (hl : s.c.mlock = none) : agentStep .disp d s =
    .go (setDisp (s.modC fun c => { c with mlock := some .disp }) fun x => { x with ctl := .q2 }) := by
  simp only [agentStep, dispStep, hc, acquireM_of_free hl]

theorem agentStep_q2 (hc : s.c.disp.ctl = .q2) : agentStep .disp d s =
    .go (setDisp (mmioWrite s .imc 0xFFFFFFFF#32) fun x => { x with ctl := .q3 }) := by
  simp only [agentStep, dispStep, hc]

theorem agentStep_q3 (hc : s.c.disp.ctl = .q3) : agentStep .disp d s =
    .go (dispRead (setDisp s fun x => { x with imEntry := s.c.im, work := s.c.im })) := by
  simp only [agentStep, dispStep, hc]

theorem agentStep_x1 (hc : s.c.disp.ctl = .x1) : agentStep .disp d s =
    .go (s.modC fun c => { c with im := c.disp.work, disp := { c.disp with ctl := .x2 } }) := by
  simp only [agentStep, dispStep, hc]

theorem agentStep_x2 (hc : s.c.disp.ctl = .x2) : agentStep .disp d s =
    .go (setDisp (mmioWrite s .ims s.c.disp.work) fun x => { x with ctl := .x3 }) := by
  simp only [agentStep, dispStep, hc]

theorem agentStep_x3 (hc : s.c.disp.ctl = .x3) : agentStep .disp d s = .go (returnFromInterrupt s) := by
  simp only [agentStep, dispStep, hc]

theorem turn_enter (hc : s.c.disp.ctl = .idle) (hl : s.c.mlock = none) (hi : s.c.regs.icr &&& s.c.regs.hwIms ≠ 0#32) :
    turn .disp d (n + 4) s = turn .disp d n (dispEntered s) := by
  rw [turn_go (agentStep_dispIdle hc hi), turn_go (agentStep_q1 (s := setDisp s _) rfl hl), turn_go (agentStep_q2 rfl),
    turn_go (agentStep_q3 rfl), dispRead_eq, mmioWrite_imc_all]
  simp only [setDisp, State.modC, dispEntered, List.append_assoc, List.cons_append, List.nil_append]

theorem turn_leave (hc : s.c.disp.ctl = .x1) : turn .disp d (n + 3) s = turn .disp d n (dispLeft s) := by
  rw [turn_go (agentStep_x1 hc), turn_go (agentStep_x2 rfl), turn_go (agentStep_x3 rfl), mmioWrite_ims]
  rfl

theorem turn_idle (hc : s.c.disp.ctl = .idle) (hi : s.c.regs.icr = 0#32) : turn .disp d n s = s := by
  refine turn_blocked ?_ n
  simp only [agentStep, dispStep, hc, lineAsserted, hasBits, hi, BitVec.zero_and, bne_self_eq_false, Bool.false_eq_true,
    if_false]

/-! ### The loop -/

/-- The loop's end, every class that was read handled; `tr` is the trace. -/
def loopEnded (s : State) (tr : List TraceEv) : State := { s with c := { (classesHandled s).c with
  disp := { (classesHandled s).c.disp with ctl := .x1, icr := 0#32 }, trace := tr } }

theorem signalled_zero : signalled 0#32 = 0#32 := by decide

/-- A read that showed nothing enabled ends the loop. -/
theorem loopEnded_of_zero (hc : s.c.disp.ctl = .x1) (hz : s.c.disp.icr = 0#32) : loopEnded s s.c.trace = s := by
  have htx : hasBits 0#32 txClass = false := by decide
  simp only [loopEnded, classesHandled, hz, signalled_zero, htx, BitVec.zero_and, BitVec.or_zero, BitVec.not_zero,
    BitVec.and_allOnes, Bool.or_false]
  rw [← hc, ← hz]

/-- The read after a round ends the loop, nothing having been latched. -/
theorem dispRead_classesHandled (hi : s.c.regs.icr = 0#32) :
    dispRead (classesHandled s) = loopEnded s (s.c.trace ++ [.mmioR .icr 0#32]) := by
  have hr : { s.c.regs with icr := 0#32 } = s.c.regs := by rw [← hi]
  rw [dispRead_eq]
  simp only [classesHandled, loopEnded, hi, hr, BitVec.zero_and, dispFromL2_eq_x1.mpr rfl]

/-- The loop with no cause arriving meanwhile: at most one round, and one read more. -/
theorem turn_dispLoop (d : Nat) (hc : s.c.disp.ctl = dispFromL2 s.c.disp.icr) (hi : s.c.regs.icr = 0#32) :
    ∃ k ≤ 4, ∃ tr, ∀ n, turn .disp d (n + k) s = turn .disp d n (loopEnded s tr) := by
  by_cases hz : s.c.disp.icr = 0#32
  · refine ⟨0, Nat.zero_le 4, s.c.trace, fun n => ?_⟩
    rw [loopEnded_of_zero (hc.trans (dispFromL2_eq_x1.mpr hz)) hz, Nat.add_zero]
  · obtain ⟨k, hk, e⟩ := turn_classes d (hc.trans (if_neg hz))
    refine ⟨k + 1, by omega, s.c.trace ++ [.mmioR .icr 0#32], fun n => ?_⟩
    rw [Nat.add_comm k, ← Nat.add_assoc, e, turn_go (agentStep_l1 rfl), dispRead_classesHandled hi]

/-- Settles O37: lines Q1 to Q3, the loop, and lines X1 to X3, eleven steps at most. -/
theorem dispatcherRunMasksSignalledClasses : Obligations.DispatcherRunMasksSignalledClasses := by
  intro s d e _ hc hl hi he
  obtain ⟨k, hk, tr, hloop⟩ := turn_dispLoop (s := dispEntered s) d rfl rfl
  have hturn : turn .disp d 11 s = dispLeft (loopEnded (dispEntered s) tr) := by
    rw [turn_enter (n := 7) hc hl hi, show 7 = (4 - k + 3) + k by omega, hloop, turn_leave rfl]
    exact turn_idle rfl rfl
  refine ⟨_, hturn, ?_⟩
  subst he
  rw [← classRead_eq, ← classRead_eq, ← classRead_eq]
  refine ⟨rfl, dispLeft_regs rfl, rfl, rfl, rfl, rfl, ?_⟩
  simp only [hl]
  rfl

end Sys2Proof.Machine
end

section
/-! SUPPORT. The pool: BUF_FREE (R382, O25), and what a pop takes and a push gives back (R301-R303, R307, O59). -/

namespace Sys2Proof.Machine

variable {s t : State} {b x : BufId} {r : Buf} {o : Owner} {d : Nat} {n : BitVec 32}

/-! ## BUF_FREE -/

theorem bufFreeOk_iff : bufFreeOk s n = true ↔ n.toNat < s.pool.npool ∧ hostOwns s n.toNat = true := by
  rw [bufFreeOk, Bool.and_eq_true, decide_eq_true_iff]

theorem exec_bufFree_ok (hn : n.toNat < s.pool.npool) (ho : hostOwns s n.toNat = true) :
    exec (.bufFree n) s = .next (replyOnly (poolPush s n.toNat) (.bufFree n) .ok) :=
  if_pos (bufFreeOk_iff.mpr ⟨hn, ho⟩)

theorem exec_bufFree_badArgument (h : n.toNat < s.pool.npool → hostOwns s n.toNat = false) :
    exec (.bufFree n) s = .next (replyOnly s (.bufFree n) .badArgument) := by
  refine if_neg fun k => ?_
  obtain ⟨hn, ho⟩ := bufFreeOk_iff.mp k
  exact Bool.false_ne_true ((h hn).symm.trans ho)

/-- Settles O25: the test of R382 passes and the buffer is pushed, or it fails and only the answer is written. -/
theorem bufFreeReturnsDeliveredBuffer : Obligations.BufFreeReturnsDeliveredBuffer := by
  refine fun s n => ⟨fun r hn hr ho hq => ?_, fun h => exec_bufFree_badArgument fun hn => ?_⟩
  · exact ⟨_, exec_bufFree_ok hn (hostOwns_of_owner hr ho hq), rfl, buf?_modBuf_same hr,
      fun x hx => buf?_modBuf_of_ne hx, rfl⟩
  · exact hostOwns_eq_false (h.resolve_left (Nat.not_le.mpr hn))

/-! ## Pops and pushes -/

/-- A pop takes the free buffer at the draw. -/
theorem poolPop_eq_some_iff : poolPop s d o = some (b, t) ↔ s.free[d % s.free.length]? = some b ∧
    t = ({ s with free := s.free.eraseIdx (d % s.free.length), plock := none }).modBuf b (Buf.setOwner o) := by
  unfold poolPop
  cases s.free[d % s.free.length]? with
  | none => simp
  | some y =>
    simp only [Option.some.injEq, Prod.mk.injEq]
    constructor
    · rintro ⟨rfl, rfl⟩
      exact ⟨rfl, rfl⟩
    · rintro ⟨rfl, rfl⟩
      exact ⟨rfl, rfl⟩

theorem poolPop_free_perm (h : poolPop s d o = some (b, t)) : s.free.Perm (b :: t.free) := by
  obtain ⟨hget, rfl⟩ := poolPop_eq_some_iff.mp h
  obtain ⟨hlt, rfl⟩ := List.getElem?_eq_some_iff.mp hget
  exact (List.getElem_cons_eraseIdx_perm hlt).symm

/-- The draw 0 after a push takes the pushed buffer. -/
theorem poolPush_free_draw_zero (s : State) (b : BufId) :
    (poolPush s b).free[0 % (poolPush s b).free.length]? = some b := by
  rw [Nat.zero_mod, poolPush_free, List.getElem?_cons_zero]

theorem poolPush_free_eraseIdx_draw_zero (s : State) (b : BufId) :
    (poolPush s b).free.eraseIdx (0 % (poolPush s b).free.length) = s.free := by
  rw [Nat.zero_mod, poolPush_free, List.eraseIdx_zero, List.tail_cons]

/-- The top of the reference order is popped with the draw 0 (log 8). -/
theorem poolPop_poolPush (s : State) (b : BufId) (o : Owner) :
    ∃ t, poolPop (poolPush s b) 0 o = some (b, t) ∧ t.free = s.free :=
  ⟨_, poolPop_eq_some_iff.mpr ⟨poolPush_free_draw_zero s b, rfl⟩, poolPush_free_eraseIdx_draw_zero s b⟩

/-- Lines R3 and R5 of a replenish: the buffer at the draw goes to the slot at the tail and is reset. -/
theorem turn_pop_reset {q : RepCaller} (h : q.line s.c = some .r3) (hb : s.free[d % s.free.length]? = some b) :
    turn q.agent d 2 s = q.goto (.r6 b) (slotFilled s d b (slotBuf s.c) s.mem) := by
  rw [turn_r3 h hb, turn_goto_r5, turn]
  simp only [State.modBuf, slotFilled, bufMod_bufMod, slotBuf]

/-- Settles O59: the pop and the push as they stand, and lines R3 and R5 behind a push. -/
theorem poolPopAndPushMoveOneBuffer : Obligations.PoolPopAndPushMoveOneBuffer := by
  refine ⟨fun s d o b => ⟨poolPop_none, fun t r hp hb => ?_, poolPop_poolPush s b o⟩, fun _ => rfl,
    fun s b r i hb hc hi => ?_⟩
  · have hperm := poolPop_free_perm hp
    obtain ⟨-, rfl⟩ := poolPop_some hp
    exact ⟨hperm, buf?_modBuf_same hb, fun x hx => buf?_modBuf_of_ne hx, rfl⟩
  · subst hi
    have hline : RepCaller.harvest.line (poolPush s b).c = some .r3 := by simp only [RepCaller.line, poolPush_c, hc]
    have hpush : (poolPush s b).buf? b = some (Buf.setOwner .pool r) := buf?_modBuf_same hb
    refine ⟨_, turn_pop_reset hline (poolPush_free_draw_zero s b), ?_, ?_⟩
    · have hslot : _ = some (slotBuf s.c (Buf.setOwner .pool r)) := buf?_modBuf_same hpush
      exact (goto_buf? _).trans hslot
    · exact (goto_free _).trans (poolPush_free_eraseIdx_draw_zero s b)

end Sys2Proof.Machine
end

section
/-! SUPPORT. The register lines of `LC` (R330-R335, R377): read-modify-writes, one counted read (R323), and the plain
lines of ATTACH (O51, O57). -/

namespace Sys2Proof.Machine

variable {s : State} {d i n : Nat} {p : PollId} {w : Rmw} {r : FaultRec} {g : NicRegs}

/-! ## Bits of a word -/

/-- The test of a mask of one bit. -/
theorem hasBits_twoPow (v : Word) (i : Fin 32) : hasBits v (BitVec.twoPow 32 i) = v.getLsbD i := by
  have hne : BitVec.twoPow 32 i.val ≠ 0#32 := by
    revert i
    decide
  rw [hasBits, BitVec.and_twoPow]
  cases v.getLsbD i.val with
  | false => rfl
  | true => exact bne_iff_ne.mpr hne

/-- Bits put back from the old value are there already. -/
theorem or_or_and_same (v b m : Word) : (v ||| b) ||| (v &&& m) = v ||| b := by
  ext i hi
  simp only [BitVec.getElem_or, BitVec.getElem_and]
  cases v[i] <;> simp

/-! ## Read-modify-write (lines A5, A7, A8, Z5) -/

/-- The registers after the write: the bit is set, a pending reset stays pending. -/
def Rmw.apply (g : NicRegs) : Rmw → NicRegs
  | .a5 | .z5 => { g with ctrl := g.ctrl ||| ctrlRst }
  | .a7 => { g with ctrl := g.ctrl ||| ctrlSlu }
  | .a8 => { g with ctrlExt := g.ctrlExt ||| ctrlExtEeRst }

theorem regWrite_rmw (l : EerdLayout) (g : NicRegs) (w : Rmw) :
    regWrite l g w.reg (regRead g w.reg ||| w.bit) = w.apply g := by
  cases w with
  | a5 | a7 | z5 => exact congrArg (fun x => { g with ctrl := x }) (or_or_and_same ..)
  | a8 => exact congrArg (fun x => { g with ctrlExt := x }) (or_or_and_same ..)

/-- CTRL and CTRL_EXT have no read side effect. -/
theorem regAfterRead_rmw (g : NicRegs) (w : Rmw) : regAfterRead g w.reg = g := by cases w <;> rfl

theorem devAfterWrite_rmw (x : Device) (w : Rmw) (v : Word) : devAfterWrite x w.reg v = x := by cases w <;> rfl

/-- After the read and the write of a read-modify-write. -/
def rmwDone (s : State) (w : Rmw) : State :=
  { s with c := { s.c with
      lcCtl := w.next
      regs := w.apply s.c.regs
      trace := s.c.trace ++ [.mmioR w.reg (regRead s.c.regs w.reg), .mmioW w.reg (regRead s.c.regs w.reg ||| w.bit)] } }

theorem agentStep_rmwR (hc : s.c.lcCtl = .rmwR w) : agentStep .lc d s =
    .go (lcJump (.rmwW w (regRead s.c.regs w.reg ||| w.bit)) (mmioRead s w.reg).2) := by
  simp only [agentStep, lcStep, hc, mmioRead_value]

theorem turn_rmw (hc : s.c.lcCtl = .rmwR w) (n : Nat) : turn .lc d (n + 2) s = turn .lc d n (rmwDone s w) := by
  rw [turn_go (agentStep_rmwR hc), turn_go rfl]
  simp only [rmwDone, lcJump, mmioRead, mmioWrite, State.modRegs, State.modC, State.emit, regAfterRead_rmw,
    regWrite_rmw, devAfterWrite_rmw, List.append_assoc, List.cons_append, List.nil_append]

/-! ## One counted read (R323, lines A6, A9, A10, Z6) -/

theorem agentStep_pollR (hc : s.c.lcCtl = .pollR p i) : agentStep .lc d s = .go (pollStep s p i) := by
  simp only [agentStep, lcStep, hc]

theorem pollStep_succeeds (h : p.cond (regRead s.c.regs p.reg) = true) :
    pollStep s p i = lcJump p.ok (mmioRead s p.reg).2 := by
  simp only [pollStep, mmioRead_value, h, if_true]

theorem pollStep_continues (h : p.cond (regRead s.c.regs p.reg) = false) (hi : i < p.ceil s.c.cfg) :
    pollStep s p i = lcJump (.pollD p i) (mmioRead s p.reg).2 := by
  simp only [pollStep, mmioRead_value, h, if_neg (Nat.not_le.mpr hi), Bool.false_eq_true, if_false]

theorem pollStep_fails (h : p.cond (regRead s.c.regs p.reg) = false) (hi : p.ceil s.c.cfg ≤ i) :
    pollStep s p i = lcJump p.fail (mmioRead s p.reg).2 := by
  simp only [pollStep, mmioRead_value, h, if_pos hi, Bool.false_eq_true, if_false]

theorem turn_pollD (hc : s.c.lcCtl = .pollD p i) (n : Nat) :
    turn .lc d (n + 1) s = turn .lc d n (lcJump (.pollR p (i + 1)) s) :=
  turn_go (by simp only [agentStep, lcStep, hc])

/-- A fatal outcome (R322). -/
theorem turn_fatal (hc : s.c.lcCtl = .fatal r) (n : Nat) :
    turn .lc d (n + 1) s = turn .lc d n { s with c := { s.c with
      lc := .faulted
      lcCtl := .idle
      lastError := some r
      fault := s.c.fault ++ [r]
      trace := s.c.trace ++ [.cmd s.c.lcCmd r.kind] } } :=
  turn_go (by
    simp only [agentStep, lcStep, hc]
    rfl)

/-- The read of a poll, in the words of R323, R333, R336: ICR is cleared by it. -/
theorem mmioRead_poll (s : State) (p : PollId) : (mmioRead s p.reg).2 = { s with c := { s.c with
    regs := if p = .a10 then { s.c.regs with icr := 0#32 } else s.c.regs
    trace := s.c.trace ++ [.mmioR p.reg (regRead s.c.regs p.reg)] } } := by
  cases p <;> rfl

/-- Settles O51: the condition, the ceiling and the two ends of each poll, then the three outcomes of a read. -/
theorem boundedPollsSucceedOrTimeOut : Obligations.BoundedPollsSucceedOrTimeOut := by
  unfold Obligations.BoundedPollsSucceedOrTimeOut
  intro s d i ceil p v good next info hc hv h
  obtain ⟨hcond, hceil, hok, hz, hfatal⟩ : p.cond v = good ∧ p.ceil s.c.cfg = ceil ∧ p.ok = next
      ∧ (p = .z6 → p.fail = .z7 false) ∧ (p ≠ .z6 → p.fail = .fatal (hwTimeout info)) := by
    have hrst : hasBits v ctrlRst = v.getLsbD 26 := hasBits_twoPow v 26
    have hee : hasBits v ctrlExtEeRst = v.getLsbD 13 := hasBits_twoPow v 13
    rcases h with ⟨rfl, rfl, rfl, rfl, rfl⟩ | ⟨rfl, rfl, rfl, rfl, rfl⟩ | ⟨rfl, rfl, rfl, rfl, rfl⟩ |
      ⟨rfl, rfl, rfl, rfl, rfl⟩
    · exact ⟨congrArg not hrst, rfl, rfl, nofun, fun _ => rfl⟩
    · exact ⟨congrArg not hee, rfl, rfl, nofun, fun _ => rfl⟩
    · exact ⟨rfl, rfl, rfl, nofun, fun _ => rfl⟩
    · exact ⟨congrArg not hrst, rfl, rfl, fun _ => rfl, fun k => absurd rfl k⟩
  subst hv hceil hok hcond
  refine ⟨(mmioRead s p.reg).2, mmioRead_poll s p, by cases p <;> rfl, fun hg => ?_, fun hg hi => ?_,
    fun hg hi hp => ?_, fun hg hi hp => ?_⟩
  · rw [agentStep_pollR hc, pollStep_succeeds hg]
  · rw [turn_go (agentStep_pollR hc), pollStep_continues hg hi, turn_pollD rfl]
    rfl
  · rw [agentStep_pollR hc, pollStep_fails hg hi, hz hp]
  · rw [turn_go (agentStep_pollR hc), pollStep_fails hg hi, hfatal hp, turn_fatal rfl]
    rfl

/-! ## The plain lines of ATTACH -/

/-- Line A1 (R330). -/
theorem agentStep_a1 {v : Word} (hc : s.c.lcCtl = .a1) (ht : s.c.cfg.variant.pbaThreshold < s.pool.rbsize)
    (hv : s.c.cfg.variant.pbaRebalance = some v) :
    agentStep .lc d s = .go { s with c := { s.c with
      lcCtl := .a2, regs := { s.c.regs with pba := v }, trace := s.c.trace ++ [.mmioW .pba v] } } := by
  have hp : pbaValue s.c.cfg s.pool = some v := (if_pos ht).trans hv
  simp only [agentStep, lcStep, hc, hp, lcJump, mmioWrite, State.modC, State.emit, regWrite, devAfterWrite]

theorem regWrite_imc_all (l : EerdLayout) (g : NicRegs) : regWrite l g .imc 0xFFFFFFFF#32 = { g with hwIms := 0#32 } :=
  congrArg (fun x => { g with hwIms := x }) (and_not_allOnes _)

/-- Lines A2-A4 (R331, R332). -/
theorem turn_a2 (hc : s.c.lcCtl = .a2) : turn .lc d 3 s = { s with c := { s.c with
    lcCtl := .rmwR .a5
    regs := { s.c.regs with hwIms := 0#32, rctl := 0#32, tctl := 0#32 }
    trace := s.c.trace ++ [.mmioW .imc 0xFFFFFFFF#32, .mmioW .rctl 0#32, .mmioW .tctl 0#32] } } := by
  have h2 : agentStep .lc d s = .go (lcJump .a3 (mmioWrite s .imc 0xFFFFFFFF#32)) := by
    simp only [agentStep, lcStep, hc]
  rw [turn_go h2, turn_go rfl, turn_go rfl, turn]
  simp only [lcJump, mmioWrite, State.modC, State.emit, regWrite_imc_all]
  simp only [regWrite, devAfterWrite, List.append_assoc, List.cons_append, List.nil_append]

theorem agentStep_b0 (hc : s.c.lcCtl = .b0) :
    agentStep .lc d s = .go { s with c := { s.c with lc := .eepromLoading, lcCtl := .b1 0 .h1 } } := by
  simp only [agentStep, lcStep, hc, State.modC]

theorem agentStep_c5 (hc : s.c.lcCtl = .c5) :
    agentStep .lc d s = .go { s with c := { s.c with lc := .configured, lcCtl := .i1 } } := by
  simp only [agentStep, lcStep, hc, State.modC]

/-- Line D3 (R511). -/
theorem agentStep_d3 (hc : s.c.lcCtl = .d3) : agentStep .lc d s = .go { s with c := { s.c with
    rxw := { s.c.rxw with ctl := .w1 .m1 }, txw := .t1 .m1, lnk := .l1 .h1, lcCtl := .d4 } } := by
  simp only [agentStep, lcStep, hc, startWorkers, State.modC]

/-- Settles O57: each line from its own lemma. -/
theorem attachLinesSetRegistersAndStartWorkers : Obligations.AttachLinesSetRegistersAndStartWorkers := by
  unfold Obligations.AttachLinesSetRegistersAndStartWorkers
  refine fun s d => ⟨fun v => agentStep_a1, turn_a2, fun v hc hv => ?_, agentStep_b0, agentStep_c5,
    fun hc => ⟨agentStep_d3 hc, ?_⟩⟩
  · subst hv
    rw [turn_rmw hc, turn]
    rfl
  · rw [turn_go (agentStep_d3 hc), turn_go rfl, turn]
    rfl

end Sys2Proof.Machine
end

section
/-! SUPPORT. A bounded poll that never succeeds (R323, R335, R351), and SHUTDOWN line by line (R377) (O50, O23). -/

namespace Sys2Proof.Machine

variable {s : State} {d i k : Nat} {p : PollId} {w : Rmw} {r : FaultRec}

/-! ## A poll that never succeeds -/

/-- The line of `LC` after `k` lines of a poll with ceiling `m`: read, delay, read, and after read `m` the failure. -/
def stuckLine (p : PollId) (m k : Nat) : LcCtl :=
  if k + 1 = 2 * m then p.fail else if k % 2 = 0 then .pollR p (k / 2 + 1) else .pollD p (k / 2 + 1)

/-- `k` lines into a poll whose register does not change: the reads made are in the trace. -/
def pollStuck (s : State) (p : PollId) (k : Nat) : State :=
  { s with c := { s.c with
      lcCtl := stuckLine p (p.ceil s.c.cfg) k
      trace := s.c.trace ++ List.replicate ((k + 1) / 2) (.mmioR p.reg (regRead s.c.regs p.reg)) } }

/-- A read without effect adds itself to the trace. -/
theorem lcJump_read_pollStuck (hp : p ≠ .a10) {x : LcCtl} (he : k % 2 = 0)
    (hx : x = stuckLine p (p.ceil s.c.cfg) (k + 1)) :
    lcJump x (mmioRead (pollStuck s p k) p.reg).2 = pollStuck s p (k + 1) := by
  rw [hx, mmioRead_poll, if_neg hp]
  simp only [pollStuck, lcJump, State.modC, List.append_assoc, ← List.replicate_succ',
    show (k + 1 + 1) / 2 = (k + 1) / 2 + 1 by omega]

theorem turn_pollStuck_line (hp : p ≠ .a10) (hf : p.cond (regRead s.c.regs p.reg) = false)
    (hk : k + 1 < 2 * p.ceil s.c.cfg) (n : Nat) :
    turn .lc d (n + 1) (pollStuck s p k) = turn .lc d n (pollStuck s p (k + 1)) := by
  have hcond : p.cond (regRead (pollStuck s p k).c.regs p.reg) = false := hf
  have hceil : p.ceil (pollStuck s p k).c.cfg = p.ceil s.c.cfg := rfl
  have hline : (pollStuck s p k).c.lcCtl = if k % 2 = 0 then .pollR p (k / 2 + 1) else .pollD p (k / 2 + 1) :=
    if_neg (by omega)
  by_cases he : k % 2 = 0
  · rw [if_pos he] at hline
    rw [turn_go (agentStep_pollR hline)]
    by_cases hlast : k + 2 = 2 * p.ceil s.c.cfg
    · rw [pollStep_fails hcond (by omega), lcJump_read_pollStuck hp he (if_pos hlast).symm]
    · rw [pollStep_continues hcond (by omega), lcJump_read_pollStuck hp he]
      rw [stuckLine, if_neg hlast, if_neg (by omega), show (k + 1) / 2 = k / 2 by omega]
  · rw [if_neg he] at hline
    rw [turn_pollD hline]
    have hnext : stuckLine p (p.ceil s.c.cfg) (k + 1) = .pollR p (k / 2 + 1 + 1) := by
      rw [stuckLine, if_neg (by omega), if_pos (by omega), show (k + 1) / 2 = k / 2 + 1 by omega]
    simp only [pollStuck, hnext, lcJump, State.modC, show (k + 1 + 1) / 2 = (k + 1) / 2 by omega]

theorem turn_pollStuck (hp : p ≠ .a10) (hc : s.c.lcCtl = .pollR p 1) (hf : p.cond (regRead s.c.regs p.reg) = false)
    (hk : k < 2 * p.ceil s.c.cfg) (n : Nat) : turn .lc d (n + k) s = turn .lc d n (pollStuck s p k) := by
  have hfirst : pollStuck s p 0 = s := by
    simp only [pollStuck, stuckLine, if_neg (show ¬ 0 + 1 = 2 * p.ceil s.c.cfg by omega), if_pos, ← hc]
    simp
  have h := turn_loop (F := pollStuck s p) (m := 1) (K := k) (d := d) (a := .lc)
    (fun j hj n => turn_pollStuck_line hp hf (by omega) n) n
  rwa [hfirst, Nat.one_mul] at h

/-- A reset request and `k` lines of the poll behind it, its register never showing the bit clear. -/
theorem turn_request_stuck (hc : s.c.lcCtl = .rmwR w) (hw : w.next = .pollR p 1) (hp : p ≠ .a10)
    (hf : p.cond (regRead (w.apply s.c.regs) p.reg) = false) (hk : k < 2 * p.ceil s.c.cfg) (n : Nat) :
    turn .lc d (n + k + 2) s = turn .lc d n (pollStuck (rmwDone s w) p k) :=
  (turn_rmw hc _).trans (turn_pollStuck (s := rmwDone s w) hp hw hf hk n)

/-- Up to the last read neither `lc` nor the fault record changes. -/
theorem turn_request_keeps (hc : s.c.lcCtl = .rmwR w) (hw : w.next = .pollR p 1) (hp : p ≠ .a10)
    (hf : p.cond (regRead (w.apply s.c.regs) p.reg) = false) (hn : n < 2 * p.ceil s.c.cfg + 2) :
    (turn .lc d n s).c.lc = s.c.lc ∧ (turn .lc d n s).c.fault = s.c.fault := by
  match n with
  | 0 => exact ⟨rfl, rfl⟩
  | 1 =>
    rw [turn_go (agentStep_rmwR hc)]
    exact ⟨rfl, rfl⟩
  | k + 2 =>
    have h := turn_request_stuck (d := d) hc hw hp hf (k := k) (by omega) 0
    rw [Nat.zero_add] at h
    rw [h]
    exact ⟨rfl, rfl⟩

/-- At the ceiling of reads the poll's failure line is reached. -/
theorem turn_request_fails (hc : s.c.lcCtl = .rmwR w) (hw : w.next = .pollR p 1) (hp : p ≠ .a10)
    (hf : p.cond (regRead (w.apply s.c.regs) p.reg) = false) {m : Nat} (hm : p.ceil s.c.cfg = m) (hpos : 1 ≤ m)
    (n : Nat) : turn .lc d (n + (2 * m + 1)) s = turn .lc d n { rmwDone s w with c := { (rmwDone s w).c with
      lcCtl := p.fail
      trace := (rmwDone s w).c.trace ++ List.replicate m (.mmioR p.reg (regRead (w.apply s.c.regs) p.reg)) } } := by
  subst hm
  have h := turn_request_stuck (d := d) hc hw hp hf (k := 2 * p.ceil s.c.cfg - 1) (by omega) n
  rw [show n + (2 * p.ceil s.c.cfg + 1) = n + (2 * p.ceil s.c.cfg - 1) + 2 by omega, h]
  have hceil : p.ceil (rmwDone s w).c.cfg = p.ceil s.c.cfg := rfl
  have hlast : 2 * p.ceil s.c.cfg - 1 + 1 = 2 * p.ceil s.c.cfg := by omega
  have hreads : 2 * p.ceil s.c.cfg / 2 = p.ceil s.c.cfg := by omega
  simp only [pollStuck, stuckLine, hceil, hlast, hreads, if_true]
  rfl

/-- A bit that a read-modify-write has just set reads 1. -/
theorem hasBits_or_twoPow (v : Word) (i : Fin 32) : hasBits (v ||| BitVec.twoPow 32 i) (BitVec.twoPow 32 i) = true := by
  rw [hasBits_twoPow, BitVec.getLsbD_or, BitVec.getLsbD_twoPow]
  simp

/-- With no reset completing, RST reads 1 behind its request. -/
theorem rst_stays (v : Word) : (!hasBits (v ||| ctrlRst) ctrlRst) = false := congrArg not (hasBits_or_twoPow v 26)

theorem eeRst_stays (v : Word) : (!hasBits (v ||| ctrlExtEeRst) ctrlExtEeRst) = false :=
  congrArg not (hasBits_or_twoPow v 13)

/-- Settles O50: the request, the reads up to the ceiling, and the fatal outcome behind them. -/
theorem resetTimeoutComesAfterExactlyTheCeiling : Obligations.ResetTimeoutComesAfterExactlyTheCeiling := by
  unfold Obligations.ResetTimeoutComesAfterExactlyTheCeiling
  refine ⟨fun s d v hc hv => ⟨fun n hn => ?_, ?_⟩, fun s d n v hc hv hn hpos => ⟨fun k hk => ?_, ?_⟩⟩
  · exact turn_request_keeps hc rfl nofun (rst_stays _) (Nat.lt_succ_of_le hn)
  · have h := turn_request_fails (d := d) hc rfl nofun (rst_stays _) (p := .a6) (m := 1000) rfl (by decide) 1
    subst hv
    rw [h, turn_fatal rfl, turn]
    rfl
  · exact turn_request_keeps hc rfl nofun (eeRst_stays _) (p := .a9) (by rw [PollId.ceil, ← hn]; omega)
  · have h := turn_request_fails (d := d) hc rfl nofun (eeRst_stays _) (p := .a9) hn.symm hpos 1
    subst hv
    rw [show 2 * n + 2 = 1 + (2 * n + 1) by omega, h, turn_fatal rfl, turn]
    rfl

/-! ## SHUTDOWN (R377) -/

theorem exec_shutdown (hi : s.c.lcCtl = .idle) (hl : s.c.lc = .running) (hm : s.c.mlock = none) :
    exec .shutdown s = .next (startLc (s.modC fun c => { c with mlock := some .lc }) .shutdown .z2) := by
  have ha : acceptIdle s.c = .run := if_pos ⟨hl, hi⟩
  simp only [exec, execShutdown, ha, hm]

/-- After lines Z2-Z4: everything is masked and disabled. -/
def shutdownDisabled (s : State) : State :=
  { s with c := { s.c with
      im := 0#32
      lcCtl := .rmwR .z5
      regs := { s.c.regs with hwIms := 0#32, rctl := 0#32, tctl := 0#32 }
      trace := s.c.trace ++ [.mmioW .imc 0xFFFFFFFF#32, .mmioW .rctl 0#32, .mmioW .tctl 0#32] } }

theorem turn_z2 (hc : s.c.lcCtl = .z2) (n : Nat) : turn .lc d (n + 3) s = turn .lc d n (shutdownDisabled s) := by
  have h2 : agentStep .lc d s =
      .go (lcJump .z3 (mmioWrite (s.modC fun c => { c with im := 0#32 }) .imc 0xFFFFFFFF#32)) := by
    simp only [agentStep, lcStep, hc]
  rw [turn_go h2, turn_go rfl, turn_go rfl]
  simp only [lcJump, mmioWrite, State.modC, State.emit, regWrite_imc_all]
  simp only [shutdownDisabled, regWrite, devAfterWrite, List.append_assoc, List.cons_append, List.nil_append]

/-- Lines Z7 and Z8 after a reset that timed out. -/
theorem turn_z7_failed (hc : s.c.lcCtl = .z7 false) : turn .lc d 2 s = { s with c := { s.c with
    mlock := none
    lc := .faulted
    lcCtl := .idle
    lastError := some (hwTimeout .resetTimeout)
    fault := s.c.fault ++ [hwTimeout .resetTimeout]
    trace := s.c.trace ++ [.cmd s.c.lcCmd .hardwareTimeout] } } := by
  have h7 : agentStep .lc d s = .go (lcJump (.z8 false) (releaseM s)) := by simp only [agentStep, lcStep, hc]
  rw [turn_go h7, turn_go rfl, turn]
  rfl

/-- Lines Z7 and Z8 after a reset that completed. -/
theorem turn_z7_done (hc : s.c.lcCtl = .z7 true) : turn .lc d 2 s = { s with c := { s.c with
    mlock := none
    lc := .halted
    lcCtl := .idle
    trace := s.c.trace ++ [.cmd s.c.lcCmd .ok] } } := by
  have h7 : agentStep .lc d s = .go (lcJump (.z8 true) (releaseM s)) := by simp only [agentStep, lcStep, hc]
  rw [turn_go h7, turn_go rfl, turn]
  rfl

/-- A turn of `LC` from line Z2 on, the reset never completing. -/
theorem turn_shutdown_stuck (hc : s.c.lcCtl = .z2) : turn .lc d 2006 s = { s with c := { s.c with
    im := 0#32
    mlock := none
    lc := .faulted
    lcCtl := .idle
    lastError := some (hwTimeout .resetTimeout)
    fault := s.c.fault ++ [hwTimeout .resetTimeout]
    regs := { s.c.regs with hwIms := 0#32, rctl := 0#32, tctl := 0#32, ctrl := s.c.regs.ctrl ||| ctrlRst }
    trace := s.c.trace ++ [.mmioW .imc 0xFFFFFFFF#32, .mmioW .rctl 0#32, .mmioW .tctl 0#32,
        .mmioR .ctrl s.c.regs.ctrl, .mmioW .ctrl (s.c.regs.ctrl ||| ctrlRst)]
      ++ List.replicate 1000 (.mmioR .ctrl (s.c.regs.ctrl ||| ctrlRst)) ++ [.cmd s.c.lcCmd .hardwareTimeout] } } := by
  have hfail := turn_request_fails (d := d) (s := shutdownDisabled s) (w := .z5) (p := .z6) rfl rfl nofun (rst_stays _)
    (m := 1000) rfl (by decide) 2
  rw [turn_z2 hc 2003, hfail, turn_z7_failed rfl]
  simp only [shutdownDisabled, rmwDone, List.append_assoc, List.cons_append, List.nil_append]
  rfl

/-- Settles O23: lines Z2-Z4, the reset request of line Z5 and the reads of line Z6, then lines Z7 and Z8. -/
theorem shutdownHaltsOrTimesOut : Obligations.ShutdownHaltsOrTimesOut := by
  unfold Obligations.ShutdownHaltsOrTimesOut
  refine ⟨fun s d v hi hl hm hv => ⟨_, exec_shutdown hi hl hm, ?_⟩, fun s d i hc hr => ?_⟩
  · subst hv
    rw [turn_shutdown_stuck rfl]
    -- `LC` is idle and `mlock` free again, as they were
    simp only [startLc, State.modC, ← hi, ← hm]
    rfl
  · have hcond : PollId.cond .z6 (regRead s.c.regs PollId.z6.reg) = true := congrArg not (bne_eq_false_iff_eq.mpr hr)
    rw [turn_go (agentStep_pollR hc), pollStep_succeeds hcond, turn_z7_done rfl, mmioRead_poll]
    simp only [lcJump, State.modC, List.append_assoc]
    rfl

end Sys2Proof.Machine
end

section
/-! SUPPORT. The station address (R341, R345; O53), and the address filters, the multicast table and the flow-control
registers (R346-R348; O54). -/

namespace Sys2Proof.Machine

variable {s : State} {d k n : Nat}

/-! ## The checksum (line B2) and the address (lines E1, E2) -/

/-- A sum of words is the sum of their values, modulo 2^16. -/
theorem foldl_add_eq_ofNat_sum (xs : List Half) (a : Half) :
    xs.foldl (· + ·) a = a + BitVec.ofNat 16 ((xs.map BitVec.toNat).sum) := by
  induction xs generalizing a with
  | nil => simp
  | cons x xs ih =>
    rw [List.foldl_cons, ih, List.map_cons, List.sum_cons, BitVec.ofNat_add, BitVec.ofNat_toNat, BitVec.setWidth_eq,
      BitVec.add_assoc]

theorem eeSum_eq (ee : Vector Half 64) : eeSum ee = BitVec.ofNat 16 ((ee.toList.map BitVec.toNat).sum) := by
  rw [eeSum, foldl_add_eq_ofNat_sum, BitVec.zero_add]

theorem eeSumOk_iff {v : Half} : eeSumOk v = true ↔ v = 0#16 ∨ v = 0xBABA#16 := by
  rw [eeSumOk, Bool.or_eq_true, beq_iff_eq, beq_iff_eq]
  rfl

theorem agentStep_b2_accepted (hc : s.c.lcCtl = .b2) (h : eeSumOk (eeSum s.c.ee) = true) :
    agentStep .lc d s = .go { s with c := { s.c with
      ea := eaOf s.c.ee, lcCtl := if s.c.cfg.variant.lanidAdjust then .b3 else .c1 0 false } } := by
  simp only [agentStep, lcStep, hc, lcChecksum, h, if_true, State.modC]

theorem agentStep_b2_rejected (hc : s.c.lcCtl = .b2) (h : eeSumOk (eeSum s.c.ee) = false) :
    agentStep .lc d s = .go (fatal s { kind := .eepromChecksumError, info := .checksum (eeSum s.c.ee) }) := by
  simp only [agentStep, lcStep, hc, lcChecksum, h, Bool.false_eq_true, if_false]

/-- Byte `2i` of the address is the low byte of word `i`, byte `2i + 1` the high one. -/
theorem getElem_eaOf (ee : Vector Half 64) (i : Fin 3) :
    (eaOf ee)[2 * i.val] = (ee[i.val]).extractLsb' 0 8 ∧ (eaOf ee)[2 * i.val + 1] = (ee[i.val]).extractLsb' 8 8 := by
  have hlo (x : Half) : x.setWidth 8 = x.extractLsb' 0 8 := by
    rw [BitVec.setWidth_eq_extractLsb' (by decide)]
  have hhi (x : Half) : (x >>> 8).setWidth 8 = x.extractLsb' 8 8 := rfl
  match i with
  | 0 | 1 | 2 => exact ⟨hlo _, hhi _⟩

theorem agentStep_b3 (hc : s.c.lcCtl = .b3) : agentStep .lc d s = .go { s with c := { s.c with
    ea := eaAdjust s.c.ea s.c.regs.status, lcCtl := .c1 0 false
    trace := s.c.trace ++ [.mmioR .status s.c.regs.status] } } := by
  simp only [agentStep, lcStep, hc, mmioRead_value]
  rfl

/-- The sum of the last byte and LAN_ID loses its carry. -/
theorem eaAdjust_last (ea : Vector Byte 6) (v : Word) :
    (eaAdjust ea v)[5] = BitVec.ofNat 8 (ea[5].toNat + (v.extractLsb' 2 2).toNat) := by
  rw [eaAdjust, Vector.getElem_set_self, BitVec.ofNat_add, BitVec.ofNat_toNat, BitVec.setWidth_eq, BitVec.ofNat_toNat]
  rfl

theorem eaAdjust_other (ea : Vector Byte 6) (v : Word) (k : Fin 5) : (eaAdjust ea v)[k.val] = ea[k.val] :=
  Vector.getElem_set_ne _ _ (by omega)

/-- Settles O53: the two outcomes of line B2, and line E2. -/
theorem eepromSumDecidesAttach : Obligations.EepromSumDecidesAttach := by
  unfold Obligations.EepromSumDecidesAttach
  refine ⟨fun s d sum hc hsum => ?_, fun s d hc =>
    ⟨_, agentStep_b3 hc, eaAdjust_last _ _, eaAdjust_other _ _, rfl⟩⟩
  obtain rfl : eeSum s.c.ee = sum := (eeSum_eq _).trans hsum.symm
  refine ⟨fun h => ⟨_, agentStep_b2_accepted hc (eeSumOk_iff.mpr h), getElem_eaOf s.c.ee, rfl⟩, fun h0 hm => ?_⟩
  exact agentStep_b2_rejected hc (Bool.eq_false_iff.mpr fun h => (eeSumOk_iff.mp h).elim h0 hm)

/-! ## Address filters (lines C1, C2; R346) -/

/-- Line C1's writes of slot `n`. -/
def slotEvents (n : Nat) : List TraceEv := [.mmioW (.ral (Fin.ofNat 16 n)) 0#32, .mmioW (.rah (Fin.ofNat 16 n)) 0#32]

/-- Line C1 with the first `k` slots cleared. -/
def slotsCleared (s : State) (k : Nat) : State :=
  { s with c := { s.c with
      lcCtl := if k < 16 then .c1 k false else .c2 false
      regs := { s.c.regs with
        ral := mixed k (Vector.replicate 16 0#32) s.c.regs.ral, rah := mixed k (Vector.replicate 16 0#32) s.c.regs.rah }
      trace := s.c.trace ++ (List.range k).flatMap slotEvents } }

theorem slotsCleared_zero (hc : s.c.lcCtl = .c1 0 false) : slotsCleared s 0 = s := by
  simp [slotsCleared, mixed_zero, ← hc]

/-- One more entry of a table made 0. -/
theorem mixed_zeros_set {N : Nat} (x : Vector Word N) (hk : k < N) :
    (mixed k (Vector.replicate N 0#32) x).set k 0#32 = mixed (k + 1) (Vector.replicate N 0#32) x := by
  rw [← mixed_set hk, Vector.getElem_replicate]

theorem agentStep_c1_lo (hc : s.c.lcCtl = .c1 k false) :
    agentStep .lc d s = .go (lcJump (.c1 k true) (mmioWrite s (.ral (Fin.ofNat 16 k)) 0#32)) := by
  simp only [agentStep, lcStep, hc, Bool.false_eq_true, if_false]

theorem agentStep_c1_hi (hc : s.c.lcCtl = .c1 k true) : agentStep .lc d s =
    .go (lcJump (if k + 1 < 16 then .c1 (k + 1) false else .c2 false) (mmioWrite s (.rah (Fin.ofNat 16 k)) 0#32)) := by
  simp only [agentStep, lcStep, hc, if_true]
  rfl

theorem turn_c1_slot (hk : k < 16) (n : Nat) :
    turn .lc d (n + 2) (slotsCleared s k) = turn .lc d n (slotsCleared s (k + 1)) := by
  have hc : (slotsCleared s k).c.lcCtl = .c1 k false := if_pos hk
  have hk' : (Fin.ofNat 16 k).val = k := Nat.mod_eq_of_lt hk
  rw [turn_go (agentStep_c1_lo hc), turn_go (agentStep_c1_hi rfl)]
  simp only [slotsCleared, lcJump, mmioWrite, State.modC, State.emit, regWrite, devAfterWrite, hk',
    mixed_zeros_set _ hk, List.range_succ, List.flatMap_append, List.flatMap_singleton, slotEvents, List.append_assoc,
    List.cons_append, List.nil_append]

/-! ## The multicast table (line C3; R347) -/

/-- Line C3 with the first `k` entries cleared. -/
def mtaCleared (s : State) (k : Nat) : State :=
  { s with c := { s.c with
      lcCtl := if k < 128 then .c3 k else .c4 0
      regs := { s.c.regs with mta := mixed k (Vector.replicate 128 0#32) s.c.regs.mta }
      trace := s.c.trace ++ (List.range k).map fun n => .mmioW (.mta (Fin.ofNat 128 n)) 0#32 } }

theorem mtaCleared_zero (hc : s.c.lcCtl = .c3 0) : mtaCleared s 0 = s := by
  simp [mtaCleared, mixed_zero, ← hc]

theorem agentStep_c3 (hc : s.c.lcCtl = .c3 k) : agentStep .lc d s =
    .go (lcJump (if k + 1 < 128 then .c3 (k + 1) else .c4 0) (mmioWrite s (.mta (Fin.ofNat 128 k)) 0#32)) := by
  simp only [agentStep, lcStep, hc]
  rfl

theorem turn_c3_entry (hk : k < 128) (n : Nat) :
    turn .lc d (n + 1) (mtaCleared s k) = turn .lc d n (mtaCleared s (k + 1)) := by
  have hc : (mtaCleared s k).c.lcCtl = .c3 k := if_pos hk
  have hk' : (Fin.ofNat 128 k).val = k := Nat.mod_eq_of_lt hk
  rw [turn_go (agentStep_c3 hc)]
  simp only [mtaCleared, lcJump, mmioWrite, State.modC, State.emit, regWrite, devAfterWrite, hk', mixed_zeros_set _ hk,
    List.range_succ, List.map_append, List.map_cons, List.map_nil, List.append_assoc]

/-! ## The three parts together -/

/-- Line C2 (R346): slot 0. -/
theorem turn_c2 (hc : s.c.lcCtl = .c2 false) (n : Nat) : turn .lc d (n + 2) s = turn .lc d n { s with c := { s.c with
    lcCtl := .c3 0
    regs := { s.c.regs with ral := s.c.regs.ral.set 0 (ralOf s.c.ea), rah := s.c.regs.rah.set 0 (rahOf s.c.ea) }
    trace := s.c.trace ++ [.mmioW (.ral 0) (ralOf s.c.ea), .mmioW (.rah 0) (rahOf s.c.ea)] } } := by
  have hlo : agentStep .lc d s = .go (lcJump (.c2 true) (mmioWrite s (.ral 0) (ralOf s.c.ea))) := by
    simp only [agentStep, lcStep, hc, Bool.false_eq_true, if_false]
  rw [turn_go hlo, turn_go rfl]
  simp only [lcJump, mmioWrite, State.modC, State.emit, regWrite, devAfterWrite, List.append_assoc, List.cons_append,
    List.nil_append]
  rfl

/-- Line C4 (R348). -/
theorem turn_c4 (hc : s.c.lcCtl = .c4 0) : turn .lc d 6 s = { s with c := { s.c with
    lcCtl := .c5
    regs := { s.c.regs with
      fcal := fcalInit, fcah := fcahInit, fct := fctInit, fcttv := fcttvInit
      fcrtl := s.c.cfg.fcrtlInit, fcrth := s.c.cfg.fcrthInit }
    trace := s.c.trace ++ [.mmioW .fcal fcalInit, .mmioW .fcah fcahInit, .mmioW .fct fctInit, .mmioW .fcttv fcttvInit,
      .mmioW .fcrtl s.c.cfg.fcrtlInit, .mmioW .fcrth s.c.cfg.fcrthInit] } } := by
  have h0 : agentStep .lc d s = .go (lcJump (.c4 1) (mmioWrite s .fcal fcalInit)) := by
    simp only [agentStep, lcStep, hc, fcWrite, Nat.zero_lt_succ, if_true]
  rw [turn_go h0, turn_go rfl, turn_go rfl, turn_go rfl, turn_go rfl, turn_go rfl, turn]
  simp only [lcJump, mmioWrite, State.modC, State.emit, fcWrite, regWrite, devAfterWrite, List.append_assoc,
    List.cons_append, List.nil_append]
  rfl

/-- After lines C1-C4: slot 0 is the station's, the other slots and the multicast table are 0. -/
def filtersProgrammed (s : State) : State :=
  { s with c := { s.c with
      lcCtl := .c5
      regs := { s.c.regs with
        ral := (Vector.replicate 16 0#32).set 0 (ralOf s.c.ea), rah := (Vector.replicate 16 0#32).set 0 (rahOf s.c.ea)
        mta := Vector.replicate 128 0#32
        fcal := fcalInit, fcah := fcahInit, fct := fctInit, fcttv := fcttvInit
        fcrtl := s.c.cfg.fcrtlInit, fcrth := s.c.cfg.fcrthInit }
      trace := s.c.trace ++ (List.range 16).flatMap slotEvents
        ++ [.mmioW (.ral 0) (ralOf s.c.ea), .mmioW (.rah 0) (rahOf s.c.ea)]
        ++ (List.range 128).map (fun n => .mmioW (.mta (Fin.ofNat 128 n)) 0#32)
        ++ [.mmioW .fcal fcalInit, .mmioW .fcah fcahInit, .mmioW .fct fctInit, .mmioW .fcttv fcttvInit,
          .mmioW .fcrtl s.c.cfg.fcrtlInit, .mmioW .fcrth s.c.cfg.fcrthInit] } }

theorem turn_c1 (hc : s.c.lcCtl = .c1 0 false) : turn .lc d 168 s = filtersProgrammed s := by
  have hslots : turn .lc d 168 s = turn .lc d 136 (slotsCleared s 16) := by
    conv_lhs => rw [← slotsCleared_zero hc]
    exact turn_loop (m := 2) (fun k hk n => turn_c1_slot hk n) 136
  have hmta (u : State) (hu : u.c.lcCtl = .c3 0) : turn .lc d 134 u = turn .lc d 6 (mtaCleared u 128) := by
    conv_lhs => rw [← mtaCleared_zero hu]
    exact turn_loop (m := 1) (fun k hk n => turn_c3_entry hk n) 6
  rw [hslots, turn_c2 rfl 134, hmta _ rfl, turn_c4 rfl]
  simp only [filtersProgrammed, mtaCleared, slotsCleared, mixed_all]

/-- AV and the two last bytes of the address. -/
theorem rahOf_eq (ea : Vector Byte 6) : rahOf ea = (0x8000#16 ++ ea[5] ++ ea[4] : BitVec (16 + 8 + 8)) := by
  have hav : 0x80000000#32 = 0x8000#16 ++ 0#16 := rfl
  have hlow : (ea[5] ++ ea[4] : Half).setWidth 32 = 0#16 ++ (ea[5] ++ ea[4] : Half) :=
    BitVec.setWidth_eq_append (by decide)
  rw [rahOf, hav, hlow, BitVec.or_append, BitVec.or_zero, BitVec.zero_or, BitVec.append_assoc, BitVec.cast_eq]

theorem getElem_zeros_set (w : Word) {n : Fin 16} (hn : n ≠ 0) : ((Vector.replicate 16 0#32).set 0 w)[n] = 0#32 := by
  have h0 : 0 ≠ n.val := fun e => hn (Fin.ext e.symm)
  rw [Fin.getElem_fin, Vector.getElem_set_ne _ _ h0, Vector.getElem_replicate]

/-- Settles O54: lines C1-C4. -/
theorem filtersAndFlowControlAreProgrammed : Obligations.FiltersAndFlowControlAreProgrammed := by
  unfold Obligations.FiltersAndFlowControlAreProgrammed
  refine fun s d hc => ⟨_, turn_c1 hc, rfl, Vector.getElem_set_self _, ?_,
    fun n hn => ⟨getElem_zeros_set _ hn, getElem_zeros_set _ hn⟩, fun k => Vector.getElem_replicate _, rfl, rfl⟩
  exact (Vector.getElem_set_self _).trans (rahOf_eq _)

end Sys2Proof.Machine
end

section
/-! SUPPORT. The bounded handshake (R324) run by its two callers, EE_READ of line B1 (R325, R340) and PHY_READ of line
L1 (R326, R401) (O52). -/

namespace Sys2Proof.Machine

/-! ## The callers -/

/-- Who runs HANDSHAKE: line B1 of ATTACH for EEPROM word `w`, and line L1 of the link monitor. -/
inductive HsCaller where
  | eeprom (w : Nat)
  | phy

namespace HsCaller

def agent : HsCaller → AgentId
  | eeprom _ => .lc
  | phy => .lnk

/-- The line of HANDSHAKE the caller stands at. -/
def AtLine (x : HsCaller) (p : HsPc) (c : Ctlr) : Prop :=
  match x with
  | eeprom w => c.lcCtl = .b1 w p
  | phy => c.lnk = .l1 p

/-- The caller moved to another line of HANDSHAKE. -/
def goto (p : HsPc) (s : State) : HsCaller → State
  | eeprom w => lcJump (.b1 w p) s
  | phy => lnkJump (.l1 p) s

/-- The caller behind HANDSHAKE. -/
def leave (ok : Bool) (v : Word) (s : State) : HsCaller → State
  | eeprom w => lcEeDone w ok v s
  | phy => lnkJump (lnkAfterRead ok v) s

def reg : HsCaller → Reg
  | eeprom _ => .eerd
  | phy => .mdic

def request (c : Params) : HsCaller → Word
  | eeprom w => eerdRequest c.variant.eerdLayout w
  | phy => mdicReadReq c.phyAddr c.phyStatusReg

/-- The error bit; EERD has none. -/
def failed (v : Word) : HsCaller → Bool
  | eeprom _ => false
  | phy => hasBits v mdicE

/-- The complete bit. -/
def completed (c : Params) (v : Word) : HsCaller → Bool
  | eeprom _ => hasBits v (eerdDoneBit c.variant.eerdLayout)
  | phy => hasBits v mdicR

end HsCaller

variable {s u : State} {x : HsCaller} {d i n w : Nat} {v : Word} {p q : HsPc}

/-- A step of a caller at a line of HANDSHAKE is the routine's. -/
theorem agentStep_hs (h : x.AtLine p s.c) : agentStep x.agent d s = hsStep s x.reg (x.request s.c.cfg)
    (fun v => x.failed v) (fun v => x.completed s.c.cfg v) p (fun q t => x.goto q t) fun ok v t => x.leave ok v t := by
  cases x with
  | eeprom w =>
    have hc : s.c.lcCtl = .b1 w p := h
    simp only [agentStep, HsCaller.agent, lcStep, hc]
    rfl
  | phy =>
    have hc : s.c.lnk = .l1 p := h
    simp only [agentStep, HsCaller.agent, lnkStep, hc]
    rfl

theorem atLine_goto : x.AtLine q (x.goto q u).c := by cases x <;> rfl

theorem hs_goto_goto : x.goto p (x.goto q u) = x.goto p u := by cases x <;> rfl

theorem hs_leave_goto (ok : Bool) : x.leave ok v (x.goto q u) = x.leave ok v u := by
  cases x with
  | eeprom w => cases ok <;> rfl
  | phy => rfl

theorem hs_goto_cfg : (x.goto q u).c.cfg = u.c.cfg := by cases x <;> rfl

/-- EERD and MDIC have no read side effect. -/
theorem mmioRead_hs (s : State) (x : HsCaller) :
    mmioRead s x.reg = (regRead s.c.regs x.reg, s.emit (.mmioR x.reg (regRead s.c.regs x.reg))) := by cases x <;> rfl

theorem hs_goto_regs : (x.goto q u).c.regs = u.c.regs := by cases x <;> rfl

theorem hs_goto_emit (e : TraceEv) : (x.goto q u).emit e = x.goto q (u.emit e) := by cases x <;> rfl

/-- Line H1. -/
theorem agentStep_hs_request (h : x.AtLine .h1 s.c) :
    agentStep x.agent d s = .go (x.goto (.h3 1) (mmioWrite s x.reg (x.request s.c.cfg))) :=
  agentStep_hs h

/-- Line H7. -/
theorem agentStep_hs_delay : agentStep x.agent d (x.goto (.h7 i) u) = .go (x.goto (.h3 (i + 1)) u) := by
  rw [agentStep_hs atLine_goto]
  exact congrArg StepRes.go hs_goto_goto

/-! ## One read -/

/-- Lines H3-H6: the error bit, the complete bit, the ceiling. -/
theorem agentStep_hs_read (h : x.AtLine (.h3 i) s.c) (hv : v = regRead s.c.regs x.reg) : agentStep x.agent d s = .go
    (if x.failed v then x.leave false sentinel (s.emit (.mmioR x.reg v))
      else if x.completed s.c.cfg v then x.leave true v (s.emit (.mmioR x.reg v))
      else if i = 64 then x.leave false sentinel (s.emit (.mmioR x.reg v))
      else x.goto (.h7 i) (s.emit (.mmioR x.reg v))) := by
  subst hv
  rw [agentStep_hs h]
  simp only [hsStep, mmioRead_hs, hsCeil]
  split_ifs <;> rfl

/-- The complete bit of EERD (R123). -/
theorem hasBits_eerdDoneBit (l : EerdLayout) (v : Word) :
    hasBits v (eerdDoneBit l) = v.getLsbD (if l = .doneBit1Addr2 then 1 else 4) := by
  cases l with
  | doneBit1Addr2 => exact hasBits_twoPow v 1
  | doneBit4Addr8 => exact hasBits_twoPow v 4

/-- A read of MDIC by the link monitor. -/
theorem agentStep_l1_read (hc : s.c.lnk = .l1 (.h3 i)) (hv : v = s.c.regs.mdic) :
    agentStep .lnk d s = .go { s with c := { s.c with
      lnk := if v.getLsbD 30 then .l2
        else if v.getLsbD 28 then .l3 (v.setWidth 16)
        else if i = 64 then .l2 else .l1 (.h7 i)
      trace := s.c.trace ++ [.mmioR .mdic v] } } := by
  have hE : hasBits v mdicE = v.getLsbD 30 := hasBits_twoPow v 30
  have hR : hasBits v mdicR = v.getLsbD 28 := hasBits_twoPow v 28
  rw [show agentStep .lnk d s = _ from agentStep_hs_read (x := .phy) hc hv]
  simp only [HsCaller.failed, HsCaller.completed, HsCaller.leave, HsCaller.goto, HsCaller.reg, hE, hR]
  split_ifs <;> rfl

/-- A read of EERD by ATTACH that shows DONE: the word is stored. -/
theorem agentStep_b1_done (hc : s.c.lcCtl = .b1 w (.h3 i)) (hv : v = s.c.regs.eerd)
    (hd : hasBits v (eerdDoneBit s.c.cfg.variant.eerdLayout) = true) :
    agentStep .lc d s = .go { s with c := { s.c with
      ee := s.c.ee.set! w (eerdData v), lcCtl := lcAfterWord w, trace := s.c.trace ++ [.mmioR .eerd v] } } := by
  rw [show agentStep .lc d s = _ from agentStep_hs_read (x := .eeprom w) hc hv]
  simp only [HsCaller.failed, HsCaller.completed, hd, Bool.false_eq_true, if_false, if_true]
  rfl

/-- A read of EERD by ATTACH without DONE. -/
theorem agentStep_b1_notDone (hc : s.c.lcCtl = .b1 w (.h3 i)) (hv : v = s.c.regs.eerd)
    (hd : hasBits v (eerdDoneBit s.c.cfg.variant.eerdLayout) = false) :
    agentStep .lc d s = .go { s with c := { s.c with
      lcCtl := if i = 64 then .fatal (hwTimeout (.eepromReadTimeout w)) else .b1 w (.h7 i)
      trace := s.c.trace ++ [.mmioR .eerd v] } } := by
  rw [show agentStep .lc d s = _ from agentStep_hs_read (x := .eeprom w) hc hv]
  simp only [HsCaller.failed, HsCaller.completed, hd, Bool.false_eq_true, if_false]
  split_ifs <;> rfl

/-! ## A request the NIC never answers -/

theorem and_not_eq_self {m : Word} (h : v &&& m = 0#32) : v &&& ~~~m = v := by
  have hsplit : v &&& ~~~m ||| v &&& m = v := by
    ext j hj
    simp only [BitVec.getElem_or, BitVec.getElem_and, BitVec.getElem_not]
    cases v[j] <;> cases m[j] <;> rfl
  rwa [h, BitVec.or_zero] at hsplit

theorem hasBits_eq_false_iff {m : Word} : hasBits v m = false ↔ v &&& m = 0#32 := bne_eq_false_iff_eq

/-- A read request of MDIC: OP is 10, neither R nor E is set. -/
theorem mdicReadReq_bits (a r : BitVec 5) : mdicOp (mdicReadReq a r) = 2#2
    ∧ hasBits (mdicReadReq a r) mdicE = false ∧ hasBits (mdicReadReq a r) mdicR = false := by
  refine ⟨?_, (hasBits_twoPow _ 30).trans ?_, (hasBits_twoPow _ 28).trans ?_⟩
  · have hbelow (x : BitVec 5) {k : Nat} (hk : k + 5 ≤ 26) : (x.setWidth 32 <<< k).extractLsb' 26 2 = 0#2 := by
      apply BitVec.eq_of_getLsbD_eq
      intro i hi
      have hx : x.getLsbD (26 + i - k) = false := BitVec.getLsbD_of_ge _ _ (by omega)
      simp [hx]
    rw [mdicOp, mdicReadReq, BitVec.extractLsb'_or, BitVec.extractLsb'_or, hbelow a (by decide), hbelow r (by decide)]
    rfl
  · simp [mdicReadReq, mdicOpRead]
  · simp [mdicReadReq, mdicOpRead]

/-- A request of EERD: START is set, DONE is not. -/
theorem eerdRequest_bits (l : EerdLayout) (w : Nat) :
    hasBits (eerdRequest l w) eerdStart = true ∧ hasBits (eerdRequest l w) (eerdDoneBit l) = false := by
  rw [hasBits_eerdStart, hasBits_eerdDoneBit]
  cases l <;> simp [eerdRequest, eerdStart, eerdAddrLo]

/-- A request is stored as it is: it sets none of the bits its write clears (log 54). -/
theorem mmioWrite_mdicReadReq (s : State) (a r : BitVec 5) :
    mmioWrite s .mdic (mdicReadReq a r) = { s with c := { s.c with
    regs := { s.c.regs with mdic := mdicReadReq a r }
    dev := { s.c.dev with mdicPending := true }
    trace := s.c.trace ++ [.mmioW .mdic (mdicReadReq a r)] } } := by
  obtain ⟨hop, he, hr⟩ := mdicReadReq_bits a r
  have hkept : mdicReadReq a r &&& ~~~(mdicR ||| mdicE) = mdicReadReq a r := by
    refine and_not_eq_self ?_
    rw [BitVec.and_or_distrib_left, hasBits_eq_false_iff.mp he, hasBits_eq_false_iff.mp hr, BitVec.or_zero]
  have hread : mdicIsRead (mdicReadReq a r) = true := beq_iff_eq.mpr hop
  simp only [mmioWrite, State.modC, State.emit, regWrite, devAfterWrite, hkept, hread, Bool.true_or]

theorem mmioWrite_eerdRequest {l : EerdLayout} (hl : s.c.cfg.variant.eerdLayout = l) (w : Nat) :
    mmioWrite s .eerd (eerdRequest l w) = { s with c := { s.c with
      regs := { s.c.regs with eerd := eerdRequest l w }
      dev := { s.c.dev with eerdPending := true }
      trace := s.c.trace ++ [.mmioW .eerd (eerdRequest l w)] } } := by
  obtain ⟨hs, hd⟩ := eerdRequest_bits l w
  have hkept : eerdRequest l w &&& ~~~eerdDoneBit l = eerdRequest l w :=
    and_not_eq_self (hasBits_eq_false_iff.mp hd)
  simp only [mmioWrite, State.modC, State.emit, regWrite, devAfterWrite, hl, hkept, hs]

/-- A request reads back without the error bit and without the complete bit. -/
theorem request_unanswered (s : State) (x : HsCaller) :
    regRead (mmioWrite s x.reg (x.request s.c.cfg)).c.regs x.reg = x.request s.c.cfg
      ∧ x.failed (x.request s.c.cfg) = false ∧ x.completed s.c.cfg (x.request s.c.cfg) = false := by
  cases x with
  | eeprom w =>
    exact ⟨congrArg (fun t => t.c.regs.eerd) (mmioWrite_eerdRequest rfl w), rfl, (eerdRequest_bits _ w).2⟩
  | phy => exact ⟨congrArg (fun t => t.c.regs.mdic) (mmioWrite_mdicReadReq s _ _), (mdicReadReq_bits _ _).2⟩

/-- The state with `k` reads of the caller's register in the trace. -/
def hsReads (x : HsCaller) (k : Nat) (s : State) : State :=
  { s with c := { s.c with trace := s.c.trace ++ List.replicate k (.mmioR x.reg (regRead s.c.regs x.reg)) } }

theorem hsReads_zero (x : HsCaller) (s : State) : hsReads x 0 s = s := by
  simp only [hsReads, List.replicate_zero, List.append_nil]

theorem hsReads_emit (x : HsCaller) (k : Nat) (s : State) :
    (hsReads x k s).emit (.mmioR x.reg (regRead s.c.regs x.reg)) = hsReads x (k + 1) s := by
  simp only [hsReads, State.emit, List.append_assoc, ← List.replicate_succ']

section
variable (hf : x.failed (regRead u.c.regs x.reg) = false) (hd : x.completed u.c.cfg (regRead u.c.regs x.reg) = false)
include hf hd

/-- Read `k + 1`, which shows neither bit. -/
theorem agentStep_hs_unanswered (k : Nat) : agentStep x.agent d (x.goto (.h3 (k + 1)) (hsReads x k u)) = .go
    (if k + 1 = 64 then x.leave false sentinel (hsReads x (k + 1) u)
      else x.goto (.h7 (k + 1)) (hsReads x (k + 1) u)) := by
  have hv : regRead u.c.regs x.reg = regRead (x.goto (.h3 (k + 1)) (hsReads x k u)).c.regs x.reg := by
    rw [hs_goto_regs]
    rfl
  have hd' : x.completed (x.goto (.h3 (k + 1)) (hsReads x k u)).c.cfg (regRead u.c.regs x.reg) = false := by
    rw [hs_goto_cfg]
    exact hd
  rw [agentStep_hs_read atLine_goto hv, hf, hd', hs_goto_emit, hs_goto_goto, hs_leave_goto, hsReads_emit]
  rfl

/-- A read before the ceiling and the delay behind it. -/
theorem turn_hs_round {k : Nat} (hk : k < 63) (n : Nat) :
    turn x.agent d (n + 2) (x.goto (.h3 (k + 1)) (hsReads x k u)) =
      turn x.agent d n (x.goto (.h3 (k + 1 + 1)) (hsReads x (k + 1) u)) := by
  have hread := agentStep_hs_unanswered (d := d) hf hd k
  rw [if_neg (by omega)] at hread
  rw [turn_go hread, turn_go agentStep_hs_delay]

/-- 64 reads and the failure. -/
theorem turn_hs_reads (n : Nat) :
    turn x.agent d (n + 127) (x.goto (.h3 1) u) = turn x.agent d n (x.leave false sentinel (hsReads x 64 u)) := by
  have hloop := turn_loop (F := fun k => x.goto (.h3 (k + 1)) (hsReads x k u))
    (fun k hk n => turn_hs_round (d := d) hf hd hk n) (n + 1)
  have hlast := agentStep_hs_unanswered (d := d) hf hd 63
  rw [if_pos rfl] at hlast
  rw [hsReads_zero] at hloop
  rw [show n + 127 = n + 1 + 2 * 63 by omega, hloop, turn_go hlast]

end

/-- The request, 64 reads that show neither bit, and the failure. -/
theorem turn_hs_unanswered (h : x.AtLine .h1 s.c) (n : Nat) : turn x.agent d (n + 128) s =
    turn x.agent d n (x.leave false sentinel (hsReads x 64 (mmioWrite s x.reg (x.request s.c.cfg)))) := by
  obtain ⟨hreads, hf, hd⟩ := request_unanswered s x
  rw [← hreads] at hf hd
  rw [turn_go (agentStep_hs_request h), turn_hs_reads hf hd]

/-! ## The two callers left without an answer -/

/-- Line L2: the cycle is skipped. -/
theorem turn_l2 (hc : s.c.lnk = .l2) (n : Nat) :
    turn .lnk d (n + 1) s = turn .lnk d n (lnkJump .l5a (s.emit .linkSkip)) :=
  turn_go (by simp only [agentStep, lnkStep, hc])

/-- The link monitor skips the cycle. -/
theorem turn_l1_unanswered (hc : s.c.lnk = .l1 .h1) {req : Word}
    (hreq : req = mdicReadReq s.c.cfg.phyAddr s.c.cfg.phyStatusReg) :
    turn .lnk d 129 s = { s with c := { s.c with
      lnk := .l5a
      regs := { s.c.regs with mdic := req }
      dev := { s.c.dev with mdicPending := true }
      trace := s.c.trace ++ [.mmioW .mdic req] ++ List.replicate 64 (.mmioR .mdic req) ++ [.linkSkip] } } := by
  have hfail : turn .lnk d 129 s = _ := turn_hs_unanswered (x := .phy) hc 1
  have hwrite : mmioWrite s HsCaller.phy.reg (HsCaller.phy.request s.c.cfg) = _ := mmioWrite_mdicReadReq s _ _
  subst hreq
  rw [hfail, hwrite, HsCaller.agent, turn_l2 rfl, turn]
  simp only [HsCaller.leave, HsCaller.reg, hsReads, lnkJump, State.modC, State.emit, regRead]

/-- ATTACH fails at its word. -/
theorem turn_b1_unanswered (hc : s.c.lcCtl = .b1 w .h1) {req : Word}
    (hreq : req = eerdRequest s.c.cfg.variant.eerdLayout w) :
    turn .lc d 129 s = { s with c := { s.c with
      lc := .faulted
      lcCtl := .idle
      lastError := some (hwTimeout (.eepromReadTimeout w))
      fault := s.c.fault ++ [hwTimeout (.eepromReadTimeout w)]
      regs := { s.c.regs with eerd := req }
      dev := { s.c.dev with eerdPending := true }
      trace := s.c.trace ++ [.mmioW .eerd req] ++ List.replicate 64 (.mmioR .eerd req)
        ++ [.cmd s.c.lcCmd .hardwareTimeout] } } := by
  have hfail : turn .lc d 129 s = _ := turn_hs_unanswered (x := .eeprom w) hc 1
  have hwrite : mmioWrite s (HsCaller.eeprom w).reg ((HsCaller.eeprom w).request s.c.cfg) = _ :=
    mmioWrite_eerdRequest rfl w
  subst hreq
  rw [hfail, hwrite, HsCaller.agent, turn_fatal rfl, turn]
  rfl

/-- After word 63 the checksum, otherwise the next word. -/
theorem lcAfterWord_eq (w : Fin 64) : lcAfterWord w = if w.val = 63 then .b2 else .b1 (w.val + 1) .h1 := by
  by_cases hw : w.val = 63
  · rw [if_pos hw, lcAfterWord, eeWords, if_neg (by omega)]
  · rw [if_neg hw, lcAfterWord, eeWords, if_pos (by omega)]

/-- Settles O52: a read of each register, and a request of each that the NIC never answers. -/
theorem handshakeEndsWithinSixtyFourReads : Obligations.HandshakeEndsWithinSixtyFourReads := by
  unfold Obligations.HandshakeEndsWithinSixtyFourReads
  refine ⟨fun s d i v => agentStep_l1_read, fun s d i w v done hc hv hd => ?_,
    fun s d req hc hreq => turn_l1_unanswered hc hreq, fun s d w req hc hw hreq => ?_⟩
  · rw [← hasBits_eerdDoneBit] at hd
    cases done with
    | true =>
      refine ⟨_, agentStep_b1_done hc hv hd.symm, fun j => ?_, ?_⟩
      · have hword : w.val = j.val ↔ true = true ∧ j = w :=
          ⟨fun k => ⟨rfl, Fin.ext k.symm⟩, fun k => congrArg Fin.val k.2.symm⟩
        exact (Vector.getElem_set! j.isLt).trans (if_congr hword rfl rfl)
      · rw [lcAfterWord_eq]
        rfl
    | false =>
      rw [agentStep_b1_notDone hc hv hd.symm]
      exact ⟨_, rfl, fun j => (if_neg fun k => Bool.false_ne_true k.1).symm, rfl⟩
  · refine turn_b1_unanswered hc (hreq.trans ?_)
    cases hl : s.c.cfg.variant.eerdLayout <;> rfl

end Sys2Proof.Machine
end

section
/-! SUPPORT. The control commands: the answers of R372's NotReady entries (O18), SET_PROMISC (R379, O20) and SET_MCAST
(R380, O21). -/

namespace Sys2Proof.Machine

variable {s : State} {c : Ctlr} {on m : Bool} {a : BitVec 48} {d : Nat}

/-! ## The NotReady entries of the acceptance table (R372) -/

theorem acceptAttach_notReady (h : ¬ (c.lc = .poweredUnknown ∧ c.lcCtl = .idle)) : acceptAttach c = .notReady := if_neg h

theorem acceptTx_notReady (h : c.lc ≠ .running) : acceptTx c = .notReady := if_neg h

theorem acceptIdle_notReady (h : ¬ (c.lc = .running ∧ c.lcCtl = .idle)) : acceptIdle c = .notReady := if_neg h

theorem acceptDump_notReady (h : ¬ ((c.lc = .running ∨ c.lc = .halted) ∧ c.lcCtl = .idle)) : acceptDump c = .notReady :=
  if_neg h

theorem acceptSet_notReady (h : ¬ ((c.lc = .poweredUnknown ∨ c.lc = .running) ∧ c.lcCtl = .idle)) :
    acceptSet c = .notReady := by
  unfold acceptSet
  split
  case isFalse => rfl
  case isTrue hi =>
    split
    case h_1 hl => exact absurd ⟨.inl hl, hi⟩ h
    case h_2 hl => exact absurd ⟨.inr hl, hi⟩ h
    case h_3 => rfl

/-- Settles O18: each command's row of the table says NotReady, and the row's answer is the only effect. A tunable's value
is tested before its row is looked up (R371). -/
theorem commandsOutsideTheirStatesAreNotReady : Obligations.CommandsOutsideTheirStatesAreNotReady := by
  refine fun s => ⟨fun h => ?_, fun h => ?_, fun h => ⟨?_, fun m a => ?_⟩,
    fun h => ⟨fun on => ?_, fun v hv => ⟨?_, ?_⟩⟩, fun h => ?_⟩
  · simp only [exec, execAttach, acceptAttach_notReady h]
    rfl
  · simp only [exec, execTxRequest, acceptTx_notReady h]
    rfl
  · simp only [exec, execShutdown, acceptIdle_notReady h]
    rfl
  · simp only [exec, execSetMcast, acceptIdle_notReady h]
    rfl
  · simp only [exec, execSetPromisc, acceptSet_notReady h]
    rfl
  · simp only [exec, execSetRdtr, tunableOk_eq_true hv, acceptSet_notReady h]
    rfl
  · simp only [exec, execSetRadv, tunableOk_eq_true hv, acceptSet_notReady h]
    rfl
  · simp only [exec, execDump, acceptDump_notReady h]
    rfl

/-! ## SET_PROMISC (R379) -/

theorem exec_setPromisc_poweredUnknown (hi : s.c.lcCtl = .idle) (hl : s.c.lc = .poweredUnknown) :
    exec (.setPromisc on) s = .next (replyCmd (s.modC fun c => { c with promisc := on }) (.setPromisc on) .ok) := by
  simp only [exec, execSetPromisc, acceptSet_eq_store hi hl]

theorem exec_setPromisc_running (hi : s.c.lcCtl = .idle) (hl : s.c.lc = .running) : exec (.setPromisc on) s =
    .next (startLc (s.modC fun c => { c with promisc := on }) (.setPromisc on) .promiscR) := by
  simp only [exec, execSetPromisc, acceptSet_eq_run hi hl]

/-- UPE and MPE are bits 3 and 4 (R127). -/
theorem promiscValue_eq (on : Bool) (v : Word) :
    promiscValue on v = if on then v ||| 0x00000018#32 else v &&& 0xFFFFFFE7#32 := rfl

theorem agentStep_promiscR (hc : s.c.lcCtl = .promiscR) : agentStep .lc d s =
    .go (lcJump (.promiscW (promiscValue s.c.promisc s.c.regs.rctl)) (s.emit (.mmioR .rctl s.c.regs.rctl))) := by
  simp only [agentStep, lcStep, hc]
  rfl

theorem agentStep_promiscW {v : Word} (hc : s.c.lcCtl = .promiscW v) :
    agentStep .lc d s = .go (finishLc (mmioWrite s .rctl v) .ok) := by
  simp only [agentStep, lcStep, hc]

/-- Line S2: RCTL is read and written back, and OK is answered. -/
theorem turn_promisc {v : Word} (hc : s.c.lcCtl = .promiscR) (hv : v = promiscValue s.c.promisc s.c.regs.rctl) :
    turn .lc d 2 s = { s with c := { s.c with
      lcCtl := .idle
      regs := { s.c.regs with rctl := v }
      trace := s.c.trace ++ [.mmioR .rctl s.c.regs.rctl, .mmioW .rctl v, .cmd s.c.lcCmd .ok] } } := by
  subst hv
  rw [turn_go (agentStep_promiscR hc), turn_go (agentStep_promiscW rfl), turn]
  simp only [finishLc, mmioWrite, regWrite, devAfterWrite, lcJump, State.modC, State.emit, List.append_assoc,
    List.cons_append, List.nil_append]

/-- Settles O20: line S1 stores the flag; in Running the two steps of line S2 follow. -/
theorem promiscuousSetsOnlyItsBits : Obligations.PromiscuousSetsOnlyItsBits := by
  refine fun s on hi => ⟨fun hl => exec_setPromisc_poweredUnknown hi hl,
    fun hl d => ⟨_, exec_setPromisc_running hi hl, ?_⟩⟩
  rw [turn_promisc rfl rfl]
  simp only [startLc, State.modC, promiscValue_eq, ← hi]

/-! ## SET_MCAST (R380) -/

/-- Line M1: bits 3:0 of the hash are the high half of address byte 4, bits 11:4 are byte 5. -/
theorem mcastHash_eq (a : BitVec 48) : mcastHash a = a.extractLsb' 36 12 := by
  refine BitVec.eq_of_getLsbD_eq fun i hi => ?_
  have hmask : (4095#12)[i] = true := by
    rw [show 4095#12 = BitVec.allOnes 12 from rfl, BitVec.getElem_allOnes]
  by_cases h : i < 4
  · simp [mcastHash, mcastByte, hi, hmask, h, show 4 + i < 8 by omega, show 4 + i < 16 by omega,
      show 32 + (4 + i) = 36 + i by omega]
  · simp [mcastHash, mcastByte, hi, hmask, h, show ¬ 4 + i < 8 by omega, show i - 4 < 8 by omega,
      show 40 + (i - 4) = 36 + i by omega]

theorem mcastEntry_mcastHash (a : BitVec 48) : (mcastEntry (mcastHash a)).val = (a.extractLsb' 41 7).toNat := by
  rw [mcastHash_eq]
  simp only [mcastEntry, BitVec.toNat_ushiftRight, BitVec.extractLsb'_toNat, Nat.shiftRight_eq_div_pow]
  omega

/-- The place of the bit in its entry: the hash modulo 32. -/
theorem mcastHash_and_31 (a : BitVec 48) : (mcastHash a &&& 31#12).toNat = (a.extractLsb' 36 5).toNat := by
  rw [mcastHash_eq, BitVec.toNat_and, show (31#12).toNat = 2 ^ 5 - 1 from rfl, Nat.and_two_pow_sub_one_eq_mod]
  simp only [BitVec.extractLsb'_toNat]
  omega

/-- The value of line M3 has `member` at the hash bit and is the old one elsewhere. -/
theorem getLsbD_mcastValue (m : Bool) (a : BitVec 48) (v : Word) (j : Nat) :
    (mcastValue m (mcastHash a) v).getLsbD j = if j = (a.extractLsb' 36 5).toNat then m else v.getLsbD j := by
  have hlt : (a.extractLsb' 36 5).toNat < 32 := BitVec.isLt _
  have hbit : mcastBit (mcastHash a) = BitVec.twoPow 32 (a.extractLsb' 36 5).toNat := by
    rw [mcastBit, mcastHash_and_31, BitVec.twoPow]
  unfold mcastValue
  rw [hbit]
  generalize (a.extractLsb' 36 5).toNat = n at hlt ⊢
  by_cases hj : j = n
  · subst hj
    cases m <;> simp [hlt]
  · cases m with
    | true => simp [hj, Ne.symm hj]
    | false => simpa [hj, Ne.symm hj] using BitVec.lt_of_getLsbD

theorem exec_setMcast_running (hi : s.c.lcCtl = .idle) (hl : s.c.lc = .running) {k : Fin 128}
    (hk : k = mcastEntry (mcastHash a)) : exec (.setMcast m a) s =
      .next (startLc (s.emit (.mmioR (.mta k) s.c.regs.mta[k])) (.setMcast m a)
        (.mcastW (mcastValue m (mcastHash a) s.c.regs.mta[k]))) := by
  have ha : acceptIdle s.c = .run := if_pos ⟨hl, hi⟩
  subst hk
  simp only [exec, execSetMcast, ha]
  rfl

/-- Line M3: the entry of the command `LC` executes is written, and OK is answered. -/
theorem agentStep_mcastW {v : Word} (hc : s.c.lcCtl = .mcastW v) :
    agentStep .lc d s = .go (finishLc (mmioWrite s (.mta (lcMcastEntry s.c.lcCmd)) v) .ok) := by
  simp only [agentStep, lcStep, hc]

/-- Settles O21: the entry of the hash is read in the first step and written in the second. -/
theorem multicastChangesOneHashBit : Obligations.MulticastChangesOneHashBit := by
  intro s m a d k hi hl hk
  have hentry : k = mcastEntry (mcastHash a) := Fin.ext (hk.trans (mcastEntry_mcastHash a).symm)
  refine ⟨_, exec_setMcast_running hi hl hentry, mcastValue m (mcastHash a) s.c.regs.mta[k], ?_,
    getLsbD_mcastValue m a s.c.regs.mta[k]⟩
  rw [agentStep_mcastW rfl]
  simp only [finishLc, mmioWrite, regWrite, devAfterWrite, startLc, lcMcastEntry, ← hentry, State.modC, State.emit,
    List.append_assoc, List.cons_append, List.nil_append, ← hi]

end Sys2Proof.Machine
end

section
/-! SUPPORT. The link monitor: the decode of the PHY status and its count (R402, R403), and line L5 (R404); O58. -/

namespace Sys2Proof.Machine

variable {s : State} {v : Half} {up : Bool} {idx : Fin 4} {d k : Nat}

/-! ## The default decode (R402) -/

/-- Link-up is bit 10 of the status. -/
theorem phyDecode_standard_fst (k : Nat) (v : Half) : (phyDecode (.standard k) v).1 = v.getLsbD 10 := by
  rw [phyDecode, show 0x0400#16 = BitVec.twoPow 16 10 from rfl, BitVec.and_twoPow]
  cases v.getLsbD 10 <;> rfl

/-- The index is the status's bits 15:14 plus the variant's adjustment, at most 3. -/
theorem phyDecode_standard_snd (k : Nat) (v : Half) :
    (phyDecode (.standard k) v).2.val = min ((v.extractLsb' 14 2).toNat + k) 3 := by
  have hraw : (v >>> 14).toNat = (v.extractLsb' 14 2).toNat := by
    rw [BitVec.toNat_ushiftRight, BitVec.extractLsb'_toNat, Nat.mod_eq_of_lt]
    have hlt := v.isLt
    omega
  rw [← hraw]
  rfl

/-! ## Lines L3 and L4 (R402, R403) -/

theorem agentStep_lnk_l3 (hc : s.c.lnk = .l3 v) : agentStep .lnk d s = .go (lnkDecode s v) := by
  simp only [agentStep, lnkStep, hc]

theorem agentStep_lnk_l4 (hc : s.c.lnk = .l4 up idx) :
    agentStep .lnk d s = .go (lnkJump .l5a (lnkCount s up idx)) := by
  simp only [agentStep, lnkStep, hc]

/-- The histogram counts at the decoded index, whatever `up` is, and the event carries what was decoded. -/
theorem turn_lnk_decode (hc : s.c.lnk = .l3 v) (hd : phyDecode s.c.cfg.variant.phyDecode v = (up, idx)) :
    turn .lnk d 2 s = { s with c := { s.c with
      lnk := .l5a, linkUp := up, speedIdx := idx, speedHist := s.c.speedHist.set idx (s.c.speedHist[idx] + 1#32)
      trace := s.c.trace ++ [.linkUpdate up idx] } } := by
  have hl3 : lnkDecode s v = lnkJump (.l4 up idx) (s.modC fun c => { c with linkUp := up, speedIdx := idx }) := by
    simp only [lnkDecode, hd, lnkJump, State.modC]
  rw [turn_go (agentStep_lnk_l3 hc), hl3, turn_go (agentStep_lnk_l4 rfl), turn]
  simp only [lnkJump, lnkCount, State.modC, State.emit]

/-! ## Line L5 (R404) -/

theorem agentStep_l5a (hc : s.c.lnk = .l5a) : agentStep .lnk d s = acquireM s .lnk (lnkJump .l5b) := by
  simp only [agentStep, lnkStep, hc]

theorem agentStep_l5b (hc : s.c.lnk = .l5b) :
    agentStep .lnk d s = .go (lnkJump .l5c (s.modC fun c => { c with lim := 0#32 })) := by
  simp only [agentStep, lnkStep, hc]

theorem agentStep_l5c (hc : s.c.lnk = .l5c) : agentStep .lnk d s = .go (lnkJump (.l6 .m1) (releaseM s)) := by
  simp only [agentStep, lnkStep, hc]

/-- The lock is taken and given back, so that `lim` and the line are all that differs. -/
theorem turn_l5 (hc : s.c.lnk = .l5a) (hl : s.c.mlock = none) :
    turn .lnk d 3 s = { s with c := { s.c with lim := 0#32, lnk := .l6 .m1 } } := by
  rw [turn_go ((agentStep_l5a hc).trans (acquireM_of_free hl _ _)), turn_go (agentStep_l5b rfl),
    turn_go (agentStep_l5c rfl), turn]
  simp only [lnkJump, releaseM, State.modC, ← hl]

/-- Settles O58: lines L3 and L4 on the default decode, then line L5. -/
theorem linkStatusIsDecodedAndCounted : Obligations.LinkStatusIsDecodedAndCounted := by
  refine ⟨fun s d k v hc hk => ?_, fun s d => turn_l5⟩
  have hup := phyDecode_standard_fst k v
  have hidx := phyDecode_standard_snd k v
  rw [← hk] at hup hidx
  generalize hd : phyDecode s.c.cfg.variant.phyDecode v = r at hup hidx
  refine ⟨_, turn_lnk_decode hc hd, hup, hidx, fun j => ?_, rfl⟩
  by_cases hj : j = r.2
  · rw [if_pos hj, hj]
    exact Vector.getElem_set_self _
  · rw [if_neg hj]
    exact Vector.getElem_set_ne r.2.isLt j.isLt fun e => hj (Fin.ext e.symm)

end Sys2Proof.Machine
end

section
/-! SUPPORT. The device reset and the EEPROM reset: CTRL, CTRL_EXT and their completions (R421, R422, R423); O29. -/

namespace Sys2Proof.Machine

variable {s : State} {p : Params} {ee : Word} {img : NicRegs}

/-! ## The registers a device reset leaves (R421) -/

theorem and_not_and_self (x m : Word) : x &&& ~~~m &&& m = 0#32 := by
  rw [BitVec.and_assoc, BitVec.and_comm (~~~m), BitVec.and_not_self]
  exact BitVec.and_zero

/-- RST and SLU read 0. -/
theorem resetRegs_ctrl : (resetRegs p ee img).ctrl &&& 0x04000040#32 = 0#32 := and_not_and_self _ (ctrlRst ||| ctrlSlu)

/-- LAN_ID is the board's, whatever the environment chose for STATUS. -/
theorem resetRegs_status : (resetRegs p ee img).status.extractLsb' 2 2 = p.lanId := by
  have hfree : (img.status &&& ~~~statusLanMask).extractLsb' 2 2 = 0#2 := by
    rw [BitVec.extractLsb'_and, show (~~~statusLanMask).extractLsb' 2 2 = 0#2 by decide, BitVec.and_zero]
  have hid : ∀ l, (lanIdBits l).extractLsb' 2 2 = l := by decide
  rw [resetRegs, BitVec.extractLsb'_or, hfree, hid, BitVec.zero_or]

theorem resetRegs_stat (k : Fin 73) : (resetRegs p ee img).stat[k] = 0#32 := Vector.getElem_replicate k.isLt

/-- R and E read 0. -/
theorem resetRegs_mdic : (resetRegs p ee img).mdic &&& 0x50000000#32 = 0#32 := and_not_and_self _ (mdicR ||| mdicE)

/-- DONE reads 0, in the variant's layout. -/
theorem resetRegs_eerd : (resetRegs p ee img).eerd &&& eerdDoneBit p.variant.eerdLayout = 0#32 := and_not_and_self _ _

theorem resetRegs_ctrlExt : (resetRegs p ee img).ctrlExt &&& ctrlExtEeRst = ee &&& ctrlExtEeRst := by
  rw [resetRegs, BitVec.and_or_distrib_right, and_not_and_self, BitVec.zero_or]

/-- EE_RST reads 0, unless it is stuck and so keeps its value (log 28). -/
theorem resetRegs_heldEeRst (c : Ctlr) : (resetRegs p (heldEeRst c) img).ctrlExt &&& 0x00002000#32
    = if c.dev.stuckEeRst then c.regs.ctrlExt &&& 0x00002000#32 else 0#32 := by
  refine resetRegs_ctrlExt.trans ?_
  rw [heldEeRst]
  split
  · rw [BitVec.and_assoc, BitVec.and_self, ctrlExtEeRst]
  · exact BitVec.zero_and

/-! ## A device reset pending (R422) -/

theorem not_rxAllowed_of_resetPending (h : resetPending s.c.regs = true) : ¬ rxAllowed s.c.regs = true := fun k =>
  resetPending_iff.mp h (rxAllowed_iff.mp k).1.2

theorem not_txAllowed_of_resetPending (h : resetPending s.c.regs = true) : ¬ txAllowed s.c.regs = true := fun k =>
  resetPending_iff.mp h (txAllowed_iff.mp k).1.2

theorem nicTx_of_not_allowed (h : ¬ txAllowed s.c.regs = true) (ec lc tu : Bool) (rsv : BitVec 4) :
    nicTx s ec lc tu rsv = s := if_neg fun k => h (Bool.and_eq_true_iff.mp k).1

theorem nicResetDone_of_stuck (h : s.c.dev.stuckRst = true) (img : NicRegs) : nicResetDone s img = s := by
  rw [nicResetDone, h, Bool.not_true, Bool.and_false, if_neg Bool.false_ne_true]

theorem nicResetDone_of_pending (hp : resetPending s.c.regs = true) (hs : s.c.dev.stuckRst = false) (img : NicRegs) :
    nicResetDone s img = { s with c := { s.c with
      regs := resetRegs s.c.cfg (heldEeRst s.c) img
      dev := { s.c.dev with eerdPending := false, mdicPending := false } } } :=
  if_pos (by rw [hp, hs]; rfl)

/-! ## An EEPROM reset pending (R423) -/

theorem nicEeRstDone_of_pending (hp : hasBits s.c.regs.ctrlExt ctrlExtEeRst = true) (hs : s.c.dev.stuckEeRst = false) :
    nicEeRstDone s = { s with c := { s.c with
      regs := { s.c.regs with ctrlExt := s.c.regs.ctrlExt &&& ~~~ctrlExtEeRst } } } :=
  if_pos (by rw [hp, hs]; rfl)

/-- Settles O29: the two writes, what a pending device reset holds off, and the registers each completion leaves. -/
theorem deviceResetIsPendingUntilCompleted : Obligations.DeviceResetIsPendingUntilCompleted := by
  intro s v
  refine ⟨rfl, rfl, fun hp hs => nicEeRstDone_of_pending (hasBits_iff.mpr hp) hs, fun hp => ?_⟩
  have hp : resetPending s.c.regs = true := resetPending_iff.mpr hp
  refine ⟨nicRx_of_not_allowed (not_rxAllowed_of_resetPending hp), nicTx_of_not_allowed (not_txAllowed_of_resetPending hp),
    nicResetDone_of_stuck, fun hs img t ht => ?_⟩
  obtain rfl : _ = t := (nicResetDone_of_pending hp hs img).symm.trans ht
  exact ⟨resetRegs_ctrl, resetRegs_status, rfl, rfl, rfl, rfl, rfl, rfl, rfl, rfl, resetRegs_stat, resetRegs_mdic,
    resetRegs_eerd, resetRegs_heldEeRst s.c, rfl⟩

end Sys2Proof.Machine
end
